-- ==== Sys2Proof/Word.lean ====
section
/-! DEFINITION. The plain data every other file speaks of: bytes, packets, site instants, and the two-valued names
(port, feed, level) that the commands of the table carry as operands. -/

namespace Sys2Proof

/-- One byte of a feed, a frame or a packet. -/
abbrev Byte := BitVec 8

/-- A transport packet: 188 bytes, the sync byte first (12.1). The length is checked where a packet is framed
(R23) or cut out of a frame (R84), never assumed of other data. -/
abbrev Packet := List Byte

/-- A site instant written as the one value second × 10,000,000 + tick (00_scope, Terms: site time). -/
abbrev Time := Nat

/-- The two control ports (chapter 11). -/
inductive Port where
  | station
  | network
  deriving DecidableEq, Repr

/-- The other of the two ports. -/
def Port.other : Port → Port
  | .station => .network
  | .network => .station

/-- The two feed inputs (chapter 2). -/
inductive FeedId where
  | a
  | b
  deriving DecidableEq, Repr

/-- The other of the two feeds. -/
def FeedId.other : FeedId → FeedId
  | .a => .b
  | .b => .a

/-- The level of a contact line (chapter 10). -/
inductive Level where
  | low
  | high
  deriving DecidableEq, Repr

/-- The level turned over (R153, R150). -/
def Level.turn : Level → Level
  | .low => .high
  | .high => .low

/-- HIGH exactly when the condition holds. -/
def Level.ofBool : Bool → Level
  | true => .high
  | false => .low

end Sys2Proof
end

