-- ==== Sys2Proof/Syntax.lean ====
section
/-! DEFINITION. The commands of the block: one constructor per row of spec/opcode_table.json, in the table's order.

Operands. An event of the part's own inputs carries what the input carries: the feed and the byte taken, the line and
the level of its pin, the result of a conversion. An event that site time brings about names the record concerned and
carries nothing else, for the instant it waits for stands in the state. A command frame carries the port it came
over and its parameter bytes, as R175 lays them out, so that the length checks of R159 and of the owning rules are
made on the bytes themselves. The other transactions carry the number of whole bytes they moved. -/

namespace Sys2Proof

/-- The steps of the table of operations and events. Rows from IDENTIFY on, but for START_COMPLETE, RESET_COMPLETE,
BYTE_TAKEN and PIN_LEVEL_CHANGE, are the 59 commands of the catalogue (chapter 11). -/
inductive Instr where
  /-- POWER_ON (R173): Power-on puts every block into its power-on values and leaves the part in STANDBY. -/
  | powerOn
  /-- RESET_PIN (R173): Assertion of the reset pin has the effect of power-on, except that clip memory is kept and the slot being written is left unspecified. -/
  | resetPin
  /-- SECOND_MARK (R2): At a natural second mark the tick-in-second passes to 0, the site second increments or takes a pending label, the correction is cleared and holdover seconds are counted. -/
  | secondMark
  /-- PULSE (R4): A one-pulse-per-second arrival is measured against the count, and its error is dealt with by the rule of the current discipline state. -/
  | pulse
  /-- PULSE_WATCH_CHECK (R5): When the tick-in-second reaches 1,001, a clear pulse-watch flag declares a missed pulse, and the flag is then cleared. -/
  | pulseWatchCheck
  /-- BLINK_FALL (R154): When the tick-in-second reaches 5,000,000, BLINK outputs fall. -/
  | blinkFall
  /-- SYNC_CANDIDATE (R21): In SEARCH, a taken byte of 0x47 starts a candidate packet and the intake enters VERIFY. -/
  | syncCandidate (f : FeedId)
  /-- CHECK_BYTE (R22): In VERIFY, each 188th taken byte is checked for 0x47; the third confirmation enters LOCKED and a mismatch returns to SEARCH. -/
  | checkByte (f : FeedId) (b : Byte)
  /-- BAD_SYNC_BYTE (R23): In LOCKED, a packet whose sync byte is not 0x47 is counted and discarded, and the third consecutive one causes sync loss. -/
  | badSyncByte (f : FeedId) (b : Byte)
  /-- FEED_SILENCE (R20): When the silence time reaches 500,000 ticks in VERIFY or LOCKED, the feed returns to SEARCH, with sync loss cause SILENCE in LOCKED. -/
  | feedSilence (f : FeedId)
  /-- PACKET_ARRIVAL (R23): In LOCKED, the 188th byte of a packet with a good sync byte makes its arrival, which is counted and, in RUN, classified. -/
  | packetArrival (f : FeedId) (b : Byte)
  /-- DEADLINE_REACHED (R43): Site time reaches a held copy's deadline, and admission and skip are tested again. -/
  | deadlineReached
  /-- SCHEDULED_START (R72): At the scheduled start, the gate is checked and the group either becomes EMITTING or is dropped GATE_CLOSED. -/
  | scheduledStart
  /-- PACKET_START (R73): A group packet's offset is reached, and the packet passes through strip, splice, observe, send and release. -/
  | packetStart
  /-- NULL_START (R69): The start of a null in the gap is reached, and the null is emitted if its slot ends by the scheduled start. -/
  | nullStart
  /-- NULL_SLOT_END (R69): The slot end of the null in progress is reached, and the null index advances. -/
  | nullSlotEnd
  /-- GROUP_END_TICK (R72): The emitting group's end tick is reached, and the gap origin becomes that end tick. -/
  | groupEndTick
  /-- LANE_READ_DONE (R92): A lane's slot read completes, the packet is queued or counted bad, and the read position moves on. -/
  | laneReadDone (lane : Fin 4)
  /-- CLIP_WRITE_SLOT (R85): One slot of a CLIP WRITE is written, and the last slot completes the command with its response. -/
  | clipWriteSlot (p : Port)
  /-- CLIP_READ_SLOT (R86): One slot of a CLIP READ is read, and the last slot completes the command with its response. -/
  | clipReadSlot (p : Port)
  /-- TIME_TRIGGER_DUE (R107): Site time reaches a WAITING TIME break's instant in RUN, and the break's trigger fires. -/
  | timeTriggerDue (index : Fin 32)
  /-- SPLICE_OUT_EXPIRY (R109): Site time reaches X + 10,000,000 with the break still CUED, and it ends MISSED. -/
  | spliceOutExpiry (index : Fin 32)
  /-- WINDOW_START_REACHED (R126): A PENDING window becomes ACTIVE, raises WINDOW_ACTIVE and blocks or recalls breaks on its slots. -/
  | windowStartReached (w : Fin 8)
  /-- WINDOW_END_REACHED (R128): An ACTIVE window's end is reached, its record becomes FREE and WINDOW_ENDED is raised. -/
  | windowEndReached (w : Fin 8)
  /-- CONVERSION_COMPLETE (R135): A 2,500-period conversion completes, the channel's value is classified, and its state may change. -/
  | conversionComplete (value : BitVec 10)
  /-- RETURN_TIMER_EXPIRY (R141): The return timer expires and the controller changes over to MAIN. -/
  | returnTimerExpiry
  /-- LINE_EDGE_ACCEPTED (R152): A debounced input level has held for 100,000 periods, and the edge is latched and acted on by the line's function. -/
  | lineEdgeAccepted (line : Fin 12)
  /-- RESPONSE_READ (R160): A response-read transaction clocks out the pending response, which is read when select falls after its last byte. -/
  | responseRead (p : Port) (clocked : Nat)
  /-- EMPTY_TRANSACTION (R159): A transaction in which no whole byte is received is discarded with no effect. -/
  | emptyTransaction (p : Port)
  /-- FRAME_OVERRUN (R161): A command frame taken while the port has a long command in progress is discarded, and the overrun flag is set. -/
  | frameOverrun (p : Port) (received : Nat)
  /-- BAD_FRAME_LENGTH (R159): A command frame that is too short, too long, or whose parameter bytes disagree with its length is refused BAD_LENGTH. -/
  | badFrameLength (p : Port) (received : Nat)
  /-- UNKNOWN_COMMAND (R159): A command frame whose code names no command is refused UNKNOWN. -/
  | unknownCommand (p : Port) (code : Byte) (params : List Byte)
  /-- IDENTIFY (R170): Returns the vendor code, part code, revision, port and capacities. -/
  | identify (p : Port) (params : List Byte)
  /-- READ_STATUS (R170): Returns a one-instant summary of the part's state. -/
  | readStatus (p : Port) (params : List Byte)
  /-- CLEAR_STATISTICS (R170): Clears the feed, selector, launch and cue counters at one instant. -/
  | clearStatistics (p : Port) (params : List Byte)
  /-- START (R165): In STANDBY, enters STARTING, clears the store and the selector, and begins rebuilding the free list. -/
  | start (p : Port) (params : List Byte)
  /-- START_COMPLETE (R165): The rebuilding completes, the part enters RUN, START's response is made ready and START_COMPLETE is raised. -/
  | startComplete
  /-- STOP (R166): From STARTING or RUN, enters STANDBY, freeing all groups and ending CUED and ON_AIR breaks STOPPED. -/
  | stop (p : Port) (params : List Byte)
  /-- RESET (R167): The software reset puts every block into its software-RESET values, enters STANDBY and empties the event queues. -/
  | reset (p : Port) (params : List Byte)
  /-- RESET_COMPLETE (R167): The software reset completes once the other port's clip command has been abandoned, and its response is made ready. -/
  | resetComplete
  /-- TIME_LABEL (R3): Stores a pending label to be applied at the next second mark. -/
  | timeLabel (p : Port) (params : List Byte)
  /-- READ_TIME (R17): Returns the site second, the tick, the discipline state and the labelled flag from one instant. -/
  | readTime (p : Port) (params : List Byte)
  /-- READ_TIMEBASE (R18): Returns the whole timebase state from one instant. -/
  | readTimebase (p : Port) (params : List Byte)
  /-- SET_HOLDOVER_LIMIT (R13): Stores the holdover limit, clamped to 1..86,400. -/
  | setHoldoverLimit (p : Port) (params : List Byte)
  /-- SET_STREAM_IDS (R169): In STANDBY, stores the pacing identifier, the cue identifier and the strip flag. -/
  | setStreamIds (p : Port) (params : List Byte)
  /-- SET_FEED_MODE (R50): Stores the feed mode and preferred feed, freeing copies held on a newly excluded feed in RUN. -/
  | setFeedMode (p : Port) (params : List Byte)
  /-- READ_FEED (R36): Returns one feed's sync state, open copy and counters, and the shared pool figures. -/
  | readFeed (p : Port) (params : List Byte)
  /-- READ_SELECTOR (R54): Returns E, L, the feed flags, the launch queue and the selector counters. -/
  | readSelector (p : Port) (params : List Byte)
  /-- SET_ADVANCE (R76): Stores a pending site advance to take force at the next second mark. -/
  | setAdvance (p : Port) (params : List Byte)
  /-- SET_PACKET_PERIOD (R61): In STANDBY, stores the packet period Pi and Pf. -/
  | setPacketPeriod (p : Port) (params : List Byte)
  /-- SET_HOLD_LIMITS (R60): Stores Hmin and Hmax together, clamped, or refuses the pair when Hmin exceeds Hmax. -/
  | setHoldLimits (p : Port) (params : List Byte)
  /-- SET_SLIP_TOLERANCE (R77): Stores the slip tolerance, clamped to 0..10,000. -/
  | setSlipTolerance (p : Port) (params : List Byte)
  /-- READ_LAUNCH (R80): Returns the scheduler state, the timing parameters and the launch statistics. -/
  | readLaunch (p : Port) (params : List Byte)
  /-- CLIP_WRITE (R84): Checks and accepts a write of 1..16 packets into clip memory as the port's clip command in progress. -/
  | clipWrite (p : Port) (params : List Byte)
  /-- CLIP_READ (R86): Checks and accepts a read of 1..16 clip slots as the port's clip command in progress. -/
  | clipRead (p : Port) (params : List Byte)
  /-- PLAY_LIST_WRITE (R89): Replaces a play list with the segments carried, unless the list is in use. -/
  | playListWrite (p : Port) (params : List Byte)
  /-- PLAY_LIST_CLEAR (R90): Empties a play list, unless the list is in use. -/
  | playListClear (p : Port) (params : List Byte)
  /-- READ_PLAY_LIST (R90): Returns a play list's segments, total count and use. -/
  | readPlayList (p : Port) (params : List Byte)
  /-- READ_LANE (R95): Returns a lane's state, read position, active span, queue and counts. -/
  | readLane (p : Port) (params : List Byte)
  /-- DEFINE_SLOT (R97): Replaces a slot definition and settles its runtime record. -/
  | defineSlot (p : Port) (params : List Byte)
  /-- CLEAR_SLOT (R98): Clears a slot definition and its runtime record. -/
  | clearSlot (p : Port) (params : List Byte)
  /-- READ_SLOT (R120): Returns a slot's definition, runtime record, its break and the cue counts. -/
  | readSlot (p : Port) (params : List Byte)
  /-- CREATE_BREAK (R100): Fills the lowest FREE break record as LOADED, owned by the sending port. -/
  | createBreak (p : Port) (params : List Byte)
  /-- MODIFY_BREAK (R102): Replaces the fields of a LOADED break. -/
  | modifyBreak (p : Port) (params : List Byte)
  /-- ARM (R103): Takes a LOADED break to WAITING, firing a TIME trigger already due in RUN. -/
  | arm (p : Port) (params : List Byte)
  /-- DISARM (R103): Takes a WAITING break back to LOADED. -/
  | disarm (p : Port) (params : List Byte)
  /-- TRIGGER (R107): Fires a WAITING MANUAL break in RUN with X the command instant plus the lead. -/
  | trigger (p : Port) (params : List Byte)
  /-- CANCEL (R104): Ends a LOADED, WAITING or CUED break CANCELLED, or offers a CANCEL return to an ON_AIR break. -/
  | cancel (p : Port) (params : List Byte)
  /-- CLEAR_BREAK (R105): Takes an ENDED break to FREE. -/
  | clearBreak (p : Port) (params : List Byte)
  /-- READ_BREAK (R105): Returns every field of a break record. -/
  | readBreak (p : Port) (params : List Byte)
  /-- SET_WINDOW (R124): Sets a protect window PENDING or ACTIVE and acts at once on covered CUED and ON_AIR breaks. -/
  | setWindow (p : Port) (params : List Byte)
  /-- REMOVE_WINDOW (R129): Frees a standing window and raises WINDOW_ENDED with detail REMOVED. -/
  | removeWindow (p : Port) (params : List Byte)
  /-- READ_WINDOW (R130): Returns a window record and the breaks on its covered slots. -/
  | readWindow (p : Port) (params : List Byte)
  /-- SET_SCAN_RANGE (R133): Stores a pending scan range to take force at the next conversion completion. -/
  | setScanRange (p : Port) (params : List Byte)
  /-- SET_CHANNEL (R134): Replaces a channel's limits, persistence and role. -/
  | setChannel (p : Port) (params : List Byte)
  /-- READ_MONITOR (R147): Returns the scan state, all channel records and the health conditions. -/
  | readMonitor (p : Port) (params : List Byte)
  /-- READ_CAPTURE (R136): Returns and takes the capture record when one is held. -/
  | readCapture (p : Port) (params : List Byte)
  /-- CHANGEOVER (R143): Sets MANUAL mode and moves the position to a non-faulted target. -/
  | changeover (p : Port) (params : List Byte)
  /-- AUTO (R144): Sets AUTO mode and re-evaluates when hold is clear. -/
  | auto (p : Port) (params : List Byte)
  /-- SET_RETURN (R145): Stores the auto-return setting and the return delay, then re-evaluates. -/
  | setReturn (p : Port) (params : List Byte)
  /-- RELEASE_HOLD (R142): Empties the history, clears hold and re-evaluates in AUTO. -/
  | releaseHold (p : Port) (params : List Byte)
  /-- READ_CHANGEOVER (R147): Returns the changeover, timer, health and mute state. -/
  | readChangeover (p : Port) (params : List Byte)
  /-- MUTE (R139): Adds the sending port to the mute holders. -/
  | mute (p : Port) (params : List Byte)
  /-- UNMUTE (R139): Removes the sending port from the mute holders. -/
  | unmute (p : Port) (params : List Byte)
  /-- UNMUTE_ALL (R139): From the network port, empties the set of mute holders. -/
  | unmuteAll (p : Port) (params : List Byte)
  /-- CONFIGURE_LINE (R150): Stores a line's direction, invert, function, tally lane and commanded level, and applies them at once. -/
  | configureLine (p : Port) (params : List Byte)
  /-- SET_LINE_LEVEL (R155): Sets the commanded level of a LEVEL output. -/
  | setLineLevel (p : Port) (params : List Byte)
  /-- LOCK_LINE (R156): From the network port, locks a line's configuration and freezes an output's level. -/
  | lockLine (p : Port) (params : List Byte)
  /-- READ_LINES (R157): Returns all line records and clears the latched edges. -/
  | readLines (p : Port) (params : List Byte)
  /-- READ_EVENTS (R172): Removes and returns up to 16 of the oldest events with the lost-event count, which it then clears. -/
  | readEvents (p : Port) (params : List Byte)
  /-- SET_EVENT_MASK (R172): Sets the sending port's event mask. -/
  | setEventMask (p : Port) (params : List Byte)
  /-- LOCK_PARAMETERS (R168): From the network port, sets the parameter lock. -/
  | lockParameters (p : Port) (params : List Byte)
  /-- UNLOCK_PARAMETERS (R168): From the network port, clears the parameter lock. -/
  | unlockParameters (p : Port) (params : List Byte)
  /-- BYTE_TAKEN (R20): A feed byte taken with its qualifier asserted resets the feed's silence time and advances the byte position within the packet being framed. -/
  | byteTaken (f : FeedId) (b : Byte)
  /-- PIN_LEVEL_CHANGE (R151): An input contact line's pin changes level, beginning a pending change with stable count 1 or discarding the pending change when the pin returns to the accepted level. -/
  | pinLevelChange (line : Fin 12) (level : Level)
  deriving DecidableEq, Repr

end Sys2Proof
end

