-- ==== Sys2Proof/WellFormed.lean ====
section
/-! DEFINITION. Which terms of `Instr` stand for something that can reach the part. A command frame holds at most 3,072
parameter bytes (R159 refuses a longer one before it is a command of any row); a byte that a row names as wrong is
not 0x47 (R23); an unknown code is neither a command code nor the response-read code (R175); a discarded frame has at
least its code (R159). -/

namespace Sys2Proof

/-- The response-read code (R175). -/
def responseReadCode : Byte := 0xF0

/-- The command codes are 0x01..0x3B (R175). -/
def isCommandCode (code : Byte) : Bool := 1 ≤ code.toNat && code.toNat ≤ 0x3B

/-- The most parameter bytes of a frame (R159). -/
def maxParams : Nat := 3072

/-- The term stands for something that can reach the part. -/
def Instr.wf : Instr → Bool
  | .badSyncByte _ b => b != 0x47
  | .frameOverrun _ received => 1 ≤ received
  | .badFrameLength _ received => 1 ≤ received
  | .unknownCommand _ code params =>
      !isCommandCode code && code != responseReadCode && params.length ≤ maxParams
  | .identify _ params => params.length ≤ maxParams
  | .readStatus _ params => params.length ≤ maxParams
  | .clearStatistics _ params => params.length ≤ maxParams
  | .start _ params => params.length ≤ maxParams
  | .stop _ params => params.length ≤ maxParams
  | .reset _ params => params.length ≤ maxParams
  | .timeLabel _ params => params.length ≤ maxParams
  | .readTime _ params => params.length ≤ maxParams
  | .readTimebase _ params => params.length ≤ maxParams
  | .setHoldoverLimit _ params => params.length ≤ maxParams
  | .setStreamIds _ params => params.length ≤ maxParams
  | .setFeedMode _ params => params.length ≤ maxParams
  | .readFeed _ params => params.length ≤ maxParams
  | .readSelector _ params => params.length ≤ maxParams
  | .setAdvance _ params => params.length ≤ maxParams
  | .setPacketPeriod _ params => params.length ≤ maxParams
  | .setHoldLimits _ params => params.length ≤ maxParams
  | .setSlipTolerance _ params => params.length ≤ maxParams
  | .readLaunch _ params => params.length ≤ maxParams
  | .clipWrite _ params => params.length ≤ maxParams
  | .clipRead _ params => params.length ≤ maxParams
  | .playListWrite _ params => params.length ≤ maxParams
  | .playListClear _ params => params.length ≤ maxParams
  | .readPlayList _ params => params.length ≤ maxParams
  | .readLane _ params => params.length ≤ maxParams
  | .defineSlot _ params => params.length ≤ maxParams
  | .clearSlot _ params => params.length ≤ maxParams
  | .readSlot _ params => params.length ≤ maxParams
  | .createBreak _ params => params.length ≤ maxParams
  | .modifyBreak _ params => params.length ≤ maxParams
  | .arm _ params => params.length ≤ maxParams
  | .disarm _ params => params.length ≤ maxParams
  | .trigger _ params => params.length ≤ maxParams
  | .cancel _ params => params.length ≤ maxParams
  | .clearBreak _ params => params.length ≤ maxParams
  | .readBreak _ params => params.length ≤ maxParams
  | .setWindow _ params => params.length ≤ maxParams
  | .removeWindow _ params => params.length ≤ maxParams
  | .readWindow _ params => params.length ≤ maxParams
  | .setScanRange _ params => params.length ≤ maxParams
  | .setChannel _ params => params.length ≤ maxParams
  | .readMonitor _ params => params.length ≤ maxParams
  | .readCapture _ params => params.length ≤ maxParams
  | .changeover _ params => params.length ≤ maxParams
  | .auto _ params => params.length ≤ maxParams
  | .setReturn _ params => params.length ≤ maxParams
  | .releaseHold _ params => params.length ≤ maxParams
  | .readChangeover _ params => params.length ≤ maxParams
  | .mute _ params => params.length ≤ maxParams
  | .unmute _ params => params.length ≤ maxParams
  | .unmuteAll _ params => params.length ≤ maxParams
  | .configureLine _ params => params.length ≤ maxParams
  | .setLineLevel _ params => params.length ≤ maxParams
  | .readLines _ params => params.length ≤ maxParams
  | .lockLine _ params => params.length ≤ maxParams
  | .readEvents _ params => params.length ≤ maxParams
  | .setEventMask _ params => params.length ≤ maxParams
  | .lockParameters _ params => params.length ≤ maxParams
  | .unlockParameters _ params => params.length ≤ maxParams
  | .powerOn => true
  | .resetPin => true
  | .secondMark => true
  | .pulse => true
  | .pulseWatchCheck => true
  | .blinkFall => true
  | .syncCandidate _ => true
  | .checkByte _ _ => true
  | .feedSilence _ => true
  | .packetArrival _ _ => true
  | .deadlineReached => true
  | .scheduledStart => true
  | .packetStart => true
  | .nullStart => true
  | .nullSlotEnd => true
  | .groupEndTick => true
  | .laneReadDone _ => true
  | .clipWriteSlot _ => true
  | .clipReadSlot _ => true
  | .timeTriggerDue _ => true
  | .spliceOutExpiry _ => true
  | .windowStartReached _ => true
  | .windowEndReached _ => true
  | .conversionComplete _ => true
  | .returnTimerExpiry => true
  | .lineEdgeAccepted _ => true
  | .responseRead _ _ => true
  | .emptyTransaction _ => true
  | .startComplete => true
  | .resetComplete => true
  | .byteTaken _ _ => true
  | .pinLevelChange _ _ => true

end Sys2Proof
end

