-- ==== Sys2Proof/Decode.lean ====
section
/-! DEFINITION. How the bytes of a transaction spell a command of the table (R159, R175), and the frame of each command
the other way. The table gives no row any bits, so no word of the host's spells a command. -/

namespace Sys2Proof

/-- The table of operations and events gives no row any bits: no word spells a command. -/
def decodeTableWord (_nbits _w : Nat) : Option Instr := none

/-- The command that a code of the catalogue names, with its port and parameters: 0x01..0x3B in the order in which
the catalogue of chapter 11 names the commands (R175). -/
def commandOf (p : Port) (code : Byte) (params : List Byte) : Option Instr :=
  match code.toNat with
  | 0x01 => some (.identify p params)
  | 0x02 => some (.readStatus p params)
  | 0x03 => some (.clearStatistics p params)
  | 0x04 => some (.start p params)
  | 0x05 => some (.stop p params)
  | 0x06 => some (.reset p params)
  | 0x07 => some (.timeLabel p params)
  | 0x08 => some (.readTime p params)
  | 0x09 => some (.readTimebase p params)
  | 0x0A => some (.setHoldoverLimit p params)
  | 0x0B => some (.setStreamIds p params)
  | 0x0C => some (.setFeedMode p params)
  | 0x0D => some (.readFeed p params)
  | 0x0E => some (.readSelector p params)
  | 0x0F => some (.setAdvance p params)
  | 0x10 => some (.setPacketPeriod p params)
  | 0x11 => some (.setHoldLimits p params)
  | 0x12 => some (.setSlipTolerance p params)
  | 0x13 => some (.readLaunch p params)
  | 0x14 => some (.clipWrite p params)
  | 0x15 => some (.clipRead p params)
  | 0x16 => some (.playListWrite p params)
  | 0x17 => some (.playListClear p params)
  | 0x18 => some (.readPlayList p params)
  | 0x19 => some (.readLane p params)
  | 0x1A => some (.defineSlot p params)
  | 0x1B => some (.clearSlot p params)
  | 0x1C => some (.readSlot p params)
  | 0x1D => some (.createBreak p params)
  | 0x1E => some (.modifyBreak p params)
  | 0x1F => some (.arm p params)
  | 0x20 => some (.disarm p params)
  | 0x21 => some (.trigger p params)
  | 0x22 => some (.cancel p params)
  | 0x23 => some (.clearBreak p params)
  | 0x24 => some (.readBreak p params)
  | 0x25 => some (.setWindow p params)
  | 0x26 => some (.removeWindow p params)
  | 0x27 => some (.readWindow p params)
  | 0x28 => some (.setScanRange p params)
  | 0x29 => some (.setChannel p params)
  | 0x2A => some (.readMonitor p params)
  | 0x2B => some (.readCapture p params)
  | 0x2C => some (.changeover p params)
  | 0x2D => some (.auto p params)
  | 0x2E => some (.setReturn p params)
  | 0x2F => some (.releaseHold p params)
  | 0x30 => some (.readChangeover p params)
  | 0x31 => some (.mute p params)
  | 0x32 => some (.unmute p params)
  | 0x33 => some (.unmuteAll p params)
  | 0x34 => some (.configureLine p params)
  | 0x35 => some (.setLineLevel p params)
  | 0x36 => some (.readLines p params)
  | 0x37 => some (.lockLine p params)
  | 0x38 => some (.readEvents p params)
  | 0x39 => some (.setEventMask p params)
  | 0x3A => some (.lockParameters p params)
  | 0x3B => some (.unlockParameters p params)
  | _ => none

/-- What a transaction on port `p` is, by the whole bytes it received (R159): nothing, a response read, a frame refused
for its length, a frame refused UNKNOWN, or a command. In a response read each byte after the code clocks out one
byte (log entry 13). Whether a frame is overrun depends on the port and is settled when it is taken (R161). -/
def decodeTransaction (p : Port) (bytes : List Byte) : Instr :=
  match bytes with
  | [] => .emptyTransaction p
  | code :: rest =>
    if code = responseReadCode then .responseRead p rest.length
    else
      match rest with
      | hi :: lo :: params =>
        let length := hi.toNat * 256 + lo.toNat
        if maxParams < length ∨ params.length ≠ length then .badFrameLength p bytes.length
        else (commandOf p code params).getD (.unknownCommand p code params)
      | _ => .badFrameLength p bytes.length

/-- The port, code and parameters of a command of the catalogue (R175); nothing for any other row. -/
def frameParts : Instr → Option (Port × Byte × List Byte)
  | .identify p params => some (p, 0x01, params)
  | .readStatus p params => some (p, 0x02, params)
  | .clearStatistics p params => some (p, 0x03, params)
  | .start p params => some (p, 0x04, params)
  | .stop p params => some (p, 0x05, params)
  | .reset p params => some (p, 0x06, params)
  | .timeLabel p params => some (p, 0x07, params)
  | .readTime p params => some (p, 0x08, params)
  | .readTimebase p params => some (p, 0x09, params)
  | .setHoldoverLimit p params => some (p, 0x0A, params)
  | .setStreamIds p params => some (p, 0x0B, params)
  | .setFeedMode p params => some (p, 0x0C, params)
  | .readFeed p params => some (p, 0x0D, params)
  | .readSelector p params => some (p, 0x0E, params)
  | .setAdvance p params => some (p, 0x0F, params)
  | .setPacketPeriod p params => some (p, 0x10, params)
  | .setHoldLimits p params => some (p, 0x11, params)
  | .setSlipTolerance p params => some (p, 0x12, params)
  | .readLaunch p params => some (p, 0x13, params)
  | .clipWrite p params => some (p, 0x14, params)
  | .clipRead p params => some (p, 0x15, params)
  | .playListWrite p params => some (p, 0x16, params)
  | .playListClear p params => some (p, 0x17, params)
  | .readPlayList p params => some (p, 0x18, params)
  | .readLane p params => some (p, 0x19, params)
  | .defineSlot p params => some (p, 0x1A, params)
  | .clearSlot p params => some (p, 0x1B, params)
  | .readSlot p params => some (p, 0x1C, params)
  | .createBreak p params => some (p, 0x1D, params)
  | .modifyBreak p params => some (p, 0x1E, params)
  | .arm p params => some (p, 0x1F, params)
  | .disarm p params => some (p, 0x20, params)
  | .trigger p params => some (p, 0x21, params)
  | .cancel p params => some (p, 0x22, params)
  | .clearBreak p params => some (p, 0x23, params)
  | .readBreak p params => some (p, 0x24, params)
  | .setWindow p params => some (p, 0x25, params)
  | .removeWindow p params => some (p, 0x26, params)
  | .readWindow p params => some (p, 0x27, params)
  | .setScanRange p params => some (p, 0x28, params)
  | .setChannel p params => some (p, 0x29, params)
  | .readMonitor p params => some (p, 0x2A, params)
  | .readCapture p params => some (p, 0x2B, params)
  | .changeover p params => some (p, 0x2C, params)
  | .auto p params => some (p, 0x2D, params)
  | .setReturn p params => some (p, 0x2E, params)
  | .releaseHold p params => some (p, 0x2F, params)
  | .readChangeover p params => some (p, 0x30, params)
  | .mute p params => some (p, 0x31, params)
  | .unmute p params => some (p, 0x32, params)
  | .unmuteAll p params => some (p, 0x33, params)
  | .configureLine p params => some (p, 0x34, params)
  | .setLineLevel p params => some (p, 0x35, params)
  | .readLines p params => some (p, 0x36, params)
  | .lockLine p params => some (p, 0x37, params)
  | .readEvents p params => some (p, 0x38, params)
  | .setEventMask p params => some (p, 0x39, params)
  | .lockParameters p params => some (p, 0x3A, params)
  | .unlockParameters p params => some (p, 0x3B, params)
  | .powerOn => none
  | .resetPin => none
  | .secondMark => none
  | .pulse => none
  | .pulseWatchCheck => none
  | .blinkFall => none
  | .syncCandidate _ => none
  | .checkByte _ _ => none
  | .badSyncByte _ _ => none
  | .feedSilence _ => none
  | .packetArrival _ _ => none
  | .deadlineReached => none
  | .scheduledStart => none
  | .packetStart => none
  | .nullStart => none
  | .nullSlotEnd => none
  | .groupEndTick => none
  | .laneReadDone _ => none
  | .clipWriteSlot _ => none
  | .clipReadSlot _ => none
  | .timeTriggerDue _ => none
  | .spliceOutExpiry _ => none
  | .windowStartReached _ => none
  | .windowEndReached _ => none
  | .conversionComplete _ => none
  | .returnTimerExpiry => none
  | .lineEdgeAccepted _ => none
  | .responseRead _ _ => none
  | .emptyTransaction _ => none
  | .frameOverrun _ _ => none
  | .badFrameLength _ _ => none
  | .unknownCommand _ _ _ => none
  | .startComplete => none
  | .resetComplete => none
  | .byteTaken _ _ => none
  | .pinLevelChange _ _ => none

/-- The bytes of a command frame (12.2): code, parameter length in two bytes, parameters. -/
def encodeFrame (i : Instr) : Option (List Byte) :=
  match frameParts i with
  | some (_, code, params) =>
    some (code :: BitVec.ofNat 8 (params.length / 256) :: BitVec.ofNat 8 params.length :: params)
  | none => none

end Sys2Proof
end

