-- ==== Sys2Proof/Config.lean ====
section
/-! DEFINITION. What one build of the part fixes and the manual does not say. Each constant has no body: nothing can be
proved of its value, so a statement about the model holds for every choice of it. The log entry of each is named. -/

namespace Sys2Proof.Config

/-- The periods of the site clock that the 188 bytes of one packet take to leave the exciter outputs, rounded up. The
output byte clock is fixed by the board (R68). Log entry 5. -/
opaque byteOutPeriods : Nat

/-- The byte that both exciter outputs carry where no packet is being sent: R68 gives idle bytes no value. The argument is
the site time. Log entry 5. -/
opaque idleByte : (now : Nat) → BitVec 8

/-- The device revision that IDENTIFY returns (R170 gives it no value). Log entry 6. -/
opaque deviceRevision : BitVec 8

/-- Byte `i` of a clip slot whose contents the manual leaves unspecified (R83, R85). The first argument tells one
occasion from another: the power-on, or the cut write, from which the slot holds it. Log entry 4. -/
opaque unspecifiedClipByte : (occasion slot i : Nat) → BitVec 8

/-- The result of the conversion that the idle block completes by itself; the analog inputs are outside the part
(R132). Log entry 7. -/
opaque analogSample : (draw channel : Nat) → BitVec 10

/-- Byte `i` of those that a response read clocks out beyond the last byte of the response, which the manual does not
state (R160). Log entry 18. -/
opaque byteBeyondResponse : (draw i : Nat) → BitVec 8

/-- The order in which the part takes things that fall at one instant and that the manual lets come in either order.
The lower rank is taken first. Log entry 3. -/
opaque tieRank : (draw kind : Nat) → Nat

end Sys2Proof.Config
end

