-- ==== Sys2Proof/Machine/State.lean ====
section
/-! DEFINITION. The state of the part as plain data, block by block as the chapters give it, and its values at
power-on. A field marked "model's own" is not in the manual's tables; the log entry named there says why it is here.
What the manual derives from other state (launch gate, carrier mute, exciter health, driven levels, ready and attention
lines) is computed from that state in Machine/Flags.lean and held nowhere else. -/

namespace Sys2Proof.Machine

open Sys2Proof

/-! ### Chapter 1: Site Timebase -/

/-- The discipline states (1.3). -/
inductive Discipline where
  | free | acquiring | locked | holdover | expired
  deriving DecidableEq, Repr

/-- The Site Timebase (chapter 1, table of state). -/
structure Timebase where
  /-- site second, 0..4,294,967,295 (R1) -/
  second : Nat
  /-- tick-in-second, 0..9,999,999 (R1) -/
  tick : Nat
  /-- correction of the second in progress, −16..+16 (R6) -/
  correction : Int
  /-- model's own: the additional periods for which tick 9,999,999 has been held so far (R6; log entry 8) -/
  held : Nat
  /-- model's own: the period in progress is the last of a second that a pulse ended, so that the next period is tick
  0 (R6; log entry 8) -/
  markHold : Bool
  /-- labelled flag (R2) -/
  labelled : Bool
  /-- pending label (R3) -/
  pendingLabel : Option Nat
  /-- discipline state (1.3) -/
  discipline : Discipline
  /-- good count, 0..4 (R9) -/
  good : Nat
  /-- stray count, 0..3 (R10) -/
  stray : Nat
  /-- missed count, 0..3 (R10) -/
  missed : Nat
  /-- pulse-watch flag (R5) -/
  watch : Bool
  /-- model's own: the pulse-watch check of the present second has not been made yet (R5; log entry 8) -/
  watchOpen : Bool
  /-- last error, absent until a pulse has been measured (R4) -/
  lastError : Option Int
  /-- holdover seconds (R11) -/
  holdoverSeconds : Nat
  /-- holdover limit, 1..86,400 (R13) -/
  holdoverLimit : Nat
  deriving DecidableEq, Repr

/-- R19, power-on. -/
def Timebase.reset : Timebase where
  second := 0
  tick := 0
  correction := 0
  held := 0
  markHold := false
  labelled := false
  pendingLabel := none
  discipline := .free
  good := 0
  stray := 0
  missed := 0
  watch := false
  watchOpen := true
  lastError := none
  holdoverSeconds := 0
  holdoverLimit := 300

/-! ### Chapter 2: Feed Intake and the Packet Store -/

/-- The sync states of a feed (2.1). -/
inductive SyncState where
  | search | verify | locked
  deriving DecidableEq, Repr

/-- The counters of one intake (R35). -/
structure FeedCounters where
  accepted : Nat
  badSync : Nat
  syncLosses : Nat
  pacingInvalid : Nat
  stale : Nat
  excluded : Nat
  opened : Nat
  complete : Nat
  short : Nat
  tableFull : Nat
  overrun : Nat
  strays : Nat
  errored : Nat
  deriving DecidableEq, Repr

/-- All counters 0 (R35). -/
def FeedCounters.zero : FeedCounters := ⟨0, 0, 0, 0, 0, 0, 0, 0, 0, 0, 0, 0, 0⟩

/-- One Feed Intake (chapter 2, table of state). -/
structure Feed where
  /-- sync state (R20 to R24) -/
  sync : SyncState
  /-- confirmation count, 0..3 (R22) -/
  confirm : Nat
  /-- bad-sync run, 0..3 (R23) -/
  badRun : Nat
  /-- byte position, 0..187 (R20) -/
  pos : Nat
  /-- the packet in progress began with a good sync byte and is kept (R23) -/
  accepting : Bool
  /-- the bytes taken of the packet in progress, when it is kept (R23, R24) -/
  buffer : List Byte
  /-- silence time in ticks, 0..500,000; 0 in SEARCH, where it is not kept (R20) -/
  silence : Nat
  /-- open copy, as a place of the group table (R28) -/
  openCopy : Option Nat
  /-- last opened number (R28) -/
  lastOpened : Option Nat
  /-- stale-run count, 0..4 (R48) -/
  staleRun : Nat
  /-- current flag, held by the selector (R40) -/
  current : Bool
  /-- other-feed-current flag, held by the selector (R48) -/
  otherCurrent : Bool
  /-- feed counters (R35) -/
  counters : FeedCounters
  deriving DecidableEq, Repr

/-- R38 and R55. -/
def Feed.reset : Feed where
  sync := .search
  confirm := 0
  badRun := 0
  pos := 0
  accepting := false
  buffer := []
  silence := 0
  openCopy := none
  lastOpened := none
  staleRun := 0
  current := false
  otherCurrent := false
  counters := .zero

/-- Why a copy holds no release tick (R59). -/
inductive RejectReason where
  | noTime | holdShort | holdLong
  deriving DecidableEq, Repr

/-- The result of the launch computation kept in a group record (R56). -/
inductive Launched where
  | release (r : Time)
  | rejected (why : RejectReason)
  deriving DecidableEq, Repr

/-- The states of a group record (2.3); the manual's word is "state". -/
inductive Phase where
  | opened | complete | short | queued | emitting
  deriving DecidableEq, Repr

/-- One group record (R28). -/
structure GroupRecord where
  feed : FeedId
  group : Nat
  declared : Nat
  arrivals : Nat
  stored : Nat
  errored : Nat
  overrun : Bool
  phase : Phase
  arrivalTick : Time
  launched : Launched
  /-- the packets of the cells on the record's cell list, in list order (R29, R34) -/
  cells : List Packet
  deriving DecidableEq, Repr

/-- The Packet Store: the group table of 128 places and the cell pool (R33, R34). Cells are not told apart: the free
list keeps no significant order, so the pool is its number of free cells (log entry 9). -/
structure Store where
  table : List (Option GroupRecord)
  freeCells : Nat
  deriving DecidableEq, Repr

/-- R38: 128 places free, 65,536 cells free. -/
def Store.empty : Store := ⟨List.replicate 128 none, 65536⟩

/-! ### Chapter 3: Group Selector -/

/-- The feed mode (R50). -/
inductive FeedMode where
  | auto | onlyA | onlyB
  deriving DecidableEq, Repr

/-- The selector counters (R54). -/
structure SelectorCounters where
  admitA : Nat
  admitB : Nat
  admitC : Nat
  admitD : Nat
  admitE : Nat
  fromA : Nat
  fromB : Nat
  switches : Nat
  superseded : Nat
  abandoned : Nat
  skips : Nat
  missing : Nat
  outOfReach : Nat
  freedByMode : Nat
  restarts : Nat
  cuesHanded : Nat
  invalidCues : Nat
  deriving DecidableEq, Repr

/-- All counters 0 (R54). -/
def SelectorCounters.zero : SelectorCounters := ⟨0, 0, 0, 0, 0, 0, 0, 0, 0, 0, 0, 0, 0, 0, 0, 0, 0⟩

/-- The Group Selector (chapter 3, table of state); its per-feed flags stand in `Feed`. -/
structure Selector where
  /-- expected group number E (R39) -/
  expected : Option Nat
  /-- last admitted number L (R44) -/
  lastAdmitted : Option Nat
  /-- launch queue as places of the group table, head first (R51) -/
  queue : List Nat
  /-- active feed, absent for NONE (R45) -/
  active : Option FeedId
  /-- feed mode (R50) -/
  mode : FeedMode
  /-- preferred feed (R50) -/
  preferred : FeedId
  /-- selector counters (R54) -/
  counters : SelectorCounters
  deriving DecidableEq, Repr

/-- R55, power-on. -/
def Selector.reset : Selector := ⟨none, none, [], none, .auto, .a, .zero⟩

/-! ### Chapters 4 and 5: Launch Arithmetic and Launch Scheduler -/

/-- The reasons GROUP_DROPPED carries (R79). -/
inductive DropReason where
  | noTime | holdShort | holdLong | gateClosed | late | stepped | truncated
  deriving DecidableEq, Repr

/-- The group in emission (chapter 5, table of state): its place, start S, next packet index and number of packets. -/
structure Emission where
  place : Nat
  start : Time
  next : Nat
  total : Nat
  deriving DecidableEq, Repr

/-- The scheduled start of the head record: S, outcome (SLIPPED or ON_TIME) and slip (R71). -/
structure Scheduled where
  start : Time
  slipped : Bool
  slip : Nat
  deriving DecidableEq, Repr

/-- The launch statistics (R78); the missing count is the selector's. -/
structure LaunchStats where
  onTime : Nat
  slipped : Nat
  largestSlip : Nat
  noTime : Nat
  holdShort : Nat
  holdLong : Nat
  gateClosed : Nat
  late : Nat
  stepped : Nat
  truncated : Nat
  lateStarts : Nat
  deriving DecidableEq, Repr

/-- All statistics 0 (R78). -/
def LaunchStats.zero : LaunchStats := ⟨0, 0, 0, 0, 0, 0, 0, 0, 0, 0, 0⟩

/-- A packet that has begun on both exciter outputs and whose bytes have not all left, its computed packet start, and
the periods of the site clock that its bytes have still to take once they leave (R68; log entry 5). -/
structure Leaving where
  packet : Packet
  start : Time
  left : Nat
  deriving DecidableEq, Repr

/-- The Launch Scheduler (chapter 5, table of state), with the parameters it holds (R60, R61, R74, R169). -/
structure Launch where
  emitting : Option Emission
  scheduled : Option Scheduled
  /-- last end tick (R72) -/
  lastEnd : Option Time
  /-- gap origin G and null index j (R69) -/
  gap : Option (Time × Nat)
  /-- model's own: a null of this gap did not fit before the scheduled start, and no further null of the gap is
  emitted unless the start is withdrawn (R69; log entry 10) -/
  nullsStopped : Bool
  /-- null in progress, as the end of its slot (R69) -/
  nullEnd : Option Time
  /-- site advance A in force (R76) -/
  advance : Nat
  /-- pending advance (R76) -/
  pendingAdvance : Option Nat
  /-- Hmin (R60) -/
  holdMin : Nat
  /-- Hmax (R60) -/
  holdMax : Nat
  /-- Pi, the whole part of the packet period (R61) -/
  periodInt : Nat
  /-- Pf, its fraction in 65,536ths (R61) -/
  periodFrac : Nat
  /-- slip tolerance (R77) -/
  slipTolerance : Nat
  /-- pacing identifier (R169) -/
  pacingId : Nat
  /-- cue identifier (R169) -/
  cueId : Nat
  /-- strip flag (R74) -/
  strip : Bool
  /-- launch statistics (R78) -/
  stats : LaunchStats
  /-- what is leaving on both exciter outputs: the packet whose bytes are leaving, and behind it the late starts whose
  bytes follow at once; none for idle bytes (R68) -/
  outputs : List Leaving
  deriving DecidableEq, Repr

/-- R82 and R169, power-on. -/
def Launch.reset : Launch where
  emitting := none
  scheduled := none
  lastEnd := none
  gap := none
  nullsStopped := false
  nullEnd := none
  advance := 0
  pendingAdvance := none
  holdMin := 1000000
  holdMax := 10000000
  periodInt := 626
  periodFrac := 43691
  slipTolerance := 200
  pacingId := 8176
  cueId := 8177
  strip := true
  stats := .zero
  outputs := []

/-! ### Chapter 6: Clip Memory, Play Lists and Lanes -/

/-- One segment of a play list: first slot and count (R88). -/
structure Segment where
  first : Nat
  count : Nat
  deriving DecidableEq, Repr

/-- A clip command in progress on a port (chapter 6, table of state): CLIP WRITE or CLIP READ, its first slot, count and
next slot, and the packets still to be written or already read, in slot order. -/
structure ClipCommand where
  write : Bool
  first : Nat
  count : Nat
  next : Nat
  packets : List Packet
  deriving DecidableEq, Repr

/-- The one slot access the clip memory is serving (R87). An access that a release or a software RESET has cut off is
finished and then discarded (R94, R85, R86). -/
inductive Access where
  | lane (index : Nat) (slot : Nat) (discarded : Bool)
  | write (p : Port) (slot : Nat) (packet : Packet) (abandoned : Bool)
  | read (p : Port) (slot : Nat) (abandoned : Bool)
  deriving DecidableEq, Repr

/-- The Clip Memory Controller without its lanes (chapter 6, table of state). -/
structure Clip where
  /-- clip memory: the slots written since the last power-on, addresses rising; any other slot is unspecified (R83) -/
  cells : List (Nat × Packet)
  /-- model's own: which power-on the unspecified contents stem from (log entry 4) -/
  occasion : Nat
  /-- play list table: 32 lists (R88) -/
  playLists : List (List Segment)
  /-- the slot access being served (R87) -/
  service : Option Access
  /-- model's own: the port served first when both wait (R87; log entry 11) -/
  turn : Port
  deriving DecidableEq, Repr

/-- R96, power-on. -/
def Clip.reset : Clip := ⟨[], 0, List.replicate 32 [], none, .station⟩

/-- The states of a lane (R91). -/
inductive LaneState where
  | free | preroll | onAir
  deriving DecidableEq, Repr

/-- A lane record (R91). -/
structure Lane where
  state : LaneState
  break_ : Option Nat
  playList : Option Nat
  /-- segment index and packet index of the next packet to be read; absent when finished -/
  position : Option (Nat × Nat)
  queue : List Packet
  packetsRead : Nat
  packetsTaken : Nat
  badSlots : Nat
  clipEnd : Bool
  deriving DecidableEq, Repr

/-- R96. -/
def Lane.reset : Lane := ⟨.free, none, none, none, [], 0, 0, 0, false⟩

/-! ### Chapter 7: Breaks and Splicing -/

/-- One entry of a slot with its continuity carry (7.1). -/
structure SlotEntry where
  network : Nat
  clip : Nat
  carry : Option Nat
  deriving DecidableEq, Repr

/-- The stamp observation of a slot (7.1). -/
structure Observation where
  value : Nat
  tick : Time
  valid : Bool
  deriving DecidableEq, Repr

/-- A slot: definition and runtime record (7.1). An undefined slot has no entries. -/
structure Slot where
  defined : Bool
  entries : List SlotEntry
  clock : Option Nat
  guard : Nat
  observation : Observation
  deriving DecidableEq, Repr

/-- R122, power-on; the guard of an undefined slot is emptied to 0 (R98). -/
def Slot.reset : Slot := ⟨false, [], none, 0, ⟨0, 0, false⟩⟩

/-- The states of a break (7.2). -/
inductive BreakState where
  | free | loaded | waiting | cued | onAir | ended
  deriving DecidableEq, Repr

/-- The polarity of an edge (R151). -/
inductive Polarity where
  | rise | fall
  deriving DecidableEq, Repr

/-- The trigger of a break (7.2). -/
inductive Trigger where
  | cue (number : Nat)
  | time (at_ : Time)
  | line (line : Nat) (polarity : Polarity)
  | manual
  deriving DecidableEq, Repr

/-- The exhaust action (7.2). -/
inductive Exhaust where
  | ret | fill
  deriving DecidableEq, Repr

/-- The source of Y (R114). -/
inductive YSource where
  | length | inCue | guard | clipEnd | cancel | window
  deriving DecidableEq, Repr

/-- The end causes, in the order of the table of R106. -/
inductive EndCause where
  | scheduled | clipEnd | guard | cancelled | recalled | stopped | listEmpty | blocked | slotBusy | noLane | missed
  | noAir
  deriving DecidableEq, Repr

/-- A break record (7.2); the index is its place in the table. -/
structure BreakRecord where
  state : BreakState
  owner : Port
  slot : Nat
  playList : Nat
  trigger : Trigger
  lead : Nat
  length : Option Nat
  exhaust : Exhaust
  lane : Option Nat
  /-- splice-out instant X -/
  x : Option Time
  /-- actual out tick -/
  outTick : Option Time
  /-- return instant Y and its source -/
  y : Option (Time × YSource)
  /-- actual in tick -/
  inTick : Option Time
  cause : Option EndCause
  aired : Bool
  /-- clip status EXHAUSTED (R106) -/
  exhausted : Bool
  substituted : Nat
  starved : Nat
  filled : Nat
  unmapped : Nat
  /-- stamp base B and first clip stamp C0 (R67) -/
  base : Option (Nat × Nat)
  noBase : Bool
  deriving DecidableEq, Repr

/-- A FREE record, emptied (R105, R122). -/
def BreakRecord.empty : BreakRecord where
  state := .free
  owner := .station
  slot := 0
  playList := 0
  trigger := .manual
  lead := 0
  length := none
  exhaust := .ret
  lane := none
  x := none
  outTick := none
  y := none
  inTick := none
  cause := none
  aired := false
  exhausted := false
  substituted := 0
  starved := 0
  filled := 0
  unmapped := 0
  base := none
  noBase := false

/-- The Splice Engine without its windows (chapter 7). -/
structure Splice where
  slots : List Slot
  breaks : List BreakRecord
  /-- cues applied (R120) -/
  cuesApplied : Nat
  /-- cues ignored (R120) -/
  cuesIgnored : Nat
  /-- cues without instant (R120) -/
  cuesWithoutInstant : Nat
  deriving DecidableEq, Repr

/-- R122, power-on. -/
def Splice.reset : Splice := ⟨List.replicate 8 .reset, List.replicate 32 .empty, 0, 0, 0⟩

/-! ### Chapter 8: Protect Windows -/

/-- The states of a window (R123). -/
inductive WindowState where
  | free | pending | active
  deriving DecidableEq, Repr

/-- A window record (R123); the mask has bit s set for slot s. -/
structure Window where
  state : WindowState
  mask : BitVec 8
  start : Time
  stop : Time
  setAt : Time
  blocked : Nat
  recalled : Nat
  deriving DecidableEq, Repr

/-- A FREE record (R123, R131). -/
def Window.empty : Window := ⟨.free, 0, 0, 0, 0, 0, 0⟩

/-! ### Chapter 9: Transmitter Monitor and Changeover Controller -/

/-- The role of a channel (R134). -/
inductive Role where
  | none | main | reserve | site
  deriving DecidableEq, Repr

/-- The state of a channel (R134). -/
inductive ChannelState where
  | normal | low | high
  deriving DecidableEq, Repr

/-- The class of a conversion (R135): L, N or H. -/
inductive ChannelClass where
  | l | n | h
  deriving DecidableEq, Repr

/-- A channel record (R134). -/
structure Channel where
  value : Nat
  low : Nat
  high : Nat
  persistence : Nat
  role : Role
  state : ChannelState
  run : Nat
  previous : Option ChannelClass
  deriving DecidableEq, Repr

/-- R148, power-on. -/
def Channel.reset : Channel := ⟨0, 0, 1023, 3, .none, .normal, 0, none⟩

/-- The capture record (R136). -/
structure Capture where
  values : List Nat
  first : Nat
  last : Nat
  channel : Nat
  state : ChannelState
  time : Time
  deriving DecidableEq, Repr

/-- The Transmitter Monitor (chapter 9, first table). -/
structure Monitor where
  /-- scan range -/
  first : Nat
  last : Nat
  /-- pending scan range (R133) -/
  pendingRange : Option (Nat × Nat)
  /-- the channel being converted (R132) -/
  converting : Nat
  /-- model's own: the periods the conversion in progress has run, 0..2,500 (R132) -/
  elapsed : Nat
  channels : List Channel
  capture : Option Capture
  deriving DecidableEq, Repr

/-- R148, power-on. -/
def Monitor.reset : Monitor := ⟨0, 7, none, 0, 0, List.replicate 8 .reset, none⟩

/-- The position: the exciter on air (R140). -/
inductive Position where
  | main | reserve
  deriving DecidableEq, Repr

/-- The Changeover Controller (chapter 9, second table), without the derived conditions. -/
structure Changeover where
  position : Position
  /-- mode MANUAL (R143); AUTO otherwise -/
  manual : Bool
  hold : Bool
  /-- history, oldest first (R142) -/
  history : List Time
  autoReturn : Bool
  /-- return delay in seconds (R145) -/
  returnDelay : Nat
  /-- return timer: the periods of the site clock left, absent when stopped (R141) -/
  returnTimer : Option Nat
  /-- mute holders (R139) -/
  muteStation : Bool
  muteNetwork : Bool
  deriving DecidableEq, Repr

/-- R149, power-on. -/
def Changeover.reset : Changeover := ⟨.main, false, false, [], true, 60, none, false, false⟩

/-! ### Chapter 10: Contact Lines -/

/-- The functions of a line, the five of inputs and then the seven of outputs (chapter 10). -/
inductive LineFunction where
  | plain | trigger | mainFault | reserveFault | interlock
  | level | blink | changeover | carrierMute | gate | tally | alert
  deriving DecidableEq, Repr

/-- A line record (chapter 10), without the driven level, which is derived. -/
structure Line where
  /-- direction OUTPUT; INPUT otherwise -/
  output : Bool
  invert : Bool
  function : LineFunction
  tallyLane : Option Nat
  commanded : Level
  locked : Bool
  accepted : Level
  /-- pending change: the stable count (R151) -/
  pendingChange : Option Nat
  latched : Bool
  frozen : Option Level
  /-- model's own: the level the site puts on the pin (R151, R150; log entry 12) -/
  pin : Level
  deriving DecidableEq, Repr

/-- R158, power-on, for a pin at the given level. -/
def Line.reset (pin : Level) : Line := ⟨false, false, .plain, none, .low, false, pin, none, false, none, pin⟩

/-- The Contact Line Unit. -/
structure Lines where
  /-- the twelve lines -/
  records : List Line
  /-- model's own: what BLINK gives, HIGH from each second mark until tick 5,000,000 is reached (R154; log entry 8) -/
  blink : Level
  deriving DecidableEq, Repr

/-- R158 with every pin LOW (log entry 12), at tick 0. -/
def Lines.reset : Lines := ⟨List.replicate 12 (.reset .low), .high⟩

/-! ### Chapter 11: Control Ports -/

/-- The result codes, in the order of the table of R163. -/
inductive ResultCode where
  | ok | unknown | badLength | badValue | wrongState | notOwner | notPermitted | locked | inUse | tableFull | faulted
  deriving DecidableEq, Repr

/-- A response (R160). -/
structure Response where
  code : ResultCode
  overrun : Bool
  lost : Bool
  eventsPending : Bool
  clamped : Bool
  data : List Byte
  deriving DecidableEq, Repr

/-- The event kinds, in the order of 11.6 (R175 numbers them from 1). -/
inductive EventKind where
  | timebaseState | labelApplied | gate | feedSync | poolOverrun | feedSwitch | groupMissing | sequenceRestart
  | groupDropped | startComplete | breakCued | breakOnAir | breakEnded | windowActive | windowEnded | channelLimit
  | captureHeld | changeover | changeoverHold | lineEdge
  deriving DecidableEq, Repr

/-- An event record (R171), subject and detail encoded as R175 gives them. -/
structure Event where
  kind : EventKind
  subject : Nat
  detail : Nat
  time : Time
  deriving DecidableEq, Repr

/-- What the bytes of the present select period are (chapter 11, table of state). -/
inductive Transaction where
  | none | command | read
  deriving DecidableEq, Repr

/-- The long command in progress on a port (R161). -/
inductive LongCommand where
  | start
  | reset
  | clip (c : ClipCommand)
  deriving DecidableEq, Repr

/-- The state of one control port (chapter 11, table of state). -/
structure PortState where
  transaction : Transaction
  inProgress : Option LongCommand
  response : Option Response
  overrun : Bool
  lost : Bool
  events : List Event
  /-- one enable per event kind, in the order of 11.6 -/
  mask : List Bool
  lostEvents : Nat
  /-- the bytes the port clocked out in its latest transaction (R159, R160) -/
  dataOut : List Byte
  deriving DecidableEq, Repr

/-- R173. -/
def PortState.reset : PortState := ⟨.none, none, none, false, false, [], List.replicate 20 true, 0, []⟩

/-- The part states (11.3). -/
inductive PartState where
  | standby | starting | run
  deriving DecidableEq, Repr

/-! ### The whole part -/

/-- The state of the part, and the queue of commands that wait. -/
structure State where
  tb : Timebase
  feedA : Feed
  feedB : Feed
  store : Store
  sel : Selector
  launch : Launch
  clip : Clip
  /-- the four lanes -/
  lanes : List Lane
  splice : Splice
  /-- the eight protect windows -/
  windows : List Window
  mon : Monitor
  chg : Changeover
  lines : Lines
  station : PortState
  network : PortState
  part : PartState
  /-- the parameter lock (R168) -/
  paramLock : Bool
  /-- the model's own: how many free choices have been drawn (log entry 3) -/
  draws : Nat
  /-- the commands that wait, first in, first out -/
  pending : List Instr
  deriving DecidableEq, Repr

/-- The part right after power-on (R19, R38, R55, R82, R96, R122, R131, R148, R149, R158, R173), with nothing waiting. -/
def State.reset : State where
  tb := .reset
  feedA := .reset
  feedB := .reset
  store := .empty
  sel := .reset
  launch := .reset
  clip := .reset
  lanes := List.replicate 4 .reset
  splice := .reset
  windows := List.replicate 8 .empty
  mon := .reset
  chg := .reset
  lines := .reset
  station := .reset
  network := .reset
  part := .standby
  paramLock := false
  draws := 1
  pending := []

/-- Why the machine would stop with a fault. -/
inductive Fault where
  /-- Raised by no command: every command of the table answers a next state in every state. It stands here because
  the host's interface asks for a type of faults. Safe. -/
  | neverRaised
  deriving DecidableEq, Repr

/-- Why the machine would refuse a command. -/
inductive Refusal where
  /-- Raised by an arm of exec whose command has no meaning yet; no arm does. Safe. -/
  | notModelled (mnemonic : String)
  deriving DecidableEq, Repr

end Sys2Proof.Machine
end

