-- ==== Sys2Proof/Machine/Arith.lean ====
section
/-! DEFINITION. Site-time arithmetic, sequence order and the launch arithmetic of chapter 4, on plain numbers. -/

namespace Sys2Proof.Machine

open Sys2Proof

/-- The ticks of a site second (00_scope, Terms). -/
def ticksPerSecond : Nat := 10000000

/-- The site second counts modulo 2^32 (R1). -/
def secondModulus : Nat := 4294967296

/-- Site time values are taken modulo 2^32 × 10,000,000 (00_scope, Conventions). -/
def timeModulus : Nat := 42949672960000000

/-- Half the modulus: the bound of a difference of two instants (00_scope, Conventions). -/
def halfModulus : Nat := 21474836480000000

/-- A site instant from its second and its tick. -/
def instant (second tick : Nat) : Time := (second * ticksPerSecond + tick) % timeModulus

/-- The instant `k` ticks after `t`. -/
def tadd (t : Time) (k : Nat) : Time := (t + k) % timeModulus

/-- The instant `k` ticks before `t`. -/
def tsub (t : Time) (k : Nat) : Time := (t + (timeModulus - k % timeModulus)) % timeModulus

/-- The difference of two instants, in −2^31 × 10,000,000 up to but not including +2^31 × 10,000,000 (00_scope,
Conventions). -/
def tdiff (a b : Time) : Int :=
  let d := (a + (timeModulus - b % timeModulus)) % timeModulus
  if d < halfModulus then (d : Int) else (d : Int) - (timeModulus : Int)

/-- Instant `a` is not earlier than `b`: it has reached it. -/
def reached (a b : Time) : Bool := decide (0 ≤ tdiff a b)

/-- Instant `a` is earlier than `b`. -/
def earlier (a b : Time) : Bool := decide (tdiff a b < 0)

/-- Instant `a` is later than `b`. Two instants 2^31 seconds apart are each earlier than the other and neither is later,
since the range of their difference has −2^31 s and not +2^31 s (00_scope, Conventions; R124). -/
def later (a b : Time) : Bool := decide (0 < tdiff a b)

/-- The later of two instants. -/
def tmax (a b : Time) : Time := if earlier a b then b else a

/-- Sequence order of 16-bit numbers: `n` is later than `m` (00_scope, Conventions). -/
def seqLater (n m : Nat) : Bool :=
  let d := (n + (65536 - m % 65536)) % 65536
  decide (1 ≤ d) && decide (d ≤ 32767)

/-- Sequence order of 16-bit numbers: `n` is earlier than `m`. -/
def seqEarlier (n m : Nat) : Bool := seqLater m n

/-- A count one higher, saturating at 4,294,967,295 (R35, R54, R78, R120, 7.2). -/
def bump (n : Nat) : Nat := if n < 4294967295 then n + 1 else 4294967295

/-- A count higher by `k`, saturating at 4,294,967,295 (R47). -/
def bumpBy (n k : Nat) : Nat := min (n + k) 4294967295

/-- A count one higher, saturating at 65,535 (R123, R171). -/
def bump16 (n : Nat) : Nat := if n < 65535 then n + 1 else 65535

/-! ### Launch arithmetic (chapter 4) -/

/-- The full second within −128..+127 of `now` that has remainder `s8` modulo 256 (R57, R64). -/
def fullSecond (now s8 : Nat) : Nat :=
  let d := (s8 % 256 + (256 - now % 256)) % 256
  if 128 ≤ d then (now + (secondModulus - (256 - d))) % secondModulus else (now + d) % secondModulus

/-- The release tick of a launch second modulo 256 and launch tick, for an arrival in second `now`, under advance
`advance` (R57, R58). -/
def releaseTick (now s8 launchTick advance : Nat) : Time :=
  tsub (instant (fullSecond now s8) launchTick) advance

/-- The launch computation (R59). -/
def launchResult (labelled : Bool) (arrival r : Time) (holdMin holdMax : Nat) : Launched :=
  let h := tdiff r arrival
  if !labelled then .rejected .noTime
  else if h < (holdMin : Int) then .rejected .holdShort
  else if (holdMax : Int) < h then .rejected .holdLong
  else .release r

/-- Pq, the packet period in 65,536ths of a tick (R61). -/
def periodQ (periodInt periodFrac : Nat) : Nat := periodInt * 65536 + periodFrac

/-- offset(i) = floor(i × Pq / 65,536) (R62). -/
def offset (pq i : Nat) : Nat := i * pq / 65536

/-- The modulus of clock stamps, 2^33 × 300 (R66). -/
def stampModulus : Nat := 2576980377600

/-- The stamp units in `k` ticks, floor(k × 27 / 10) (R66). -/
def stampUnits (k : Nat) : Nat := k * 27 / 10

/-- The base of a break from the stamp observation: N0 at t0, first packet at t1 (R67). -/
def stampBase (n0 : Nat) (t0 t1 : Time) : Nat :=
  (n0 + stampUnits (tdiff t1 t0).toNat) % stampModulus

/-- A clip stamp rebased (R67). -/
def rebased (base c0 c : Nat) : Nat :=
  (base + (c + (stampModulus - c0 % stampModulus)) % stampModulus) % stampModulus

/-- The signed error of a pulse at tick `phi` (R4). -/
def pulseError (phi : Nat) : Int := if phi < 5000000 then (phi : Int) else (phi : Int) - 10000000

/-- The correction of a slew: the error clamped to −16..+16 (R6). -/
def clampSlew (e : Int) : Int := max (-16) (min 16 e)

/-- A value brought into a range (R164); the flag says whether it had to be. -/
def clampTo (lo hi v : Nat) : Nat × Bool :=
  if v < lo then (lo, true) else if hi < v then (hi, true) else (v, false)

/-! ### Things that fall at one instant -/

/-- Insertion by the rank of a thing's kind; things of one kind keep their order. -/
def insertByRank {α : Type} (draw : Nat) (kind : α → Nat) (a : α) : List α → List α
  | [] => [a]
  | b :: bs =>
    if kind a = kind b ∨ Config.tieRank draw (kind a) ≤ Config.tieRank draw (kind b) then a :: b :: bs
    else b :: insertByRank draw kind a bs

/-- The order in which the part takes things of one instant whose order the manual leaves open (log entry 3): things of
one kind keep the list's order, the kinds come in an order that nothing constrains. -/
def freeOrder {α : Type} (draw : Nat) (kind : α → Nat) (l : List α) : List α :=
  l.foldr (insertByRank draw kind) []

end Sys2Proof.Machine
end

