-- ==== Sys2Proof/Machine/Layout.lean ====
section
/-! DEFINITION. The layouts of chapter 12: transport packets, pacing and cue payloads, the CRC-32, and the encodings of
response data (R174, R175). -/

namespace Sys2Proof.Machine

open Sys2Proof

/-! ### Bytes and numbers -/

/-- The byte at an offset; bytes that are not there read as 0. -/
def byteAt (bs : List Byte) (i : Nat) : Nat := (bs.getD i 0).toNat

/-- The number that bytes spell, most significant byte first. -/
def number (bs : List Byte) : Nat := bs.foldl (fun n b => n * 256 + b.toNat) 0

/-- The number in the `n` bytes from offset `i`. -/
def field (bs : List Byte) (i n : Nat) : Nat := number ((bs.drop i).take n)

/-- A number in `n` bytes, most significant byte first. -/
def be : Nat → Nat → List Byte
  | 0, _ => []
  | n + 1, v => BitVec.ofNat 8 (v / 256 ^ n) :: be n v

/-- A signed number in `n` bytes, two's complement (R175). -/
def beInt (n : Nat) (v : Int) : List Byte := be n (v % (256 ^ n : Nat)).toNat

/-- A flag, or a choice such as on or off: one byte, 0 or 1 (R175). That clear and off are 0, set, on, open, active and
asserted 1 is the model's choice (log entry 14). -/
def flag (b : Bool) : List Byte := [if b then 1 else 0]

/-- An optional field of `size` bytes: a presence byte, then the field, or zeros when absent (R175). -/
def optional (size : Nat) : Option (List Byte) → List Byte
  | some bs => 1 :: bs
  | none => 0 :: List.replicate size 0

/-- A site instant: its second in 4 bytes, then its tick in 4 bytes (R175). -/
def instantBytes (t : Time) : List Byte := be 4 (t / ticksPerSecond) ++ be 4 (t % ticksPerSecond)

/-! ### Transport packets (12.1) -/

/-- The sync byte. -/
def syncByte : Byte := 0x47

/-- The bytes of every packet. -/
def packetLength : Nat := 188

/-- The null identifier. -/
def nullId : Nat := 8191

/-- The transport-error indicator. -/
def transportError (p : Packet) : Bool := 128 ≤ byteAt p 1

/-- The identifier, 0..8,191. -/
def identifier (p : Packet) : Nat := byteAt p 1 % 32 * 256 + byteAt p 2

/-- The adaptation-field control. -/
def adaptationControl (p : Packet) : Nat := byteAt p 3 / 16 % 4

/-- The continuity counter, 0..15. -/
def continuity (p : Packet) : Nat := byteAt p 3 % 16

/-- The packet shows a payload: its control is 1 or 3 (R174). -/
def showsPayload (p : Packet) : Bool := adaptationControl p == 1 || adaptationControl p == 3

/-- The payload: from offset 4 for control 1, from 5 plus the adaptation-field length for control 3; nothing otherwise,
or where it would begin beyond offset 187 (R174). -/
def payload (p : Packet) : List Byte :=
  if adaptationControl p == 1 then p.drop 4
  else if adaptationControl p == 3 then p.drop (5 + byteAt p 4)
  else []

/-- A stamp is present: control 2 or 3, length 7 or more, clock-stamp flag set (R174). -/
def hasStamp (p : Packet) : Bool :=
  (adaptationControl p == 2 || adaptationControl p == 3) && decide (7 ≤ byteAt p 4) && byteAt p 5 / 16 % 2 == 1

/-- The stamp's value, (base × 300 + extension) mod M (R66). -/
def stampValue (p : Packet) : Nat :=
  let base := field p 6 4 * 2 + byteAt p 10 / 128
  let extension := byteAt p 10 % 2 * 256 + byteAt p 11
  (base * 300 + extension) % stampModulus

/-- The packet with its identifier rewritten: byte 1 bits 4..0 and byte 2 (R174). -/
def withIdentifier (p : Packet) (id : Nat) : Packet :=
  (p.set 1 (BitVec.ofNat 8 (byteAt p 1 / 32 * 32 + id / 256 % 32))).set 2 (BitVec.ofNat 8 id)

/-- The packet with its continuity counter rewritten: byte 3 bits 3..0 (R174). -/
def withContinuity (p : Packet) (c : Nat) : Packet :=
  p.set 3 (BitVec.ofNat 8 (byteAt p 3 / 16 * 16 + c % 16))

/-- The packet with its stamp rewritten, the 6 reserved bits kept (R66, R174). -/
def withStamp (p : Packet) (v : Nat) : Packet :=
  let base := v / 300
  let extension := v % 300
  let q := (((p.set 6 (BitVec.ofNat 8 (base / 33554432))).set 7 (BitVec.ofNat 8 (base / 131072))).set 8
    (BitVec.ofNat 8 (base / 512))).set 9 (BitVec.ofNat 8 (base / 2))
  (q.set 10 (BitVec.ofNat 8 (base % 2 * 128 + byteAt p 10 / 2 % 64 * 2 + extension / 256))).set 11
    (BitVec.ofNat 8 extension)

/-- A null packet: 0x47, 0x1F, 0xFF, 0x10, then 184 bytes of 0xFF (R174, R69). -/
def nullPacket : Packet := [0x47, 0x1F, 0xFF, 0x10] ++ List.replicate 184 0xFF

/-! ### CRC-32 (R174) -/

/-- One bit of the CRC register, most significant bit first. -/
def crcShift (c : BitVec 32) : BitVec 32 :=
  if c.msb then (c <<< 1) ^^^ 0x04C11DB7#32 else c <<< 1

/-- One byte into the CRC register. -/
def crcByte (c : BitVec 32) (b : Byte) : BitVec 32 :=
  let c := c ^^^ (b.zeroExtend 32 <<< 24)
  crcShift (crcShift (crcShift (crcShift (crcShift (crcShift (crcShift (crcShift c)))))))

/-- The CRC-32 of bytes: polynomial 0x04C11DB7, from 0xFFFFFFFF, no reflection, no final inversion. -/
def crc32 (bs : List Byte) : Nat := (bs.foldl crcByte 0xFFFFFFFF#32).toNat

/-! ### Pacing and cue payloads (12.1) -/

/-- What a valid pacing packet carries. -/
structure Pacing where
  group : Nat
  declared : Nat
  second8 : Nat
  tick : Nat
  deriving DecidableEq, Repr

/-- A valid pacing packet, or none (R26, R174). -/
def pacingOf (p : Packet) : Option Pacing :=
  let q := payload p
  if showsPayload p && decide (14 ≤ q.length) && byteAt q 0 == 0x5A && crc32 (q.take 10) == field q 10 4
      && decide (2 ≤ field q 3 2) && decide (field q 3 2 ≤ 8192) && decide (field q 6 4 ≤ 9999999) then
    some ⟨field q 1 2, field q 3 2, byteAt q 5, field q 6 4⟩
  else none

/-- The kinds of a cue (R52). -/
inductive CueKind where
  | out | in_ | cancel
  deriving DecidableEq, Repr

/-- What a valid cue packet carries: number, kind, air second modulo 256 and air tick when its instant is present, and
its duration when present. -/
structure Cue where
  number : Nat
  kind : CueKind
  air : Option (Nat × Nat)
  duration : Option Nat
  deriving DecidableEq, Repr

/-- The kind that a byte names (12.1). -/
def cueKind : Nat → Option CueKind
  | 1 => some .out
  | 2 => some .in_
  | 3 => some .cancel
  | _ => none

/-- A valid cue packet, or none (R52, R174). -/
def cueOf (p : Packet) : Option Cue :=
  let q := payload p
  if showsPayload p && decide (18 ≤ q.length) && byteAt q 0 == 0xC5 && crc32 (q.take 14) == field q 14 4 then
    match cueKind (byteAt q 3) with
    | none => none
    | some kind =>
      let timed := byteAt q 4 % 2 == 1
      let lasts := byteAt q 4 / 2 % 2 == 1
      if timed && decide (9999999 < field q 6 4) then none
      else some ⟨field q 1 2, kind, if timed then some (byteAt q 5, field q 6 4) else none,
        if lasts then some (field q 10 4) else none⟩
  else none

/-! ### Encodings of enumerated values (R175) -/

/-- Position in "FREE, ACQUIRING, LOCKED, HOLDOVER, EXPIRED". -/
def Discipline.code : Discipline → Nat
  | .free => 0 | .acquiring => 1 | .locked => 2 | .holdover => 3 | .expired => 4

/-- STATION 0, NETWORK 1. -/
def portCode : Port → Nat
  | .station => 0 | .network => 1

/-- A feed as a subject or a detail: 1 for A, 2 for B. -/
def feedCode : FeedId → Nat
  | .a => 1 | .b => 2

/-- The active feed as a subject, a detail or a value: NONE 0, A 1, B 2. -/
def activeCode : Option FeedId → Nat
  | none => 0 | some f => feedCode f

/-- A feed as a value of a command or of response data: A 0, B 1 (log entry 14). -/
def feedValue : FeedId → Nat
  | .a => 0 | .b => 1

/-- LOW 0, HIGH 1. -/
def levelCode : Level → Nat
  | .low => 0 | .high => 1

/-- Position in "SEARCH, VERIFY, LOCKED". -/
def SyncState.code : SyncState → Nat
  | .search => 0 | .verify => 1 | .locked => 2

/-- Position in the table of record states (2.3). -/
def Phase.code : Phase → Nat
  | .opened => 0 | .complete => 1 | .short => 2 | .queued => 3 | .emitting => 4

/-- Position in "AUTO, ONLY_A, ONLY_B". -/
def FeedMode.code : FeedMode → Nat
  | .auto => 0 | .onlyA => 1 | .onlyB => 2

/-- The details of GROUP_DROPPED. -/
def DropReason.code : DropReason → Nat
  | .noTime => 0 | .holdShort => 1 | .holdLong => 2 | .gateClosed => 3 | .late => 4 | .stepped => 5 | .truncated => 6

/-- Position in "FREE, PREROLL, ON_AIR". -/
def LaneState.code : LaneState → Nat
  | .free => 0 | .preroll => 1 | .onAir => 2

/-- Position in the table of break states (7.2). -/
def BreakState.code : BreakState → Nat
  | .free => 0 | .loaded => 1 | .waiting => 2 | .cued => 3 | .onAir => 4 | .ended => 5

/-- RISE 0, FALL 1, as an operand of a trigger. -/
def Polarity.code : Polarity → Nat
  | .rise => 0 | .fall => 1

/-- FALL 0, RISE 1, as a detail of LINE_EDGE. -/
def Polarity.detail : Polarity → Nat
  | .rise => 1 | .fall => 0

/-- RETURN 0, FILL 1. -/
def Exhaust.code : Exhaust → Nat
  | .ret => 0 | .fill => 1

/-- Position in "LENGTH, IN_CUE, GUARD, CLIP_END, CANCEL, WINDOW". -/
def YSource.code : YSource → Nat
  | .length => 0 | .inCue => 1 | .guard => 2 | .clipEnd => 3 | .cancel => 4 | .window => 5

/-- Position in the table of R106. -/
def EndCause.code : EndCause → Nat
  | .scheduled => 0 | .clipEnd => 1 | .guard => 2 | .cancelled => 3 | .recalled => 4 | .stopped => 5 | .listEmpty => 6
  | .blocked => 7 | .slotBusy => 8 | .noLane => 9 | .missed => 10 | .noAir => 11

/-- Position in "FREE, PENDING, ACTIVE". -/
def WindowState.code : WindowState → Nat
  | .free => 0 | .pending => 1 | .active => 2

/-- Position in "NONE, MAIN, RESERVE, SITE". -/
def Role.code : Role → Nat
  | .none => 0 | .main => 1 | .reserve => 2 | .site => 3

/-- Position in "NORMAL, LOW, HIGH". -/
def ChannelState.code : ChannelState → Nat
  | .normal => 0 | .low => 1 | .high => 2

/-- Position in "L, N, H" (log entry 14). -/
def ChannelClass.code : ChannelClass → Nat
  | .l => 0 | .n => 1 | .h => 2

/-- MAIN 0, RESERVE 1. -/
def Position.code : Position → Nat
  | .main => 0 | .reserve => 1

/-- Position in the list of functions, inputs and then outputs (chapter 10). -/
def LineFunction.code : LineFunction → Nat
  | .plain => 0 | .trigger => 1 | .mainFault => 2 | .reserveFault => 3 | .interlock => 4
  | .level => 5 | .blink => 6 | .changeover => 7 | .carrierMute => 8 | .gate => 9 | .tally => 10 | .alert => 11

/-- Position in "STANDBY, STARTING, RUN". -/
def PartState.code : PartState → Nat
  | .standby => 0 | .starting => 1 | .run => 2

/-- Result codes 0..10 (R175). -/
def ResultCode.code : ResultCode → Nat
  | .ok => 0 | .unknown => 1 | .badLength => 2 | .badValue => 3 | .wrongState => 4 | .notOwner => 5
  | .notPermitted => 6 | .locked => 7 | .inUse => 8 | .tableFull => 9 | .faulted => 10

/-- Event kinds 1..20 (R175). -/
def EventKind.code : EventKind → Nat
  | .timebaseState => 1 | .labelApplied => 2 | .gate => 3 | .feedSync => 4 | .poolOverrun => 5 | .feedSwitch => 6
  | .groupMissing => 7 | .sequenceRestart => 8 | .groupDropped => 9 | .startComplete => 10 | .breakCued => 11
  | .breakOnAir => 12 | .breakEnded => 13 | .windowActive => 14 | .windowEnded => 15 | .channelLimit => 16
  | .captureHeld => 17 | .changeover => 18 | .changeoverHold => 19 | .lineEdge => 20

/-- The 17 bytes of an event record (12.2). -/
def Event.bytes (e : Event) : List Byte := be 1 e.kind.code ++ be 4 e.subject ++ be 4 e.detail ++ instantBytes e.time

/-- The bytes of a response frame (12.2). -/
def Response.bytes (r : Response) : List Byte :=
  be 1 r.code.code
    ++ be 1 ((if r.overrun then 1 else 0) + (if r.lost then 2 else 0) + (if r.eventsPending then 4 else 0)
      + (if r.clamped then 8 else 0))
    ++ be 2 r.data.length ++ r.data

end Sys2Proof.Machine
end

