-- ==== Sys2Proof/Machine/Flags.lean ====
section
/-! DEFINITION. What the manual derives from other state: site time, launch gate, feed exclusion, exciter health,
carrier mute, the levels the contact lines drive, standing windows, the use of play lists and spans. -/

namespace Sys2Proof.Machine

open Sys2Proof

/-! ### Records by their numbers -/

/-- The state of a feed. -/
def State.feed (s : State) : FeedId → Feed
  | .a => s.feedA
  | .b => s.feedB

/-- The state of a port. -/
def State.port (s : State) : Port → PortState
  | .station => s.station
  | .network => s.network

/-- The record at a place of the group table. -/
def State.record (s : State) (place : Nat) : Option GroupRecord := s.store.table.getD place none

/-- A lane record. -/
def State.lane (s : State) (i : Nat) : Lane := s.lanes.getD i .reset

/-- A slot. -/
def State.slot (s : State) (i : Nat) : Slot := s.splice.slots.getD i .reset

/-- A break record. -/
def State.brk (s : State) (i : Nat) : BreakRecord := s.splice.breaks.getD i .empty

/-- A window record. -/
def State.window (s : State) (i : Nat) : Window := s.windows.getD i .empty

/-- A channel record. -/
def State.channel (s : State) (i : Nat) : Channel := s.mon.channels.getD i .reset

/-- A line record. -/
def State.line (s : State) (i : Nat) : Line := s.lines.records.getD i (.reset .low)

/-- A play list: its segments in order. -/
def State.playList (s : State) (i : Nat) : List Segment := s.clip.playLists.getD i []

/-! ### Timebase -/

/-- Site time. -/
def State.now (s : State) : Time := instant s.tb.second s.tb.tick

/-- The launch gate: open exactly when labelled and LOCKED or HOLDOVER (R14). -/
def Timebase.gateOpen (tb : Timebase) : Bool :=
  tb.labelled && (tb.discipline == .locked || tb.discipline == .holdover)

/-- The period in progress is the last of its second: tick 9,999,999 held long enough, or the tick before the first one
a slew skips (R6). -/
def Timebase.atSecondEnd (tb : Timebase) : Bool :=
  !tb.markHold &&
    if 0 ≤ tb.correction then decide (9999999 ≤ tb.tick) && decide (tb.correction.toNat ≤ tb.held)
    else decide (9999999 - tb.correction.natAbs ≤ tb.tick)

/-! ### Feeds and groups -/

/-- The feed mode excludes the feed (R50, R40). -/
def FeedMode.excludes : FeedMode → FeedId → Bool
  | .onlyA, .b => true
  | .onlyB, .a => true
  | _, _ => false

/-- A copy waiting for the selector, open or closed. -/
def GroupRecord.held (r : GroupRecord) : Bool := r.phase == .opened || r.phase == .complete || r.phase == .short

/-- A closed copy waiting for the selector. -/
def GroupRecord.closed (r : GroupRecord) : Bool := r.phase == .complete || r.phase == .short

/-- The records in use with their places, lowest place first. -/
def Store.records (st : Store) : List (Nat × GroupRecord) :=
  (st.table.zipIdx).filterMap fun (r, i) => r.map fun g => (i, g)

/-- The number of records in use (R36). -/
def Store.used (st : Store) : Nat := st.records.length

/-- The lowest-numbered free place (R28). -/
def Store.freePlace (st : Store) : Option Nat := st.table.findIdx? (·.isNone)

/-- The copy of a group number that a feed holds, open or closed. -/
def State.heldCopy (s : State) (f : FeedId) (n : Nat) : Option (Nat × GroupRecord) :=
  s.store.records.find? fun (_, r) => r.held && r.feed == f && r.group == n

/-- The group number in emission (R27). -/
def State.emittingGroup (s : State) : Option Nat :=
  match s.launch.emitting with
  | some e => (s.record e.place).map (·.group)
  | none => none

/-- Pq in force (R61). -/
def Launch.pq (l : Launch) : Nat := periodQ l.periodInt l.periodFrac

/-! ### The exciter outputs (R68) -/

/-- The periods of the site clock that the 188 bytes of a packet take to leave, at least one (log entry 5). -/
def byteOutTime : Nat := max 1 Config.byteOutPeriods

/-- Which of the 188 bytes of the packet in front is leaving, 0 to 187, its periods spread evenly over its bytes. -/
def Leaving.byteIndex (x : Leaving) : Nat := packetLength * (byteOutTime - x.left) / byteOutTime

/-- What an exciter output carries at one instant (R68). -/
structure OutputSignals where
  data : Byte
  valid : Bool
  packetStart : Bool
  deriving DecidableEq, Repr

/-- What an exciter output carries: a byte of the packet that is leaving with valid asserted, and packet-start with its
first byte; an idle byte with both deasserted where no packet is being sent. The two outputs carry the same bytes at the
same instants, so the position does not enter (R68). -/
def State.exciterOutput (s : State) (_ : Position) : OutputSignals :=
  match s.launch.outputs with
  | [] => ⟨Config.idleByte s.now, false, false⟩
  | x :: _ => ⟨x.packet.getD x.byteIndex 0, true, x.byteIndex == 0⟩

/-! ### Clip memory in use -/

/-- The total count of a list (R88). -/
def totalCount (segments : List Segment) : Nat := (segments.map (·.count)).sum

/-- The active span of a lane: the segment its read position names (R92). -/
def State.activeSpan (s : State) (i : Nat) : Option Segment :=
  let l := s.lane i
  if l.state == .free then none
  else
    match l.position, l.playList with
    | some (seg, _), some pl => (s.playList pl)[seg]?
    | _, _ => none

/-- The lane in PREROLL or ON_AIR bound to a list (R88). R90 speaks of one lane; DESIGN CHOICE: where two lanes are bound to
one list it is the lowest-numbered (log entry 36). -/
def State.listUser (s : State) (list : Nat) : Option Nat :=
  (List.range 4).find? fun i => (s.lane i).state != .free && (s.lane i).playList == some list

/-! ### Breaks and windows -/

/-- A break is CUED or ON_AIR. -/
def BreakRecord.live (b : BreakRecord) : Bool := b.state == .cued || b.state == .onAir

/-- The break CUED or ON_AIR on a slot, lowest index first (R120). -/
def State.liveBreak (s : State) (slot : Nat) : Option Nat :=
  (List.range 32).find? fun i => (s.brk i).live && (s.brk i).slot == slot

/-- A window in state PENDING or ACTIVE (R123). -/
def Window.standing (w : Window) : Bool := w.state != .free

/-- The window covers the slot (R123). -/
def Window.covers (w : Window) (slot : Nat) : Bool := w.mask.getLsbD slot

/-- The window blocks a break triggered with splice-out instant `x` (R108, check 2). -/
def Window.blocks (w : Window) (slot : Nat) (x : Time) : Bool :=
  w.standing && w.covers slot &&
    ((reached x w.start && earlier x w.stop) || (w.state == .active && earlier x w.stop))

/-! ### Exciter health and carrier mute -/

/-- An input's level after invert (chapter 10). -/
def Line.inputLevel (l : Line) : Level := if l.invert then l.accepted.turn else l.accepted

/-- An input of the function is at its active level (R137). -/
def Line.activeAs (l : Line) (fn : LineFunction) : Bool := !l.output && l.function == fn && l.inputLevel == .high

/-- A channel of the role is LOW or HIGH (R137). -/
def Channel.faultAs (c : Channel) (role : Role) : Bool := c.role == role && c.state != .normal

/-- The main fault (R137). -/
def State.mainFault (s : State) : Bool :=
  s.lines.records.any (·.activeAs .mainFault) || s.mon.channels.any (·.faultAs .main)

/-- The reserve fault (R137). -/
def State.reserveFault (s : State) : Bool :=
  s.lines.records.any (·.activeAs .reserveFault) || s.mon.channels.any (·.faultAs .reserve)

/-- The site interlock (R137). -/
def State.siteInterlock (s : State) : Bool :=
  s.lines.records.any (·.activeAs .interlock) || s.mon.channels.any (·.faultAs .site)

/-- The fault of the exciter of a position (R143). -/
def State.faultOf (s : State) : Position → Bool
  | .main => s.mainFault
  | .reserve => s.reserveFault

/-- The part cause of the carrier mute (R138). -/
def State.mutePart (s : State) : Bool := s.part != .run

/-- The gate cause (R138). -/
def State.muteGate (s : State) : Bool := !s.tb.gateOpen

/-- The interlock cause (R138). -/
def State.muteInterlock (s : State) : Bool := s.siteInterlock

/-- The both-faulted cause (R138). -/
def State.muteBoth (s : State) : Bool := s.mainFault && s.reserveFault

/-- The holders cause (R138). -/
def State.muteHolders (s : State) : Bool := s.chg.muteStation || s.chg.muteNetwork

/-- The carrier mute: asserted while any of its five causes holds (R138). -/
def State.carrierMute (s : State) : Bool :=
  s.mutePart || s.muteGate || s.muteInterlock || s.muteBoth || s.muteHolders

/-! ### Contact-line outputs -/

/-- The level an output's function gives, before invert (R153). -/
def State.functionLevel (s : State) (l : Line) : Level :=
  match l.function with
  | .level => l.commanded
  | .blink => s.lines.blink
  | .changeover => .ofBool (s.chg.position == .reserve)
  | .carrierMute => .ofBool s.carrierMute
  | .gate => .ofBool s.tb.gateOpen
  | .tally => .ofBool (match l.tallyLane with | some i => (s.lane i).state == .onAir | none => false)
  | .alert => .ofBool (s.mainFault || s.reserveFault || s.siteInterlock)
  | _ => .low

/-- The driven level: the frozen level of a locked output, else what the function gives, turned over when invert is set
(R153, R156). -/
def State.drivenLevel (s : State) (l : Line) : Level :=
  match l.frozen with
  | some v => v
  | none => if l.invert then (s.functionLevel l).turn else s.functionLevel l

/-! ### Ports -/

/-- The ready line (R160). -/
def PortState.ready (q : PortState) : Bool := q.response.isSome

/-- The attention line (R171). -/
def PortState.attention (q : PortState) : Bool := !q.events.isEmpty

/-- The part is in RUN. -/
def State.running (s : State) : Bool := s.part == .run

end Sys2Proof.Machine
end

