-- ==== Sys2Proof/Machine/Memory.lean ====
section
/-! DEFINITION. Clip memory (R83): the slots written since the last power-on as (slot, packet) pairs in one canonical
form, addresses strictly rising. A slot that is not listed holds contents the manual leaves unspecified: it reads as
188 bytes that nothing constrains, the same at every read. -/

namespace Sys2Proof.Machine

open Sys2Proof

/-- The number of clip slots (R83). -/
def clipSlots : Nat := 2097152

/-- The packet listed at a slot. -/
def cellsFind : List (Nat × Packet) → Nat → Option Packet
  | [], _ => none
  | (b, q) :: rest, a => if b = a then some q else cellsFind rest a

/-- Write one slot whole, keeping the addresses rising. -/
def cellsWrite : List (Nat × Packet) → Nat → Packet → List (Nat × Packet)
  | [], a, p => [(a, p)]
  | (b, q) :: rest, a, p =>
    if a < b then (a, p) :: (b, q) :: rest
    else if a = b then (a, p) :: rest
    else (b, q) :: cellsWrite rest a p

/-- The addresses are strictly rising and each is greater than `lo` allows. -/
def cellsRising : List (Nat × Packet) → Nat → Bool
  | [], _ => true
  | (a, _) :: rest, lo => decide (lo ≤ a) && cellsRising rest (a + 1)

/-- The canonical form of clip memory: addresses strictly rising, all of them clip slots. -/
def Memory.wf (cells : List (Nat × Packet)) : Bool :=
  cellsRising cells 0 && cells.all fun (a, _) => decide (a < clipSlots)

/-- The unspecified contents of a slot, for one occasion (log entry 4). -/
def unspecifiedPacket (occasion slot : Nat) : Packet :=
  (List.range packetLength).map fun i => Config.unspecifiedClipByte occasion slot i

/-- What a clip slot holds (R83). -/
def Clip.readSlot (c : Clip) (a : Nat) : Packet :=
  match cellsFind c.cells a with
  | some p => p
  | none => unspecifiedPacket c.occasion a

/-- A clip slot written whole (R85). -/
def Clip.writeSlot (c : Clip) (a : Nat) (p : Packet) : Clip := { c with cells := cellsWrite c.cells a p }

end Sys2Proof.Machine
end

