-- ==== Sys2Proof/Machine/Ops.lean ====
section
/-! DEFINITION. The operations every block shares: putting a block or a record back into the state, raising an event,
taking a frame and making a response ready, freeing a group record, serving the clip memory. -/

namespace Sys2Proof.Machine

open Sys2Proof

/-! ### Putting a block back -/

def State.withTb (s : State) (x : Timebase) : State := { s with tb := x }
def State.withStore (s : State) (x : Store) : State := { s with store := x }
def State.withSel (s : State) (x : Selector) : State := { s with sel := x }
def State.withLaunch (s : State) (x : Launch) : State := { s with launch := x }
def State.withClip (s : State) (x : Clip) : State := { s with clip := x }
def State.withLanes (s : State) (x : List Lane) : State := { s with lanes := x }
def State.withSplice (s : State) (x : Splice) : State := { s with splice := x }
def State.withWindows (s : State) (x : List Window) : State := { s with windows := x }
def State.withMon (s : State) (x : Monitor) : State := { s with mon := x }
def State.withChg (s : State) (x : Changeover) : State := { s with chg := x }
def State.withLines (s : State) (x : Lines) : State := { s with lines := x }
def State.withPart (s : State) (x : PartState) : State := { s with part := x }
def State.withLock (s : State) (x : Bool) : State := { s with paramLock := x }

/-- The state of a feed replaced. -/
def State.withFeed (s : State) (f : FeedId) (x : Feed) : State :=
  match f with
  | .a => { s with feedA := x }
  | .b => { s with feedB := x }

/-- The state of a port replaced. -/
def State.withPort (s : State) (p : Port) (x : PortState) : State :=
  match p with
  | .station => { s with station := x }
  | .network => { s with network := x }

/-- A place of the group table replaced. -/
def State.withRecord (s : State) (place : Nat) (r : Option GroupRecord) : State :=
  s.withStore { s.store with table := s.store.table.set place r }

/-- A lane record replaced. -/
def State.withLane (s : State) (i : Nat) (x : Lane) : State := s.withLanes (s.lanes.set i x)

/-- A slot replaced. -/
def State.withSlot (s : State) (i : Nat) (x : Slot) : State :=
  s.withSplice { s.splice with slots := s.splice.slots.set i x }

/-- A break record replaced. -/
def State.withBreak (s : State) (i : Nat) (x : BreakRecord) : State :=
  s.withSplice { s.splice with breaks := s.splice.breaks.set i x }

/-- A window record replaced. -/
def State.withWindow (s : State) (i : Nat) (x : Window) : State := s.withWindows (s.windows.set i x)

/-- A channel record replaced. -/
def State.withChannel (s : State) (i : Nat) (x : Channel) : State :=
  s.withMon { s.mon with channels := s.mon.channels.set i x }

/-- A line record replaced. -/
def State.withLine (s : State) (i : Nat) (x : Line) : State :=
  s.withLines { s.lines with records := s.lines.records.set i x }

/-- A play list replaced. -/
def State.withPlayList (s : State) (i : Nat) (x : List Segment) : State :=
  s.withClip { s.clip with playLists := s.clip.playLists.set i x }

/-- One free choice more has been drawn (log entry 3). -/
def State.draw (s : State) : State := { s with draws := s.draws + 1 }

/-! ### Events (R171) -/

/-- An event offered to one port: nothing when its mask disables the kind, the tail of the queue when it holds fewer
than 32 records, and one lost event otherwise. -/
def PortState.offer (q : PortState) (e : Event) : PortState :=
  if q.mask.getD (e.kind.code - 1) true then
    if q.events.length < 32 then { q with events := q.events ++ [e] }
    else { q with lostEvents := bump16 q.lostEvents }
  else q

/-- An event raised: offered to both ports with the site time at which it is raised. At a packet start whose tick a slew has
skipped, that is the present site time and not the packet's computed start (log entry 39). -/
def State.raise (s : State) (kind : EventKind) (subject detail : Nat) : State :=
  let e : Event := ⟨kind, subject, detail, s.now⟩
  { s with station := s.station.offer e, network := s.network.offer e }

/-! ### Frames and responses (R159 to R162) -/

/-- What a completed command answers: result code, CLAMPED, data. -/
structure Reply where
  code : ResultCode
  clamped : Bool := false
  data : List Byte := []
  deriving DecidableEq, Repr

/-- OK with data. -/
def Reply.ok (data : List Byte) : Reply := ⟨.ok, false, data⟩

/-- A refusal: it carries no data (R160). -/
def Reply.no (code : ResultCode) : Reply := ⟨code, false, []⟩

/-- A response made ready on a port (R160): OVERRUN and RESPONSE_LOST take the port's flags, which are then cleared, and
EVENTS_PENDING tells whether events wait at that instant. -/
def PortState.respond (q : PortState) (r : Reply) : PortState :=
  { q with
    response := some ⟨r.code, q.overrun, q.lost, !q.events.isEmpty, r.clamped, r.data⟩
    overrun := false
    lost := false }

/-- A response made ready on port `p` of the part. -/
def State.respond (s : State) (p : Port) (r : Reply) : State := s.withPort p ((s.port p).respond r)

/-- The filler that goes out during a command frame of so many bytes, the transaction ended (R159). -/
def PortState.filled (q : PortState) (received : Nat) : PortState :=
  { q with transaction := .none, dataOut := List.replicate received 0 }

/-- A pending response discarded unread by a new frame (R162). -/
def PortState.discardResponse (q : PortState) : PortState :=
  { q with response := none, lost := q.lost || q.response.isSome }

/-- The port after a command frame of so many bytes has been taken from it and before the command acts. -/
def PortState.taken (q : PortState) (received : Nat) : PortState := (q.filled received).discardResponse

/-- The port after a command frame of so many bytes has been discarded whole (R161). -/
def PortState.overran (q : PortState) (received : Nat) : PortState := { q.filled received with overrun := true }

/-- The bytes of a command frame: code, length, parameters (12.2). -/
def frameBytes (params : List Byte) : Nat := params.length + 3

/-- A frame taken on port `p` (R159, R161, R162): overrun while a long command is in progress, else the pending
response is discarded and the frame is dealt with by `act`, which answers at once or leaves a long command. -/
def State.onFrame (s : State) (p : Port) (received : Nat) (act : State → State × Option Reply) : State :=
  if (s.port p).inProgress.isSome then s.withPort p ((s.port p).overran received)
  else
    match act (s.withPort p ((s.port p).taken received)) with
    | (t, some r) => t.respond p r
    | (t, none) => t

/-- A frame whose command refuses every length but the ones `fits` allows, before its own checks (R159). -/
def State.onCommand (s : State) (p : Port) (params : List Byte) (fits : Bool)
    (act : State → State × Option Reply) : State :=
  s.onFrame p (frameBytes params) fun s =>
    if params.length ≤ maxParams && fits then act s else (s, some (.no .badLength))

/-- A command refused without effect. -/
def refuse (code : ResultCode) (s : State) : State × Option Reply := (s, some (.no code))

/-- A command done, with OK and no data. -/
def done (s : State) : State × Option Reply := (s, some (.ok []))

/-- A read: OK with data, and nothing changed. -/
def answer (data : List Byte) (s : State) : State × Option Reply := (s, some (.ok data))

/-- The station port under the parameter lock (R168). -/
def State.lockedOut (s : State) (p : Port) : Bool := s.paramLock && p == .station

/-! ### Group records (R32) -/

/-- A place out of a feed's open copy (R32). -/
def Feed.release (f : Feed) (place : Nat) : Feed := if f.openCopy = some place then { f with openCopy := none } else f

/-- A record handed back: its cells return to the free list, its place becomes free, and it is no feed's open copy. -/
def State.freeRecord (s : State) (place : Nat) : State :=
  match s.record place with
  | none => s
  | some r =>
    { s with
      store := { table := s.store.table.set place none, freeCells := s.store.freeCells + r.cells.length }
      feedA := s.feedA.release place
      feedB := s.feedB.release place }

/-- Several records handed back. -/
def State.freeRecords (s : State) (places : List Nat) : State := places.foldl State.freeRecord s

/-! ### Serving the clip memory (R87) -/

/-- A lane waits for a slot: it reads while its queue holds fewer than 64 packets and its position is not finished
(R92). -/
def Lane.waits (l : Lane) : Bool := l.state != .free && decide (l.queue.length < 64) && l.position.isSome

/-- The slot at a lane's read position (R92). -/
def State.readSlotOf (s : State) (i : Nat) : Option Nat :=
  let l := s.lane i
  match l.position, l.playList with
  | some (seg, pkt), some pl => ((s.playList pl)[seg]?).map fun g => g.first + pkt
  | _, _ => none

/-- The clip command in progress on a port. -/
def PortState.clipCommand (q : PortState) : Option ClipCommand :=
  match q.inProgress with
  | some (.clip c) => some c
  | _ => none

/-- The access a port's clip command waits for. -/
def State.portAccess (s : State) (p : Port) : Option Access :=
  ((s.port p).clipCommand).map fun c =>
    if c.write then .write p c.next (c.packets.headD []) false else .read p c.next false

/-- The lowest-numbered lane that waits for a slot, with that slot (R87). -/
def State.waitingLane (s : State) : Option (Nat × Nat) :=
  (List.range 4).findSome? fun i => if (s.lane i).waits then (s.readSlotOf i).map (fun a => (i, a)) else none

/-- The next slot access is chosen when none is being served: lane reads first, the lowest lane first of all, and
between the ports the one whose turn it is (R87). -/
def State.arbitrate (s : State) : State :=
  match s.clip.service with
  | some _ => s
  | none =>
    match s.waitingLane with
    | some (i, a) => s.withClip { s.clip with service := some (.lane i a false) }
    | none =>
      match s.portAccess s.clip.turn, s.portAccess s.clip.turn.other with
      | some a, _ => s.withClip { s.clip with service := some a, turn := s.clip.turn.other }
      | none, some a => s.withClip { s.clip with service := some a, turn := s.clip.turn }
      | none, none => s

/-- The slot access of a lane in flight is discarded when it completes (R94). -/
def Access.discardLane (a : Access) (i : Nat) : Access :=
  match a with
  | .lane j slot d => .lane j slot (d || j == i)
  | a => a

/-- The slot access of a port in hand is finished, and its command is gone (R85, R86). -/
def Access.abandon (a : Access) (p : Port) : Access :=
  match a with
  | .write q slot packet x => .write q slot packet (x || q == p)
  | .read q slot x => .read q slot (x || q == p)
  | a => a

/-! ### Lanes (R91, R93, R94) -/

/-- The lowest-numbered FREE lane (R91). -/
def State.freeLane (s : State) : Option Nat := (List.range 4).find? fun i => (s.lane i).state == .free

/-- A lane bound to a break and a play list: the claim (R91). -/
def State.claimLane (s : State) (i brk list : Nat) : State :=
  (s.withLane i ⟨.preroll, some brk, some list, some (0, 0), [], 0, 0, 0, false⟩).arbitrate

/-- A lane freed at its break's end; its counts stay (R94). -/
def State.releaseLane (s : State) (i : Nat) : State :=
  let s := s.withLane i
    { s.lane i with state := .free, break_ := none, playList := none, position := none, queue := [], clipEnd := false }
  s.withClip { s.clip with service := s.clip.service.map (·.discardLane i) }

/-- Clip end is set when reading is finished and the queue is empty, and the clip status of the break becomes EXHAUSTED
with it (R93, R106). -/
def State.settleClipEnd (s : State) (i : Nat) : State :=
  let l := s.lane i
  if l.state != .free && l.position.isNone && l.queue.isEmpty && !l.clipEnd then
    let s := s.withLane i { l with clipEnd := true }
    match l.break_ with
    | some b => s.withBreak b { s.brk b with exhausted := true }
    | none => s
  else s

end Sys2Proof.Machine
end

