-- ==== Sys2Proof/Machine/ScheduleOps.lean ====
section
/-! DEFINITION. The shared operations of the Launch Scheduler: head decisions, drops, the withdrawal of a scheduled
start, a step of the timebase, and the sending of a packet (R68 to R72, R75). -/

namespace Sys2Proof.Machine

open Sys2Proof

/-! ### Sending (R68) -/

/-- A packet begins on both exciter outputs. Where bytes of the previous packet are still leaving it is a late start,
and its bytes follow theirs. -/
def Launch.send (l : Launch) (packet : Packet) (start : Time) : Launch :=
  { l with
    stats := { l.stats with lateStarts := if l.outputs.isEmpty then l.stats.lateStarts else bump l.stats.lateStarts }
    outputs := l.outputs ++ [⟨packet, start, byteOutTime⟩] }

/-- What is leaving on the outputs, one period of the site clock on: the packet in front has one period less to leave, and
is gone with its last (R68). -/
def drainOutputs : List Leaving → List Leaving
  | [] => []
  | x :: rest => if x.left ≤ 1 then rest else { x with left := x.left - 1 } :: rest

/-! ### Drops (R71, R72, R75, R79) -/

/-- The drop count of a reason one higher (R78). -/
def LaunchStats.drop (t : LaunchStats) : DropReason → LaunchStats
  | .noTime => { t with noTime := bump t.noTime }
  | .holdShort => { t with holdShort := bump t.holdShort }
  | .holdLong => { t with holdLong := bump t.holdLong }
  | .gateClosed => { t with gateClosed := bump t.gateClosed }
  | .late => { t with late := bump t.late }
  | .stepped => { t with stepped := bump t.stepped }
  | .truncated => { t with truncated := bump t.truncated }

/-- A group dropped or truncated: its record is freed, the count of the reason increases and GROUP_DROPPED is raised. -/
def State.dropGroup (s : State) (place : Nat) (why : DropReason) : State :=
  let group := ((s.record place).map (·.group)).getD 0
  let s := s.freeRecord place
  let s := s.withLaunch { s.launch with stats := s.launch.stats.drop why }
  s.raise .groupDropped group why.code

/-- The head of the launch queue dropped (R71). -/
def State.dropHead (s : State) (why : DropReason) : State :=
  match s.sel.queue with
  | [] => s
  | place :: rest => (s.withSel { s.sel with queue := rest }).dropGroup place why

/-! ### Head decisions (R70, R71) -/

/-- Q: the latest of the present site time, the last end tick and the slot end of the null in progress (R70). -/
def State.earliestStart (s : State) : Time :=
  let q := s.now
  let q := match s.launch.lastEnd with | some e => tmax q e | none => q
  match s.launch.nullEnd with | some e => tmax q e | none => q

/-- The reason a reject reason drops a group with (R71). -/
def RejectReason.drop : RejectReason → DropReason
  | .noTime => .noTime
  | .holdShort => .holdShort
  | .holdLong => .holdLong

/-- The outcome of a head decision for one group (R71): a drop reason, or a start with its slip. DESIGN CHOICE: where R lies
exactly 2^31 seconds from Q, which the modular difference puts behind Q and R71 gives no slip in range, the start is at Q with
slip 0 (log entry 41). -/
def headOutcome (gateOpen : Bool) (launched : Launched) (q : Time) (tolerance : Nat) : DropReason ⊕ Scheduled :=
  if !gateOpen then .inl .gateClosed
  else
    match launched with
    | .rejected why => .inl why.drop
    | .release r =>
      if reached r q then .inr ⟨r, false, 0⟩
      else
        let slip := (tdiff q r).toNat
        if slip ≤ tolerance then .inr ⟨q, true, slip⟩ else .inl .late

/-- A head decision with Q given: it is made again with the same Q after each drop (R70, R71). The queue holds at most
the 128 records of the table; `fuel` is the number of decisions that can be made. -/
def State.decideHead (q : Time) : (fuel : Nat) → State → State
  | 0, s => s
  | fuel + 1, s =>
    match s.sel.queue with
    | [] => s
    | place :: _ =>
      match s.record place with
      | none => s
      | some r =>
        match headOutcome s.tb.gateOpen r.launched q s.launch.slipTolerance with
        | .inl why => State.decideHead q fuel (s.dropHead why)
        | .inr start => s.withLaunch { s.launch with scheduled := some start }

/-- The head decision of R70, made when a group is at the head, none is EMITTING and no start is scheduled. -/
def State.headDecision (s : State) : State :=
  if s.launch.emitting.isNone && s.launch.scheduled.isNone then
    s.decideHead s.earliestStart s.sel.queue.length
  else s

/-! ### Null fill (R69) -/

/-- The least index whose null starts at or after an instant `k` ticks into the gap, from `j` up. -/
def resumeIndex (pq j k : Nat) : Nat := max j ((k * 65536 + (pq - 1)) / pq)

/-- A new stretch of null fill from an origin (R69). -/
def Launch.openGap (l : Launch) (g : Time) : Launch := { l with gap := some (g, 0), nullsStopped := false }

/-- The end tick of the group that has started its last packet has been reached, and no group has started there (R69,
R72). -/
def State.groupEndDue (s : State) : Option Time :=
  match s.launch.lastEnd with
  | some e =>
    if s.running && s.launch.emitting.isNone && s.launch.gap.isNone && reached s.now e then some e else none
  | none => none

/-- The gap origin becomes the end tick of the group when it is reached (R69, R72). -/
def State.endGroup (s : State) : State :=
  match s.groupEndDue with | some e => s.withLaunch (s.launch.openGap e) | none => s

/-- The slot end of the null in progress has been reached (R69). -/
def State.nullEndDue (s : State) : Bool :=
  match s.launch.nullEnd with | some e => reached s.now e | none => false

/-- The slot end of the null in progress: the null index advances (R69). -/
def Launch.endNull (l : Launch) : Launch := { l with nullEnd := none, gap := l.gap.map fun (g, j) => (g, j + 1) }

/-- Null fill after a scheduled start has been withdrawn: the gap goes on from the same G, and the next null is the
first whose start is not earlier than this instant (R69). A group's end tick or a null's slot end that has been reached and
not yet taken comes before; a null whose slot end lies ahead keeps its index, and the null after it starts there. -/
def State.resumeNulls (s : State) : State :=
  let s := s.endGroup
  let s := if s.nullEndDue then s.withLaunch s.launch.endNull else s
  match s.launch.gap with
  | some (g, j) =>
    s.withLaunch
      { s.launch with
        nullsStopped := false
        gap := some (g, if s.launch.nullEnd.isNone then resumeIndex s.launch.pq j (tdiff s.now g).toNat else j) }
  | none => s

/-- A scheduled start withdrawn without its group starting (R69, R72, R81). -/
def State.withdrawStart (s : State) : State :=
  match s.launch.scheduled with
  | none => s
  | some _ => (s.withLaunch { s.launch with scheduled := none }).resumeNulls

/-! ### Steps of the timebase (R75) -/

/-- Step 1 of R75: the group in emission is truncated. -/
def State.truncateEmitting (s : State) : State :=
  match s.launch.emitting with
  | none => s
  | some e => (s.withLaunch { s.launch with emitting := none }).dropGroup e.place .truncated

/-- Step 2 of R75: the scheduled group is dropped STEPPED. -/
def State.dropScheduled (s : State) : State :=
  match s.launch.scheduled with
  | none => s
  | some _ => (s.withLaunch { s.launch with scheduled := none }).dropHead .stepped

/-- Step 3 of R75: the guard instant, one full packet slot after the step. -/
def State.setGuard (s : State) : State :=
  let guard := tadd s.now (s.launch.periodInt + 1)
  s.withLaunch { (s.launch.openGap guard) with lastEnd := some guard, nullEnd := none }

/-- What a step, or a label that jumps, does to the scheduler in RUN (R75). -/
def State.schedulerStep (s : State) : State :=
  if s.running then s.truncateEmitting.dropScheduled.setGuard.headDecision else s

end Sys2Proof.Machine
end

