-- ==== Sys2Proof/Machine/SpliceOps.lean ====
section
/-! DEFINITION. The shared operations of the Splice Engine: ending a break, offers of Y, the checks at trigger, cues,
splice-out, substitution, return, and the observation of emitted packets (chapter 7), with what protect windows do to
breaks (chapter 8). -/

namespace Sys2Proof.Machine

open Sys2Proof

/-- The indices of the break table, ascending. -/
def breakIndices : List Nat := List.range 32

/-- The indices of the window table, ascending. -/
def windowIndices : List Nat := List.range 8

/-! ### Ends and offers (R106, R114) -/

/-- A break ends (R106): the cause is recorded, its lane is released, an aired break takes its actual in tick, and
BREAK_ENDED is raised. -/
def State.endBreak (s : State) (i : Nat) (cause : EndCause) (at_ : Time) : State :=
  let b := s.brk i
  let s := match b.lane with | some l => s.releaseLane l | none => s
  let s := s.withBreak i
    { b with state := .ended, cause := some cause, lane := none, inTick := if b.aired then some at_ else b.inTick }
  s.raise .breakEnded i cause.code

/-- An offered instant brings Y earlier, or Y was absent (R114). -/
def BreakRecord.takesOffer (b : BreakRecord) (at_ : Time) : Bool :=
  match b.y with
  | none => true
  | some (y, _) => earlier at_ y

/-- An instant offered as Y with its source (R114). -/
def BreakRecord.offerY (b : BreakRecord) (at_ : Time) (source : YSource) : BreakRecord :=
  if b.takesOffer at_ then { b with y := some (at_, source) } else b

/-- An instant offered as Y to a break of the table. -/
def State.offerY (s : State) (i : Nat) (at_ : Time) (source : YSource) : State :=
  s.withBreak i ((s.brk i).offerY at_ source)

/-- The start of a window offered to an ON_AIR break; an offer that becomes Y counts as a recall (R125, R126, R127). -/
def State.offerWindow (s : State) (w i : Nat) : State :=
  let win := s.window w
  let s' := s.offerY i win.start .window
  if (s.brk i).takesOffer win.start then s'.withWindow w { win with recalled := bump16 win.recalled } else s'

/-- A break ended BLOCKED, counted by a window (R123). -/
def State.blockBreak (s : State) (w i : Nat) : State :=
  let win := s.window w
  (s.withWindow w { win with blocked := bump16 win.blocked }).endBreak i .blocked s.now

/-- A standing window blocks the CUED break with splice-out instant `x`: X lies in [start, end), or the start has been
reached and X is earlier than the end (R125, R126). A window whose start is reached at this instant is one of them, whether
or not it has been made ACTIVE yet. -/
def Window.blocksCued (w : Window) (now : Time) (slot : Nat) (x : Time) : Bool :=
  w.standing && w.covers slot && earlier x w.stop && (reached x w.start || w.state == .active || reached now w.start)

/-- The window that counts a CUED break ended BLOCKED by window `w`: the lowest-indexed standing window that would block it
(R123). -/
def State.countingWindow (s : State) (w i : Nat) : Nat :=
  match (s.brk i).x with
  | none => w
  | some x => (windowIndices.find? fun v => (s.window v).blocksCued s.now (s.brk i).slot x).getD w

/-- A CUED break ended BLOCKED by window `w` (R125, R126, R123). -/
def State.blockCued (s : State) (w i : Nat) : State := s.blockBreak (s.countingWindow w i) i

/-! ### The checks at trigger (R108) -/

/-- The lowest-indexed standing window that blocks a break of this slot triggered with X (R108, R123). -/
def State.blockingWindow (s : State) (slot : Nat) (x : Time) : Option Nat :=
  windowIndices.find? fun w => (s.window w).blocks slot x

/-- A trigger fires for a break with splice-out instant X and, from an OUT cue, a duration (R108). A break that a check ends
has no X, Y or lane, and one whose Y is not later than X has its Y alone (log entry 21). -/
def State.fire (s : State) (i : Nat) (x : Time) (duration : Option Nat) : State :=
  let b := s.brk i
  if (s.playList b.playList).isEmpty then s.endBreak i .listEmpty s.now
  else
    match s.blockingWindow b.slot x with
    | some w => s.blockBreak w i
    | none =>
      if (s.liveBreak b.slot).isSome then s.endBreak i .slotBusy s.now
      else
        match s.freeLane with
        | none => s.endBreak i .noLane s.now
        | some lane =>
          if (ticksPerSecond : Int) < tdiff s.now x then s.endBreak i .missed s.now
          else
            let length := match duration with | some d => some d | none => b.length
            let y := length.map fun n => (tadd x n, YSource.length)
            if (match y with | some (at_, _) => !later at_ x | none => false) then
              (s.withBreak i { b with y := y }).endBreak i .noAir s.now
            else
              let s := s.claimLane lane i b.playList
              let s := s.withBreak i { s.brk i with state := .cued, x := some x, lane := some lane, y := y }
              s.raise .breakCued i lane

/-- The TIME instant of a WAITING break, if its trigger is TIME (R107). -/
def BreakRecord.timeDue (b : BreakRecord) (now : Time) : Option Time :=
  match b.state, b.trigger with
  | .waiting, .time t => if reached now t then some t else none
  | _, _ => none

/-- A WAITING TIME break that is due in RUN fires (R107). -/
def State.fireTime (s : State) (i : Nat) : State :=
  if s.running then
    match (s.brk i).timeDue s.now with
    | some t => s.fire i t none
    | none => s
  else s

/-- Every WAITING TIME break that is due fires, in ascending index order (R107). -/
def State.fireDueTimes (s : State) : State := breakIndices.foldl State.fireTime s

/-- The WAITING breaks of a line and polarity fire in RUN with X this instant plus their lead, in ascending index order
(R107, R152). -/
def State.fireLine (s : State) (line : Nat) (polarity : Polarity) : State :=
  if s.running then
    breakIndices.foldl
      (fun s i =>
        let b := s.brk i
        if b.state == .waiting && b.trigger == .line line polarity then s.fire i (tadd s.now b.lead) none else s)
      s
  else s

/-- The expiry of a CUED break's splice-out span (R109). -/
def BreakRecord.expired (b : BreakRecord) (now : Time) : Bool :=
  b.state == .cued && match b.x with | some x => reached now (tadd x ticksPerSecond) | none => false

/-- A CUED break whose span has expired ends MISSED (R109). -/
def State.expire (s : State) (i : Nat) : State :=
  if (s.brk i).expired s.now then s.endBreak i .missed s.now else s

/-! ### Windows that become ACTIVE or end (R125, R126, R128) -/

/-- What an ACTIVE window does to the breaks of the slots it covers, in ascending break index (R125, R126). -/
def State.windowActs (s : State) (w : Nat) : State :=
  breakIndices.foldl
    (fun s i =>
      let b := s.brk i
      let win := s.window w
      if win.covers b.slot then
        if b.state == .cued && (match b.x with | some x => earlier x win.stop | none => false) then s.blockCued w i
        else if b.state == .onAir then s.offerWindow w i
        else s
      else s)
    s

/-- What a window set PENDING does to the breaks of the slots it covers, in ascending break index (R125). -/
def State.windowSetPending (s : State) (w : Nat) : State :=
  breakIndices.foldl
    (fun s i =>
      let b := s.brk i
      let win := s.window w
      if win.covers b.slot then
        if b.state == .cued && (match b.x with
            | some x => reached x win.start && earlier x win.stop
            | none => false) then
          s.blockCued w i
        else if b.state == .onAir then s.offerWindow w i
        else s
      else s)
    s

/-- WINDOW_ACTIVE raised and the window's effects on the breaks (R125, R126). -/
def State.windowActive (s : State) (w : Nat) : State :=
  (s.raise .windowActive w (s.window w).mask.toNat).windowActs w

/-- A window's record becomes FREE and WINDOW_ENDED is raised (R128, R129); detail EXPIRED 0, REMOVED 1. -/
def State.windowFree (s : State) (w detail : Nat) : State := (s.withWindow w .empty).raise .windowEnded w detail

/-- An ACTIVE window whose end has been reached ends (R128). -/
def State.windowEnd (s : State) (w : Nat) : State :=
  if (s.window w).state == .active && reached s.now (s.window w).stop then s.windowFree w 0 else s

/-- A PENDING window whose start has been reached becomes ACTIVE, and ends at once where its end has been reached too
(R126, R128). -/
def State.windowStart (s : State) (w : Nat) : State :=
  let win := s.window w
  if win.state == .pending && reached s.now win.start then
    ((s.withWindow w { win with state := .active }).windowActive w).windowEnd w
  else s

/-! ### Cues (R116 to R119) -/

/-- The instant of a cue (R64, R65): from its own air time against the admission, or from the copy's release tick and
the packet's offset; none for an immediate cue of a rejected copy. -/
def cueInstant (c : Cue) (now advance pq index : Nat) (launched : Launched) : Option Time :=
  match c.air with
  | some (c8, ct) =>
    some (tsub (instant (fullSecond (now / ticksPerSecond) c8) ct) advance)
  | none =>
    match launched with
    | .release r => some (tadd r (offset pq index))
    | .rejected _ => none

/-- The kind of a cue applies to a break in this state (R117, R118, R119). -/
def CueKind.applies : CueKind → BreakState → Bool
  | .out, st => st == .waiting
  | .in_, st => st == .cued || st == .onAir
  | .cancel, st => st == .waiting || st == .cued || st == .onAir

/-- An IN cue on a CUED or ON_AIR break (R118). -/
def State.inCue (s : State) (i : Nat) (at_ : Time) : State :=
  let s := s.offerY i at_ .inCue
  let b := s.brk i
  match b.state, b.y, b.x with
  | .cued, some (y, _), some x => if !later y x then s.endBreak i .noAir s.now else s
  | _, _, _ => s

/-- A CANCEL on a LOADED, WAITING or CUED break, which ends, or on an ON_AIR one, which is offered this instant (R104,
R119). -/
def State.cancelBreak (s : State) (i : Nat) : State :=
  if (s.brk i).state == .onAir then s.offerY i s.now .cancel else s.endBreak i .cancelled s.now

/-- A cue with its instant acts on one break (R117, R118, R119). -/
def State.cueActs (s : State) (c : Cue) (at_ : Time) (i : Nat) : State :=
  match c.kind with
  | .out => s.fire i at_ c.duration
  | .in_ => s.inCue i at_
  | .cancel => s.cancelBreak i

/-- A cue handed over (R116): it acts on the breaks of its number in ascending index order, each in the state it then
has, and is counted applied, ignored, or without instant. -/
def State.handCue (s : State) (c : Cue) (index : Nat) (launched : Launched) : State :=
  match cueInstant c s.now s.launch.advance s.launch.pq index launched with
  | none => s.withSplice { s.splice with cuesWithoutInstant := bump s.splice.cuesWithoutInstant }
  | some at_ =>
    let (s, hit) := breakIndices.foldl
      (fun (acc : State × Bool) i =>
        let b := acc.1.brk i
        if b.trigger == .cue c.number && c.kind.applies b.state then (acc.1.cueActs c at_ i, true) else acc)
      (s, false)
    if hit then s.withSplice { s.splice with cuesApplied := bump s.splice.cuesApplied }
    else s.withSplice { s.splice with cuesIgnored := bump s.splice.cuesIgnored }

/-! ### Splice-out and return (R110, R115, R127) -/

/-- A CUED break goes on air at a packet start (R110), and the standing windows that cover its slot and end later offer
their starts in ascending index order (R127). -/
def State.goOnAir (s : State) (i : Nat) (start : Time) : State :=
  let b := s.brk i
  let s := s.withBreak i ({ b with state := .onAir, aired := true, outTick := some start }.offerY
    (tadd start ((s.slot b.slot).guard * ticksPerSecond)) .guard)
  let s := match b.lane with | some l => s.withLane l { s.lane l with state := .onAir } | none => s
  let s := s.raise .breakOnAir i b.slot
  windowIndices.foldl
    (fun s w =>
      let win := s.window w
      if win.standing && win.covers b.slot && later win.stop start then s.offerWindow w i else s)
    s

/-- The splice-out test of one break at a handed start (R110). -/
def State.spliceOutTest (start : Time) (s : State) (i : Nat) : State :=
  let b := s.brk i
  match b.state, b.x with
  | .cued, some x =>
    if !later x start then
      match b.y with
      | some (y, _) => if !later y start then s.endBreak i .noAir s.now else s.goOnAir i start
      | none => s.goOnAir i start
    else s
  | _, _ => s

/-- The end cause that a source of Y gives an aired break (R114). -/
def YSource.cause : YSource → EndCause
  | .length => .scheduled
  | .inCue => .scheduled
  | .guard => .guard
  | .clipEnd => .clipEnd
  | .cancel => .cancelled
  | .window => .recalled

/-- The return test of one break at a handed start (R115). -/
def State.returnTest (start : Time) (s : State) (i : Nat) : State :=
  let b := s.brk i
  match b.state, b.y with
  | .onAir, some (y, source) => if !later y start then s.endBreak i source.cause start else s
  | _, _ => s

/-! ### Substitution (R111 to R113) -/

/-- The entry of a slot that carries a clip identifier (R111). -/
def Slot.entryOfClip (sl : Slot) (id : Nat) : Option Nat := sl.entries.findIdx? (·.clip == id)

/-- The entry of a slot that carries a network identifier. -/
def Slot.entryOfNetwork (sl : Slot) (id : Nat) : Option Nat := sl.entries.findIdx? (·.network == id)

/-- The defined slot and entry of a network identifier; network identifiers are distinct across slots (R97). -/
def State.networkEntry (s : State) (id : Nat) : Option (Nat × Nat) :=
  (List.range 8).findSome? fun i =>
    let sl := s.slot i
    if sl.defined then (sl.entryOfNetwork id).map (fun e => (i, e)) else none

/-- One packet removed from the head of a lane's queue (R93). -/
def State.takePacket (s : State) (lane : Nat) : State :=
  let l := s.lane lane
  ((s.withLane lane { l with queue := l.queue.tail, packetsTaken := l.packetsTaken + 1 }).settleClipEnd lane)

/-- Packets removed from the head of the lane's queue until one is mapped by the slot or the queue is empty (R111, step
1). The list argument is the queue as it stands. -/
def State.removeUnmapped (slot : Slot) (lane brk : Nat) : List Packet → State → State × Option (Packet × Nat)
  | [], s => (s, none)
  | p :: rest, s =>
    let s := s.takePacket lane
    match slot.entryOfClip (identifier p) with
    | some e => (s, some (p, e))
    | none =>
      let b := s.brk brk
      State.removeUnmapped slot lane brk rest (s.withBreak brk { b with unmapped := bump b.unmapped })

/-- The continuity counter of a substituted packet (R112). -/
def substitutedContinuity (carry : Option Nat) (p : Packet) : Nat :=
  match carry with
  | some c => if showsPayload p then (c + 1) % 16 else c
  | none => continuity p

/-- The stamp of a substituted packet on the clock entry, and the break after it (R113, R67). -/
def rebaseStamp (observation : Observation) (start : Time) (b : BreakRecord) (p : Packet) : Packet × BreakRecord :=
  if b.noBase then (p, b)
  else
    match b.base with
    | some (base, c0) => (withStamp p (rebased base c0 (stampValue p)), b)
    | none =>
      if observation.valid then
        let base := stampBase observation.value observation.tick start
        (withStamp p base, { b with base := some (base, stampValue p) })
      else (p, { b with noBase := true })

/-- What becomes of a packet at the splice step: it goes out as it stands, or another goes out in its place. -/
inductive Spliced where
  | keep
  | put (p : Packet)
  deriving DecidableEq, Repr

/-- A mapped clip packet emitted in place of the network packet (R111, step 2). -/
def State.substitute (s : State) (slot brk : Nat) (start : Time) (p : Packet) (e : Nat) : State × Packet :=
  let sl := s.slot slot
  let entry := sl.entries.getD e ⟨0, 0, none⟩
  let b := s.brk brk
  let q := withContinuity (withIdentifier p entry.network) (substitutedContinuity entry.carry p)
  let (q, b) :=
    if sl.clock == some e && hasStamp p then rebaseStamp sl.observation start b q else (q, b)
  (s.withBreak brk { b with substituted := bump b.substituted }, q)

/-- The substitution step of a handed packet on a slot with a break ON_AIR (R111). The freed queue places let the lane
read again (R93). -/
def State.substitutionStep (s : State) (slot brk : Nat) (start : Time) : State × Spliced :=
  match (s.brk brk).lane with
  | none => (s, .keep)
  | some lane =>
    let (s, found) := State.removeUnmapped (s.slot slot) lane brk (s.lane lane).queue s
    let s := s.arbitrate
    match found with
    | some (p, e) =>
      let (s, q) := s.substitute slot brk start p e
      (s, .put q)
    | none =>
      let b := s.brk brk
      if !(s.lane lane).clipEnd then
        (s.withBreak brk { b with starved := bump b.starved }, .put nullPacket)
      else
        match b.exhaust with
        | .fill => (s.withBreak brk { b with filled := bump b.filled }, .put nullPacket)
        | .ret => (State.returnTest start (s.offerY brk start .clipEnd) brk, .keep)

/-- The break ON_AIR on a slot. -/
def State.airedBreak (s : State) (slot : Nat) : Option Nat :=
  breakIndices.find? fun i => (s.brk i).state == .onAir && (s.brk i).slot == slot

/-- A packet of the group in emission handed to the Splice Engine with its start (R110, R115, R111). DESIGN CHOICE: several
breaks that go on air, or return, at one start are taken in ascending index (log entry 37). -/
def State.splicePacket (s : State) (start : Time) (p : Packet) : State × Spliced :=
  let s := breakIndices.foldl (State.spliceOutTest start) s
  let s := breakIndices.foldl (State.returnTest start) s
  match s.networkEntry (identifier p) with
  | none => (s, .keep)
  | some (slot, _) =>
    match s.airedBreak slot with
    | none => (s, .keep)
    | some brk => s.substitutionStep slot brk start

/-! ### Observation (R99) -/

/-- The packet as it goes out is offered to the slot table (R99); `network` tells a network packet from a substituted
one. -/
def State.observe (s : State) (start : Time) (p : Packet) (network : Bool) : State :=
  match s.networkEntry (identifier p) with
  | none => s
  | some (i, e) =>
    let sl := s.slot i
    let entries := sl.entries.modify e fun x => { x with carry := some (continuity p) }
    let observation :=
      if network && sl.clock == some e && hasStamp p then ⟨stampValue p, start, true⟩ else sl.observation
    s.withSlot i { sl with entries := entries, observation := observation }

end Sys2Proof.Machine
end

