-- ==== Sys2Proof/Machine/SelectOps.lean ====
section
/-! DEFINITION. The shared operations of the Group Selector: ranking, admission, skip, sequence restart (chapter 3). -/

namespace Sys2Proof.Machine

open Sys2Proof

/-! ### What a feed can still deliver, deadlines, ranks (R40, R43, R41) -/

/-- The feed's last opened number is present, current and later than E (R40, R46). -/
def Feed.passed (f : Feed) (e : Nat) : Bool :=
  f.current && match f.lastOpened with | some n => seqLater n e | none => false

/-- The feed cannot deliver E (R40). -/
def State.cannotDeliver (s : State) (f : FeedId) (e : Nat) : Bool :=
  (s.feed f).sync != .locked || s.sel.mode.excludes f || (s.feed f).passed e

/-- The deadline of a closed copy (R43). -/
def GroupRecord.deadline (r : GroupRecord) : Time :=
  match r.launched with
  | .release t => tsub t 500000
  | .rejected _ => tadd r.arrivalTick ticksPerSecond

/-- Site time has reached the copy's deadline. -/
def GroupRecord.due (r : GroupRecord) (now : Time) : Bool := reached now r.deadline

/-- The rank of a closed copy, 1 to 4 (R41). -/
def GroupRecord.rank (r : GroupRecord) : Nat :=
  match r.launched with
  | .rejected _ => 4
  | .release _ => if r.phase == .complete then (if r.errored = 0 then 1 else 2) else 3

/-- The order within a rank: a lower figure is the better copy (R41). -/
def GroupRecord.within (r : GroupRecord) : Int :=
  match r.rank with
  | 2 => (r.errored : Int)
  | 3 => -(r.stored : Int)
  | _ => 0

/-- Copy `r` is better than copy `q` (R41). -/
def GroupRecord.better (r q : GroupRecord) : Bool :=
  decide (r.rank < q.rank) || (r.rank == q.rank && decide (r.within < q.within))

/-- The closed copy of a number that a feed holds. -/
def State.closedCopy (s : State) (f : FeedId) (n : Nat) : Option (Nat × GroupRecord) :=
  match s.heldCopy f n with
  | some (i, r) => if r.closed then some (i, r) else none
  | none => none

/-- The better of the closed copies of a number; a tie goes to the preferred feed (R41). -/
def State.bestCopy (s : State) (n : Nat) : Option (Nat × GroupRecord) :=
  match s.closedCopy s.sel.preferred n, s.closedCopy s.sel.preferred.other n with
  | some (i, r), some (j, q) => if q.better r then some (j, q) else some (i, r)
  | some x, none => some x
  | none, y => y

/-- The held copies later than E. -/
def State.laterCopies (s : State) (e : Nat) : List (Nat × GroupRecord) :=
  s.store.records.filter fun (_, r) => r.held && seqLater r.group e

/-- Some held copy later than E is closed and past its deadline (R42, R46). -/
def State.laterDue (s : State) (e : Nat) : Bool := (s.laterCopies e).any fun (_, r) => r.closed && r.due s.now

/-! ### Admission (R42, R44) -/

/-- The conditions of R42. -/
inductive AdmitCond where
  | a | b | c | d | e
  deriving DecidableEq, Repr

/-- The first condition of R42, in table order, that holds for E. -/
def State.admitCond (s : State) (e : Nat) : Option AdmitCond :=
  let ca := s.closedCopy .a e
  let cb := s.closedCopy .b e
  let rank1 := fun (x : Option (Nat × GroupRecord)) => match x with | some (_, r) => r.rank == 1 | none => false
  let due := fun (x : Option (Nat × GroupRecord)) => match x with | some (_, r) => r.due s.now | none => false
  if rank1 ca || rank1 cb then some .a
  else if ca.isSome && cb.isSome then some .b
  else if (ca.isSome && s.cannotDeliver .b e) || (cb.isSome && s.cannotDeliver .a e) then some .c
  else if due ca || due cb then some .d
  else if (ca.isSome || cb.isSome) && s.laterDue e then some .e
  else none

/-- The admission counted under its condition and its feed (R54). -/
def SelectorCounters.admitted (c : SelectorCounters) (cond : AdmitCond) (f : FeedId) : SelectorCounters :=
  let c := match f with
    | .a => { c with fromA := bump c.fromA }
    | .b => { c with fromB := bump c.fromB }
  match cond with
  | .a => { c with admitA := bump c.admitA }
  | .b => { c with admitB := bump c.admitB }
  | .c => { c with admitC := bump c.admitC }
  | .d => { c with admitD := bump c.admitD }
  | .e => { c with admitE := bump c.admitE }

/-- The other feed's copy of an admitted number disposed of: a closed one is superseded, an OPEN one abandoned (R44, step
2). -/
def State.disposeOther (s : State) (f : FeedId) (n : Nat) : State :=
  match s.heldCopy f.other n with
  | none => s
  | some (i, r) =>
    let c := s.sel.counters
    let c := if r.closed then { c with superseded := bump c.superseded } else { c with abandoned := bump c.abandoned }
    (s.freeRecord i).withSel { s.sel with counters := c }

/-- The active feed brought up to date (R45). -/
def State.switchFeed (s : State) (f : FeedId) : State :=
  if s.sel.active = some f then s
  else
    let previous := s.sel.active
    let s := s.withSel
      { s.sel with active := some f, counters := { s.sel.counters with switches := bump s.sel.counters.switches } }
    s.raise .feedSwitch (feedCode f) (activeCode previous)

/-- One stored packet of an admitted copy read for a cue, at its position in the cell list (R52, R53). -/
def State.readCue (launched : Launched) (s : State) (x : Packet × Nat) : State :=
  if identifier x.1 == s.launch.cueId then
    match cueOf x.1 with
    | some c =>
      let s := s.withSel
        { s.sel with counters := { s.sel.counters with cuesHanded := bump s.sel.counters.cuesHanded } }
      s.handCue c x.2 launched
    | none =>
      s.withSel { s.sel with counters := { s.sel.counters with invalidCues := bump s.sel.counters.invalidCues } }
  else s

/-- The cue packets of an admitted copy, in cell-list order (R52). -/
def State.readCues (s : State) (r : GroupRecord) : State := r.cells.zipIdx.foldl (State.readCue r.launched) s

/-- An admission of the copy at a place (R44), and the scheduler told of the group appended (R51, R70; log entry 15). -/
def State.admitCopy (s : State) (cond : AdmitCond) (e place : Nat) (r : GroupRecord) : State :=
  let s := s.withRecord place (some { r with phase := .queued })
  let s := s.withSel
    { s.sel with queue := s.sel.queue ++ [place], counters := s.sel.counters.admitted cond r.feed }
  let s := s.disposeOther r.feed e
  let s := s.switchFeed r.feed
  let s := s.readCues r
  let s := s.withSel { s.sel with lastAdmitted := some e, expected := some ((e + 1) % 65536) }
  s.headDecision

/-! ### Skip (R46, R47) -/

/-- A feed that is LOCKED and not excluded has moved past E (R46, first condition); any other feed does not stand in the
way. -/
def State.feedPast (s : State) (f : FeedId) (e : Nat) : Bool :=
  (s.feed f).sync != .locked || s.sel.mode.excludes f || (s.feed f).passed e

/-- The skip of E is due (R46). -/
def State.skipDue (s : State) (e : Nat) : Bool :=
  (s.heldCopy .a e).isNone && (s.heldCopy .b e).isNone && !(s.laterCopies e).isEmpty &&
    ((s.feedPast .a e && s.feedPast .b e) || (s.feedA.sync != .locked && s.feedB.sync != .locked) || s.laterDue e)

/-- A held copy out of reach at a skip is handed back and counted (R47, step 1). -/
def State.freeOutOfReach (s : State) (place : Nat) : State :=
  let c := s.sel.counters
  (s.freeRecord place).withSel { s.sel with counters := { c with outOfReach := bump c.outOfReach } }

/-- The distance of a number behind `n` in sequence order. -/
def seqGap (n e : Nat) : Nat := (n + (65536 - e % 65536)) % 65536

/-- The held copies later than E and, when L is present, not later than L: they are out of reach (R47). -/
def State.outOfReach (s : State) (e : Nat) : List Nat :=
  ((s.laterCopies e).filter fun (_, r) =>
    match s.sel.lastAdmitted with | some l => !seqLater r.group l | none => false).map (·.1)

/-- A skip of E (R47). -/
def State.skip (s : State) (e : Nat) : State :=
  let s := (s.outOfReach e).foldl State.freeOutOfReach s
  match ((s.laterCopies e).map fun (_, r) => seqGap r.group e).min? with
  | none => s
  | some gap =>
    let c := s.sel.counters
    let c := { c with missing := bumpBy c.missing gap, skips := bump c.skips }
    (s.withSel { s.sel with expected := some ((e + gap) % 65536), counters := c }).raise .groupMissing e gap

/-! ### The test (R42, R46) -/

/-- An admission or a skip of E is due. -/
def State.selectorDue (s : State) : Bool :=
  s.running &&
    match s.sel.expected with
    | none => false
    | some e => (s.admitCond e).isSome || s.skipDue e

/-- Admission and skip tested until neither is due (R42, R44, R46, R47). Each admission takes a held copy and each skip
either frees one or is followed by an admission or a wait, so `fuel` is never short. -/
def State.selectorTests : (fuel : Nat) → State → State
  | 0, s => s
  | fuel + 1, s =>
    match s.sel.expected with
    | none => s
    | some e =>
      match s.admitCond e, s.bestCopy e with
      | some cond, some (place, r) => State.selectorTests fuel (s.admitCopy cond e place r)
      | _, _ => if s.skipDue e then State.selectorTests fuel (s.skip e) else s

/-- The selector tests its conditions; it acts in RUN alone (R42, R55). -/
def State.testSelector (s : State) : State :=
  if s.running then State.selectorTests (2 * s.store.table.length + 2) s else s

/-! ### Sequence restart (R49) -/

/-- The feed's flags and run after a restart (R49, step 3). -/
def Feed.restarted (f : Feed) : Feed := { f with current := false, otherCurrent := false, staleRun := 0 }

/-- A sequence restart caused by feed `f` with number `n` (R49, R81). -/
def State.sequenceRestart (s : State) (f : FeedId) (n : Nat) : State :=
  let s := s.freeRecords ((s.store.records.filter fun (_, r) => r.held).map (·.1))
  let s := (s.freeRecords s.sel.queue).withdrawStart
  let c := s.sel.counters
  let s := s.withSel
    { s.sel with
      queue := [], expected := some n, lastAdmitted := none, counters := { c with restarts := bump c.restarts } }
  let s := (s.withFeed .a s.feedA.restarted).withFeed .b s.feedB.restarted
  s.raise .sequenceRestart n (feedCode f)

end Sys2Proof.Machine
end

