-- ==== Sys2Proof/Machine/FeedOps.lean ====
section
/-! DEFINITION. The shared operations of Feed Intake: the closing, opening and filling of copies, the arrival of a packet,
and the taking of a byte in each sync state (chapter 2). -/

namespace Sys2Proof.Machine

open Sys2Proof

/-- The counters of a feed changed. -/
def State.count (s : State) (f : FeedId) (g : FeedCounters → FeedCounters) : State :=
  s.withFeed f { s.feed f with counters := g (s.feed f).counters }

/-! ### Closing (R30) -/

/-- A feed's open copy closes: COMPLETE when its arrivals have reached the declared count and every arrival was stored,
SHORT otherwise; the record keeps its cells (R30). -/
def State.shutCopy (s : State) (f : FeedId) : State :=
  match (s.feed f).openCopy with
  | none => s
  | some place =>
    match s.record place with
    | none => s
    | some r =>
      let whole := r.arrivals == r.declared && r.stored == r.arrivals
      let s := s.withRecord place (some { r with phase := if whole then .complete else .short })
      let s := s.withFeed f { s.feed f with openCopy := none }
      s.count f fun c => if whole then { c with complete := bump c.complete } else { c with short := bump c.short }

/-- A feed's open copy, if it has one, closes and is handed to the Group Selector, which tests its conditions (R30, R42). -/
def State.closeCopy (s : State) (f : FeedId) : State :=
  match (s.feed f).openCopy with
  | none => s
  | some place =>
    match s.record place with
    | none => s
    | some _ => (s.shutCopy f).testSelector

/-- The closing rule applied after an arrival: the copy closes when its arrivals have reached the declared count (R29,
R30). -/
def State.closeIfFull (s : State) (f : FeedId) : State :=
  match (s.feed f).openCopy with
  | none => s
  | some place =>
    match s.record place with
    | none => s
    | some r => if r.declared ≤ r.arrivals then s.closeCopy f else s

/-! ### Opening (R28) -/

/-- A record opened for a valid pacing packet, at a free place (R28). -/
def State.openCopy (s : State) (f : FeedId) (packet : Packet) (p : Pacing) (place : Nat) : State :=
  let err := transportError packet
  let r : GroupRecord :=
    { feed := f, group := p.group, declared := p.declared, arrivals := 1, stored := 1
      errored := if err then 1 else 0
      overrun := false, phase := .opened, arrivalTick := s.now
      launched := launchResult s.tb.labelled s.now (releaseTick s.tb.second p.second8 p.tick s.launch.advance)
        s.launch.holdMin s.launch.holdMax
      cells := [packet] }
  let s := s.withStore { table := s.store.table.set place (some r), freeCells := s.store.freeCells - 1 }
  let s := s.withFeed f { s.feed f with openCopy := some place, lastOpened := some p.group, current := true }
  let s := s.count f fun c =>
    { c with opened := bump c.opened, errored := if err then bump c.errored else c.errored }
  match s.sel.expected with
  | some _ => s
  | none => s.withSel { s.sel with expected := some p.group }

/-! ### The arrival of a pacing packet (R27, R48) -/

/-- Steps 3 to 6 of R27. -/
def State.pacingOpen (s : State) (f : FeedId) (packet : Packet) (p : Pacing) : State :=
  if s.sel.mode.excludes f then s.count f fun c => { c with excluded := bump c.excluded }
  else if s.emittingGroup = some p.group then s.count f fun c => { c with stale := bump c.stale }
  else
    let s := match s.closedCopy f p.group with | some (i, _) => s.freeRecord i | none => s
    let s :=
      match s.store.freePlace with
      | none => s.count f fun c => { c with tableFull := bump c.tableFull }
      | some place =>
        if s.store.freeCells = 0 then s.count f fun c => { c with overrun := bump c.overrun }
        else s.openCopy f packet p place
    s.testSelector

/-- The stale-run count after a stale arrival, holding at 4, and the other-feed-current flag, cleared as the run goes
from 0 to 1 (R48). -/
def Feed.staleArrival (f : Feed) : Feed :=
  { f with
    staleRun := min (f.staleRun + 1) 4
    otherCurrent := if f.staleRun = 0 then false else f.otherCurrent }

/-- A pacing packet that passes the stale test: its feed's run ends, and the other feed, if its run is going, learns that
this one is current, unless this one is excluded (R48). -/
def State.passStale (s : State) (f : FeedId) : State :=
  let s := s.withFeed f { s.feed f with staleRun := 0 }
  let o := s.feed f.other
  if !s.sel.mode.excludes f && decide (1 ≤ o.staleRun) then s.withFeed f.other { o with otherCurrent := true } else s

/-- A valid pacing packet arriving on a feed in RUN (R27). A stale packet that restarts the sequence goes on at step 3
and is not counted stale (R48, R35; log entry 16). -/
def State.pacingArrival (s : State) (f : FeedId) (packet : Packet) (p : Pacing) : State :=
  let s := s.closeCopy f
  if (match s.sel.expected with | some e => seqEarlier p.group e | none => false) then
    let s := s.withFeed f (s.feed f).staleArrival
    if (s.feed f).staleRun == 4 && !s.sel.mode.excludes f && !(s.feed f).otherCurrent then
      (s.sequenceRestart f p.group).pacingOpen f packet p
    else s.count f fun c => { c with stale := bump c.stale }
  else (s.passStale f).pacingOpen f packet p

/-! ### Filling (R29, R26, R31) -/

/-- A cue or other packet joins the open copy (R29): stored when a cell is free, discarded otherwise. -/
def State.fillCopy (s : State) (f : FeedId) (packet : Packet) (place : Nat) (r : GroupRecord) : State :=
  if s.store.freeCells = 0 then
    let s := s.withRecord place (some { r with arrivals := r.arrivals + 1, overrun := true })
    let s := s.count f fun c => { c with overrun := bump c.overrun }
    let s := if r.overrun then s else s.raise .poolOverrun (feedCode f) r.group
    s.closeIfFull f
  else
    let err := transportError packet
    let r : GroupRecord :=
      { r with
        arrivals := r.arrivals + 1, stored := r.stored + 1, cells := r.cells ++ [packet]
        errored := if err then r.errored + 1 else r.errored }
    let s := s.withStore { table := s.store.table.set place (some r), freeCells := s.store.freeCells - 1 }
    let s := if err then s.count f fun c => { c with errored := bump c.errored } else s
    s.closeIfFull f

/-- A packet that is not of the pacing class arrives in RUN: it joins the open copy, or is a stray (R25, R29, R31). -/
def State.plainArrival (s : State) (f : FeedId) (packet : Packet) : State :=
  match (s.feed f).openCopy with
  | none => s.count f fun c => { c with strays := bump c.strays }
  | some place =>
    match s.record place with
    | none => s
    | some r => s.fillCopy f packet place r

/-- An invalid pacing packet arrives in RUN: it is counted, and it is one arrival of the open copy, not stored (R26). -/
def State.invalidPacing (s : State) (f : FeedId) : State :=
  let s := s.count f fun c => { c with pacingInvalid := bump c.pacingInvalid }
  match (s.feed f).openCopy with
  | none => s
  | some place =>
    match s.record place with
    | none => s
    | some r => (s.withRecord place (some { r with arrivals := r.arrivals + 1 })).closeIfFull f

/-- The arrival of an accepted packet: counted in every part state, classified in RUN (R23, R25). -/
def State.arrival (s : State) (f : FeedId) (packet : Packet) : State :=
  let s := s.count f fun c => { c with accepted := bump c.accepted }
  if s.running then
    if identifier packet == s.launch.pacingId then
      match pacingOf packet with
      | some p => s.pacingArrival f packet p
      | none => s.invalidPacing f
    else s.plainArrival f packet
  else s

/-! ### Framing (R20 to R24) -/

/-- The causes of sync loss, as FEED_SYNC details them (R24, R175). -/
inductive SyncLoss where
  | badSync | silence
  deriving DecidableEq, Repr

/-- SEARCH with bad sync 1, with silence 2 (R175). -/
def SyncLoss.detail : SyncLoss → Nat
  | .badSync => 1
  | .silence => 2

/-- The feed back in SEARCH: run, confirmation count, position and the packet in progress are gone, and the silence time
is not kept (R22, R24). -/
def Feed.toSearch (f : Feed) : Feed :=
  { f with sync := .search, confirm := 0, badRun := 0, pos := 0, accepting := false, buffer := [], silence := 0 }

/-- Sync loss (R24): the open copy closes SHORT, and the selector tests its conditions, since the feed has left LOCKED
(R42). -/
def State.syncLoss (s : State) (f : FeedId) (cause : SyncLoss) : State :=
  let s := s.withFeed f (s.feed f).toSearch
  let s := s.count f fun c => { c with syncLosses := bump c.syncLosses }
  let s := s.raise .feedSync (feedCode f) cause.detail
  (s.shutCopy f).testSelector

/-- A byte taken resets the silence time (R20). -/
def State.byteHeard (s : State) (f : FeedId) : State := s.withFeed f { s.feed f with silence := 0 }

/-- A byte taken in SEARCH: 0x47 starts a candidate (R21). -/
def State.searchByte (s : State) (f : FeedId) (b : Byte) : State :=
  if b = syncByte then s.withFeed f { s.feed f with sync := .verify, confirm := 0, pos := 1, silence := 0 } else s

/-- A check byte in VERIFY (R22). -/
def State.verifyByte (s : State) (f : FeedId) (b : Byte) : State :=
  let x := s.feed f
  if b = syncByte then
    if x.confirm + 1 < 3 then s.withFeed f { x with confirm := x.confirm + 1, pos := 1 }
    else
      let s := s.withFeed f
        { x with sync := .locked, confirm := 3, badRun := 0, pos := 1, accepting := true, buffer := [b] }
      (s.raise .feedSync (feedCode f) 0).testSelector
  else s.withFeed f x.toSearch

/-- A wrong sync byte in LOCKED (R23): counted, its packet discarded, and sync is lost at the third in a row. -/
def State.badSyncByte (s : State) (f : FeedId) : State :=
  let s := s.count f fun c => { c with badSync := bump c.badSync }
  let x := s.feed f
  if x.badRun + 1 < 3 then
    s.withFeed f { x with badRun := x.badRun + 1, pos := 1, accepting := false, buffer := [] }
  else s.syncLoss f .badSync

/-- The first byte of a packet in LOCKED (R23). -/
def State.lockedSync (s : State) (f : FeedId) (b : Byte) : State :=
  if b = syncByte then
    s.withFeed f { s.feed f with badRun := 0, pos := 1, accepting := true, buffer := [b] }
  else s.badSyncByte f

/-- The 188th byte of a packet in LOCKED: the arrival of a packet with a good sync byte (R23). -/
def State.lockedLast (s : State) (f : FeedId) (b : Byte) : State :=
  let x := s.feed f
  let s := s.withFeed f { x with pos := 0, accepting := false, buffer := [] }
  if x.accepting then s.arrival f (x.buffer ++ [b]) else s

/-- A byte within a packet, of which nothing is decided: it is kept when its packet is (R22, R23). -/
def State.innerByte (s : State) (f : FeedId) (b : Byte) : State :=
  let x := s.feed f
  s.withFeed f { x with pos := (x.pos + 1) % packetLength, buffer := if x.accepting then x.buffer ++ [b] else [] }

/-- A byte taken on a feed, in each sync state and at each position (R20 to R23). -/
def State.takeByte (s : State) (f : FeedId) (b : Byte) : State :=
  let s := s.byteHeard f
  match (s.feed f).sync with
  | .search => s.searchByte f b
  | .verify => if (s.feed f).pos = 0 then s.verifyByte f b else s.innerByte f b
  | .locked =>
    if (s.feed f).pos = 0 then s.lockedSync f b
    else if (s.feed f).pos = packetLength - 1 then s.lockedLast f b
    else s.innerByte f b

/-- The feed has been silent for 500,000 ticks in VERIFY or LOCKED (R20). -/
def Feed.silent (f : Feed) : Bool := f.sync != .search && decide (500000 ≤ f.silence)

end Sys2Proof.Machine
end

