-- ==== Sys2Proof/Machine/TimeOps.lean ====
section
/-! DEFINITION. The shared operations of the Site Timebase: second marks, pulses, slews and steps, missed pulses, the
signals to other blocks, and one period of the site clock (chapter 1). -/

namespace Sys2Proof.Machine

open Sys2Proof

/-! ### What a jump of site time brings about at once -/

/-- What site time can reach for the blocks that hold instants (R43, R107, R109, R126, R128). -/
inductive Instantly where
  | selector
  | windowStart (w : Nat)
  | windowEnd (w : Nat)
  | expiry (i : Nat)
  | time (i : Nat)
  deriving DecidableEq, Repr

/-- Kinds for the order of things of one instant: TIME triggers of one instant keep their index order (R107), and all
others come in a free order. -/
def Instantly.kind : Instantly → Nat
  | .selector => 0
  | .windowStart w => 100 + w
  | .windowEnd w => 200 + w
  | .expiry i => 300 + i
  | .time _ => 2

/-- What site time has reached and no block has acted on yet. -/
def State.reachedNow (s : State) : List Instantly :=
  (if s.selectorDue then [.selector] else [])
    ++ (windowIndices.filter fun w =>
        (s.window w).state == .pending && reached s.now (s.window w).start).map .windowStart
    ++ (windowIndices.filter fun w =>
        (s.window w).state == .active && reached s.now (s.window w).stop).map .windowEnd
    ++ (breakIndices.filter fun i => (s.brk i).expired s.now).map .expiry
    ++ (if s.running then (breakIndices.filter fun i => ((s.brk i).timeDue s.now).isSome).map .time else [])

/-- One of them acted on, when it still stands. -/
def State.actInstantly (s : State) : Instantly → State
  | .selector => s.testSelector
  | .windowStart w => s.windowStart w
  | .windowEnd w => s.windowEnd w
  | .expiry i => s.expire i
  | .time i => s.fireTime i

/-- A step, or a label that jumps, reaches the scheduler (R75) and then the blocks that hold instants, in an order that
the manual leaves open (R43, R107, R109, R126, R128; log entry 3). -/
def State.jump (s : State) : State :=
  let s := s.schedulerStep
  ((freeOrder s.draws Instantly.kind s.reachedNow).foldl State.actInstantly s).draw

/-! ### Second marks (R2) -/

/-- The timebase after a second mark that gives the site second `base` when no label is pending (R2, R11). `markHold` is
the caller's: it is set for the mark that a pulse makes in the period in progress (R6; log entry 8). -/
def Timebase.mark (tb : Timebase) (base : Nat) : Timebase :=
  let tb :=
    { tb with
      second := tb.pendingLabel.getD base
      labelled := tb.labelled || tb.pendingLabel.isSome
      pendingLabel := none
      tick := 0, correction := 0, held := 0, watchOpen := true }
  if tb.discipline = .holdover then
    let n := tb.holdoverSeconds + 1
    { tb with holdoverSeconds := n, discipline := if tb.holdoverLimit ≤ n then .expired else .holdover }
  else tb

/-- The timebase replaced, with the events of the change in the order of R15: LABEL_APPLIED, TIMEBASE_STATE, GATE. The
argument `label` is the label applied and the second the mark would have given. The gate is formed once, after every
change of the mark: DESIGN CHOICE, R14 leaves open whether it opens and closes between two of them (log entry 38). -/
def State.changeTb (s : State) (tb : Timebase) (label : Option (Nat × Nat)) : State :=
  let old := s.tb
  let s := s.withTb tb
  let s := match label with | some (v, base) => s.raise .labelApplied v base | none => s
  let s := if tb.discipline = old.discipline then s
    else s.raise .timebaseState tb.discipline.code old.discipline.code
  if tb.gateOpen = old.gateOpen then s
  else s.raise .gate (if tb.gateOpen then 1 else 0) tb.discipline.code

/-- A pending advance takes force at a second mark (R76). -/
def Launch.takeAdvance (l : Launch) : Launch :=
  match l.pendingAdvance with
  | some a => { l with advance := a, pendingAdvance := none }
  | none => l

/-- A second mark of any kind: `tb` is the timebase as the mark finds it, `base` the second the mark gives, `step` tells
a step (R2, R7, R16, R154). A label that differs from `base` is a step for the scheduler (R75). -/
def State.secondMark (s : State) (tb : Timebase) (base : Nat) (step : Bool) : State :=
  let label := tb.pendingLabel.map fun v => (v, base)
  let s := s.changeTb (tb.mark base) label
  let s := s.withLaunch s.launch.takeAdvance
  let s := s.withLines { s.lines with blink := .high }
  if step || (match tb.pendingLabel with | some v => v != base | none => false) then s.jump else s

/-- The site second that follows (R1). -/
def Timebase.nextSecond (tb : Timebase) : Nat := (tb.second + 1) % secondModulus

/-! ### Pulses (R4, R6 to R12) -/

/-- What a pulse does to the count: nothing, a slew, or a step. -/
inductive PulseAction where
  | none
  | slew
  | step
  deriving DecidableEq, Repr

/-- The counters and the state after a pulse, by the rule of the discipline state, and what the pulse does to the count
(R8 to R12). -/
def Timebase.discipline_ (tb : Timebase) (e : Int) : Timebase × PulseAction :=
  let inWindow := decide (e.natAbs ≤ 1000)
  let acquire : Timebase := { tb with discipline := .acquiring, good := 0, stray := 0, missed := 0 }
  match tb.discipline with
  | .free => (acquire, .step)
  | .expired => (acquire, .step)
  | .acquiring =>
    if inWindow then
      let good := if e.natAbs ≤ 16 then tb.good + 1 else 0
      if 4 ≤ good then ({ tb with discipline := .locked, good := 4, stray := 0, missed := 0 }, .slew)
      else ({ tb with good := good }, .slew)
    else ({ tb with good := 0 }, .step)
  | .locked =>
    if inWindow then ({ tb with stray := 0, missed := 0 }, .slew)
    else if 3 ≤ tb.stray + 1 then (acquire, .step)
    else ({ tb with stray := tb.stray + 1 }, .none)
  | .holdover =>
    if inWindow then ({ tb with discipline := .locked, stray := 0, missed := 0 }, .slew)
    else if 3 ≤ tb.stray + 1 then (acquire, .step)
    else ({ tb with stray := tb.stray + 1 }, .none)

/-- A slew at this tick ends the second at the pulse (R6). -/
def Timebase.slewEnds (tb : Timebase) (slew : Int) : Bool :=
  decide (slew < 0) && decide (10000000 - slew.natAbs ≤ tb.tick)

/-- The arrival of a pulse (R4, R6, R7). The change of state comes before the mark it makes (R7, R11; log entry 17). -/
def State.pulse (s : State) : State :=
  let e := pulseError s.tb.tick
  let measured := { s.tb with lastError := some e, watch := s.tb.watch || decide (e.natAbs ≤ 1000) }
  let (tb, action) := measured.discipline_ e
  match action with
  | .none => s.changeTb tb none
  | .slew =>
    let slew := clampSlew e
    if tb.slewEnds slew then s.secondMark { tb with markHold := true } tb.nextSecond false
    else s.changeTb { tb with correction := slew } none
  | .step =>
    s.secondMark { tb with watch := true, markHold := false } (if 0 ≤ e then tb.second else tb.nextSecond) true

/-! ### Missed pulses (R5, R9 to R12) -/

/-- The timebase after a missed pulse (R8 to R12). -/
def Timebase.miss (tb : Timebase) : Timebase :=
  match tb.discipline with
  | .acquiring => { tb with good := 0 }
  | .locked =>
    if 3 ≤ tb.missed + 1 then { tb with missed := 3, discipline := .holdover, holdoverSeconds := 0 }
    else { tb with missed := tb.missed + 1 }
  | _ => tb

/-- The pulse watch looks at its flag and clears it (R5). -/
def Timebase.checkWatch (tb : Timebase) : Timebase :=
  { (if tb.watch then tb else tb.miss) with watch := false, watchOpen := false }

/-- The check of the present second has fallen due (R5). -/
def Timebase.watchDue (tb : Timebase) : Bool := tb.watchOpen && decide (1001 ≤ tb.tick)

/-! ### One period of the site clock (R1, R20, R68, R132, R141, R151) -/

/-- The silence time of a feed after one period (R20). -/
def Feed.period (f : Feed) : Feed :=
  if f.sync = .search then f else { f with silence := min (f.silence + 1) 500000 }

/-- The debounce of an input after one period's sample (R151). The stable count 100,000 stands until the edge is
accepted at the same instant. -/
def Line.period (l : Line) : Line :=
  if l.output then l
  else if l.pin = l.accepted then { l with pendingChange := none }
  else
    match l.pendingChange with
    | none => { l with pendingChange := some 1 }
    | some n => { l with pendingChange := some (min (n + 1) 100000) }

/-- Everything but site time that counts periods of the site clock, one period on. -/
def State.countPeriod (s : State) : State :=
  { s with
    feedA := s.feedA.period
    feedB := s.feedB.period
    launch := { s.launch with outputs := drainOutputs s.launch.outputs }
    mon := { s.mon with elapsed := min (s.mon.elapsed + 1) 2500 }
    chg := { s.chg with returnTimer := s.chg.returnTimer.map (· - 1) }
    lines := { s.lines with records := s.lines.records.map Line.period } }

/-- Site time one period on within its second (R1, R6): the tick after a mark made by a pulse is 0, tick 9,999,999 is
held while a slew asks for it, and any other tick is followed by the next. -/
def Timebase.period (tb : Timebase) : Timebase :=
  if tb.markHold then { tb with markHold := false }
  else if 9999999 ≤ tb.tick then { tb with held := tb.held + 1 }
  else { tb with tick := tb.tick + 1 }

/-- One period of the site clock: a natural second mark at the end of a second, else one tick on (R1, R2). -/
def State.period (s : State) : State :=
  let s := s.countPeriod
  if s.tb.atSecondEnd then s.secondMark s.tb s.tb.nextSecond false else s.withTb s.tb.period

end Sys2Proof.Machine
end

