-- ==== Sys2Proof/Machine/MonitorOps.lean ====
section
/-! DEFINITION. The shared operations of the Transmitter Monitor and the Changeover Controller: classification, capture,
scan range, automatic changeovers, the return timer and the hold (chapter 9), and the debounced edge (chapter 10). -/

namespace Sys2Proof.Machine

open Sys2Proof

/-! ### Changeover (R140 to R142) -/

/-- An instant appended to the history, the oldest of four removed (R142). -/
def appendHistory (history : List Time) (t : Time) : List Time :=
  let h := history ++ [t]
  if 3 < h.length then h.tail else h

/-- The history holds three entries and the newest less the oldest is 600 s or less (R142). -/
def holdDue (history : List Time) : Bool :=
  match history with
  | [a, _, c] => decide (tdiff c a ≤ 6000000000)
  | _ => false

/-- An automatic changeover (R140, R142). -/
def State.autoChangeover (s : State) (target : Position) : State :=
  let history := appendHistory s.chg.history s.now
  let s := s.withChg { s.chg with position := target, returnTimer := none, history := history }
  let s := s.raise .changeover target.code 0
  if holdDue history then
    (s.withChg { s.chg with hold := true, returnTimer := none }).raise .changeoverHold target.code 1
  else s

/-- The return timer stopped (R141). -/
def Changeover.stopTimer (c : Changeover) : Changeover := { c with returnTimer := none }

/-- The return timer started with the full delay when it is stopped (R141). -/
def Changeover.startTimer (c : Changeover) : Changeover :=
  match c.returnTimer with
  | some _ => c
  | none => { c with returnTimer := some (c.returnDelay * ticksPerSecond) }

/-- A re-evaluation: it acts in AUTO with hold clear, by the first line of the table of R140 that applies. -/
def State.reevaluate (s : State) : State :=
  if s.chg.manual || s.chg.hold then s
  else
    match s.chg.position, s.mainFault, s.reserveFault with
    | .main, true, false => s.autoChangeover .reserve
    | .main, _, _ => s.withChg s.chg.stopTimer
    | .reserve, false, true => s.autoChangeover .main
    | .reserve, false, false => if s.chg.autoReturn then s.withChg s.chg.startTimer else s
    | .reserve, true, _ => s.withChg s.chg.stopTimer

/-- After a change of an input of the exciter health, the changeover is re-evaluated when the main fault or the reserve
fault has changed from what it was `before` (R137). -/
def State.reform (s before : State) : State :=
  if s.mainFault = before.mainFault ∧ s.reserveFault = before.reserveFault then s else s.reevaluate

/-! ### Channels (R135, R136) -/

/-- The class of a value against the limits (R135). -/
def Channel.classOf (c : Channel) (v : Nat) : ChannelClass := if v < c.low then .l else if c.high < v then .h else .n

/-- The state that a class corresponds to (R135). -/
def ChannelClass.state : ChannelClass → ChannelState
  | .l => .low
  | .n => .normal
  | .h => .high

/-- A channel after a conversion, and whether its state changed (R135). -/
def Channel.convert (c : Channel) (v : Nat) : Channel × Bool :=
  let k := c.classOf v
  let run := if k.state = c.state then 0 else if c.previous = some k then c.run + 1 else 1
  if k.state ≠ c.state ∧ c.persistence ≤ run then
    ({ c with value := v, state := k.state, run := 0, previous := some k }, true)
  else ({ c with value := v, run := run, previous := some k }, false)

/-- A transition into LOW or HIGH offered to the capture record (R136). -/
def State.offerCapture (s : State) (i : Nat) : State :=
  let c := s.channel i
  if c.state = .normal ∨ s.mon.capture.isSome then s
  else
    let capture : Capture := ⟨s.mon.channels.map (·.value), s.mon.first, s.mon.last, i, c.state, s.now⟩
    (s.withMon { s.mon with capture := some capture }).raise .captureHeld i c.state.code

/-- A completed conversion stored and classified for its channel, with what follows from a transition in the order of
R146. -/
def State.convertChannel (s : State) (i v : Nat) : State :=
  let (c, changed) := (s.channel i).convert v
  let s' := s.withChannel i c
  if changed then ((s'.raise .channelLimit i c.state.code).offerCapture i).reform s else s'

/-! ### Scan range (R133) -/

/-- Channels outside a range, ascending. -/
def outsideRange (first last : Nat) : List Nat := (List.range 8).filter fun i => i < first || last < i

/-- A channel outside the new range loses its run and its previous class (R133, step 3). -/
def Channel.leaveRange (c : Channel) : Channel := { c with run := 0, previous := none }

/-- A channel returned to NORMAL, with the change of exciter health it makes (R133, R137). -/
def State.returnNormal (s : State) (i : Nat) : State :=
  (s.withChannel i { s.channel i with state := .normal }).reform s

/-- A pending range takes force (R133): CHANNEL_LIMIT for the channels that return to NORMAL in ascending order, then
their returns one at a time in an order the manual leaves open (R137, R146; log entry 3). -/
def State.takeRange (s : State) (first last : Nat) : State :=
  let out := outsideRange first last
  let back := out.filter fun i => (s.channel i).state != .normal
  let s := s.withMon { s.mon with first := first, last := last, pendingRange := none, converting := first }
  let s := out.foldl (fun s i => s.withChannel i (s.channel i).leaveRange) s
  let s := back.foldl (fun s i => s.raise .channelLimit i 0) s
  ((freeOrder s.draws id back).foldl State.returnNormal s).draw

/-- The channel converted next (R132). -/
def Monitor.nextChannel (m : Monitor) : Nat := if m.converting < m.last then m.converting + 1 else m.first

/-- A conversion completes (R132, R133, R135). -/
def State.completeConversion (s : State) (v : Nat) : State :=
  let s := s.convertChannel s.mon.converting v
  let s := s.withMon { s.mon with elapsed := 0 }
  match s.mon.pendingRange with
  | some (first, last) => s.takeRange first last
  | none => s.withMon { s.mon with converting := s.mon.nextChannel }

/-! ### Contact lines (R151, R152) -/

/-- The polarity of an edge to an accepted level, after invert (R151). -/
def Line.polarity (l : Line) : Polarity := if l.inputLevel = .high then .rise else .fall

/-- An edge of an input has held long enough (R151). -/
def Line.edgeDue (l : Line) : Bool :=
  !l.output && match l.pendingChange with | some n => decide (100000 ≤ n) | none => false

/-- An accepted edge: latched, then acted on by the line's function (R152). -/
def State.acceptEdge (s : State) (i : Nat) : State :=
  let l := s.line i
  let l := { l with accepted := l.pin, pendingChange := none, latched := true }
  let s' := s.withLine i l
  match l.function with
  | .plain => s'.raise .lineEdge i l.polarity.detail
  | .trigger => s'.fireLine i l.polarity
  | .mainFault | .reserveFault | .interlock => s'.reform s
  | _ => s'

end Sys2Proof.Machine
end

