-- ==== Sys2Proof/Machine/Operands.lean ====
section
/-! DEFINITION. How the parameters of the commands are read from the bytes of their frames: in the order in which each
owning rule names what the command carries, with the field sizes of R175. A value that no field of the state could
hold answers none, which the owning rules refuse BAD_VALUE. -/

namespace Sys2Proof.Machine

open Sys2Proof

/-- A flag or a choice: 0 or 1 (R175). That clear and off are 0, set and on 1 is the model's choice (log entry 14). -/
def flagOf : Nat → Option Bool
  | 0 => some false
  | 1 => some true
  | _ => none

/-- A feed as an operand: A 0, B 1 (log entry 14). -/
def feedOf : Nat → Option FeedId
  | 0 => some .a
  | 1 => some .b
  | _ => none

/-- A feed mode: AUTO 0, ONLY_A 1, ONLY_B 2 (R50). -/
def feedModeOf : Nat → Option FeedMode
  | 0 => some .auto
  | 1 => some .onlyA
  | 2 => some .onlyB
  | _ => none

/-- A level: LOW 0, HIGH 1. -/
def levelOf : Nat → Option Level
  | 0 => some .low
  | 1 => some .high
  | _ => none

/-- A role (R134). -/
def roleOf : Nat → Option Role
  | 0 => some .none
  | 1 => some .main
  | 2 => some .reserve
  | 3 => some .site
  | _ => none

/-- A position (R143). -/
def positionOf : Nat → Option Position
  | 0 => some .main
  | 1 => some .reserve
  | _ => none

/-- A polarity: RISE 0, FALL 1 (R175). -/
def polarityOf : Nat → Option Polarity
  | 0 => some .rise
  | 1 => some .fall
  | _ => none

/-- An exhaust action: RETURN 0, FILL 1. -/
def exhaustOf : Nat → Option Exhaust
  | 0 => some .ret
  | 1 => some .fill
  | _ => none

/-- The function that a byte names, for a direction (chapter 10): inputs have the first five, outputs the rest. -/
def functionOf (output : Bool) : Nat → Option LineFunction
  | 0 => if output then none else some .plain
  | 1 => if output then none else some .trigger
  | 2 => if output then none else some .mainFault
  | 3 => if output then none else some .reserveFault
  | 4 => if output then none else some .interlock
  | 5 => if output then some .level else none
  | 6 => if output then some .blink else none
  | 7 => if output then some .changeover else none
  | 8 => if output then some .carrierMute else none
  | 9 => if output then some .gate else none
  | 10 => if output then some .tally else none
  | 11 => if output then some .alert else none
  | _ => none

/-- An optional operand: a presence byte, then the value in `n` bytes (R175). The outer none is a presence byte that is
neither 0 nor 1. R175 sends the value of an absent operand as zeros; that its bytes are not looked at is the model's
choice (log entry 14). -/
def optionalOf (ps : List Byte) (i n : Nat) : Option (Option Nat) :=
  match flagOf (byteAt ps i) with
  | some true => some (some (field ps (i + 1) n))
  | some false => some none
  | none => none

/-- A site instant in 8 bytes: its second and its tick (R175). The tick is not checked here. -/
def instantAt (ps : List Byte) (i : Nat) : Time := instant (field ps i 4) (field ps (i + 4) 4)

/-- The tick of a site instant in 8 bytes lies in 0..9,999,999. -/
def tickFits (ps : List Byte) (i : Nat) : Bool := decide (field ps (i + 4) 4 ≤ 9999999)

/-! ### Breaks (R100) -/

/-- What CREATE BREAK and MODIFY BREAK carry. -/
structure BreakFields where
  slot : Nat
  playList : Nat
  trigger : Trigger
  lead : Nat
  length : Option Nat
  exhaust : Exhaust
  deriving DecidableEq, Repr

/-- The bytes of a trigger's operands, by its kind (R175); none for an unknown kind. -/
def triggerSize : Nat → Option Nat
  | 0 => some 2
  | 1 => some 8
  | 2 => some 2
  | 3 => some 0
  | _ => none

/-- The length check of R100, step 1: the parameters hold the trigger kind, and where the kind is known their length is
that of the kind. -/
def breakFits (ps : List Byte) : Bool :=
  decide (3 ≤ ps.length) &&
    match triggerSize (byteAt ps 2) with
    | some n => ps.length == 14 + n
    | none => true

/-- The trigger at offset 2, or none for a value out of range (R100, step 2). -/
def triggerOf (ps : List Byte) : Option Trigger :=
  match byteAt ps 2 with
  | 0 => some (.cue (field ps 3 2))
  | 1 => if tickFits ps 3 then some (.time (instantAt ps 3)) else none
  | 2 => if byteAt ps 3 < 12 then (polarityOf (byteAt ps 4)).map (.line (byteAt ps 3)) else none
  | 3 => some .manual
  | _ => none

/-- The fields that follow the trigger, from offset `o`: lead, length and exhaust action (R100, step 2). -/
def breakTail (ps : List Byte) (o : Nat) : Option (Nat × Option Nat × Exhaust) :=
  match optionalOf ps (o + 4) 5, exhaustOf (byteAt ps (o + 10)) with
  | some length, some exhaust =>
    let lengthFits := match length with | some n => decide (1 ≤ n) && decide (n ≤ 36000000000) | none => true
    if decide (field ps o 4 ≤ 100000000) && lengthFits then some (field ps o 4, length, exhaust) else none
  | _, _ => none

/-- The fields of a break, or none where R100, step 2 refuses BAD_VALUE. -/
def breakOf (ps : List Byte) : Option BreakFields :=
  match triggerSize (byteAt ps 2), triggerOf ps with
  | some n, some trigger =>
    match breakTail ps (3 + n) with
    | some (lead, length, exhaust) =>
      if byteAt ps 0 < 8 ∧ byteAt ps 1 < 32 then some ⟨byteAt ps 0, byteAt ps 1, trigger, lead, length, exhaust⟩
      else none
    | none => none
  | _, _ => none

/-! ### Slots (R97) -/

/-- The entries that DEFINE SLOT carries, as pairs of network and clip identifier. -/
def slotPairs (ps : List Byte) : List (Nat × Nat) :=
  (List.range (byteAt ps 1)).map fun i => (field ps (2 + 4 * i) 2, field ps (4 + 4 * i) 2)

/-- The parameter length agrees with the entry count: slot, count, entries, clock entry with its presence byte, guard. -/
def slotFits (ps : List Byte) : Bool := decide (2 ≤ ps.length) && ps.length == 6 + 4 * byteAt ps 1

/-! ### Segments and packets (R84, R89) -/

/-- The segments that PLAY LIST WRITE carries. -/
def segmentsOf (ps : List Byte) : List Segment :=
  (List.range (byteAt ps 1)).map fun i => ⟨field ps (2 + 5 * i) 3, field ps (5 + 5 * i) 2⟩

/-- The parameter length agrees with the segment count. -/
def segmentsFit (ps : List Byte) : Bool := decide (2 ≤ ps.length) && ps.length == 2 + 5 * byteAt ps 1

/-- A segment is valid: its count lies in 1..65,535 and its end within clip memory (R88). -/
def Segment.valid (g : Segment) : Bool :=
  decide (1 ≤ g.count) && decide (g.count ≤ 65535) && decide (g.first + g.count ≤ 2097152)

/-- The packets that CLIP WRITE carries. -/
def packetsOf (ps : List Byte) : List Packet :=
  (List.range (byteAt ps 3)).map fun i => (ps.drop (4 + 188 * i)).take 188

/-- The parameter length agrees with the count and the packets carried. -/
def packetsFit (ps : List Byte) : Bool := decide (4 ≤ ps.length) && ps.length == 4 + 188 * byteAt ps 3

end Sys2Proof.Machine
end

