-- ==== Sys2Proof/Machine/Reads.lean ====
section
/-! DEFINITION. The data that each read returns, byte for byte, in the order in which its owning rule lists it and in the
encodings of R175. Sizes that R175 leaves to the range of a field are those of the ranges the chapters state; log entry
14 gathers the places where a range, a presence flag or a position had to be inferred. -/

namespace Sys2Proof.Machine

open Sys2Proof

/-- IDENTIFY (R170): vendor code, part code, revision, port, capacities. -/
def identifyData (p : Port) : List Byte :=
  be 2 0x4F52 ++ be 2 0x5120 ++ [Config.deviceRevision] ++ be 1 (portCode p) ++ be 3 65536 ++ be 1 128 ++ be 3 2097152
    ++ be 1 32 ++ be 1 32 ++ be 1 8 ++ be 1 4 ++ be 1 8 ++ be 1 8 ++ be 1 12 ++ be 1 32

/-- The number of breaks in a state (R170). -/
def State.breaksIn (s : State) (st : BreakState) : Nat := (s.splice.breaks.filter (·.state == st)).length

/-- READ STATUS (R170). The launch gate goes out as a flag, closed 0 and open 1, and the six counts of breaks, FREE among
them, in the order of the table of break states of chapter 7, by the model's choice (log entry 14). -/
def State.statusData (s : State) (p : Port) : List Byte :=
  be 1 s.part.code ++ flag s.paramLock ++ be 1 s.tb.discipline.code ++ flag s.tb.labelled ++ flag s.tb.gateOpen
    ++ be 1 s.feedA.sync.code ++ be 1 s.feedB.sync.code ++ be 1 s.sel.queue.length
    ++ be 1 (s.breaksIn .free) ++ be 1 (s.breaksIn .loaded) ++ be 1 (s.breaksIn .waiting) ++ be 1 (s.breaksIn .cued)
    ++ be 1 (s.breaksIn .onAir) ++ be 1 (s.breaksIn .ended)
    ++ be 1 (s.windows.filter (·.standing)).length
    ++ be 1 s.chg.position.code ++ flag s.chg.manual ++ flag s.chg.hold ++ flag s.carrierMute
    ++ be 1 (s.port p).events.length ++ be 2 (s.port p).lostEvents

/-- READ TIME (R17). -/
def State.timeData (s : State) : List Byte :=
  be 4 s.tb.second ++ be 3 s.tb.tick ++ be 1 s.tb.discipline.code ++ flag s.tb.labelled

/-- READ TIMEBASE (R18). The launch gate goes out as a flag, closed 0 and open 1, by the model's choice (log entry 14). -/
def State.timebaseData (s : State) : List Byte :=
  be 4 s.tb.second ++ be 3 s.tb.tick ++ be 1 s.tb.discipline.code ++ flag s.tb.gateOpen ++ flag s.tb.labelled
    ++ optional 4 (s.tb.pendingLabel.map (be 4)) ++ be 1 s.tb.good ++ be 1 s.tb.stray ++ be 1 s.tb.missed
    ++ be 3 s.tb.holdoverSeconds ++ be 3 s.tb.holdoverLimit ++ optional 3 (s.tb.lastError.map (beInt 3))
    ++ beInt 1 s.tb.correction

/-- The counters of a feed in the order of R35. -/
def FeedCounters.bytes (c : FeedCounters) : List Byte :=
  be 4 c.accepted ++ be 4 c.badSync ++ be 4 c.syncLosses ++ be 4 c.pacingInvalid ++ be 4 c.stale ++ be 4 c.excluded
    ++ be 4 c.opened ++ be 4 c.complete ++ be 4 c.short ++ be 4 c.tableFull ++ be 4 c.overrun ++ be 4 c.strays
    ++ be 4 c.errored

/-- The open copy as READ FEED reports it (R36). -/
def State.openCopyData (s : State) (f : FeedId) : Option (List Byte) :=
  match (s.feed f).openCopy with
  | none => none
  | some place =>
    (s.record place).map fun r =>
      be 1 place ++ be 2 r.group ++ be 2 r.declared ++ be 2 r.arrivals ++ be 2 r.stored ++ be 2 r.errored
        ++ flag r.overrun

/-- READ FEED (R36). -/
def State.feedData (s : State) (f : FeedId) : List Byte :=
  be 1 (s.feed f).sync.code ++ be 1 (s.feed f).confirm ++ optional 12 (s.openCopyData f)
    ++ optional 2 ((s.feed f).lastOpened.map (be 2)) ++ be 1 (s.feed f).staleRun ++ (s.feed f).counters.bytes
    ++ be 3 s.store.freeCells ++ be 1 s.store.used

/-- The selector counters in the order of R54. -/
def SelectorCounters.bytes (c : SelectorCounters) : List Byte :=
  be 4 c.admitA ++ be 4 c.admitB ++ be 4 c.admitC ++ be 4 c.admitD ++ be 4 c.admitE ++ be 4 c.fromA ++ be 4 c.fromB
    ++ be 4 c.switches ++ be 4 c.superseded ++ be 4 c.abandoned ++ be 4 c.skips ++ be 4 c.missing
    ++ be 4 c.outOfReach ++ be 4 c.freedByMode ++ be 4 c.restarts ++ be 4 c.cuesHanded ++ be 4 c.invalidCues

/-- The copy of E a feed holds: place, state, and rank when closed (R54). -/
def State.copyData (s : State) (f : FeedId) : List Byte :=
  optional 4 <|
    match s.sel.expected with
    | none => none
    | some e =>
      (s.heldCopy f e).map fun (i, r) =>
        be 1 i ++ be 1 r.phase.code ++ optional 1 (if r.closed then some (be 1 r.rank) else none)

/-- READ SELECTOR (R54). The queued groups go out after their number, head first, each as its group number and its feed, by the
model's choice (log entry 14). -/
def State.selectorData (s : State) : List Byte :=
  optional 2 (s.sel.expected.map (be 2)) ++ optional 2 (s.sel.lastAdmitted.map (be 2))
    ++ be 1 (activeCode s.sel.active) ++ be 1 s.sel.mode.code ++ be 1 (feedValue s.sel.preferred)
    ++ flag s.feedA.current ++ be 1 s.feedA.staleRun ++ flag s.feedA.otherCurrent
    ++ flag s.feedB.current ++ be 1 s.feedB.staleRun ++ flag s.feedB.otherCurrent
    ++ s.copyData .a ++ s.copyData .b
    ++ be 1 s.sel.queue.length
    ++ (s.sel.queue.flatMap fun i =>
        match s.record i with
        | some r => be 2 r.group ++ be 1 (feedValue r.feed)
        | none => [])
    ++ s.sel.counters.bytes

/-- The group in emission (R80). -/
def State.emissionData (s : State) : Option (List Byte) :=
  match s.launch.emitting with
  | none => none
  | some e =>
    (s.record e.place).map fun r =>
      be 2 r.group ++ be 1 (feedValue r.feed) ++ instantBytes e.start ++ be 2 e.next ++ be 2 e.total
        ++ instantBytes (tadd e.start (offset s.launch.pq e.total))

/-- The scheduled start (R80). -/
def State.scheduledData (s : State) : Option (List Byte) :=
  s.launch.scheduled.map fun x =>
    be 2 (((s.sel.queue.head?.bind s.record).map (·.group)).getD 0) ++ instantBytes x.start ++ flag x.slipped ++ be 2 x.slip

/-- The launch statistics in the order of R78, the missing count last. -/
def LaunchStats.bytes (t : LaunchStats) (missing : Nat) : List Byte :=
  be 4 t.onTime ++ be 4 t.slipped ++ be 2 t.largestSlip ++ be 4 t.noTime ++ be 4 t.holdShort ++ be 4 t.holdLong
    ++ be 4 t.gateClosed ++ be 4 t.late ++ be 4 t.stepped ++ be 4 t.truncated ++ be 4 t.lateStarts ++ be 4 missing

/-- READ LAUNCH (R80). -/
def State.launchData (s : State) : List Byte :=
  optional 23 s.emissionData ++ optional 13 s.scheduledData
    ++ optional 8 (s.launch.lastEnd.map instantBytes)
    ++ optional 12 (s.launch.gap.map fun (g, j) => instantBytes g ++ be 4 j)
    ++ optional 8 (s.launch.nullEnd.map instantBytes)
    ++ be 1 s.sel.queue.length ++ be 3 s.launch.advance ++ optional 3 (s.launch.pendingAdvance.map (be 3))
    ++ be 4 s.launch.holdMin ++ be 4 s.launch.holdMax ++ be 2 s.launch.periodInt ++ be 2 s.launch.periodFrac
    ++ be 2 s.launch.slipTolerance ++ flag s.launch.strip ++ s.launch.stats.bytes s.sel.counters.missing

/-- A segment: first slot and count (R88). -/
def Segment.bytes (g : Segment) : List Byte := be 3 g.first ++ be 2 g.count

/-- READ PLAY LIST (R90). Whether the list is in use, and whether a lane number follows, go out as one byte, the presence
byte of the lane number, by the model's choice (log entry 14). -/
def State.playListData (s : State) (i : Nat) : List Byte :=
  be 1 (s.playList i).length ++ (s.playList i).flatMap Segment.bytes ++ be 3 (totalCount (s.playList i))
    ++ optional 1 ((s.listUser i).map (be 1))

/-- READ LANE (R95). -/
def State.laneData (s : State) (i : Nat) : List Byte :=
  let l := s.lane i
  be 1 l.state.code ++ optional 1 (l.break_.map (be 1)) ++ optional 1 (l.playList.map (be 1))
    ++ optional 3 (l.position.map fun (seg, pkt) => be 1 seg ++ be 2 pkt)
    ++ optional 5 ((s.activeSpan i).map Segment.bytes)
    ++ be 1 l.queue.length ++ be 3 l.packetsRead ++ be 3 l.packetsTaken ++ be 3 l.badSlots
    ++ optional 3 (l.playList.map fun pl => be 3 (totalCount (s.playList pl))) ++ flag l.clipEnd

/-- READ SLOT (R120). The number of entries goes out in one byte before them, by the model's choice (log entry 14). -/
def State.slotData (s : State) (i : Nat) : List Byte :=
  let sl := s.slot i
  flag sl.defined ++ be 1 sl.entries.length ++ (sl.entries.flatMap fun e => be 2 e.network ++ be 2 e.clip)
    ++ optional 1 (sl.clock.map (be 1)) ++ be 2 sl.guard
    ++ be 6 sl.observation.value ++ instantBytes sl.observation.tick ++ flag sl.observation.valid
    ++ (sl.entries.flatMap fun e => optional 1 (e.carry.map (be 1)))
    ++ optional 1 ((s.liveBreak i).map (be 1))
    ++ be 4 s.splice.cuesApplied ++ be 4 s.splice.cuesIgnored ++ be 4 s.splice.cuesWithoutInstant

/-- A trigger: its kind and its operands (R175). -/
def Trigger.bytes : Trigger → List Byte
  | .cue n => be 1 0 ++ be 2 n
  | .time t => be 1 1 ++ instantBytes t
  | .line l p => be 1 2 ++ be 1 l ++ be 1 p.code
  | .manual => be 1 3

/-- READ BREAK (R105): a FREE record's state alone, else every field. The queue depth and the clip-end flag of a break
without a lane are left off, with no presence byte, by the model's choice (log entry 14). -/
def State.breakData (s : State) (i : Nat) : List Byte :=
  let b := s.brk i
  if b.state = .free then be 1 b.state.code
  else
    be 1 b.state.code ++ be 1 i ++ be 1 (portCode b.owner) ++ be 1 b.slot ++ be 1 b.playList ++ b.trigger.bytes
      ++ be 4 b.lead ++ optional 5 (b.length.map (be 5)) ++ be 1 b.exhaust.code ++ optional 1 (b.lane.map (be 1))
      ++ optional 8 (b.x.map instantBytes) ++ optional 8 (b.outTick.map instantBytes)
      ++ optional 9 (b.y.map fun (t, src) => instantBytes t ++ be 1 src.code)
      ++ optional 8 (b.inTick.map instantBytes) ++ optional 1 (b.cause.map fun c => be 1 c.code)
      ++ flag b.aired ++ flag b.exhausted
      ++ be 4 b.substituted ++ be 4 b.starved ++ be 4 b.filled ++ be 4 b.unmapped
      ++ optional 12 (b.base.map fun (v, c0) => be 6 v ++ be 6 c0) ++ flag b.noBase
      ++ (match b.lane with
          | some l => be 1 (s.lane l).queue.length ++ flag (s.lane l).clipEnd
          | none => [])

/-- READ WINDOW (R130). The breaks on the covered slots go out in ascending slot number, by the model's choice (log entry
14). -/
def State.windowData (s : State) (i : Nat) : List Byte :=
  let w := s.window i
  if w.standing then
    be 1 w.state.code ++ [w.mask] ++ instantBytes w.start ++ instantBytes w.stop ++ instantBytes w.setAt
      ++ be 2 w.blocked ++ be 2 w.recalled
      ++ (((List.range 8).filter w.covers).flatMap fun sl => optional 1 ((s.liveBreak sl).map (be 1)))
  else be 1 w.state.code

/-- A channel record (R134, R147). -/
def Channel.bytes (c : Channel) : List Byte :=
  be 2 c.value ++ be 2 c.low ++ be 2 c.high ++ be 1 c.persistence ++ be 1 c.role.code ++ be 1 c.state.code
    ++ be 1 c.run ++ optional 1 (c.previous.map fun k => be 1 k.code)

/-- The three conditions of R137. -/
def State.healthData (s : State) : List Byte := flag s.mainFault ++ flag s.reserveFault ++ flag s.siteInterlock

/-- READ MONITOR (R147). -/
def State.monitorData (s : State) : List Byte :=
  be 1 s.mon.first ++ be 1 s.mon.last ++ optional 2 (s.mon.pendingRange.map fun (f, l) => be 1 f ++ be 1 l)
    ++ be 1 s.mon.converting ++ s.mon.channels.flatMap Channel.bytes ++ flag s.mon.capture.isSome ++ s.healthData

/-- The capture record (R136). -/
def Capture.bytes (c : Capture) : List Byte :=
  c.values.flatMap (be 2) ++ be 1 c.first ++ be 1 c.last ++ be 1 c.channel ++ be 1 c.state.code ++ instantBytes c.time

/-- READ CAPTURE (R136): the flag, then the record. -/
def State.captureData (s : State) : List Byte := optional 28 (s.mon.capture.map Capture.bytes)

/-- READ CHANGEOVER (R147). The two mute-holder flags go out STATION first, then NETWORK, by the model's choice (log entry
14). -/
def State.changeoverData (s : State) : List Byte :=
  be 1 s.chg.position.code ++ flag s.chg.manual ++ flag s.chg.hold
    ++ be 1 s.chg.history.length ++ s.chg.history.flatMap instantBytes
    ++ flag s.chg.autoReturn ++ be 2 s.chg.returnDelay ++ optional 5 (s.chg.returnTimer.map (be 5)) ++ s.healthData
    ++ flag s.carrierMute ++ flag s.mutePart ++ flag s.muteGate ++ flag s.muteInterlock ++ flag s.muteBoth
    ++ flag s.muteHolders ++ flag s.chg.muteStation ++ flag s.chg.muteNetwork

/-- One line as READ LINES reports it (R157). -/
def State.lineData (s : State) (l : Line) : List Byte :=
  flag l.output ++ flag l.invert ++ be 1 l.function.code ++ optional 1 (l.tallyLane.map (be 1))
    ++ be 1 (levelCode l.commanded) ++ flag l.locked ++ optional 1 (l.frozen.map fun v => be 1 (levelCode v))
    ++ (if l.output then be 1 (levelCode (s.drivenLevel l))
        else be 1 (levelCode l.accepted) ++ be 1 (levelCode l.inputLevel) ++ flag l.pendingChange.isSome
          ++ flag l.latched)

/-- READ LINES (R157). -/
def State.linesData (s : State) : List Byte := s.lines.records.flatMap s.lineData

/-- READ EVENTS (R172, R175): the record count, the lost-event count, the records. -/
def PortState.eventsData (q : PortState) : List Byte :=
  let out := q.events.take 16
  be 1 out.length ++ be 2 q.lostEvents ++ out.flatMap Event.bytes

end Sys2Proof.Machine
end

