-- ==== Sys2Proof/Machine/TimeFamily.lean ====
section
/-! DEFINITION. The meanings of the Site Timebase's rows (chapter 1) and of the BLINK row (R154). An event that has not
fallen due does not take place: its row then changes nothing (log entry 2). -/

namespace Sys2Proof.Machine

open Sys2Proof

/-- What a meaning answers. -/
abbrev Answer := Host.Outcome State Fault Refusal

/-- SECOND_MARK (R1, R2): the period of the site clock that passes from the last tick of a second to tick 0. -/
def execSecondMark (s : State) : Answer := .next (if s.tb.atSecondEnd then s.period else s)

/-- PULSE (R4). -/
def execPulse (s : State) : Answer := .next s.pulse

/-- PULSE_WATCH_CHECK (R5). -/
def execPulseWatchCheck (s : State) : Answer :=
  .next (if s.tb.watchDue then s.changeTb s.tb.checkWatch none else s)

/-- The BLINK source is HIGH and the tick-in-second has reached 5,000,000 (R154). -/
def State.blinkDue (s : State) : Bool := s.lines.blink == .high && decide (5000000 ≤ s.tb.tick)

/-- BLINK_FALL (R154): the BLINK outputs, which follow the source, fall. -/
def execBlinkFall (s : State) : Answer :=
  .next (if s.blinkDue then s.withLines { s.lines with blink := .low } else s)

/-- TIME LABEL (R3). -/
def execTimeLabel (p : Port) (params : List Byte) (s : State) : Answer :=
  .next <| s.onCommand p params (params.length == 4) fun s =>
    if s.lockedOut p then refuse .notPermitted s
    else done (s.withTb { s.tb with pendingLabel := some (field params 0 4) })

/-- READ TIME (R17). -/
def execReadTime (p : Port) (params : List Byte) (s : State) : Answer :=
  .next <| s.onCommand p params params.isEmpty fun s => answer s.timeData s

/-- READ TIMEBASE (R18). -/
def execReadTimebase (p : Port) (params : List Byte) (s : State) : Answer :=
  .next <| s.onCommand p params params.isEmpty fun s => answer s.timebaseData s

/-- SET HOLDOVER LIMIT (R13). -/
def execSetHoldoverLimit (p : Port) (params : List Byte) (s : State) : Answer :=
  .next <| s.onCommand p params (params.length == 3) fun s =>
    if s.lockedOut p then refuse .notPermitted s
    else
      let v := clampTo 1 86400 (field params 0 3)
      (s.withTb { s.tb with holdoverLimit := v.1 }, some ⟨.ok, v.2, []⟩)

end Sys2Proof.Machine
end

