-- ==== Sys2Proof/Machine/FeedFamily.lean ====
section
/-! DEFINITION. The meanings of the rows of Feed Intake (chapter 2) and the Group Selector (chapter 3). Each byte taken on a
feed is one step; a row that names a special byte takes place where that byte is the one named (log entry 2), and
BYTE_TAKEN takes any byte by the rules of R20 to R23. -/

namespace Sys2Proof.Machine

open Sys2Proof

/-- BYTE_TAKEN (R20 to R23). -/
def execByteTaken (f : FeedId) (b : Byte) (s : State) : Answer := .next (s.takeByte f b)

/-- SYNC_CANDIDATE (R21): in SEARCH, a taken byte of 0x47. -/
def execSyncCandidate (f : FeedId) (s : State) : Answer :=
  .next (if (s.feed f).sync = .search then s.takeByte f syncByte else s)

/-- CHECK_BYTE (R22): in VERIFY, the 188th byte after the candidate's first byte or after the last check byte. -/
def execCheckByte (f : FeedId) (b : Byte) (s : State) : Answer :=
  .next (if (s.feed f).sync = .verify ∧ (s.feed f).pos = 0 then s.takeByte f b else s)

/-- BAD_SYNC_BYTE (R23): in LOCKED, the first byte of a packet, not 0x47. -/
def execBadSyncByte (f : FeedId) (b : Byte) (s : State) : Answer :=
  .next (if (s.feed f).sync = .locked ∧ (s.feed f).pos = 0 ∧ b ≠ syncByte then s.takeByte f b else s)

/-- PACKET_ARRIVAL (R23): in LOCKED, the 188th byte of a packet with a good sync byte. -/
def execPacketArrival (f : FeedId) (b : Byte) (s : State) : Answer :=
  .next (if (s.feed f).sync = .locked ∧ (s.feed f).pos = packetLength - 1 ∧ (s.feed f).accepting then s.takeByte f b
    else s)

/-- FEED_SILENCE (R20, R22, R24). -/
def execFeedSilence (f : FeedId) (s : State) : Answer :=
  .next (if (s.feed f).silent then
      (if (s.feed f).sync = .locked then s.syncLoss f .silence else s.withFeed f (s.feed f).toSearch)
    else s)

/-- DEADLINE_REACHED (R43): admission and skip are tested again. -/
def execDeadlineReached (s : State) : Answer := .next s.testSelector

/-- A feed that the new mode excludes and the old one did not. -/
def newlyExcluded (old new : FeedMode) (f : FeedId) : Bool := new.excludes f && !old.excludes f

/-- A copy held on a newly excluded feed is handed back and counted (R50). -/
def State.freeByMode (s : State) (place : Nat) : State :=
  let c := s.sel.counters
  (s.freeRecord place).withSel { s.sel with counters := { c with freedByMode := bump c.freedByMode } }

/-- A feed mode and a preferred feed stored, with their effect in RUN (R50). -/
def State.setFeedMode (s : State) (mode : FeedMode) (preferred : FeedId) : State :=
  let old := s.sel.mode
  let s := s.withSel { s.sel with mode := mode, preferred := preferred }
  if s.running ∧ mode ≠ old then
    let out := (s.store.records.filter fun (_, r) => r.held && newlyExcluded old mode r.feed).map (·.1)
    (out.foldl State.freeByMode s).testSelector
  else s

/-- SET FEED MODE (R50). -/
def execSetFeedMode (p : Port) (params : List Byte) (s : State) : Answer :=
  .next <| s.onCommand p params (params.length == 2) fun s =>
    if s.lockedOut p then refuse .notPermitted s
    else
      match feedModeOf (byteAt params 0), feedOf (byteAt params 1) with
      | some mode, some preferred => done (s.setFeedMode mode preferred)
      | _, _ => refuse .badValue s

/-- READ FEED (R36). -/
def execReadFeed (p : Port) (params : List Byte) (s : State) : Answer :=
  .next <| s.onCommand p params (params.length == 1) fun s =>
    match feedOf (byteAt params 0) with
    | some f => answer (s.feedData f) s
    | none => refuse .badValue s

/-- READ SELECTOR (R54). -/
def execReadSelector (p : Port) (params : List Byte) (s : State) : Answer :=
  .next <| s.onCommand p params params.isEmpty fun s => answer s.selectorData s

end Sys2Proof.Machine
end

