-- ==== Sys2Proof/Machine/LaunchFamily.lean ====
section
/-! DEFINITION. The meanings of the rows of the Launch Scheduler (chapter 5) and of the launch parameters (chapter 4). -/

namespace Sys2Proof.Machine

open Sys2Proof

/-- A start is scheduled, site time has reached it, and the null before it has ended (R72). -/
def State.startDue (s : State) : Bool :=
  s.running && s.launch.nullEnd.isNone &&
    match s.launch.scheduled with | some x => reached s.now x.start | none => false

/-- The start statistics (R72, R78). -/
def LaunchStats.start (t : LaunchStats) (x : Scheduled) : LaunchStats :=
  if x.slipped then { t with slipped := bump t.slipped, largestSlip := max t.largestSlip x.slip }
  else { t with onTime := bump t.onTime }

/-- The group at a place leaves the queue and becomes the group in emission (R72). -/
def State.beginEmission (s : State) (x : Scheduled) (place : Nat) (r : GroupRecord) : State :=
  let total := r.cells.length
  let s := s.withSel { s.sel with queue := s.sel.queue.tail }
  let s := s.withRecord place (some { r with phase := .emitting })
  s.withLaunch
    { s.launch with
      emitting := some ⟨place, x.start, 0, total⟩
      scheduled := none
      lastEnd := some (tadd x.start (offset s.launch.pq total))
      gap := none, nullsStopped := false
      stats := s.launch.stats.start x }

/-- The scheduled start is reached (R72): the gate is checked again, and the head group starts or is dropped. -/
def State.startHead (s : State) (x : Scheduled) : State :=
  if s.tb.gateOpen then
    match s.sel.queue with
    | [] => s
    | place :: _ =>
      match s.record place with
      | none => s
      | some r => s.beginEmission x place r
  else
    -- the start is withdrawn with the drop, and a head decision follows
    (s.dropHead .gateClosed).withdrawStart.headDecision

/-- SCHEDULED_START (R72). -/
def execScheduledStart (s : State) : Answer :=
  .next (if s.startDue then (match s.launch.scheduled with | some x => s.startHead x | none => s) else s)

/-- The packet start that the group in emission has reached (R72). -/
def State.packetDue (s : State) : Option (Emission × Time) :=
  match s.launch.emitting with
  | none => none
  | some e =>
    let t := tadd e.start (offset s.launch.pq e.next)
    if s.running && reached s.now t then some (e, t) else none

/-- Step 1 of the output stage (R73, R74): pacing packets, and cue packets with the strip flag on, become nulls. -/
def Launch.stripped (l : Launch) (index : Nat) (p : Packet) : Packet :=
  if index = 0 ∨ (l.strip ∧ identifier p = l.cueId) then nullPacket else p

/-- Step 5 of the output stage (R73, R72): the cell returns to the free list; with the last of them the record is freed,
the group in emission becomes absent, and a head decision follows. -/
def State.releaseCell (s : State) (e : Emission) (r : GroupRecord) : State :=
  let rest := r.cells.tail
  let s := s.withStore
    { table := s.store.table.set e.place (some { r with cells := rest }), freeCells := s.store.freeCells + 1 }
  if rest.isEmpty then
    ((s.withLaunch { s.launch with emitting := none }).freeRecord e.place).headDecision
  else s.withLaunch { s.launch with emitting := some { e with next := e.next + 1 } }

/-- A packet of the group in emission passes through the output stage: strip, splice, observe, send, release (R73). -/
def State.outputStage (s : State) (e : Emission) (start : Time) (r : GroupRecord) (p : Packet) : State :=
  let stripped := s.launch.stripped e.next p
  let (s, spliced) := s.splicePacket start stripped
  let out := match spliced with | .keep => stripped | .put q => q
  let s := s.observe start out (spliced == .keep)
  let s := s.withLaunch (s.launch.send out start)
  s.releaseCell e r

/-- The start of the next packet of the group in emission, when it is due (R72, R73). -/
def State.packetStart (s : State) : State :=
  match s.packetDue with
  | none => s
  | some (e, start) =>
    match s.record e.place with
    | none => s
    | some r =>
      match r.cells with
      | [] => s
      | p :: _ => s.outputStage e start r p

/-- PACKET_START (R73). -/
def execPacketStart (s : State) : Answer := .next s.packetStart

/-- The start of the next null of the gap has been reached (R69). -/
def State.nullDue (s : State) : Option (Time × Nat) :=
  match s.launch.gap with
  | some (g, j) =>
    if s.running && s.launch.emitting.isNone && s.launch.nullEnd.isNone && !s.launch.nullsStopped
        && reached s.now (tadd g (offset s.launch.pq j)) then some (g, j)
    else none
  | none => none

/-- The null whose slot ends at `stop` fits before the scheduled start (R69). -/
def Launch.nullFits (l : Launch) (stop : Time) : Bool :=
  match l.scheduled with
  | none => true
  | some x => !later stop x.start

/-- NULL_START (R69). -/
def execNullStart (s : State) : Answer :=
  .next <|
    match s.nullDue with
    | none => s
    | some (g, j) =>
      let start := tadd g (offset s.launch.pq j)
      let stop := tadd g (offset s.launch.pq (j + 1))
      if s.launch.nullFits stop then
        s.withLaunch { s.launch.send nullPacket start with nullEnd := some stop }
      else s.withLaunch { s.launch with nullsStopped := true }

/-- NULL_SLOT_END (R69): the null index advances. -/
def execNullSlotEnd (s : State) : Answer :=
  .next (if s.nullEndDue then s.withLaunch s.launch.endNull else s)

/-- GROUP_END_TICK (R72): the gap origin becomes the end tick. -/
def execGroupEndTick (s : State) : Answer :=
  .next s.endGroup

/-- SET ADVANCE (R76). -/
def execSetAdvance (p : Port) (params : List Byte) (s : State) : Answer :=
  .next <| s.onCommand p params (params.length == 3) fun s =>
    if s.lockedOut p then refuse .notPermitted s
    else if 2000000 < field params 0 3 then refuse .badValue s
    else done (s.withLaunch { s.launch with pendingAdvance := some (field params 0 3) })

/-- SET PACKET PERIOD (R61). -/
def execSetPacketPeriod (p : Port) (params : List Byte) (s : State) : Answer :=
  .next <| s.onCommand p params (params.length == 4) fun s =>
    if s.lockedOut p then refuse .notPermitted s
    else if s.part ≠ .standby then refuse .wrongState s
    else if field params 0 2 < 300 ∨ 15040 < field params 0 2 then refuse .badValue s
    else done (s.withLaunch { s.launch with periodInt := field params 0 2, periodFrac := field params 2 2 })

/-- SET HOLD LIMITS (R60). -/
def execSetHoldLimits (p : Port) (params : List Byte) (s : State) : Answer :=
  .next <| s.onCommand p params (params.length == 8) fun s =>
    if s.lockedOut p then refuse .notPermitted s
    else
      let lo := clampTo 0 20000000 (field params 0 4)
      let hi := clampTo 1 20000000 (field params 4 4)
      if hi.1 < lo.1 then refuse .badValue s
      else (s.withLaunch { s.launch with holdMin := lo.1, holdMax := hi.1 }, some ⟨.ok, lo.2 || hi.2, []⟩)

/-- SET SLIP TOLERANCE (R77). -/
def execSetSlipTolerance (p : Port) (params : List Byte) (s : State) : Answer :=
  .next <| s.onCommand p params (params.length == 2) fun s =>
    if s.lockedOut p then refuse .notPermitted s
    else
      let v := clampTo 0 10000 (field params 0 2)
      (s.withLaunch { s.launch with slipTolerance := v.1 }, some ⟨.ok, v.2, []⟩)

/-- An identifier is a network identifier of an entry of a defined slot (R169). -/
def State.isNetworkId (s : State) (id : Nat) : Bool := (s.networkEntry id).isSome

/-- SET STREAM IDS (R169). -/
def execSetStreamIds (p : Port) (params : List Byte) (s : State) : Answer :=
  .next <| s.onCommand p params (params.length == 5) fun s =>
    if s.lockedOut p then refuse .notPermitted s
    else if s.part ≠ .standby then refuse .wrongState s
    else
      let pacing := field params 0 2
      let cue := field params 2 2
      match flagOf (byteAt params 4) with
      | none => refuse .badValue s
      | some strip =>
        if 8190 < pacing ∨ 8190 < cue ∨ pacing = cue ∨ s.isNetworkId pacing ∨ s.isNetworkId cue then
          refuse .badValue s
        else done (s.withLaunch { s.launch with pacingId := pacing, cueId := cue, strip := strip })

/-- READ LAUNCH (R80). -/
def execReadLaunch (p : Port) (params : List Byte) (s : State) : Answer :=
  .next <| s.onCommand p params params.isEmpty fun s => answer s.launchData s

end Sys2Proof.Machine
end

