-- ==== Sys2Proof/Machine/ClipFamily.lean ====
section
/-! DEFINITION. The meanings of the rows of the Clip Memory Controller (chapter 6). -/

namespace Sys2Proof.Machine

open Sys2Proof

/-- The slot access being served is over (R87). -/
def State.endService (s : State) : State := s.withClip { s.clip with service := none }

/-- The read position moved on by one packet (R92). -/
def nextPosition (segments : List Segment) (seg pkt : Nat) : Option (Nat × Nat) :=
  match segments[seg]? with
  | none => none
  | some g =>
    if pkt + 1 < g.count then some (seg, pkt + 1)
    else if seg + 1 < segments.length then some (seg + 1, 0)
    else none

/-- A lane after a read of the packet at its read position (R92): counted, queued when its first byte is 0x47, and the
position moves on. -/
def Lane.readDone (l : Lane) (segments : List Segment) (p : Packet) : Lane :=
  let position := match l.position with | some (seg, pkt) => nextPosition segments seg pkt | none => none
  if p.head? = some syncByte then
    { l with packetsRead := l.packetsRead + 1, queue := l.queue ++ [p], position := position }
  else { l with packetsRead := l.packetsRead + 1, badSlots := l.badSlots + 1, position := position }

/-- A lane's slot read completes (R92, R93). -/
def State.laneRead (s : State) (i slot : Nat) : State :=
  let l := s.lane i
  let segments := match l.playList with | some pl => s.playList pl | none => []
  (s.withLane i (l.readDone segments (s.clip.readSlot slot))).settleClipEnd i

/-- LANE_READ_DONE (R92): a read whose lane has been released meanwhile is discarded (R94). -/
def execLaneReadDone (lane : Fin 4) (s : State) : Answer :=
  .next <|
    match s.clip.service with
    | some (.lane i slot discarded) =>
      if i = lane.val then
        (if discarded then s.endService else s.endService.laneRead i slot).arbitrate
      else s
    | _ => s

/-- A long command completes on a port: the command in progress becomes absent and its response is made ready (R161). -/
def State.complete (s : State) (p : Port) (r : Reply) : State :=
  (s.withPort p { s.port p with inProgress := none }).respond p r

/-- The clip command of a port after one slot, complete with the last (R85, R86). -/
def State.clipAdvance (s : State) (p : Port) (packets : List Packet) (reply : Reply) : State :=
  match (s.port p).clipCommand with
  | none => s
  | some c =>
    if c.first + c.count ≤ c.next + 1 then s.complete p reply
    else
      s.withPort p
        { s.port p with inProgress := some (.clip { c with next := c.next + 1, packets := packets }) }

/-- CLIP_WRITE_SLOT (R85): one slot of a CLIP WRITE is written whole; the last completes the command. The slot in hand of
an abandoned write is written and no more. -/
def execClipWriteSlot (p : Port) (s : State) : Answer :=
  .next <|
    match s.clip.service with
    | some (.write q slot packet abandoned) =>
      if q = p then
        let s := (s.withClip (s.clip.writeSlot slot packet)).endService
        let rest := (((s.port p).clipCommand).map (·.packets.tail)).getD []
        (if abandoned then s else s.clipAdvance p rest (.ok [])).arbitrate
      else s
    | _ => s

/-- CLIP_READ_SLOT (R86): one slot of a CLIP READ is read whole; the last completes the command with the count and the
packets in slot order. -/
def execClipReadSlot (p : Port) (s : State) : Answer :=
  .next <|
    match s.clip.service with
    | some (.read q slot abandoned) =>
      if q = p then
        let packet := s.clip.readSlot slot
        let s := s.endService
        let got := (((s.port p).clipCommand).map (·.packets)).getD [] ++ [packet]
        (if abandoned then s else s.clipAdvance p got (.ok (be 1 got.length ++ got.flatten))).arbitrate
      else s
    | _ => s

/-- A run of slots meets the active span of a lane (R84, check 4). -/
def State.meetsSpan (s : State) (first count : Nat) : Bool :=
  (List.range 4).any fun i =>
    match s.activeSpan i with
    | some g => decide (first < g.first + g.count) && decide (g.first < first + count)
    | none => false

/-- A clip command taken as the port's long command (R161). -/
def State.beginClip (s : State) (p : Port) (c : ClipCommand) : State × Option Reply :=
  ((s.withPort p { s.port p with inProgress := some (.clip c) }).arbitrate, none)

/-- The count and the run of slots of a clip command are in range (R84, R86). -/
def clipRunFits (first count : Nat) : Bool :=
  decide (1 ≤ count) && decide (count ≤ 16) && decide (first + count ≤ clipSlots)

/-- CLIP WRITE (R84). -/
def execClipWrite (p : Port) (params : List Byte) (s : State) : Answer :=
  .next <| s.onCommand p params (packetsFit params) fun s =>
    let first := field params 0 3
    let count := byteAt params 3
    if !clipRunFits first count then refuse .badValue s
    else if (packetsOf params).any fun q => q.head? != some syncByte then refuse .badValue s
    else if s.meetsSpan first count then refuse .inUse s
    else s.beginClip p ⟨true, first, count, first, packetsOf params⟩

/-- CLIP READ (R86). -/
def execClipRead (p : Port) (params : List Byte) (s : State) : Answer :=
  .next <| s.onCommand p params (params.length == 4) fun s =>
    let first := field params 0 3
    let count := byteAt params 3
    if !clipRunFits first count then refuse .badValue s
    else s.beginClip p ⟨false, first, count, first, []⟩

/-- PLAY LIST WRITE (R89). -/
def execPlayListWrite (p : Port) (params : List Byte) (s : State) : Answer :=
  .next <| s.onCommand p params (segmentsFit params) fun s =>
    let list := byteAt params 0
    let segments := segmentsOf params
    if 32 ≤ list ∨ segments.length < 1 ∨ 16 < segments.length ∨ (segments.all Segment.valid) = false then
      refuse .badValue s
    else if (s.listUser list).isSome then refuse .inUse s
    else done (s.withPlayList list segments)

/-- PLAY LIST CLEAR (R90). -/
def execPlayListClear (p : Port) (params : List Byte) (s : State) : Answer :=
  .next <| s.onCommand p params (params.length == 1) fun s =>
    let list := byteAt params 0
    if 32 ≤ list then refuse .badValue s
    else if (s.listUser list).isSome then refuse .inUse s
    else done (s.withPlayList list [])

/-- READ PLAY LIST (R90). -/
def execReadPlayList (p : Port) (params : List Byte) (s : State) : Answer :=
  .next <| s.onCommand p params (params.length == 1) fun s =>
    if 32 ≤ byteAt params 0 then refuse .badValue s else answer (s.playListData (byteAt params 0)) s

/-- READ LANE (R95). -/
def execReadLane (p : Port) (params : List Byte) (s : State) : Answer :=
  .next <| s.onCommand p params (params.length == 1) fun s =>
    if 4 ≤ byteAt params 0 then refuse .badValue s else answer (s.laneData (byteAt params 0)) s

end Sys2Proof.Machine
end

