-- ==== Sys2Proof/Machine/SpliceFamily.lean ====
section
/-! DEFINITION. The meanings of the rows of the Splice Engine: slots and breaks (chapter 7). -/

namespace Sys2Proof.Machine

open Sys2Proof

/-! ### Events of site time -/

/-- TIME_TRIGGER_DUE (R107). -/
def execTimeTriggerDue (index : Fin 32) (s : State) : Answer := .next (s.fireTime index.val)

/-- SPLICE_OUT_EXPIRY (R109). -/
def execSpliceOutExpiry (index : Fin 32) (s : State) : Answer := .next (s.expire index.val)

/-! ### Slots -/

/-- A list holds no value twice. -/
def noRepeats : List Nat → Bool
  | [] => true
  | a :: rest => !rest.contains a && noRepeats rest

/-- A break LOADED, WAITING, CUED or ON_AIR names the slot (R97, check 4). -/
def State.slotInUse (s : State) (slot : Nat) : Bool :=
  s.splice.breaks.any fun b => b.state != .free && b.state != .ended && b.slot == slot

/-- A network identifier is an entry of a defined slot other than this one (R97). -/
def State.takenElsewhere (s : State) (slot id : Nat) : Bool :=
  (List.range 8).any fun i => i != slot && (s.slot i).defined && ((s.slot i).entryOfNetwork id).isSome

/-- The values that R97, check 3 refuses BAD_VALUE. -/
def State.badSlot (s : State) (slot : Nat) (pairs : List (Nat × Nat)) (clock : Option Nat) : Bool :=
  decide (8 ≤ slot) || decide (pairs.length < 1) || decide (4 < pairs.length)
    || (pairs.any fun (n, c) => decide (8190 < n) || decide (8190 < c) || n == s.launch.pacingId || n == s.launch.cueId
      || s.takenElsewhere slot n)
    || !noRepeats (pairs.map (·.1)) || !noRepeats (pairs.map (·.2))
    || (match clock with | some k => decide (pairs.length ≤ k) | none => false)

/-- The carry that a network identifier had as an entry of the slot before the command (R97). -/
def Slot.carryOf (sl : Slot) (id : Nat) : Option Nat :=
  match sl.entries.find? (·.network == id) with
  | some e => e.carry
  | none => none

/-- A slot definition replaced and its runtime record settled (R97). -/
def Slot.redefine (sl : Slot) (pairs : List (Nat × Nat)) (clock : Option Nat) (guard : Nat) : Slot where
  defined := true
  entries := pairs.map fun (n, c) => ⟨n, c, sl.carryOf n⟩
  clock := clock
  guard := guard
  observation := { sl.observation with valid := false }

/-- DEFINE SLOT (R97). -/
def execDefineSlot (p : Port) (params : List Byte) (s : State) : Answer :=
  .next <| s.onCommand p params true fun s =>
    if s.lockedOut p then refuse .notPermitted s
    else if !slotFits params then refuse .badLength s
    else
      let slot := byteAt params 0
      let pairs := slotPairs params
      let o := 2 + 4 * pairs.length
      match optionalOf params o 1 with
      | none => refuse .badValue s
      | some clock =>
        if s.badSlot slot pairs clock then refuse .badValue s
        else if s.slotInUse slot then refuse .inUse s
        else
          let guard := clampTo 1 3600 (field params (o + 2) 2)
          (s.withSlot slot ((s.slot slot).redefine pairs clock guard.1), some ⟨.ok, guard.2, []⟩)

/-- CLEAR SLOT (R98). -/
def execClearSlot (p : Port) (params : List Byte) (s : State) : Answer :=
  .next <| s.onCommand p params (params.length == 1) fun s =>
    let slot := byteAt params 0
    if s.lockedOut p then refuse .notPermitted s
    else if 8 ≤ slot then refuse .badValue s
    else if s.slotInUse slot then refuse .inUse s
    else done (s.withSlot slot .reset)

/-- READ SLOT (R120). -/
def execReadSlot (p : Port) (params : List Byte) (s : State) : Answer :=
  .next <| s.onCommand p params (params.length == 1) fun s =>
    if 8 ≤ byteAt params 0 then refuse .badValue s else answer (s.slotData (byteAt params 0)) s

/-! ### Creating and modifying breaks (R100, R102) -/

/-- The lowest-indexed FREE record (R100). -/
def State.freeBreak (s : State) : Option Nat := breakIndices.find? fun i => (s.brk i).state == .free

/-- A record filled with the fields carried, LOADED, owned by the sending port (R100). -/
def BreakRecord.created (p : Port) (b : BreakFields) : BreakRecord :=
  { BreakRecord.empty with
    state := .loaded, owner := p, slot := b.slot, playList := b.playList, trigger := b.trigger, lead := b.lead
    length := b.length, exhaust := b.exhaust }

/-- The fields that MODIFY BREAK replaces (R102). -/
def BreakRecord.modified (r : BreakRecord) (b : BreakFields) : BreakRecord :=
  { r with
    slot := b.slot, playList := b.playList, trigger := b.trigger, lead := b.lead, length := b.length
    exhaust := b.exhaust }

/-- CREATE BREAK (R100). -/
def execCreateBreak (p : Port) (params : List Byte) (s : State) : Answer :=
  .next <| s.onCommand p params (breakFits params) fun s =>
    match breakOf params with
    | none => refuse .badValue s
    | some b =>
      if !(s.slot b.slot).defined then refuse .wrongState s
      else
        match s.freeBreak with
        | none => refuse .tableFull s
        | some i => (s.withBreak i (.created p b), some (.ok (be 1 i)))

/-! ### Commands on an existing break (R101) -/

/-- The ownership rule of a command on a break (R101). -/
inductive Ownership where
  /-- the owner alone: MODIFY BREAK, ARM, DISARM, TRIGGER -/
  | owner
  /-- the owner, and the network port on any break: CANCEL, CLEAR BREAK -/
  | ownerOrNetwork
  deriving DecidableEq, Repr

/-- The port may give the command to a break of this owner (R101). -/
def Ownership.allows : Ownership → (p owner : Port) → Bool
  | .owner, p, o => p == o
  | .ownerOrNetwork, p, o => p == o || p == .network

/-- The checks of R101 before a command's own work: index, FREE record, ownership. -/
def State.onBreak (s : State) (p : Port) (index : Nat) (rule : Ownership) (act : State → State × Option Reply) :
    State × Option Reply :=
  if 32 ≤ index then refuse .badValue s
  else if (s.brk index).state = .free then refuse .wrongState s
  else if !rule.allows p (s.brk index).owner then refuse .notOwner s
  else act s

/-- MODIFY BREAK (R102): the index, then the fields of CREATE BREAK. -/
def execModifyBreak (p : Port) (params : List Byte) (s : State) : Answer :=
  .next <| s.onCommand p params (!params.isEmpty) fun s =>
    let i := byteAt params 0
    s.onBreak p i .owner fun s =>
      if !breakFits params.tail then refuse .badLength s
      else
        match breakOf params.tail with
        | none => refuse .badValue s
        | some b =>
          if (s.brk i).state ≠ .loaded ∨ !(s.slot b.slot).defined then refuse .wrongState s
          else done (s.withBreak i ((s.brk i).modified b))

/-- ARM (R103): a TIME break already due in RUN fires at once. -/
def execArm (p : Port) (params : List Byte) (s : State) : Answer :=
  .next <| s.onCommand p params (params.length == 1) fun s =>
    let i := byteAt params 0
    s.onBreak p i .owner fun s =>
      if (s.brk i).state ≠ .loaded then refuse .wrongState s
      else done ((s.withBreak i { s.brk i with state := .waiting }).fireTime i)

/-- DISARM (R103). -/
def execDisarm (p : Port) (params : List Byte) (s : State) : Answer :=
  .next <| s.onCommand p params (params.length == 1) fun s =>
    let i := byteAt params 0
    s.onBreak p i .owner fun s =>
      if (s.brk i).state ≠ .waiting then refuse .wrongState s
      else done (s.withBreak i { s.brk i with state := .loaded })

/-- TRIGGER (R107). -/
def execTrigger (p : Port) (params : List Byte) (s : State) : Answer :=
  .next <| s.onCommand p params (params.length == 1) fun s =>
    let i := byteAt params 0
    s.onBreak p i .owner fun s =>
      if (s.brk i).state ≠ .waiting ∨ (s.brk i).trigger ≠ .manual ∨ !s.running then refuse .wrongState s
      else done (s.fire i (tadd s.now (s.brk i).lead) none)

/-- CANCEL (R104). -/
def execCancel (p : Port) (params : List Byte) (s : State) : Answer :=
  .next <| s.onCommand p params (params.length == 1) fun s =>
    let i := byteAt params 0
    s.onBreak p i .ownerOrNetwork fun s =>
      if (s.brk i).state = .ended then refuse .wrongState s else done (s.cancelBreak i)

/-- CLEAR BREAK (R105). -/
def execClearBreak (p : Port) (params : List Byte) (s : State) : Answer :=
  .next <| s.onCommand p params (params.length == 1) fun s =>
    let i := byteAt params 0
    s.onBreak p i .ownerOrNetwork fun s =>
      if (s.brk i).state ≠ .ended then refuse .wrongState s else done (s.withBreak i .empty)

/-- READ BREAK (R105, R101): open to both ports on every record. -/
def execReadBreak (p : Port) (params : List Byte) (s : State) : Answer :=
  .next <| s.onCommand p params (params.length == 1) fun s =>
    if 32 ≤ byteAt params 0 then refuse .badValue s else answer (s.breakData (byteAt params 0)) s

end Sys2Proof.Machine
end

