-- ==== Sys2Proof/Machine/WindowFamily.lean ====
section
/-! DEFINITION. The meanings of the rows of the Protect Window Table (chapter 8). -/

namespace Sys2Proof.Machine

open Sys2Proof

/-- WINDOW_START_REACHED (R126, R128). -/
def execWindowStartReached (w : Fin 8) (s : State) : Answer := .next (s.windowStart w.val)

/-- WINDOW_END_REACHED (R128). -/
def execWindowEndReached (w : Fin 8) (s : State) : Answer := .next (s.windowEnd w.val)

/-- The lowest-indexed FREE window record (R124). -/
def State.freeWindow (s : State) : Option Nat := windowIndices.find? fun i => (s.window i).state == .free

/-- An accepted window put into a record, with its effects at the same instant (R124, R125). -/
def State.setWindow (s : State) (w : Nat) (mask : BitVec 8) (start stop : Time) : State :=
  let pending := later start s.now
  let s := s.withWindow w ⟨if pending then .pending else .active, mask, start, stop, s.now, 0, 0⟩
  if pending then s.windowSetPending w else s.windowActive w

/-- SET WINDOW (R124). An end 2^31 seconds or more after the start is not later than it. -/
def execSetWindow (p : Port) (params : List Byte) (s : State) : Answer :=
  .next <| s.onCommand p params true fun s =>
    if p = .station then refuse .notPermitted s
    else if params.length ≠ 17 then refuse .badLength s
    else
      let mask := params.headD 0
      let start := instantAt params 1
      let stop := instantAt params 9
      if mask = 0 ∨ !tickFits params 1 ∨ !tickFits params 9 ∨ !later stop start ∨ !later stop s.now then
        refuse .badValue s
      else
        match s.freeWindow with
        | none => refuse .tableFull s
        | some w => (s.setWindow w mask start stop, some (.ok (be 1 w)))

/-- REMOVE WINDOW (R129); its length check comes before its others (R159). -/
def execRemoveWindow (p : Port) (params : List Byte) (s : State) : Answer :=
  .next <| s.onCommand p params (params.length == 1) fun s =>
    let w := byteAt params 0
    if p = .station then refuse .notPermitted s
    else if 8 ≤ w then refuse .badValue s
    else if (s.window w).state = .free then refuse .wrongState s
    else done (s.windowFree w 1)

/-- READ WINDOW (R130). -/
def execReadWindow (p : Port) (params : List Byte) (s : State) : Answer :=
  .next <| s.onCommand p params (params.length == 1) fun s =>
    if 8 ≤ byteAt params 0 then refuse .badValue s else answer (s.windowData (byteAt params 0)) s

end Sys2Proof.Machine
end

