-- ==== Sys2Proof/Machine/MonitorFamily.lean ====
section
/-! DEFINITION. The meanings of the rows of the Transmitter Monitor and the Changeover Controller (chapter 9). -/

namespace Sys2Proof.Machine

open Sys2Proof

/-! ### Events -/

/-- The conversion in progress has run its 2,500 periods (R132). -/
def Monitor.conversionDue (m : Monitor) : Bool := decide (2500 ≤ m.elapsed)

/-- CONVERSION_COMPLETE (R135, R133). -/
def execConversionComplete (value : BitVec 10) (s : State) : Answer :=
  .next (if s.mon.conversionDue then s.completeConversion value.toNat else s)

/-- The return timer has run out (R141). -/
def Changeover.timerDue (c : Changeover) : Bool := c.returnTimer == some 0

/-- The expiry of the return timer taken, when it has fallen due (R141, R140). -/
def State.takeExpiry (s : State) : State := if s.chg.timerDue then s.autoChangeover .main else s

/-- RETURN_TIMER_EXPIRY (R141, R140). -/
def execReturnTimerExpiry (s : State) : Answer := .next s.takeExpiry

/-! ### The monitor's commands -/

/-- SET SCAN RANGE (R133). -/
def execSetScanRange (p : Port) (params : List Byte) (s : State) : Answer :=
  .next <| s.onCommand p params (params.length == 2) fun s =>
    let first := byteAt params 0
    let last := byteAt params 1
    if 7 < first ∨ 7 < last ∨ last < first then refuse .badValue s
    else done (s.withMon { s.mon with pendingRange := some (first, last) })

/-- The four settings of a channel replaced together (R134). -/
def Channel.configured (c : Channel) (low high persistence : Nat) (role : Role) : Channel :=
  { c with low := low, high := high, persistence := persistence, role := role }

/-- SET CHANNEL (R134); a change of role acts on the exciter health at once (R137). -/
def execSetChannel (p : Port) (params : List Byte) (s : State) : Answer :=
  .next <| s.onCommand p params (params.length == 7) fun s =>
    let i := byteAt params 0
    let low := field params 1 2
    let high := field params 3 2
    match roleOf (byteAt params 6) with
    | none => refuse .badValue s
    | some role =>
      if 7 < i ∨ 1023 < low ∨ 1023 < high ∨ high < low then refuse .badValue s
      else
        let n := clampTo 1 15 (byteAt params 5)
        ((s.withChannel i ((s.channel i).configured low high n.1 role)).reform s, some ⟨.ok, n.2, []⟩)

/-- READ MONITOR (R147). -/
def execReadMonitor (p : Port) (params : List Byte) (s : State) : Answer :=
  .next <| s.onCommand p params params.isEmpty fun s => answer s.monitorData s

/-- READ CAPTURE (R136): a capture read is taken. -/
def execReadCapture (p : Port) (params : List Byte) (s : State) : Answer :=
  .next <| s.onCommand p params params.isEmpty fun s =>
    (s.withMon { s.mon with capture := none }, some (.ok s.captureData))

/-! ### The changeover's commands -/

/-- The position moved by command (R143): MANUAL, the timer stopped, CHANGEOVER raised when the position changes. -/
def State.manualChangeover (s : State) (target : Position) : State :=
  let t := s.withChg { s.chg with manual := true, returnTimer := none, position := target }
  if target = s.chg.position then t else t.raise .changeover target.code 1

/-- CHANGEOVER (R143). -/
def execChangeover (p : Port) (params : List Byte) (s : State) : Answer :=
  .next <| s.onCommand p params (params.length == 1) fun s =>
    match positionOf (byteAt params 0) with
    | none => refuse .badValue s
    | some target => if s.faultOf target then refuse .faulted s else done (s.manualChangeover target)

/-- AUTO (R144). -/
def execAuto (p : Port) (params : List Byte) (s : State) : Answer :=
  .next <| s.onCommand p params params.isEmpty fun s =>
    done (s.withChg { s.chg with manual := false }).reevaluate

/-- The return settings stored; auto-return off stops a running timer (R145, R141). -/
def Changeover.setReturn (c : Changeover) (on : Bool) (delay : Nat) : Changeover :=
  { c with autoReturn := on, returnDelay := delay, returnTimer := if on then c.returnTimer else none }

/-- SET RETURN (R145). -/
def execSetReturn (p : Port) (params : List Byte) (s : State) : Answer :=
  .next <| s.onCommand p params (params.length == 3) fun s =>
    match flagOf (byteAt params 0) with
    | none => refuse .badValue s
    | some on =>
      let delay := clampTo 1 3600 (field params 1 2)
      ((s.withChg (s.chg.setReturn on delay.1)).reevaluate, some ⟨.ok, delay.2, []⟩)

/-- History and hold cleared, and a hold that was set reported (R142). -/
def State.releaseHold (s : State) : State :=
  let t := s.withChg { s.chg with history := [], hold := false }
  if s.chg.hold then t.raise .changeoverHold s.chg.position.code 0 else t

/-- RELEASE HOLD (R142). -/
def execReleaseHold (p : Port) (params : List Byte) (s : State) : Answer :=
  .next <| s.onCommand p params params.isEmpty fun s => done s.releaseHold.reevaluate

/-- READ CHANGEOVER (R147). A running timer is read with 1 period or more left, so a read at the instant of its expiry comes
after the expiry (log entry 27). -/
def execReadChangeover (p : Port) (params : List Byte) (s : State) : Answer :=
  .next <| s.onCommand p params params.isEmpty fun s => answer s.takeExpiry.changeoverData s.takeExpiry

/-! ### Mute holders (R139) -/

/-- A port put into the set of mute holders, or taken out of it. -/
def Changeover.hold_ (c : Changeover) (p : Port) (on : Bool) : Changeover :=
  match p with
  | .station => { c with muteStation := on }
  | .network => { c with muteNetwork := on }

/-- MUTE (R139). -/
def execMute (p : Port) (params : List Byte) (s : State) : Answer :=
  .next <| s.onCommand p params params.isEmpty fun s => done (s.withChg (s.chg.hold_ p true))

/-- UNMUTE (R139). -/
def execUnmute (p : Port) (params : List Byte) (s : State) : Answer :=
  .next <| s.onCommand p params params.isEmpty fun s => done (s.withChg (s.chg.hold_ p false))

/-- UNMUTE ALL (R139). -/
def execUnmuteAll (p : Port) (params : List Byte) (s : State) : Answer :=
  .next <| s.onCommand p params params.isEmpty fun s =>
    if p = .station then refuse .notPermitted s
    else done (s.withChg { s.chg with muteStation := false, muteNetwork := false })

end Sys2Proof.Machine
end

