-- ==== Sys2Proof/Machine/LineFamily.lean ====
section
/-! DEFINITION. The meanings of the rows of the Contact Line Unit (chapter 10). -/

namespace Sys2Proof.Machine

open Sys2Proof

/-- LINE_EDGE_ACCEPTED (R152). -/
def execLineEdgeAccepted (line : Fin 12) (s : State) : Answer :=
  .next (if (s.line line.val).edgeDue then s.acceptEdge line.val else s)

/-- A line whose pin the site puts at a level (R151): an input begins a pending change or discards it; an output only
has the level on record (log entry 12). -/
def Line.pinChange (l : Line) (level : Level) : Line :=
  if l.output then { l with pin := level }
  else if level = l.accepted then { l with pin := level, pendingChange := none }
  else { l with pin := level, pendingChange := some (l.pendingChange.getD 1) }

/-- PIN_LEVEL_CHANGE (R151). -/
def execPinLevelChange (line : Fin 12) (level : Level) (s : State) : Answer :=
  .next (s.withLine line.val ((s.line line.val).pinChange level))

/-! ### Configuring a line (R150) -/

/-- What CONFIGURE LINE carries beside the line. -/
structure LineSettings where
  output : Bool
  invert : Bool
  function : LineFunction
  tallyLane : Option Nat
  commanded : Level
  deriving DecidableEq, Repr

/-- A direction: INPUT 0, OUTPUT 1 (chapter 10). -/
def directionOf : Nat → Option Bool
  | 0 => some false
  | 1 => some true
  | _ => none

/-- The settings carried, or none where R150, step 4 refuses BAD_VALUE (an invert byte that is no flag among them, log
entry 14). -/
def lineSettings (ps : List Byte) : Option LineSettings :=
  match directionOf (byteAt ps 1), flagOf (byteAt ps 2), levelOf (byteAt ps 5) with
  | some output, some invert, some commanded =>
    match functionOf output (byteAt ps 3) with
    | none => none
    | some fn =>
      if fn = .tally then
        if byteAt ps 4 < 4 then some ⟨output, invert, fn, some (byteAt ps 4), commanded⟩ else none
      else some ⟨output, invert, fn, none, commanded⟩
  | _, _, _ => none

/-- A line configured, with the effect of the change of direction (R150). -/
def Line.configured (l : Line) (c : LineSettings) : Line :=
  let stored : Line :=
    { l with
      output := c.output, invert := c.invert, function := c.function, tallyLane := c.tallyLane
      commanded := c.commanded }
  match l.output, c.output with
  | false, false => stored
  | true, false => { stored with accepted := l.pin, pendingChange := none, latched := false }
  | false, true => { stored with pendingChange := none, latched := false }
  | true, true => stored

/-- CONFIGURE LINE (R150). -/
def execConfigureLine (p : Port) (params : List Byte) (s : State) : Answer :=
  .next <| s.onCommand p params (params.length == 6) fun s =>
    let i := byteAt params 0
    if 11 < i then refuse .badValue s
    else if (s.line i).locked then refuse .locked s
    else
      match lineSettings params with
      | none => refuse .badValue s
      | some c => done ((s.withLine i ((s.line i).configured c)).reform s)

/-! ### Levels and locks (R155, R156) -/

/-- SET LINE LEVEL (R155). -/
def execSetLineLevel (p : Port) (params : List Byte) (s : State) : Answer :=
  .next <| s.onCommand p params (params.length == 2) fun s =>
    let i := byteAt params 0
    match levelOf (byteAt params 1) with
    | none => refuse .badValue s
    | some level =>
      if 11 < i then refuse .badValue s
      else if (s.line i).locked then refuse .locked s
      else if (s.line i).output = false ∨ (s.line i).function ≠ .level then refuse .wrongState s
      else done (s.withLine i { s.line i with commanded := level })

/-- A line locked: an output is frozen at the level it drives (R156). -/
def State.lockedLine (s : State) (l : Line) : Line :=
  { l with locked := true, frozen := if l.output then some (s.drivenLevel l) else l.frozen }

/-- LOCK LINE (R156). -/
def execLockLine (p : Port) (params : List Byte) (s : State) : Answer :=
  .next <| s.onCommand p params (params.length == 1) fun s =>
    let i := byteAt params 0
    if p = .station then refuse .notPermitted s
    else if 11 < i then refuse .badValue s
    else if (s.line i).locked then done s
    else done (s.withLine i (s.lockedLine (s.line i)))

/-- The latched edge of an input cleared (R157). -/
def Line.unlatched (l : Line) : Line := if l.output then l else { l with latched := false }

/-- READ LINES (R157): the latched edges returned are then cleared. -/
def execReadLines (p : Port) (params : List Byte) (s : State) : Answer :=
  .next <| s.onCommand p params params.isEmpty fun s =>
    (s.withLines { s.lines with records := s.lines.records.map Line.unlatched }, some (.ok s.linesData))

end Sys2Proof.Machine
end

