-- ==== Sys2Proof/Machine/PortFamily.lean ====
section
/-! DEFINITION. The meanings of the rows of the Control Ports that concern frames, responses, statistics, events and the
parameter lock (chapter 11). -/

namespace Sys2Proof.Machine

open Sys2Proof

/-! ### Transactions (R159 to R162) -/

/-- What data out carries in a response read of `n` bytes of a pending response: its bytes from the first on. Bytes
clocked beyond its last are not stated, and nothing constrains them (log entry 18). -/
def readOut (draw : Nat) (bytes : List Byte) (n : Nat) : List Byte :=
  bytes.take n ++ (List.range (n - bytes.length)).map (Config.byteBeyondResponse draw)

/-- A port after a response read of `n` bytes (R160): the response is read when its last byte has been clocked out; with
none pending the filler goes out. -/
def PortState.readResponse (q : PortState) (draw n : Nat) : PortState :=
  match q.response with
  | none => { q with transaction := .none, dataOut := List.replicate n 0 }
  | some r =>
    { q with
      transaction := .none
      dataOut := readOut draw r.bytes n
      response := if r.bytes.length ≤ n then none else some r }

/-- RESPONSE_READ (R160). -/
def execResponseRead (p : Port) (clocked : Nat) (s : State) : Answer :=
  .next (s.withPort p ((s.port p).readResponse s.draws clocked)).draw

/-- EMPTY_TRANSACTION (R159): it is discarded, and the port's pending response and flags stay as they were. -/
def execEmptyTransaction (_p : Port) (s : State) : Answer := .next s

/-- FRAME_OVERRUN (R161): a frame taken while a long command is in progress on the port. -/
def execFrameOverrun (p : Port) (received : Nat) (s : State) : Answer :=
  .next (if (s.port p).inProgress.isSome then s.withPort p ((s.port p).overran received) else s)

/-- BAD_FRAME_LENGTH (R159, R162). -/
def execBadFrameLength (p : Port) (received : Nat) (s : State) : Answer :=
  .next (s.onFrame p received (refuse .badLength))

/-- UNKNOWN_COMMAND (R159, R162). The code, which names no command, decides nothing more. -/
def execUnknownCommand (p : Port) (_code : Byte) (params : List Byte) (s : State) : Answer :=
  .next (s.onCommand p params true (refuse .unknown))

/-! ### General commands (R170) -/

/-- IDENTIFY (R170). -/
def execIdentify (p : Port) (params : List Byte) (s : State) : Answer :=
  .next <| s.onCommand p params params.isEmpty fun s => answer (identifyData p) s

/-- READ STATUS (R170). -/
def execReadStatus (p : Port) (params : List Byte) (s : State) : Answer :=
  .next <| s.onCommand p params params.isEmpty fun s => answer (s.statusData p) s

/-- Every statistic cleared (R170): feed counters, selector counters, launch statistics, cue counts. -/
def State.clearStatistics (s : State) : State :=
  { s with
    feedA := { s.feedA with counters := .zero }
    feedB := { s.feedB with counters := .zero }
    sel := { s.sel with counters := .zero }
    launch := { s.launch with stats := .zero }
    splice := { s.splice with cuesApplied := 0, cuesIgnored := 0, cuesWithoutInstant := 0 } }

/-- CLEAR STATISTICS (R170). -/
def execClearStatistics (p : Port) (params : List Byte) (s : State) : Answer :=
  .next <| s.onCommand p params params.isEmpty fun s => done s.clearStatistics

/-! ### Events (R172) -/

/-- READ EVENTS (R172): up to 16 of the oldest records are removed, and the lost-event count becomes 0. -/
def execReadEvents (p : Port) (params : List Byte) (s : State) : Answer :=
  .next <| s.onCommand p params params.isEmpty fun s =>
    let q := s.port p
    (s.withPort p { q with events := q.events.drop 16, lostEvents := 0 }, some (.ok q.eventsData))

/-- SET EVENT MASK (R172, R175): 20 enable bytes, each 0 or 1. -/
def execSetEventMask (p : Port) (params : List Byte) (s : State) : Answer :=
  .next <| s.onCommand p params (params.length == 20) fun s =>
    if params.any fun b => 1 < b.toNat then refuse .badValue s
    else done (s.withPort p { s.port p with mask := params.map (· != 0) })

/-! ### The parameter lock (R168) -/

/-- LOCK PARAMETERS (R168). -/
def execLockParameters (p : Port) (params : List Byte) (s : State) : Answer :=
  .next <| s.onCommand p params params.isEmpty fun s =>
    if p = .station then refuse .notPermitted s else done (s.withLock true)

/-- UNLOCK PARAMETERS (R168). -/
def execUnlockParameters (p : Port) (params : List Byte) (s : State) : Answer :=
  .next <| s.onCommand p params params.isEmpty fun s =>
    if p = .station then refuse .notPermitted s else done (s.withLock false)

end Sys2Proof.Machine
end

