-- ==== Sys2Proof/Machine/PartFamily.lean ====
section
/-! DEFINITION. The meanings of the rows that move the part between its states: the resets, START and STOP (R165 to R167,
R173 and the reset tables of each chapter). -/

namespace Sys2Proof.Machine

open Sys2Proof

/-! ### What several of them share -/

/-- What START, STOP and a software RESET take away from a feed (R37, R55). -/
def Feed.forget (f : Feed) : Feed :=
  { f with openCopy := none, lastOpened := none, staleRun := 0, current := false, otherCurrent := false }

/-- What they take away from the selector (R55). -/
def Selector.forget (x : Selector) : Selector :=
  { x with expected := none, lastAdmitted := none, queue := [], active := none }

/-- What they take away from the scheduler (R81, R82); the packet whose bytes are leaving finishes, and idle bytes follow
it, not the late starts that wait behind it (log entry 5). -/
def Launch.forget (l : Launch) : Launch :=
  { l with
    emitting := none, scheduled := none, lastEnd := none, gap := none, nullsStopped := false, nullEnd := none
    outputs := l.outputs.take 1 }

/-- Every group record freed without counting, and with it what the feeds, the selector and the scheduler held of the
groups (R37, R55, R81). -/
def State.forgetGroups (s : State) : State :=
  { s with
    feedA := s.feedA.forget
    feedB := s.feedB.forget
    store := .empty
    sel := s.sel.forget
    launch := s.launch.forget }

/-! ### Power-on and the reset pin (R173) -/

/-- The launch scheduler at power-on: a packet whose bytes are leaving finishes (R82). -/
def Launch.powerOn (l : Launch) : Launch := { Launch.reset with outputs := l.outputs.take 1 }

/-- The lines at power-on (R158): the accepted level is the pin level. -/
def Lines.powerOn (l : Lines) : Lines := ⟨l.records.map fun x => .reset x.pin, .high⟩

/-- POWER_ON (R173 and the reset tables). The contents of clip memory are unspecified anew (log entry 4). -/
def execPowerOn (s : State) : Answer :=
  .next
    { State.reset with
      launch := s.launch.powerOn
      clip := { Clip.reset with occasion := s.draws }
      lines := s.lines.powerOn
      draws := s.draws + 1
      pending := s.pending }

/-- Clip memory at the reset pin (R83, R85): kept, but for the slot being written, which is left unspecified. -/
def Clip.resetPin (c : Clip) (draw : Nat) : Clip :=
  let kept : Clip := { Clip.reset with cells := c.cells, occasion := c.occasion }
  match c.service with
  | some (.write _ slot _ _) => kept.writeSlot slot (unspecifiedPacket draw slot)
  | _ => kept

/-- RESET_PIN (R173): the effect of power-on, except on clip memory. -/
def execResetPin (s : State) : Answer :=
  .next
    { State.reset with
      launch := s.launch.powerOn
      clip := s.clip.resetPin s.draws
      lines := s.lines.powerOn
      draws := s.draws + 1
      pending := s.pending }

/-! ### START (R165) -/

/-- START (R165, R37, R55). -/
def execStart (p : Port) (params : List Byte) (s : State) : Answer :=
  .next <| s.onCommand p params params.isEmpty fun s =>
    if s.part ≠ .standby then refuse .wrongState s
    else
      let s := s.forgetGroups.withPart .starting
      (s.withPort p { s.port p with inProgress := some .start }, none)

/-- START answered on a port that has it in progress, and its completion reported (R165). -/
def State.startDone (s : State) (p : Port) : State :=
  if (s.port p).inProgress = some .start then (s.complete p (.ok [])).raise .startComplete (portCode p) 0 else s

/-- The entry to RUN (R165, R81, R69). -/
def State.enterRun (s : State) : State :=
  (s.withPart .run).withLaunch { (s.launch.openGap s.now) with lastEnd := none }

/-- START_COMPLETE (R165): RUN, the response, the event, and then the TIME triggers that have come due (R107). -/
def execStartComplete (s : State) : Answer :=
  .next (if s.part = .starting then ((s.enterRun.startDone .station).startDone .network).fireDueTimes else s)

/-! ### STOP (R166) -/

/-- START abandoned by STOP answers WRONG_STATE (R165). -/
def State.startStopped (s : State) (p : Port) : State :=
  if (s.port p).inProgress = some .start then s.complete p (.no .wrongState) else s

/-- A CUED or ON_AIR break ends STOPPED (R121). -/
def State.stopBreak (s : State) (i : Nat) : State :=
  if (s.brk i).live then s.endBreak i .stopped s.now else s

/-- STOP in STARTING or RUN (R166, R37, R55, R81, R121). DESIGN CHOICE: the breaks end in ascending index (log entry
37). -/
def State.stopPart (s : State) : State :=
  let s := (s.forgetGroups.withPart .standby)
  breakIndices.foldl State.stopBreak ((s.startStopped .station).startStopped .network)

/-- STOP (R166). -/
def execStop (p : Port) (params : List Byte) (s : State) : Answer :=
  .next <| s.onCommand p params params.isEmpty fun s =>
    if s.part = .standby then refuse .wrongState s else done s.stopPart

/-! ### RESET (R167) -/

/-- A slot at a software RESET (R122): the definition kept, the runtime record cleared. -/
def Slot.softReset (sl : Slot) : Slot :=
  { sl with
    entries := sl.entries.map fun e => { e with carry := none }
    observation := { sl.observation with valid := false } }

/-- The Splice Engine at a software RESET (R122). -/
def Splice.softReset (x : Splice) : Splice := { Splice.reset with slots := x.slots.map Slot.softReset }

/-- A channel at a software RESET (R148). -/
def Channel.softReset (c : Channel) : Channel := { c with value := 0, state := .normal, run := 0, previous := none }

/-- The monitor at a software RESET (R148): a pending range takes force, and the scan starts again. -/
def Monitor.softReset (m : Monitor) : Monitor :=
  let (first, last) := m.pendingRange.getD (m.first, m.last)
  ⟨first, last, none, first, 0, m.channels.map Channel.softReset, none⟩

/-- The scheduler at a software RESET (R82). -/
def Launch.softReset (l : Launch) : Launch := { l.forget with stats := .zero }

/-- The selector at a software RESET (R55). -/
def Selector.softReset (x : Selector) : Selector := { x.forget with counters := .zero }

/-- The clip memory at a software RESET sent on port `p`: the lanes' read in flight is discarded, and the other port's
slot in hand is finished as an abandoned access (R94, R85, R86). -/
def Clip.softReset (c : Clip) (p : Port) : Clip :=
  { c with
    service := c.service.map fun a =>
      ((((a.discardLane 0).discardLane 1).discardLane 2).discardLane 3).abandon p.other }

/-- The other port's long command at a software RESET: a START or a clip command is abandoned with no response (R165,
R167); a RESET goes on (log entry 19). -/
def PortState.abandonLong (q : PortState) : PortState :=
  match q.inProgress with
  | some .reset => q
  | _ => { q with inProgress := none }

/-- A port's event queue emptied with its lost-event count (R167). -/
def PortState.emptyEvents (q : PortState) : PortState := { q with events := [], lostEvents := 0 }

/-- The latched edge of a line discarded (R158). -/
def Line.softReset (l : Line) : Line := { l with latched := false }

/-- The part at a software RESET sent on port `p`, before the exciter health is formed anew (R38, R55, R82, R96, R122,
R131, R148, R149, R158, R167). -/
def State.softReset (s : State) (p : Port) : State :=
  let s : State :=
    { s with
      feedA := .reset
      feedB := .reset
      store := .empty
      sel := s.sel.softReset
      launch := s.launch.softReset
      clip := s.clip.softReset p
      lanes := List.replicate 4 .reset
      splice := s.splice.softReset
      mon := s.mon.softReset
      lines := { s.lines with records := s.lines.records.map Line.softReset }
      station := s.station.emptyEvents
      network := s.network.emptyEvents
      part := .standby }
  s.withPort p.other (s.port p.other).abandonLong

/-- The slot in hand of an abandoned clip command of a port is still being served (R85, R86). -/
def Clip.finishing (c : Clip) (p : Port) : Bool :=
  match c.service with
  | some (.write q _ _ abandoned) => abandoned && q == p
  | some (.read q _ abandoned) => abandoned && q == p
  | _ => false

/-- RESET (R167): it completes at once unless the other port's clip command has a slot in hand. -/
def execReset (p : Port) (params : List Byte) (s : State) : Answer :=
  .next <| s.onCommand p params params.isEmpty fun s =>
    if s.lockedOut p then refuse .locked s
    else
      let waits := (s.port p.other).clipCommand.isSome
      let t := (s.softReset p).reform s
      if waits && t.clip.finishing p.other then
        (t.withPort p { t.port p with inProgress := some .reset }, none)
      else done t

/-- A RESET in progress on a port whose wait is over (R167). -/
def State.resetDue (s : State) (p : Port) : Bool :=
  (s.port p).inProgress == some .reset && !s.clip.finishing p.other

/-- A RESET answered on its port when its wait is over (R167). -/
def State.resetDone (s : State) (p : Port) : State := if s.resetDue p then s.complete p (.ok []) else s

/-- RESET_COMPLETE (R167). -/
def execResetComplete (s : State) : Answer := .next ((s.resetDone .station).resetDone .network)

end Sys2Proof.Machine
end

