-- ==== Sys2Proof/Machine/Dispatch.lean ====
section
/-! DEFINITION. One arm per command of the table: each calls its meaning. -/

namespace Sys2Proof.Machine

open Sys2Proof

/-- The effect of a command on everything but the queue of waiting commands. -/
def exec (i : Instr) (s : State) : Host.Outcome State Fault Refusal :=
  match i with
  | .powerOn => Sys2Proof.Machine.execPowerOn s
  | .resetPin => Sys2Proof.Machine.execResetPin s
  | .secondMark => Sys2Proof.Machine.execSecondMark s
  | .pulse => Sys2Proof.Machine.execPulse s
  | .pulseWatchCheck => Sys2Proof.Machine.execPulseWatchCheck s
  | .blinkFall => Sys2Proof.Machine.execBlinkFall s
  | .syncCandidate f => Sys2Proof.Machine.execSyncCandidate f s
  | .checkByte f b => Sys2Proof.Machine.execCheckByte f b s
  | .badSyncByte f b => Sys2Proof.Machine.execBadSyncByte f b s
  | .feedSilence f => Sys2Proof.Machine.execFeedSilence f s
  | .packetArrival f b => Sys2Proof.Machine.execPacketArrival f b s
  | .deadlineReached => Sys2Proof.Machine.execDeadlineReached s
  | .scheduledStart => Sys2Proof.Machine.execScheduledStart s
  | .packetStart => Sys2Proof.Machine.execPacketStart s
  | .nullStart => Sys2Proof.Machine.execNullStart s
  | .nullSlotEnd => Sys2Proof.Machine.execNullSlotEnd s
  | .groupEndTick => Sys2Proof.Machine.execGroupEndTick s
  | .laneReadDone lane => Sys2Proof.Machine.execLaneReadDone lane s
  | .clipWriteSlot p => Sys2Proof.Machine.execClipWriteSlot p s
  | .clipReadSlot p => Sys2Proof.Machine.execClipReadSlot p s
  | .timeTriggerDue index => Sys2Proof.Machine.execTimeTriggerDue index s
  | .spliceOutExpiry index => Sys2Proof.Machine.execSpliceOutExpiry index s
  | .windowStartReached w => Sys2Proof.Machine.execWindowStartReached w s
  | .windowEndReached w => Sys2Proof.Machine.execWindowEndReached w s
  | .conversionComplete value => Sys2Proof.Machine.execConversionComplete value s
  | .returnTimerExpiry => Sys2Proof.Machine.execReturnTimerExpiry s
  | .lineEdgeAccepted line => Sys2Proof.Machine.execLineEdgeAccepted line s
  | .responseRead p clocked => Sys2Proof.Machine.execResponseRead p clocked s
  | .emptyTransaction p => Sys2Proof.Machine.execEmptyTransaction p s
  | .frameOverrun p received => Sys2Proof.Machine.execFrameOverrun p received s
  | .badFrameLength p received => Sys2Proof.Machine.execBadFrameLength p received s
  | .unknownCommand p code params => Sys2Proof.Machine.execUnknownCommand p code params s
  | .identify p params => Sys2Proof.Machine.execIdentify p params s
  | .readStatus p params => Sys2Proof.Machine.execReadStatus p params s
  | .clearStatistics p params => Sys2Proof.Machine.execClearStatistics p params s
  | .start p params => Sys2Proof.Machine.execStart p params s
  | .startComplete => Sys2Proof.Machine.execStartComplete s
  | .stop p params => Sys2Proof.Machine.execStop p params s
  | .reset p params => Sys2Proof.Machine.execReset p params s
  | .resetComplete => Sys2Proof.Machine.execResetComplete s
  | .timeLabel p params => Sys2Proof.Machine.execTimeLabel p params s
  | .readTime p params => Sys2Proof.Machine.execReadTime p params s
  | .readTimebase p params => Sys2Proof.Machine.execReadTimebase p params s
  | .setHoldoverLimit p params => Sys2Proof.Machine.execSetHoldoverLimit p params s
  | .setStreamIds p params => Sys2Proof.Machine.execSetStreamIds p params s
  | .setFeedMode p params => Sys2Proof.Machine.execSetFeedMode p params s
  | .readFeed p params => Sys2Proof.Machine.execReadFeed p params s
  | .readSelector p params => Sys2Proof.Machine.execReadSelector p params s
  | .setAdvance p params => Sys2Proof.Machine.execSetAdvance p params s
  | .setPacketPeriod p params => Sys2Proof.Machine.execSetPacketPeriod p params s
  | .setHoldLimits p params => Sys2Proof.Machine.execSetHoldLimits p params s
  | .setSlipTolerance p params => Sys2Proof.Machine.execSetSlipTolerance p params s
  | .readLaunch p params => Sys2Proof.Machine.execReadLaunch p params s
  | .clipWrite p params => Sys2Proof.Machine.execClipWrite p params s
  | .clipRead p params => Sys2Proof.Machine.execClipRead p params s
  | .playListWrite p params => Sys2Proof.Machine.execPlayListWrite p params s
  | .playListClear p params => Sys2Proof.Machine.execPlayListClear p params s
  | .readPlayList p params => Sys2Proof.Machine.execReadPlayList p params s
  | .readLane p params => Sys2Proof.Machine.execReadLane p params s
  | .defineSlot p params => Sys2Proof.Machine.execDefineSlot p params s
  | .clearSlot p params => Sys2Proof.Machine.execClearSlot p params s
  | .readSlot p params => Sys2Proof.Machine.execReadSlot p params s
  | .createBreak p params => Sys2Proof.Machine.execCreateBreak p params s
  | .modifyBreak p params => Sys2Proof.Machine.execModifyBreak p params s
  | .arm p params => Sys2Proof.Machine.execArm p params s
  | .disarm p params => Sys2Proof.Machine.execDisarm p params s
  | .trigger p params => Sys2Proof.Machine.execTrigger p params s
  | .cancel p params => Sys2Proof.Machine.execCancel p params s
  | .clearBreak p params => Sys2Proof.Machine.execClearBreak p params s
  | .readBreak p params => Sys2Proof.Machine.execReadBreak p params s
  | .setWindow p params => Sys2Proof.Machine.execSetWindow p params s
  | .removeWindow p params => Sys2Proof.Machine.execRemoveWindow p params s
  | .readWindow p params => Sys2Proof.Machine.execReadWindow p params s
  | .setScanRange p params => Sys2Proof.Machine.execSetScanRange p params s
  | .setChannel p params => Sys2Proof.Machine.execSetChannel p params s
  | .readMonitor p params => Sys2Proof.Machine.execReadMonitor p params s
  | .readCapture p params => Sys2Proof.Machine.execReadCapture p params s
  | .changeover p params => Sys2Proof.Machine.execChangeover p params s
  | .auto p params => Sys2Proof.Machine.execAuto p params s
  | .setReturn p params => Sys2Proof.Machine.execSetReturn p params s
  | .releaseHold p params => Sys2Proof.Machine.execReleaseHold p params s
  | .readChangeover p params => Sys2Proof.Machine.execReadChangeover p params s
  | .mute p params => Sys2Proof.Machine.execMute p params s
  | .unmute p params => Sys2Proof.Machine.execUnmute p params s
  | .unmuteAll p params => Sys2Proof.Machine.execUnmuteAll p params s
  | .configureLine p params => Sys2Proof.Machine.execConfigureLine p params s
  | .setLineLevel p params => Sys2Proof.Machine.execSetLineLevel p params s
  | .lockLine p params => Sys2Proof.Machine.execLockLine p params s
  | .readLines p params => Sys2Proof.Machine.execReadLines p params s
  | .readEvents p params => Sys2Proof.Machine.execReadEvents p params s
  | .setEventMask p params => Sys2Proof.Machine.execSetEventMask p params s
  | .lockParameters p params => Sys2Proof.Machine.execLockParameters p params s
  | .unlockParameters p params => Sys2Proof.Machine.execUnlockParameters p params s
  | .byteTaken f b => Sys2Proof.Machine.execByteTaken f b s
  | .pinLevelChange line level => Sys2Proof.Machine.execPinLevelChange line level s

end Sys2Proof.Machine
end

