-- ==== Sys2Proof/Machine/Idle.lean ====
section
/-! DEFINITION. What the part does when no command waits: it takes one event that site time or its clock has brought
about, or, when none is due, one period of the site clock passes (log entry 1). -/

namespace Sys2Proof.Machine

open Sys2Proof

/-- An event with its kind: among those due at one instant the kinds come in an order that the manual leaves open, and
events of one kind come in the order listed (log entry 3). -/
abbrev DueEvent := Nat × Instr

/-- A list with one event when a condition holds. -/
def dueIf (condition : Bool) (kind : Nat) (i : Instr) : List DueEvent := if condition then [(kind, i)] else []

/-- The events of the launch scheduler, one kind: a null ends before a group starts, a group starts before its first
packet and in place of the gap, and the gap opens before its first null (R69, R72). -/
def State.dueLaunch (s : State) : List DueEvent :=
  dueIf s.nullEndDue 3 .nullSlotEnd ++ dueIf s.startDue 3 .scheduledStart ++ dueIf s.packetDue.isSome 3 .packetStart
    ++ dueIf s.groupEndDue.isSome 3 .groupEndTick ++ dueIf s.nullDue.isSome 3 .nullStart

/-- The TIME triggers due, one kind, in ascending index order (R107). -/
def State.dueTriggers (s : State) : List DueEvent :=
  (List.finRange 32).flatMap fun i =>
    dueIf (s.running && ((s.brk i.val).timeDue s.now).isSome) 4 (.timeTriggerDue i)

/-- The splice-out expiries due (R109). -/
def State.dueExpiries (s : State) : List DueEvent :=
  (List.finRange 32).flatMap fun i => dueIf ((s.brk i.val).expired s.now) (200 + i.val) (.spliceOutExpiry i)

/-- The windows whose start or end has been reached (R126, R128). -/
def State.dueWindows (s : State) : List DueEvent :=
  (List.finRange 8).flatMap fun w =>
    dueIf ((s.window w.val).state == .pending && reached s.now (s.window w.val).start) (300 + w.val)
        (.windowStartReached w)
      ++ dueIf ((s.window w.val).state == .active && reached s.now (s.window w.val).stop) (400 + w.val)
        (.windowEndReached w)

/-- The edges of the contact lines that have held long enough (R151, R152). -/
def State.dueEdges (s : State) : List DueEvent :=
  (List.finRange 12).flatMap fun i => dueIf (s.line i.val).edgeDue (500 + i.val) (.lineEdgeAccepted i)

/-- Everything that has fallen due. The result of a conversion is a free value, since the analog inputs lie outside the
part (log entry 7). -/
def State.due (s : State) : List DueEvent :=
  dueIf s.tb.watchDue 0 .pulseWatchCheck ++ dueIf s.blinkDue 1 .blinkFall
    ++ dueIf s.feedA.silent 5 (.feedSilence .a) ++ dueIf s.feedB.silent 6 (.feedSilence .b)
    ++ dueIf s.selectorDue 2 .deadlineReached ++ s.dueLaunch ++ s.dueTriggers ++ s.dueExpiries ++ s.dueWindows
    ++ dueIf s.mon.conversionDue 7 (.conversionComplete (Config.analogSample s.draws s.mon.converting))
    ++ dueIf s.chg.timerDue 8 .returnTimerExpiry ++ s.dueEdges
    ++ dueIf (s.resetDue .station || s.resetDue .network) 9 .resetComplete

/-- The step of a part for which no command waits. -/
def State.idle (s : State) : Answer :=
  match freeOrder s.draws (·.1) s.due with
  | (_, c) :: _ => exec c s.draw
  | [] => .next s.period

end Sys2Proof.Machine
end

