-- ==== Sys2Proof/Safety.lean ====
section
/-! DEFINITION. What counts as a sound state of the part, in the terms the statements use: bounds and forms that the
chapters give the state and that every step keeps. -/

namespace Sys2Proof.Machine

open Sys2Proof

/-- Site time lies in its ranges: tick 0..9,999,999, second 0..2^32 − 1, and the counts of the discipline and the
correction in theirs (the state table of chapter 1). -/
def Timebase.ok (tb : Timebase) : Bool :=
  decide (tb.tick < ticksPerSecond) && decide (tb.second < secondModulus)
    && decide (-16 ≤ tb.correction) && decide (tb.correction ≤ 16)
    && (match tb.pendingLabel with | some v => decide (v < secondModulus) | none => true)
    && decide (tb.good ≤ 4) && decide (tb.stray ≤ 3) && decide (tb.missed ≤ 3)
    && decide (1 ≤ tb.holdoverLimit) && decide (tb.holdoverLimit ≤ 86400)

/-- A port's queues lie in their bounds: at most 32 event records, a lost-event count of at most 65,535, and one enable
for each of the 20 kinds (the state table of chapter 11). -/
def PortState.ok (q : PortState) : Bool :=
  decide (q.events.length ≤ 32) && decide (q.lostEvents ≤ 65535) && decide (q.mask.length = 20)

/-- The parameters of the scheduler lie in their ranges (R60, R61, R76, R77, R169). -/
def Launch.ok (l : Launch) : Bool :=
  decide (l.advance ≤ 2000000)
    && (match l.pendingAdvance with | some a => decide (a ≤ 2000000) | none => true)
    && decide (l.holdMin ≤ l.holdMax) && decide (1 ≤ l.holdMax) && decide (l.holdMax ≤ 20000000)
    && decide (300 ≤ l.periodInt) && decide (l.periodInt ≤ 15040) && decide (l.periodFrac < 65536)
    && decide (l.slipTolerance ≤ 10000)
    && decide (l.pacingId ≤ 8190) && decide (l.cueId ≤ 8190) && decide (l.pacingId ≠ l.cueId)

/-- The scan range, a pending range and the channel being converted are channels, the range in order (R132, R133). -/
def Monitor.ok (m : Monitor) : Bool :=
  decide (m.first ≤ m.last) && decide (m.last ≤ 7) && decide (m.first ≤ m.converting)
    && decide (m.converting ≤ m.last)
    && (match m.pendingRange with | some (f, l) => decide (f ≤ l) && decide (l ≤ 7) | none => true)

/-- The history holds at most three entries and the return delay lies in 1..3,600 (R142, R145). -/
def Changeover.ok (c : Changeover) : Bool :=
  decide (c.history.length ≤ 3) && decide (1 ≤ c.returnDelay) && decide (c.returnDelay ≤ 3600)

/-- No cell is lost: the free cells and the cells of all group records make 65,536 (R34). -/
def Store.cellsHeld (st : Store) : Nat := (st.table.map fun r => match r with | some g => g.cells.length | none => 0).sum

/-- The group table has its 128 places and the pool its 65,536 cells (R33, R34). -/
def Store.ok (st : Store) : Bool :=
  decide (st.table.length = 128) && decide (st.freeCells + st.cellsHeld = 65536)

/-- A clip command in progress names slots of clip memory alone (R84, R86). -/
def ClipCommand.ok (c : ClipCommand) : Bool := decide (c.next < clipSlots) && decide (c.first + c.count ≤ clipSlots)

/-- A port's clip command, if it has one, names slots of clip memory alone. -/
def PortState.clipOk (q : PortState) : Bool := match q.clipCommand with | some c => c.ok | none => true

/-- The slot a write in service writes is a slot of clip memory. -/
def Clip.serviceOk (c : Clip) : Bool :=
  match c.service with | some (.write _ slot _ _) => decide (slot < clipSlots) | _ => true

/-- Clip memory holds its canonical form, and nothing under way can break it (R83 to R86). -/
def State.clipSound (s : State) : Bool :=
  Memory.wf s.clip.cells && s.clip.serviceOk && s.station.clipOk && s.network.clipOk

/-- Every table has its records: four lanes, eight slots, 32 breaks, eight windows, eight channels, twelve lines. -/
def State.shaped (s : State) : Bool :=
  decide (s.lanes.length = 4) && decide (s.splice.slots.length = 8) && decide (s.splice.breaks.length = 32)
    && decide (s.windows.length = 8) && decide (s.mon.channels.length = 8) && decide (s.lines.records.length = 12)

/-- No lane holds more than 64 packets, and a lane whose read is in service has room for one more (R92). -/
def State.queuesBounded (s : State) : Bool :=
  (s.lanes.all fun l => decide (l.queue.length ≤ 64)) &&
    match s.clip.service with | some (.lane i _ false) => decide ((s.lane i).queue.length < 64) | _ => true

/-- A break and its lane belong together: a CUED break is bound to a lane in PREROLL, an ON_AIR break to a lane ON_AIR,
the lane names the break, and no other break holds a lane (R91, R94, R106, R108). -/
def State.bound (s : State) (i : Nat) : Bool :=
  match (s.brk i).lane with
  | some l =>
    (s.brk i).live && decide (l < 4) && (s.lane l).break_ == some i
      && (s.lane l).state == (if (s.brk i).state == .onAir then .onAir else .preroll)
  | none => !(s.brk i).live

/-- Two breaks are not both CUED or ON_AIR on one slot (R108). -/
def State.apart (s : State) (i j : Nat) : Bool :=
  i == j || !((s.brk i).live && (s.brk j).live && (s.brk i).slot == (s.brk j).slot)

/-- The law that checks 3 and 4 at trigger uphold (R108): every CUED or ON_AIR break holds a lane of its own, and no two
of them name one slot. -/
def State.spliceLaw (s : State) : Bool :=
  decide (s.lanes.length = 4) && (breakIndices.all fun i => s.bound i && breakIndices.all (s.apart i))

/-- Outside RUN no copy exists, nothing waits for launch and nothing is being launched (R25, R37, R55, R81). -/
def State.idleOutsideRun (s : State) : Bool :=
  s.running
    || (s.store == .empty && s.feedA.openCopy.isNone && s.feedB.openCopy.isNone && s.sel.queue.isEmpty
      && s.launch.emitting.isNone && s.launch.scheduled.isNone)

/-- Group numbers are 16-bit numbers (R28). -/
def State.numbered (s : State) : Bool :=
  s.store.table.all fun r => match r with | some g => decide (g.group < 65536) | none => true

/-- Only a locked line has a frozen level (R156). -/
def State.frozenIsLocked (s : State) : Bool := s.lines.records.all fun l => l.locked || l.frozen.isNone

/-! ### The words of the statements about commands -/

/-- No long command is in progress on the port, so that a frame on it is taken (R159, R161). -/
abbrev State.open_ (s : State) (p : Port) : Prop := (s.port p).inProgress = none

/-- The state in which a command frame with these parameters has been taken and has done nothing yet (R162). -/
def State.takes (s : State) (p : Port) (params : List Byte) : State :=
  s.withPort p ((s.port p).taken (frameBytes params))

/-- Site time, the part state, the parameter lock and the queue of commands are as they were. -/
abbrev State.rulesKept (s t : State) : Prop :=
  t.tb = s.tb ∧ t.part = s.part ∧ t.paramLock = s.paramLock ∧ t.pending = s.pending

/-- The feeds, the packet store, the selector and the scheduler are as they were. -/
abbrev State.intakeKept (s t : State) : Prop :=
  t.feedA = s.feedA ∧ t.feedB = s.feedB ∧ t.store = s.store ∧ t.sel = s.sel ∧ t.launch = s.launch

/-- Clip memory, the lanes, slots, breaks and windows are as they were. -/
abbrev State.spliceKept (s t : State) : Prop :=
  t.clip = s.clip ∧ t.lanes = s.lanes ∧ t.splice = s.splice ∧ t.windows = s.windows

/-- The monitor, the changeover and the contact lines are as they were. -/
abbrev State.siteKept (s t : State) : Prop := t.mon = s.mon ∧ t.chg = s.chg ∧ t.lines = s.lines

/-- The state after a command that only answers. -/
def State.answers (s : State) (p : Port) (params : List Byte) (r : Reply) : State := (s.takes p params).respond p r

/-- Y and its source once an instant has been offered (R114). -/
def BreakRecord.offered (b : BreakRecord) (at_ : Time) (source : YSource) : Option (Time × YSource) :=
  match b.y with
  | none => some (at_, source)
  | some (y, old) => if earlier at_ y then some (at_, source) else some (y, old)

/-- Events offered to a port one after another (R171). -/
def PortState.offers (q : PortState) (es : List Event) : PortState := es.foldl PortState.offer q

/-! ### The words of the statements about the selector -/

/-- A copy is accepted: its record holds a release tick (R41). -/
def GroupRecord.accepted (r : GroupRecord) : Bool := match r.launched with | .release _ => true | .rejected _ => false

/-- Closed copy `r` ranks above closed copy `q` (the table of R41). -/
def GroupRecord.ranksAbove (r q : GroupRecord) : Bool :=
  r.accepted &&
    (!q.accepted ||
      if r.phase = .complete then q.phase != .complete || decide (r.errored < q.errored)
      else q.phase != .complete && decide (q.stored < r.stored))

/-- Site time has reached the deadline of a closed copy: 50 ms before the release tick of an accepted one, one second after
the arrival tick of a rejected one (R43). -/
def GroupRecord.pastDeadline (r : GroupRecord) (now : Time) : Bool :=
  match r.launched with
  | .release t => reached now (tsub t 500000)
  | .rejected _ => reached now (tadd r.arrivalTick 10000000)

/-- The feed's last opened number is present, current and later than E (R40). -/
def Feed.beyond (x : Feed) (e : Nat) : Bool :=
  x.current && match x.lastOpened with | some n => seqLater n e | none => false

/-- The held copies later than E, with their places (R42, R46). -/
def State.laterThan (s : State) (e : Nat) : List (Nat × GroupRecord) :=
  s.store.records.filter fun x => x.2.held && seqLater x.2.group e

/-- The first condition of R42, in table order, that holds for E, of which `r` is the better closed copy held. -/
def State.admitsBy (s : State) (e : Nat) (r : GroupRecord) : Option AdmitCond :=
  let g := r.feed.other
  if r.accepted && r.phase == .complete && r.errored == 0 then some .a
  else if (s.heldCopy g e).any fun x => x.2.closed then some .b
  else if (s.feed g).sync != .locked || s.sel.mode.excludes g || (s.feed g).beyond e then some .c
  else if r.pastDeadline s.now then some .d
  else if (s.laterThan e).any fun x => x.2.closed && x.2.pastDeadline s.now then some .e
  else none

/-- A packet has the cue identifier in force and is a valid cue, or an invalid one (R52). -/
def State.cueIs (s : State) (valid : Bool) (p : Packet) : Bool :=
  identifier p == s.launch.cueId && (cueOf p).isSome == valid

/-- The counters of the selector after an admission of copy `r` under condition `k`, where `other` is the other feed's copy
of E, if it holds one (R44, R45, R52, R53, R54). -/
def State.admissionCounters (s : State) (k : AdmitCond) (r : GroupRecord) (other : Option GroupRecord) :
    SelectorCounters :=
  let c := s.sel.counters
  { c with
    fromA := if r.feed = .a then bump c.fromA else c.fromA
    fromB := if r.feed = .b then bump c.fromB else c.fromB
    admitA := if k = .a then bump c.admitA else c.admitA
    admitB := if k = .b then bump c.admitB else c.admitB
    admitC := if k = .c then bump c.admitC else c.admitC
    admitD := if k = .d then bump c.admitD else c.admitD
    admitE := if k = .e then bump c.admitE else c.admitE
    superseded := if other.any (·.closed) then bump c.superseded else c.superseded
    abandoned := if other.any (!·.closed) then bump c.abandoned else c.abandoned
    switches := if s.sel.active = some r.feed then c.switches else bump c.switches
    cuesHanded := (r.cells.filter (s.cueIs true)).foldl (fun n _ => bump n) c.cuesHanded
    invalidCues := (r.cells.filter (s.cueIs false)).foldl (fun n _ => bump n) c.invalidCues }

/-- The event of an admission: FEED_SWITCH where the active feed changes (R45). -/
def State.switchEvents (s : State) (f : FeedId) : List Event :=
  if s.sel.active = some f then [] else [⟨.feedSwitch, feedCode f, activeCode s.sel.active, s.now⟩]

/-- What the steps of an admission of copy `r` of E at place `i` under condition `k` leave of `s` (R44, R45, R52, R53): the
copy QUEUED at the tail of the launch queue, the other feed's copy of E freed, its cells handed back and its feed without an
open copy, the active feed, the cues, L and E. The breaks, the windows and the ports beyond FEED_SWITCH are said for a copy
without a valid cue, and for one with a single valid cue, which is handed over at its position in the cell list. -/
abbrev State.admitted (s v : State) (e i : Nat) (r : GroupRecord) (k : AdmitCond) : Prop :=
  let other := s.heldCopy r.feed.other e
  let queued := s.store.table.set i (some { r with phase := .queued })
  v.store =
    (match other with
      | none => { s.store with table := queued }
      | some (j, q) => ⟨queued.set j none, s.store.freeCells + q.cells.length⟩) ∧
  v.sel =
    { s.sel with
      queue := s.sel.queue ++ [i], active := some r.feed, lastAdmitted := some e, expected := some ((e + 1) % 65536)
      counters := s.admissionCounters k r (other.map (·.2)) } ∧
  (∀ g, v.feed g =
    { s.feed g with
      openCopy := if other ≠ none ∧ (s.feed g).openCopy = other.map (·.1) then none else (s.feed g).openCopy }) ∧
  v.launch = s.launch ∧ s.siteKept v ∧ s.rulesKept v ∧
  ((∀ p ∈ r.cells, s.cueIs true p = false) →
    s.spliceKept v ∧ ∀ q, v.port q = (s.port q).offers (s.switchEvents r.feed)) ∧
  ∀ (before after : List Packet) (p : Packet) (c : Cue), r.cells = before ++ p :: after →
    identifier p = s.launch.cueId → cueOf p = some c →
    (∀ x ∈ before ++ after, s.cueIs true x = false) →
    ∃ w, s.spliceKept w ∧ s.rulesKept w ∧ w.launch = s.launch ∧
      (∀ q, w.port q = (s.port q).offers (s.switchEvents r.feed)) ∧
      (w.handCue c before.length r.launched).spliceKept v ∧
      ∀ q, v.port q = (w.handCue c before.length r.launched).port q

/-! ### The words of the statements about breaks, time and the changeover -/

/-- A break as its end leaves it (R106): the cause, no lane, and for an aired one the instant of the end. -/
def BreakRecord.endedWith (b : BreakRecord) (cause : EndCause) (at_ : Time) : BreakRecord :=
  { b with state := .ended, cause := some cause, lane := none, inTick := if b.aired then some at_ else b.inTick }

/-- The lane that a break held, if it held one, is FREE and empty (R94). -/
abbrev State.laneReleased (s t : State) (i : Nat) : Prop :=
  ∀ lane, (s.brk i).lane = some lane → lane < s.lanes.length →
    t.lane lane =
      { s.lane lane with
        state := .free, break_ := none, playList := none, position := none, queue := [], clipEnd := false }

/-- The first check that fails when a trigger fires for break `i` with splice-out instant `x` and, from an OUT cue, a
duration, in the order of R108; none when all pass. -/
def State.failedCheck (s : State) (i : Nat) (x : Time) (duration : Option Nat) : Option EndCause :=
  let b := s.brk i
  if s.playList b.playList = [] then some .listEmpty
  else if (s.blockingWindow b.slot x).isSome then some .blocked
  else if (s.liveBreak b.slot).isSome then some .slotBusy
  else if s.freeLane = none then some .noLane
  else if 10000000 < tdiff s.now x then some .missed
  else
    match duration.or b.length with
    | some n => if later (tadd x n) x then none else some .noAir
    | none => none

/-- What a trigger leaves of break `i` and of what it touches (R108): ENDED with the cause of the first check that fails,
counted by the blocking window, or NO_AIR with its Y, or CUED with the lowest FREE lane. That X, Y and lane stay absent where
a check fails, and X at NO_AIR, is the model's reading (log entry 21). -/
abbrev State.triggered (s t : State) (i : Nat) (x : Time) (duration : Option Nat) : Prop :=
  (∀ j, j ≠ i → t.brk j = s.brk j) ∧ t.splice.slots = s.splice.slots ∧ s.intakeKept t ∧ t.mon = s.mon ∧
  t.chg = s.chg ∧ s.rulesKept t ∧
  (∀ c, s.failedCheck i x duration = some c →
    t.brk i =
      (if c = .noAir then
        { s.brk i with y := (duration.or (s.brk i).length).map fun n => (tadd x n, .length) }
      else s.brk i).endedWith c s.now ∧
    t.lanes = s.lanes ∧ (∀ q, t.port q = (s.port q).offer ⟨.breakEnded, i, c.code, s.now⟩) ∧
    (c ≠ .blocked → t.windows = s.windows) ∧
    ∀ w, c = .blocked → s.blockingWindow (s.brk i).slot x = some w →
      t.windows = s.windows.set w { s.window w with blocked := bump16 (s.window w).blocked }) ∧
  (s.failedCheck i x duration = none → ∃ lane, s.freeLane = some lane ∧
    t.brk i =
      { s.brk i with
        state := .cued, x := some x, lane := some lane
        y := (duration.or (s.brk i).length).map fun n => (tadd x n, .length) } ∧
    t.lanes = s.lanes.set lane ⟨.preroll, some i, some (s.brk i).playList, some (0, 0), [], 0, 0, 0, false⟩ ∧
    t.windows = s.windows ∧ ∀ q, t.port q = (s.port q).offer ⟨.breakCued, i, lane, s.now⟩)

/-- The events of a change of the timebase, in the order of R15, where `label` is a label applied with the second that the
mark would have given (R2, R14). -/
def Timebase.changeEvents (old new : Timebase) (label : Option (Nat × Nat)) (now : Time) : List Event :=
  (match label with | some (v, base) => [⟨.labelApplied, v, base, now⟩] | none => [])
    ++ (if new.discipline = old.discipline then [] else [⟨.timebaseState, new.discipline.code, old.discipline.code, now⟩])
    ++ if new.gateOpen = old.gateOpen then [] else [⟨.gate, if new.gateOpen then 1 else 0, new.discipline.code, now⟩]

/-- What a step of the timebase, or a label that jumps, leaves of the scheduler (R75): in RUN nothing in emission, and the
guard instant as last end tick and gap origin; outside RUN the scheduler, the store and the selector are left alone. The
pending advance takes force at the mark (R76), and the packets whose bytes leave go on (log entry 5). -/
abbrev State.schedulerStepped (s t : State) : Prop :=
  t.launch.advance = s.launch.pendingAdvance.getD s.launch.advance ∧ t.launch.pendingAdvance = none ∧
  (s.part = .run →
    t.launch.emitting = none ∧ t.launch.lastEnd = some (tadd t.now (s.launch.periodInt + 1)) ∧
    t.launch.gap = some (tadd t.now (s.launch.periodInt + 1), 0) ∧ t.launch.nullEnd = none ∧
    t.launch.stats.truncated =
      (if s.launch.emitting = none then s.launch.stats.truncated else bump s.launch.stats.truncated) ∧
    t.launch.stats.stepped =
      (if s.launch.scheduled = none ∨ s.sel.queue = [] then s.launch.stats.stepped
        else bump s.launch.stats.stepped)) ∧
  (s.part ≠ .run →
    t.launch = { s.launch with
      advance := s.launch.pendingAdvance.getD s.launch.advance, pendingAdvance := none, outputs := t.launch.outputs } ∧
    t.store = s.store ∧ t.sel = s.sel)

/-- What a jump of site time leaves of `s` once the events of the change itself have been raised (R15, R75): the blocks that
hold instants act after them, at the new site time. What the period of a natural mark has counted on (silence, bytes that
leave, a conversion, the return timer, debounces) stands in `u` as it does in `t`. -/
abbrev State.jumped (s t : State) (first : List Event) : Prop :=
  ∃ u : State, t = u.jump ∧ u.tb = t.tb ∧
    u.launch =
      { s.launch with
        advance := s.launch.pendingAdvance.getD s.launch.advance, pendingAdvance := none, outputs := u.launch.outputs } ∧
    (∀ f, u.feed f = { s.feed f with silence := (u.feed f).silence }) ∧ u.store = s.store ∧ u.sel = s.sel ∧
    s.spliceKept u ∧ u.mon = { s.mon with elapsed := u.mon.elapsed } ∧
    u.chg = { s.chg with returnTimer := u.chg.returnTimer } ∧ u.lines.blink = .high ∧ u.part = s.part ∧
    u.paramLock = s.paramLock ∧ u.draws = s.draws ∧ u.pending = s.pending ∧
    ∀ p, u.port p = (s.port p).offers first

/-- An automatic changeover at an instant, and its events (R140, R142): position, timer and history, and the hold where the
history then holds three entries of which the newest less the oldest is 600 s or less. -/
def Changeover.automatic (c : Changeover) (now : Time) (target : Position) : Changeover × List Event :=
  let history := (c.history ++ [now]).drop (c.history.length - 2)
  let held := match history with | [a, _, b] => decide (tdiff b a ≤ 6000000000) | _ => false
  ({ c with position := target, returnTimer := none, history := history, hold := c.hold || held },
    ⟨.changeover, target.code, 0, now⟩ :: if held then [⟨.changeoverHold, target.code, 1, now⟩] else [])

/-- A re-evaluation with the main fault and the reserve fault, and its events (the table of R140, R141). -/
def Changeover.reevaluated (c : Changeover) (now : Time) (mainFault reserveFault : Bool) : Changeover × List Event :=
  if c.manual = true ∨ c.hold = true then (c, [])
  else
    match c.position, mainFault, reserveFault with
    | .main, true, false => c.automatic now .reserve
    | .main, _, _ => ({ c with returnTimer := none }, [])
    | .reserve, false, true => c.automatic now .main
    | .reserve, false, false =>
      ({ c with returnTimer := if c.autoReturn then some (c.returnTimer.getD (c.returnDelay * 10000000)) else c.returnTimer },
        [])
    | .reserve, true, _ => ({ c with returnTimer := none }, [])

/-- What a change of an input of the exciter health between `s` and `t` does to the changeover, its events coming after those
of the change itself (R137, R140, R146): nothing while the main fault and the reserve fault stay, else a re-evaluation. -/
abbrev State.healthFollowed (s t : State) (first : List Event) : Prop :=
  let r := if t.mainFault = s.mainFault ∧ t.reserveFault = s.reserveFault then (s.chg, [])
    else s.chg.reevaluated s.now t.mainFault t.reserveFault
  t.chg = r.1 ∧ ∀ p, t.port p = (s.port p).offers (first ++ r.2)

/-- The events of the CUED breaks that window `w` of the table of `u` ends BLOCKED, in ascending break index, where `ends` tells
the splice-out instants of those breaks (R125, R126). -/
def State.blockedEvents (u : State) (w : Nat) (ends : Time → Bool) : List Event :=
  ((List.range 32).filter fun i =>
      (u.window w).covers (u.brk i).slot && (u.brk i).state == .cued
        && (match (u.brk i).x with | some x => ends x | none => false)).map
    fun i => ⟨.breakEnded, i, EndCause.blocked.code, u.now⟩

/-- What window `w` of the table of `u` leaves of the breaks when it acts (R125, R126), where `ends` tells the splice-out
instants of the CUED breaks it ends: those end BLOCKED, ON_AIR ones are offered the window's start, and all others stay as
they are. The counts are said for a table with at most one CUED or ON_AIR break (R123). -/
abbrev State.windowActed (u t : State) (w : Nat) (ends : Time → Bool) : Prop :=
  (∀ i, i < 32 →
    ((u.window w).covers (u.brk i).slot = false ∨ (u.brk i).live = false → t.brk i = u.brk i) ∧
    ((u.window w).covers (u.brk i).slot = true →
      ((u.brk i).state = .onAir →
        t.brk i = { u.brk i with y := (u.brk i).offered (u.window w).start .window }) ∧
      ∀ x, (u.brk i).state = .cued → (u.brk i).x = some x →
        (ends x = false → t.brk i = u.brk i) ∧
        (ends x = true → t.brk i = (u.brk i).endedWith .blocked u.now ∧ u.laneReleased t i))) ∧
  (∀ v, t.window v = { u.window v with blocked := (t.window v).blocked, recalled := (t.window v).recalled } ∧
    (v ≠ w → (t.window v).recalled = (u.window v).recalled)) ∧
  ((∀ i, i < 32 → (u.brk i).live = true → (u.window w).covers (u.brk i).slot = false) → t.windows = u.windows) ∧
  ∀ i, i < 32 → (∀ j, j < 32 → j ≠ i → (u.brk j).live = false) → (u.window w).covers (u.brk i).slot = true →
    ((u.brk i).state = .onAir →
      t.windows =
        if (u.brk i).takesOffer (u.window w).start then
          u.windows.set w { u.window w with recalled := bump16 (u.window w).recalled }
        else u.windows) ∧
    ∀ x v, (u.brk i).state = .cued → (u.brk i).x = some x → ends x = true → v < 8 →
      (u.window v).blocksCued u.now (u.brk i).slot x = true →
      (∀ k, k < v → (u.window k).blocksCued u.now (u.brk i).slot x = false) →
      t.windows = u.windows.set v { u.window v with blocked := bump16 (u.window v).blocked }

end Sys2Proof.Machine

namespace Sys2Proof

/-- The parameter length of a command whose rule places no length check of its own, or whose length is fixed: the sizes of
what it carries (R175). The commands whose length depends on a count or a trigger they carry, and SET WINDOW, have none
here. -/
def Instr.plainLength : Instr → Option Nat
  | .identify _ _ | .readStatus _ _ | .clearStatistics _ _ | .start _ _ | .stop _ _ | .reset _ _ => some 0
  | .readTime _ _ | .readTimebase _ _ | .readSelector _ _ | .readLaunch _ _ | .readMonitor _ _ => some 0
  | .readCapture _ _ | .auto _ _ | .releaseHold _ _ | .readChangeover _ _ | .mute _ _ | .unmute _ _ => some 0
  | .unmuteAll _ _ | .readLines _ _ | .readEvents _ _ | .lockParameters _ _ | .unlockParameters _ _ => some 0
  | .readFeed _ _ | .playListClear _ _ | .readPlayList _ _ | .readLane _ _ | .clearSlot _ _ | .readSlot _ _ => some 1
  | .arm _ _ | .disarm _ _ | .trigger _ _ | .cancel _ _ | .clearBreak _ _ | .readBreak _ _ => some 1
  | .removeWindow _ _ | .readWindow _ _ | .changeover _ _ | .lockLine _ _ => some 1
  | .setFeedMode _ _ | .setSlipTolerance _ _ | .setScanRange _ _ | .setLineLevel _ _ => some 2
  | .setHoldoverLimit _ _ | .setAdvance _ _ | .setReturn _ _ => some 3
  | .timeLabel _ _ | .setPacketPeriod _ _ | .clipRead _ _ => some 4
  | .setStreamIds _ _ => some 5
  | .configureLine _ _ => some 6
  | .setChannel _ _ => some 7
  | .setHoldLimits _ _ => some 8
  | .setEventMask _ _ => some 20
  | _ => none

end Sys2Proof
end

