-- ==== Sys2Proof/Certificates/Slice0/Obligations.lean ====
section
/-! DEFINITION. The statements for the provers. "A port is open" means that no long command is in progress on it; a command
is written with the port it comes over and its parameter bytes. Where a statement gives the next state as an update of
the state before, everything the update does not name is unchanged. -/

open Sys2Proof Sys2Proof.Machine

/-! ### The queue, the step, the encodings -/

/-- The command at the front of the queue is taken, with the queue's rest, and exec decides what comes of it; with no
command waiting one due event is taken, or one period of the site clock passes, which is the model's choice (log entry
1). -/
def Obligations.StepTakesFrontCommand : Prop :=
  (∀ (c : Instr) (rest : List Instr) (s : State), s.pending = c :: rest → step s = exec c { s with pending := rest }) ∧
  ∀ s : State, s.pending = [] →
    (s.due = [] → step s = .next s.period) ∧ (s.due ≠ [] → ∃ e ∈ s.due, step s = exec e.2 s.draw)

/-- Every command of the table is executed in every state, without a fault or a refusal of the model, and none changes the
queue of waiting commands. That an event row given to a state in which its event is not due is executed without effect is
the model's choice (log entry 2). -/
def Obligations.EveryCommandAnswers : Prop :=
  ∀ (c : Instr) (s : State), ∃ t, exec c s = .next t ∧ t.pending = s.pending

/-- The frame of every command of the catalogue, with every parameter its length admits, is read back as that command
(R159, R175). -/
def Obligations.FramesReadBack : Prop :=
  ∀ (i : Instr) (p : Port) (code : Byte) (params : List Byte),
    frameParts i = some (p, code, params) → i.wf = true →
      ∃ bytes, encodeFrame i = some bytes ∧ bytes.length = params.length + 3 ∧ decodeTransaction p bytes = i

/-- The codes 0x01..0x3B name a command each, no other code names one, and a command's frame carries the code that named
it (R175); checks 2 and 3 on the bytes of a transaction that is no response read (R159). -/
def Obligations.CodesAndFrameChecks : Prop :=
  (∀ (p : Port) (code : Byte) (params : List Byte),
    ((commandOf p code params).isSome = true ↔ 1 ≤ code.toNat ∧ code.toNat ≤ 59) ∧
    ∀ i, commandOf p code params = some i → frameParts i = some (p, code, params)) ∧
  ∀ (p : Port) (code : Byte), code ≠ responseReadCode →
    decodeTransaction p [code] = .badFrameLength p 1 ∧
    (∀ hi, decodeTransaction p [code, hi] = .badFrameLength p 2) ∧
    ∀ (hi lo : Byte) (params : List Byte),
      ((3072 < hi.toNat * 256 + lo.toNat ∨ params.length ≠ hi.toNat * 256 + lo.toNat) →
        decodeTransaction p (code :: hi :: lo :: params) = .badFrameLength p (params.length + 3)) ∧
      (hi.toNat * 256 + lo.toNat ≤ 3072 → params.length = hi.toNat * 256 + lo.toNat →
        isCommandCode code = false →
        decodeTransaction p (code :: hi :: lo :: params) = .unknownCommand p code params)

/-! ### Frames and responses -/

/-- A frame taken while the port has a long command in progress is discarded whole: only the overrun flag of that port,
its transaction and what it clocked out change, for every command of the catalogue and every other frame (R161). -/
def Obligations.OverrunDiscardsFrames : Prop :=
  (∀ (s : State) (p : Port), (s.port p).inProgress ≠ none →
    (∀ (i : Instr) (code : Byte) (params : List Byte), frameParts i = some (p, code, params) →
      exec i s = .next (s.withPort p ((s.port p).overran (params.length + 3)))) ∧
    (∀ n, exec (.frameOverrun p n) s = .next (s.withPort p ((s.port p).overran n))) ∧
    (∀ n, exec (.badFrameLength p n) s = .next (s.withPort p ((s.port p).overran n))) ∧
    (∀ code params, exec (.unknownCommand p code params) s =
      .next (s.withPort p ((s.port p).overran (params.length + 3))))) ∧
  ∀ (q : PortState) (n : Nat),
    q.overran n = { q with transaction := .none, overrun := true, dataOut := List.replicate n 0 }

/-- A command that is answered with any result code but OK changes nothing of the part: only the response and the flags
of its own port, and what that port clocked out (R159). -/
def Obligations.RefusalsChangeNothing : Prop :=
  ∀ (i : Instr) (p : Port) (code : Byte) (params : List Byte) (s t : State) (r : Response),
    frameParts i = some (p, code, params) → s.open_ p → exec i s = .next t → (t.port p).response = some r →
    r.code ≠ .ok →
      ∃ q : PortState, t = s.withPort p q ∧ q.events = (s.port p).events ∧ q.mask = (s.port p).mask ∧
        q.lostEvents = (s.port p).lostEvents ∧ q.inProgress = none ∧ r.data = []

/-- A frame that discards an unread response sets the lost flag, and the response made ready carries it (R162, R160), here
for a command of any code that is refused UNKNOWN; a frame of a wrong length is refused BAD_LENGTH, and a transaction
without a whole byte changes nothing (R159). -/
def Obligations.RefusedFramesAnswer : Prop :=
  (∀ (s : State) (p : Port) (code : Byte) (params : List Byte), s.open_ p → params.length ≤ 3072 →
    ∃ t, exec (.unknownCommand p code params) s = .next t ∧
      t = s.withPort p (t.port p) ∧
      (t.port p).response =
        some ⟨.unknown, (s.port p).overrun, (s.port p).lost || (s.port p).response.isSome,
          !(s.port p).events.isEmpty, false, []⟩ ∧
      (t.port p).overrun = false ∧ (t.port p).lost = false ∧ (t.port p).events = (s.port p).events) ∧
  ∀ (s : State) (p : Port),
    (∀ n, s.open_ p →
      exec (.badFrameLength p n) s =
        .next ((s.withPort p ((s.port p).taken n)).respond p (.no .badLength))) ∧
    exec (.emptyTransaction p) s = .next s

/-- A command whose parameters have another length than its own is refused BAD_LENGTH (R159). The lengths are those of
`Instr.plainLength`, which the model infers from R175 (log entry 14); that BAD_LENGTH comes before the NOT_PERMITTED and the
LOCKED of R168, for a station frame under the lock and for a network-only command, is the model's reading (log entry 20). -/
def Obligations.WrongLengthIsRefused : Prop :=
  ∀ (i : Instr) (p : Port) (code : Byte) (params : List Byte) (n : Nat) (s : State),
    frameParts i = some (p, code, params) → i.plainLength = some n → params.length ≠ n → s.open_ p →
      exec i s = .next (s.answers p params (.no .badLength))

/-- A response read clocks out the pending response from its first byte; the response is read when its last byte has been
clocked out, and stays pending otherwise; with none pending the filler goes out and nothing changes (R160). The draw
counter is the model's own (log entry 18). -/
def Obligations.ResponseReadTakesTheResponse : Prop :=
  ∀ (s : State) (p : Port) (n : Nat),
    (∀ r, (s.port p).response = some r →
      ∃ out, exec (.responseRead p n) s =
        .next (s.withPort p
          { s.port p with
            transaction := .none, dataOut := out
            response := if r.bytes.length ≤ n then none else some r }).draw ∧
        out.length = n ∧ out.take r.bytes.length = r.bytes.take n) ∧
    ((s.port p).response = none →
      exec (.responseRead p n) s =
        .next (s.withPort p { s.port p with transaction := .none, dataOut := List.replicate n 0 }).draw)

/-! ### Reads -/

/-- Each read answers OK with its data and changes nothing but its port's response (R170, R17, R18, R36, R54, R80, R90, R95,
R120, R105, R130, R147), and two of them take what they return: READ CAPTURE frees the capture record (R136), READ LINES
clears the latched edges (R157). A READ CHANGEOVER at the instant at which the return timer expires comes after the expiry,
as the model infers from R147 (log entry 27). The data are those that the reads' own definitions lay out, where the spec
leaves a byte's place open as log entry 14 says. A feed, list, lane, slot, break or window that does not exist is refused
BAD_VALUE. -/
def Obligations.ReadsAnswer : Prop :=
  ∀ (s : State) (p : Port), s.open_ p →
    exec (.identify p []) s = .next (s.answers p [] (.ok (identifyData p))) ∧
    exec (.readStatus p []) s = .next (s.answers p [] (.ok (s.statusData p))) ∧
    exec (.readTime p []) s = .next (s.answers p [] (.ok s.timeData)) ∧
    exec (.readTimebase p []) s = .next (s.answers p [] (.ok s.timebaseData)) ∧
    exec (.readSelector p []) s = .next (s.answers p [] (.ok s.selectorData)) ∧
    exec (.readLaunch p []) s = .next (s.answers p [] (.ok s.launchData)) ∧
    exec (.readMonitor p []) s = .next (s.answers p [] (.ok s.monitorData)) ∧
    (s.chg.returnTimer ≠ some 0 → exec (.readChangeover p []) s = .next (s.answers p [] (.ok s.changeoverData))) ∧
    (s.chg.returnTimer = some 0 →
      exec (.readChangeover p []) s =
        .next (((s.takes p []).autoChangeover .main).respond p
          (.ok ((s.takes p []).autoChangeover .main).changeoverData))) ∧
    exec (.readCapture p []) s =
      .next (((s.takes p []).withMon { s.mon with capture := none }).respond p (.ok s.captureData)) ∧
    exec (.readLines p []) s =
      .next (((s.takes p []).withLines
        { s.lines with records := s.lines.records.map fun l => if l.output then l else { l with latched := false } }
        ).respond p (.ok s.linesData)) ∧
    ∀ b : Byte,
      exec (.readFeed p [b]) s =
        .next (s.answers p [b] (if b.toNat = 0 then .ok (s.feedData .a) else if b.toNat = 1 then .ok (s.feedData .b)
          else .no .badValue)) ∧
      exec (.readPlayList p [b]) s =
        .next (s.answers p [b] (if b.toNat < 32 then .ok (s.playListData b.toNat) else .no .badValue)) ∧
      exec (.readLane p [b]) s =
        .next (s.answers p [b] (if b.toNat < 4 then .ok (s.laneData b.toNat) else .no .badValue)) ∧
      exec (.readSlot p [b]) s =
        .next (s.answers p [b] (if b.toNat < 8 then .ok (s.slotData b.toNat) else .no .badValue)) ∧
      exec (.readBreak p [b]) s =
        .next (s.answers p [b] (if b.toNat < 32 then .ok (s.breakData b.toNat) else .no .badValue)) ∧
      exec (.readWindow p [b]) s =
        .next (s.answers p [b] (if b.toNat < 8 then .ok (s.windowData b.toNat) else .no .badValue))

/-- READ EVENTS removes and returns up to 16 of the oldest records with the lost-event count, which becomes 0, and its
EVENTS_PENDING tells of what remains; SET EVENT MASK sets the sending port's mask alone or is refused; the mask enables
every kind at power-on and at the reset pin and stays through a software RESET (R172). The layout of the data and the 20 enable
bytes are those of R175, and that an enable byte of 1 is enabled is the model's choice (log entry 14). -/
def Obligations.EventQueueCommands : Prop :=
  ∀ (s : State) (p : Port), s.open_ p →
    (∃ t, exec (.readEvents p []) s = .next t ∧ t = s.withPort p (t.port p) ∧
      (t.port p).events = (s.port p).events.drop 16 ∧ (t.port p).lostEvents = 0 ∧
      (t.port p).mask = (s.port p).mask ∧
      ∃ r, (t.port p).response = some r ∧ r.code = .ok ∧ r.eventsPending = !((s.port p).events.drop 16).isEmpty ∧
        r.data = be 1 ((s.port p).events.take 16).length ++ be 2 (s.port p).lostEvents
          ++ ((s.port p).events.take 16).flatMap Event.bytes) ∧
    (∀ params : List Byte, params.length = 20 →
      ((∀ b ∈ params, b.toNat ≤ 1) →
        exec (.setEventMask p params) s =
          .next (((s.takes p params).withPort p
            { (s.port p).taken 23 with mask := params.map (· != 0) }).respond p (.ok []))) ∧
      ((∃ b ∈ params, 1 < b.toNat) →
        exec (.setEventMask p params) s = .next (s.answers p params (.no .badValue)))) ∧
    (∀ t, (exec .powerOn s = .next t ∨ exec .resetPin s = .next t) →
      t.station.mask = List.replicate 20 true ∧ t.network.mask = List.replicate 20 true) ∧
    (∀ t, exec (.reset p []) s = .next t → t.station.mask = s.station.mask ∧ t.network.mask = s.network.mask)

/-- An event raised is offered to both ports with the same site time: not queued where the kind is masked, queued at the
tail where fewer than 32 records wait, and counted lost, up to 65,535, otherwise; nothing else changes (R171). -/
def Obligations.EventsReachBothPorts : Prop :=
  ∀ (s : State) (kind : EventKind) (subject detail : Nat) (p : Port),
    let t := s.raise kind subject detail
    let q := s.port p
    (q.mask.getD (kind.code - 1) true = false → t.port p = q) ∧
    (q.mask.getD (kind.code - 1) true = true → q.events.length < 32 →
      t.port p = { q with events := q.events ++ [⟨kind, subject, detail, s.now⟩] }) ∧
    (q.mask.getD (kind.code - 1) true = true → 32 ≤ q.events.length →
      t.port p = { q with lostEvents := bump16 q.lostEvents }) ∧
    t = (s.withPort p (t.port p)).withPort p.other (t.port p.other)

/-! ### Permission -/

/-- While the parameter lock is set the station port is refused NOT_PERMITTED every emission parameter and LOCKED a RESET,
and nothing of the part changes; the six network-only commands are refused NOT_PERMITTED from the station port whatever
the lock (R168, R167). -/
def Obligations.LockHoldsTheStationOut : Prop :=
  (∀ (s : State) (params : List Byte), s.paramLock = true → s.open_ .station → params.length ≤ 3072 →
    (params.length = 4 → exec (.timeLabel .station params) s = .next (s.answers .station params (.no .notPermitted))) ∧
    (params.length = 3 →
      exec (.setHoldoverLimit .station params) s = .next (s.answers .station params (.no .notPermitted)) ∧
      exec (.setAdvance .station params) s = .next (s.answers .station params (.no .notPermitted))) ∧
    (params.length = 5 →
      exec (.setStreamIds .station params) s = .next (s.answers .station params (.no .notPermitted))) ∧
    (params.length = 2 →
      exec (.setFeedMode .station params) s = .next (s.answers .station params (.no .notPermitted)) ∧
      exec (.setSlipTolerance .station params) s = .next (s.answers .station params (.no .notPermitted))) ∧
    (params.length = 4 →
      exec (.setPacketPeriod .station params) s = .next (s.answers .station params (.no .notPermitted))) ∧
    (params.length = 8 →
      exec (.setHoldLimits .station params) s = .next (s.answers .station params (.no .notPermitted))) ∧
    exec (.defineSlot .station params) s = .next (s.answers .station params (.no .notPermitted)) ∧
    (params.length = 1 →
      exec (.clearSlot .station params) s = .next (s.answers .station params (.no .notPermitted))) ∧
    exec (.reset .station []) s = .next (s.answers .station [] (.no .locked))) ∧
  ∀ (s : State) (params : List Byte), s.open_ .station → params.length ≤ 3072 →
    exec (.setWindow .station params) s = .next (s.answers .station params (.no .notPermitted)) ∧
    (params.length = 1 →
      exec (.removeWindow .station params) s = .next (s.answers .station params (.no .notPermitted)) ∧
      exec (.lockLine .station params) s = .next (s.answers .station params (.no .notPermitted))) ∧
    exec (.lockParameters .station []) s = .next (s.answers .station [] (.no .notPermitted)) ∧
    exec (.unlockParameters .station []) s = .next (s.answers .station [] (.no .notPermitted)) ∧
    exec (.unmuteAll .station []) s = .next (s.answers .station [] (.no .notPermitted))

/-- LOCK PARAMETERS sets the lock and UNLOCK PARAMETERS clears it, and CLEAR STATISTICS sets the four groups of counters to
0 and leaves all other state (R168, R170). -/
def Obligations.LockAndStatistics : Prop :=
  ∀ s : State,
    (s.open_ .network →
      exec (.lockParameters .network []) s = .next (((s.takes .network []).withLock true).respond .network (.ok [])) ∧
      exec (.unlockParameters .network []) s =
        .next (((s.takes .network []).withLock false).respond .network (.ok []))) ∧
    ∀ p, s.open_ p →
      exec (.clearStatistics p []) s =
        .next (State.respond
          { s.takes p [] with
            feedA := { s.feedA with counters := .zero }
            feedB := { s.feedB with counters := .zero }
            sel := { s.sel with counters := .zero }
            launch := { s.launch with stats := .zero }
            splice := { s.splice with cuesApplied := 0, cuesIgnored := 0, cuesWithoutInstant := 0 } } p (.ok []))

/-! ### Site time -/

/-- A natural second mark: tick 0, the next second or the pending label, correction 0, the label applied, the holdover
count and its limit, the pending advance taken into force, BLINK high (R1, R2, R11, R12, R76, R154), and the events
LABEL_APPLIED, TIMEBASE_STATE and GATE in this order (R14, R15). A label that differs from the second it replaces is a step
for the scheduler, which comes after those events (R75). That the gate is formed once at a mark is the model's choice (log
entry 38). -/
def Obligations.SecondMarkMakesTheNextSecond : Prop :=
  ∀ s : State, s.tb.atSecondEnd = true → ∃ t, exec .secondMark s = .next t ∧
    t.tb.tick = 0 ∧ t.tb.second = s.tb.pendingLabel.getD ((s.tb.second + 1) % 4294967296) ∧
    t.tb.correction = 0 ∧ t.tb.pendingLabel = none ∧ t.tb.labelled = (s.tb.labelled || s.tb.pendingLabel.isSome) ∧
    (s.tb.discipline ≠ .holdover →
      t.tb.discipline = s.tb.discipline ∧ t.tb.holdoverSeconds = s.tb.holdoverSeconds) ∧
    (s.tb.discipline = .holdover →
      t.tb.holdoverSeconds = s.tb.holdoverSeconds + 1 ∧
      t.tb.discipline = if s.tb.holdoverLimit ≤ s.tb.holdoverSeconds + 1 then .expired else .holdover) ∧
    t.tb.good = s.tb.good ∧ t.tb.stray = s.tb.stray ∧ t.tb.missed = s.tb.missed ∧ t.tb.watch = s.tb.watch ∧
    t.tb.lastError = s.tb.lastError ∧ t.tb.holdoverLimit = s.tb.holdoverLimit ∧ t.lines.blink = .high ∧
    (s.tb.pendingLabel = none →
      t.launch.advance = s.launch.pendingAdvance.getD s.launch.advance ∧ t.launch.pendingAdvance = none ∧
      t.store = s.store ∧ t.sel = s.sel ∧ s.spliceKept t ∧ t.feedA = s.feedA.period ∧ t.feedB = s.feedB.period ∧
      t.mon = { s.mon with elapsed := min (s.mon.elapsed + 1) 2500 } ∧
      t.chg = { s.chg with returnTimer := s.chg.returnTimer.map (· - 1) } ∧
      t.lines.records = s.lines.records.map Line.period) ∧
    t.part = s.part ∧ t.paramLock = s.paramLock ∧
    let next := (s.tb.second + 1) % 4294967296
    let events := s.tb.changeEvents t.tb (s.tb.pendingLabel.map fun v => (v, next)) t.now
    (s.tb.pendingLabel.getD next = next → ∀ p, t.port p = (s.port p).offers events) ∧
    (s.tb.pendingLabel.getD next ≠ next → s.schedulerStepped t ∧ s.jumped t events)

/-- What a pulse does to the discipline, by the table of 1.3: FREE and EXPIRED step into ACQUIRING; ACQUIRING counts close
pulses up to LOCKED at the fourth; LOCKED and HOLDOVER take an in-window pulse as LOCKED with clear counts and step into
ACQUIRING at the third stray (R4, R8 to R12). -/
def Obligations.PulseDisciplines : Prop :=
  ∀ s : State, ∃ t, exec .pulse s = .next t ∧
    t.tb.lastError = some (pulseError s.tb.tick) ∧ t.tb.holdoverLimit = s.tb.holdoverLimit ∧
    t.mon = s.mon ∧ t.chg = s.chg ∧ t.lines.records = s.lines.records ∧ t.part = s.part ∧ t.paramLock = s.paramLock ∧
    (s.tb.discipline = .free ∨ s.tb.discipline = .expired →
      t.tb.discipline = .acquiring ∧ t.tb.good = 0 ∧ t.tb.stray = 0 ∧ t.tb.missed = 0 ∧ t.tb.tick = 0 ∧
      t.tb.watch = true) ∧
    (s.tb.discipline = .acquiring → (pulseError s.tb.tick).natAbs ≤ 16 →
      if 3 ≤ s.tb.good then t.tb.discipline = .locked ∧ t.tb.good = 4 ∧ t.tb.stray = 0 ∧ t.tb.missed = 0
      else t.tb.discipline = .acquiring ∧ t.tb.good = s.tb.good + 1) ∧
    (s.tb.discipline = .acquiring → 16 < (pulseError s.tb.tick).natAbs →
      t.tb.discipline = .acquiring ∧ t.tb.good = 0 ∧ (1000 < (pulseError s.tb.tick).natAbs → t.tb.tick = 0)) ∧
    (s.tb.discipline = .locked ∨ s.tb.discipline = .holdover → (pulseError s.tb.tick).natAbs ≤ 1000 →
      t.tb.discipline = .locked ∧ t.tb.stray = 0 ∧ t.tb.missed = 0 ∧ t.tb.watch = true) ∧
    (s.tb.discipline = .locked ∨ s.tb.discipline = .holdover → 1000 < (pulseError s.tb.tick).natAbs →
      if 2 ≤ s.tb.stray then
        t.tb.discipline = .acquiring ∧ t.tb.good = 0 ∧ t.tb.stray = 0 ∧ t.tb.missed = 0 ∧ t.tb.tick = 0
      else
        t.tb.discipline = s.tb.discipline ∧ t.tb.stray = s.tb.stray + 1 ∧ t.tb.missed = s.tb.missed ∧
        t.tb.tick = s.tb.tick ∧ t.tb.second = s.tb.second ∧ t.tb.correction = s.tb.correction ∧
        t.station = s.station ∧ t.network = s.network)

/-- A slew, in ACQUIRING, LOCKED or HOLDOVER, corrects the second in progress by the error clamped to −16..+16, or ends it
at the pulse; a step, in FREE and EXPIRED, for an ACQUIRING pulse out of the window and at the third stray, leaves the second
for an error of 0 or more and moves it on for a negative one; a pending label takes force at either mark (R2, R6, R7, R8 to
R12). The events of either are LABEL_APPLIED, TIMEBASE_STATE and GATE in this order (R14, R15). A step in RUN, or a label that
differs from the second it replaces, truncates the group in emission, drops the scheduled one STEPPED, and puts the guard
instant in the place of the last end tick and of the gap origin; outside RUN it leaves the scheduler alone (R75, R76). That the
change of state comes before the mark (log entry 17), that the gate is formed once (log entry 38), and that late starts which
wait behind a packet whose bytes leave stay through a step (log entry 5) is the model's reading. -/
def Obligations.PulseCorrectsTheSecond : Prop :=
  ∀ s : State, s.tb.tick < 10000000 →
    let next := (s.tb.second + 1) % 4294967296
    (s.tb.discipline = .acquiring ∨ s.tb.discipline = .locked ∨ s.tb.discipline = .holdover →
      (pulseError s.tb.tick).natAbs ≤ 1000 → ∃ t, exec .pulse s = .next t ∧
      (s.tb.tick < 9999984 →
        t.tb.correction = max (-16) (min 16 (pulseError s.tb.tick)) ∧ t.tb.tick = s.tb.tick ∧
        t.tb.second = s.tb.second ∧ t.tb.pendingLabel = s.tb.pendingLabel ∧ t.tb.labelled = s.tb.labelled ∧
        ∀ p, t.port p = (s.port p).offers (s.tb.changeEvents t.tb none s.now)) ∧
      (9999984 ≤ s.tb.tick →
        t.tb.tick = 0 ∧ t.tb.second = s.tb.pendingLabel.getD next ∧
        t.tb.correction = 0 ∧ t.tb.pendingLabel = none ∧
        t.tb.labelled = (s.tb.labelled || s.tb.pendingLabel.isSome) ∧
        let events := s.tb.changeEvents t.tb (s.tb.pendingLabel.map fun v => (v, next)) t.now
        (s.tb.pendingLabel.getD next = next → ∀ p, t.port p = (s.port p).offers events) ∧
        (s.tb.pendingLabel.getD next ≠ next → s.schedulerStepped t ∧ s.jumped t events)) ∧
      (s.tb.tick < 9999984 ∨ s.tb.pendingLabel = none →
        t.feedA = s.feedA ∧ t.feedB = s.feedB ∧ t.store = s.store ∧ t.sel = s.sel ∧ s.spliceKept t)) ∧
    (s.tb.discipline = .free ∨ s.tb.discipline = .expired ∨
      (1000 < (pulseError s.tb.tick).natAbs ∧
        (s.tb.discipline = .acquiring ∨
          ((s.tb.discipline = .locked ∨ s.tb.discipline = .holdover) ∧ 2 ≤ s.tb.stray))) →
      let base := if s.tb.tick < 5000000 then s.tb.second else next
      ∃ t, exec .pulse s = .next t ∧ t.tb.tick = 0 ∧ t.tb.correction = 0 ∧ t.tb.pendingLabel = none ∧
        t.tb.labelled = (s.tb.labelled || s.tb.pendingLabel.isSome) ∧ t.tb.second = s.tb.pendingLabel.getD base ∧
        s.schedulerStepped t ∧ t.launch.outputs = s.launch.outputs ∧
        s.jumped t (s.tb.changeEvents t.tb (s.tb.pendingLabel.map fun v => (v, base)) t.now))

/-- The pulse-watch check clears the flag; a clear flag is a missed pulse, which sets ACQUIRING's good count to 0 and takes
LOCKED to HOLDOVER at the third, with its TIMEBASE_STATE event; BLINK falls at tick 5,000,000 (R5, R9 to R12, R15, R154). -/
def Obligations.WatchAndBlink : Prop :=
  ∀ s : State,
    (s.tb.watchOpen = true → 1001 ≤ s.tb.tick → ∃ t, exec .pulseWatchCheck s = .next t ∧ t.tb.watch = false ∧
      s.intakeKept t ∧ s.spliceKept t ∧ s.siteKept t ∧ t.part = s.part ∧ t.paramLock = s.paramLock ∧
      t.tb.tick = s.tb.tick ∧ t.tb.second = s.tb.second ∧ t.tb.stray = s.tb.stray ∧
      (∀ p, t.port p = (s.port p).offers (s.tb.changeEvents t.tb none s.now)) ∧
      (s.tb.watch = true ∨ s.tb.discipline = .free ∨ s.tb.discipline = .holdover ∨ s.tb.discipline = .expired →
        t.tb.discipline = s.tb.discipline ∧ t.tb.good = s.tb.good ∧ t.tb.missed = s.tb.missed) ∧
      (s.tb.watch = false → s.tb.discipline = .acquiring → t.tb.discipline = .acquiring ∧ t.tb.good = 0) ∧
      (s.tb.watch = false → s.tb.discipline = .locked →
        if 2 ≤ s.tb.missed then
          t.tb.discipline = .holdover ∧ t.tb.missed = 3 ∧ t.tb.holdoverSeconds = 0
        else t.tb.discipline = .locked ∧ t.tb.missed = s.tb.missed + 1)) ∧
    (s.lines.blink = .high → 5000000 ≤ s.tb.tick →
      exec .blinkFall s = .next (s.withLines { s.lines with blink := .low }))

/-! ### The settings of the launch -/

/-- The settings that a permitted command stores: label, holdover limit, advance, packet period, hold limits, slip tolerance,
stream identifiers (R3, R13, R76, R61, R60, R77, R169), clamped where R164 says so; refused are an advance above 2,000,000,
hold limits out of order after clamping, a packet period or identifiers out of range or outside STANDBY, and an identifier that
is a network identifier of a slot (R169). The field sizes are those of R175, and that the strip flag is on for a byte of 1 is
the model's choice (log entry 14). -/
def Obligations.SettingsAreStored : Prop :=
  ∀ (s : State) (p : Port) (params : List Byte), s.open_ p → (s.paramLock = false ∨ p = .network) →
    (params.length = 4 →
      exec (.timeLabel p params) s =
        .next (((s.takes p params).withTb { s.tb with pendingLabel := some (number params) }).respond p (.ok []))) ∧
    (params.length = 3 →
      exec (.setHoldoverLimit p params) s =
        .next (((s.takes p params).withTb { s.tb with holdoverLimit := max 1 (min 86400 (number params)) }).respond p
          ⟨.ok, decide (number params < 1 ∨ 86400 < number params), []⟩)) ∧
    (params.length = 3 → number params ≤ 2000000 →
      exec (.setAdvance p params) s =
        .next (((s.takes p params).withLaunch { s.launch with pendingAdvance := some (number params) }).respond p
          (.ok []))) ∧
    (params.length = 4 → s.part = .standby → 300 ≤ field params 0 2 → field params 0 2 ≤ 15040 →
      exec (.setPacketPeriod p params) s =
        .next (((s.takes p params).withLaunch
          { s.launch with periodInt := field params 0 2, periodFrac := field params 2 2 }).respond p (.ok []))) ∧
    (params.length = 8 →
      min 20000000 (field params 0 4) ≤ max 1 (min 20000000 (field params 4 4)) →
      exec (.setHoldLimits p params) s =
        .next (((s.takes p params).withLaunch
          { s.launch with
            holdMin := min 20000000 (field params 0 4), holdMax := max 1 (min 20000000 (field params 4 4)) }).respond p
          ⟨.ok, decide (20000000 < field params 0 4 ∨ field params 4 4 < 1 ∨ 20000000 < field params 4 4), []⟩)) ∧
    (params.length = 2 →
      exec (.setSlipTolerance p params) s =
        .next (((s.takes p params).withLaunch { s.launch with slipTolerance := min 10000 (number params) }).respond p
          ⟨.ok, decide (10000 < number params), []⟩)) ∧
    (params.length = 5 → s.part = .standby → field params 0 2 ≤ 8190 → field params 2 2 ≤ 8190 →
      field params 0 2 ≠ field params 2 2 → s.networkEntry (field params 0 2) = none →
      s.networkEntry (field params 2 2) = none → byteAt params 4 ≤ 1 →
      exec (.setStreamIds p params) s =
        .next (((s.takes p params).withLaunch
          { s.launch with
            pacingId := field params 0 2, cueId := field params 2 2, strip := byteAt params 4 == 1 }).respond p
          (.ok []))) ∧
    (params.length = 3 → 2000000 < number params →
      exec (.setAdvance p params) s = .next (s.answers p params (.no .badValue))) ∧
    (params.length = 8 → max 1 (min 20000000 (field params 4 4)) < min 20000000 (field params 0 4) →
      exec (.setHoldLimits p params) s = .next (s.answers p params (.no .badValue))) ∧
    (params.length = 4 → s.part ≠ .standby →
      exec (.setPacketPeriod p params) s = .next (s.answers p params (.no .wrongState))) ∧
    (params.length = 4 → s.part = .standby → (field params 0 2 < 300 ∨ 15040 < field params 0 2) →
      exec (.setPacketPeriod p params) s = .next (s.answers p params (.no .badValue))) ∧
    (params.length = 5 → s.part ≠ .standby →
      exec (.setStreamIds p params) s = .next (s.answers p params (.no .wrongState))) ∧
    (params.length = 5 → s.part = .standby →
      (8190 < field params 0 2 ∨ 8190 < field params 2 2 ∨ field params 0 2 = field params 2 2 ∨
        s.networkEntry (field params 0 2) ≠ none ∨ s.networkEntry (field params 2 2) ≠ none ∨ 1 < byteAt params 4) →
      exec (.setStreamIds p params) s = .next (s.answers p params (.no .badValue)))

/-- The full launch second is the second within −128..+127 of the arrival's own that has the right remainder modulo 256, and
the launch instant is that second with the launch tick (R57). For every advance up to 2,000,000 the release tick is the launch
instant less the advance, modulo site time: in the same second where the launch tick is not less than the advance, else in the
second before, 10,000,000 ticks up, the second before second 0 being 4,294,967,295 (R58). -/
def Obligations.LaunchSecondIsTheNearest : Prop :=
  ∀ ss s8 lt : Nat, ss < 4294967296 → s8 < 256 → lt < 10000000 →
    (∃ d : Int, -128 ≤ d ∧ d ≤ 127 ∧ (d - ((s8 : Int) - (ss % 256 : Nat))) % 256 = 0 ∧
      (fullSecond ss s8 : Int) = ((ss : Int) + d) % 4294967296) ∧
    releaseTick ss s8 lt 0 = fullSecond ss s8 * 10000000 + lt ∧ fullSecond 4294967295 1 = 1 ∧
    ∀ a : Nat, a ≤ 2000000 →
      (releaseTick ss s8 lt a : Int) = ((fullSecond ss s8 : Int) * 10000000 + lt - a) % 42949672960000000 ∧
      (a ≤ lt → releaseTick ss s8 lt a = fullSecond ss s8 * 10000000 + (lt - a)) ∧
      (lt < a →
        releaseTick ss s8 lt a = (fullSecond ss s8 + 4294967295) % 4294967296 * 10000000 + (lt + 10000000 - a))

/-- The hold checks in their order: NO_TIME, HOLD_SHORT, HOLD_LONG, else the release tick; a hold equal to a limit is
accepted, and a release tick before the arrival is HOLD_SHORT (R59). -/
def Obligations.HoldChecks : Prop :=
  ∀ (labelled : Bool) (arrival r : Time) (hmin hmax : Nat),
    arrival < timeModulus → r < timeModulus → hmin ≤ hmax → hmax ≤ 20000000 →
    (labelled = false → launchResult labelled arrival r hmin hmax = .rejected .noTime) ∧
    (∀ h : Nat, h < 10000000000 → r = (arrival + h) % timeModulus → labelled = true →
      launchResult labelled arrival r hmin hmax =
        if h < hmin then .rejected .holdShort else if hmax < h then .rejected .holdLong else .release r) ∧
    (∀ h : Nat, 1 ≤ h → h < 10000000000 → arrival = (r + h) % timeModulus → labelled = true →
      launchResult labelled arrival r hmin hmax = .rejected .holdShort)

/-- Two successive offsets differ by Pi or Pi + 1 ticks, and offset 0 is 0 (R62). A stamp written into a packet is read
back as the value written, and changes no other byte; a rebased clip stamp lies in its range, and the first one lands
on the base (R66, R67, R174). -/
def Obligations.OffsetsAndStamps : Prop :=
  (∀ pi pf i : Nat, pf < 65536 →
    offset (periodQ pi pf) 0 = 0 ∧
    (offset (periodQ pi pf) (i + 1) = offset (periodQ pi pf) i + pi ∨
      offset (periodQ pi pf) (i + 1) = offset (periodQ pi pf) i + pi + 1)) ∧
  (∀ (p : Packet) (v : Nat), 12 ≤ p.length → v < 2576980377600 →
    stampValue (withStamp p v) = v ∧ (withStamp p v).length = p.length ∧
    ∀ i, (i < 6 ∨ 11 < i) → (withStamp p v).getD i 0 = p.getD i 0) ∧
  ∀ base c0 c : Nat, base < 2576980377600 →
    rebased base c0 c < 2576980377600 ∧ rebased base c0 c0 = base ∧
    rebased base c0 c % 2576980377600 = (base + c + 2576980377600 * (c0 + 1) - c0) % 2576980377600

/-! ### Feeds and copies -/

/-- The framing of a feed, byte by byte: a candidate in SEARCH, check bytes in VERIFY, the bytes inside a packet, which are
kept while its packet is, a good sync byte in LOCKED, whose packet is accepted, a wrong one that is not the third, silence in
VERIFY; the third confirmation enters
LOCKED; the third wrong sync byte in a row, and silence in LOCKED, lose sync: SEARCH, the loss counted, and the open copy
closed SHORT and counted. Each change into or out of LOCKED raises FEED_SYNC with its detail. The selector tests its conditions
on the state that this leaves (R20 to R24, R30, R42), which does nothing outside RUN or while E is absent. -/
def Obligations.FramingSteps : Prop :=
  ∀ (s : State) (f : FeedId) (b : Byte),
    ((s.feed f).sync = .search →
      exec (.syncCandidate f) s =
        .next (s.withFeed f { s.feed f with sync := .verify, confirm := 0, pos := 1, silence := 0 }) ∧
      (b ≠ 0x47 → exec (.byteTaken f b) s = .next (s.withFeed f { s.feed f with silence := 0 }))) ∧
    ((s.feed f).sync = .verify → (s.feed f).pos = 0 →
      (b ≠ 0x47 → exec (.checkByte f b) s = .next (s.withFeed f (s.feed f).toSearch)) ∧
      ((s.feed f).confirm < 2 →
        exec (.checkByte f 0x47) s =
          .next (s.withFeed f { s.feed f with confirm := (s.feed f).confirm + 1, pos := 1, silence := 0 }))) ∧
    ((s.feed f).sync = .locked → (s.feed f).pos = 0 → b ≠ 0x47 → (s.feed f).badRun < 2 →
      exec (.badSyncByte f b) s =
        .next (s.withFeed f
          { s.feed f with
            badRun := (s.feed f).badRun + 1, pos := 1, accepting := false, buffer := [], silence := 0
            counters := { (s.feed f).counters with badSync := bump (s.feed f).counters.badSync } })) ∧
    ((s.feed f).sync = .locked → (s.feed f).pos = 0 →
      exec (.byteTaken f 0x47) s =
        .next (s.withFeed f
          { s.feed f with badRun := 0, pos := 1, accepting := true, buffer := [0x47], silence := 0 })) ∧
    ((s.feed f).sync = .verify → 500000 ≤ (s.feed f).silence →
      exec (.feedSilence f) s = .next (s.withFeed f (s.feed f).toSearch)) ∧
    ((s.feed f).sync = .verify → (s.feed f).pos = 0 → (s.feed f).confirm = 2 →
      ∃ t, exec (.checkByte f 0x47) s = .next t ∧ (t.feed f).sync = .locked ∧ (t.feed f).confirm = 3 ∧
        (t.feed f).badRun = 0 ∧ (t.feed f).accepting = true ∧ (t.feed f).buffer = [0x47] ∧ s.siteKept t ∧
        s.rulesKept t) ∧
    ((s.feed f).sync = .locked → (s.feed f).pos = 0 → b ≠ 0x47 → 2 ≤ (s.feed f).badRun →
      ∃ t, exec (.badSyncByte f b) s = .next t ∧ (t.feed f).sync = .search ∧ (t.feed f).badRun = 0 ∧
        (t.feed f).counters.badSync = bump (s.feed f).counters.badSync ∧
        (t.feed f).counters.syncLosses = bump (s.feed f).counters.syncLosses ∧ s.siteKept t ∧ s.rulesKept t) ∧
    ((s.feed f).sync = .locked → 500000 ≤ (s.feed f).silence →
      ∃ t, exec (.feedSilence f) s = .next t ∧ (t.feed f).sync = .search ∧ (t.feed f).silence = 0 ∧
        (t.feed f).counters.syncLosses = bump (s.feed f).counters.syncLosses ∧ s.siteKept t ∧ s.rulesKept t) ∧
    ((s.feed f).sync = .verify ∨ ((s.feed f).sync = .locked ∧ (s.feed f).pos ≠ 187) → (s.feed f).pos ≠ 0 →
      exec (.byteTaken f b) s =
        .next (s.withFeed f
          { s.feed f with
            pos := ((s.feed f).pos + 1) % 188, silence := 0
            buffer := if (s.feed f).accepting then (s.feed f).buffer ++ [b] else [] })) ∧
    ((s.feed f).sync = .verify → (s.feed f).pos = 0 → (s.feed f).confirm = 2 →
      exec (.checkByte f 0x47) s =
        .next ((s.withFeed f
          { s.feed f with
            sync := .locked, confirm := 3, badRun := 0, pos := 1, accepting := true, buffer := [0x47], silence := 0
          }).raise .feedSync (feedCode f) 0).testSelector) ∧
    (∀ c ∈ [(Instr.badSyncByte f b, 1), (.feedSilence f, 2)], (s.feed f).sync = .locked →
      (c.2 = 1 → (s.feed f).pos = 0 ∧ b ≠ 0x47 ∧ 2 ≤ (s.feed f).badRun) →
      (c.2 = 2 → 500000 ≤ (s.feed f).silence) →
      let lost : Feed :=
        { s.feed f with
          sync := .search, confirm := 0, badRun := 0, pos := 0, accepting := false, buffer := [], silence := 0
          counters :=
            { (s.feed f).counters with
              badSync := if c.2 = 1 then bump (s.feed f).counters.badSync else (s.feed f).counters.badSync
              syncLosses := bump (s.feed f).counters.syncLosses } }
      ∃ u, exec c.1 s = .next u.testSelector ∧ u.feed f.other = s.feed f.other ∧ u.sel = s.sel ∧
        u.launch = s.launch ∧ s.spliceKept u ∧ s.siteKept u ∧ s.rulesKept u ∧
        (∀ p, u.port p = (s.port p).offer ⟨.feedSync, feedCode f, c.2, s.now⟩) ∧
        ((s.feed f).openCopy = none → u.store = s.store ∧ u.feed f = lost) ∧
        ∀ (place : Nat) (r : GroupRecord), (s.feed f).openCopy = some place → s.record place = some r →
          r.arrivals ≠ r.declared →
          u.store = { s.store with table := s.store.table.set place (some { r with phase := .short }) } ∧
          u.feed f =
            { lost with openCopy := none, counters := { lost.counters with short := bump lost.counters.short } }) ∧
    (s.part ≠ .run ∨ s.sel.expected = none → s.testSelector = s)

/-- The 188th byte of a packet with a good sync byte is an arrival, counted in every part state; outside RUN nothing more
is done with it (R23, R25). -/
def Obligations.ArrivalsAreCounted : Prop :=
  ∀ (s : State) (f : FeedId) (b : Byte),
    (s.feed f).sync = .locked → (s.feed f).pos = 187 → (s.feed f).accepting = true →
    (s.part ≠ .run →
      exec (.packetArrival f b) s =
        .next (s.withFeed f
          { s.feed f with
            pos := 0, accepting := false, buffer := [], silence := 0
            counters := { (s.feed f).counters with accepted := bump (s.feed f).counters.accepted } })) ∧
    ∃ t, exec (.packetArrival f b) s = .next t ∧ (t.feed f).sync = .locked ∧ (t.feed f).pos = 0 ∧
      (t.feed f).counters.accepted = bump (s.feed f).counters.accepted ∧ s.siteKept t ∧ s.rulesKept t

/-- A valid pacing packet in RUN that is not stale, from a feed that is not excluded, of a group that is not in emission,
opens a copy at the lowest free place with one cell and the launch result of its arrival, and sets E where E is absent; a
closed copy of its number on its feed is freed before, an open copy of its feed closes SHORT before all this, and the
other-feed-current flag of the other feed is set where that feed's stale run is 1 or more (R27, R28, R39, R48, R56). A stale one
is counted, and the fourth in a row of a feed that is not excluded, while the other feed is not current, restarts the sequence
at its number: the held copies and the launch queue are gone, and SEQUENCE_RESTART is raised (R27, R48, R49, R81); that the
packet that restarts is not counted stale is read from R48 (log entry 16). One that is not stale is counted excluded on an
excluded feed, stale while its group is in emission, table-full without a free place and overrun without a free cell (R27,
R50). That the selector then tests, at the end of the arrival and at the closing, is the model's reading (log entry 24). -/
def Obligations.FirstPacketOpensACopy : Prop :=
  (∀ (s : State) (f : FeedId) (b : Byte) (p : Pacing),
    s.part = .run → (s.feed f).sync = .locked → (s.feed f).pos = 187 → (s.feed f).accepting = true →
    identifier ((s.feed f).buffer ++ [b]) = s.launch.pacingId → pacingOf ((s.feed f).buffer ++ [b]) = some p →
    s.store = .empty → s.sel.expected = none → s.sel.mode.excludes f = false → s.launch.emitting = none →
    (s.feed f).openCopy = none → (s.feed f.other).staleRun = 0 → p.group < 65536 →
    ∃ t, exec (.packetArrival f b) s = .next t ∧
      t.record 0 = some
        { feed := f, group := p.group, declared := p.declared, arrivals := 1, stored := 1
          errored := if transportError ((s.feed f).buffer ++ [b]) then 1 else 0
          overrun := false, phase := .opened, arrivalTick := s.now
          launched := launchResult s.tb.labelled s.now
            (releaseTick s.tb.second p.second8 p.tick s.launch.advance) s.launch.holdMin s.launch.holdMax
          cells := [(s.feed f).buffer ++ [b]] } ∧
      (∀ i, i ≠ 0 → t.record i = none) ∧ t.store.freeCells = 65535 ∧
      t.sel = { s.sel with expected := some p.group } ∧ (t.feed f).openCopy = some 0 ∧
      (t.feed f).lastOpened = some p.group ∧ (t.feed f).current = true ∧ (t.feed f).staleRun = 0 ∧
      (t.feed f).counters.opened = bump (s.feed f).counters.opened ∧ t.launch = s.launch ∧
      t.feed f.other = s.feed f.other ∧ s.spliceKept t ∧ s.siteKept t ∧ s.rulesKept t ∧ t.station = s.station ∧
      t.network = s.network) ∧
  (∀ (s : State) (f : FeedId) (b : Byte) (p : Pacing) (place : Nat),
    s.part = .run → (s.feed f).sync = .locked → (s.feed f).pos = 187 → (s.feed f).accepting = true →
    let packet := (s.feed f).buffer ++ [b]
    identifier packet = s.launch.pacingId → pacingOf packet = some p → (s.feed f).openCopy = none →
    (∀ e, s.sel.expected = some e → seqEarlier p.group e = false) → s.sel.mode.excludes f = false →
    s.emittingGroup ≠ some p.group →
    (∀ i r, s.closedCopy f p.group = some (i, r) → (s.feed f.other).openCopy ≠ some i) →
    let store : Store :=
      match s.closedCopy f p.group with
      | some (i, r) => ⟨s.store.table.set i none, s.store.freeCells + r.cells.length⟩
      | none => s.store
    store.freePlace = some place → store.freeCells ≠ 0 →
    ∃ u, exec (.packetArrival f b) s = .next u.testSelector ∧
      u.store =
        ⟨store.table.set place
          (some
            { feed := f, group := p.group, declared := p.declared, arrivals := 1, stored := 1
              errored := if transportError packet then 1 else 0
              overrun := false, phase := .opened, arrivalTick := s.now
              launched := launchResult s.tb.labelled s.now
                (releaseTick s.tb.second p.second8 p.tick s.launch.advance) s.launch.holdMin s.launch.holdMax
              cells := [packet] }),
          store.freeCells - 1⟩ ∧
      u.sel = { s.sel with expected := some (s.sel.expected.getD p.group) } ∧
      u.feed f =
        { s.feed f with
          pos := 0, accepting := false, buffer := [], silence := 0, openCopy := some place, lastOpened := some p.group
          current := true, staleRun := 0
          counters :=
            { (s.feed f).counters with
              accepted := bump (s.feed f).counters.accepted, opened := bump (s.feed f).counters.opened
              errored :=
                if transportError packet then bump (s.feed f).counters.errored else (s.feed f).counters.errored } } ∧
      u.feed f.other =
        { s.feed f.other with
          otherCurrent := (s.feed f.other).otherCurrent || decide (1 ≤ (s.feed f.other).staleRun) } ∧
      u.launch = s.launch ∧ s.spliceKept u ∧ s.siteKept u ∧ s.rulesKept u ∧ u.station = s.station ∧
      u.network = s.network) ∧
  (∀ (s : State) (f : FeedId) (b : Byte) (p : Pacing) (place : Nat) (r : GroupRecord),
    s.part = .run → (s.feed f).sync = .locked → (s.feed f).pos = 187 → (s.feed f).accepting = true →
    identifier ((s.feed f).buffer ++ [b]) = s.launch.pacingId → pacingOf ((s.feed f).buffer ++ [b]) = some p →
    (s.feed f).openCopy = some place → s.record place = some r → r.arrivals ≠ r.declared →
    let closed :=
      (s.withRecord place (some { r with phase := .short })).withFeed f
        { s.feed f with
          openCopy := none
          counters := { (s.feed f).counters with short := bump (s.feed f).counters.short } }
    closed.selectorDue = false → exec (.packetArrival f b) s = exec (.packetArrival f b) closed) ∧
  ∀ (s : State) (f : FeedId) (b : Byte) (p : Pacing),
    s.part = .run → (s.feed f).sync = .locked → (s.feed f).pos = 187 → (s.feed f).accepting = true →
    identifier ((s.feed f).buffer ++ [b]) = s.launch.pacingId → pacingOf ((s.feed f).buffer ++ [b]) = some p →
    (s.feed f).openCopy = none →
    let taken := { s.feed f with pos := 0, accepting := false, buffer := [], silence := 0 }
    let counted := { taken.counters with accepted := bump taken.counters.accepted }
    (∀ e, s.sel.expected = some e → seqEarlier p.group e = true →
      ((s.feed f).staleRun < 3 ∨ s.sel.mode.excludes f = true ∨
          (s.feed f).otherCurrent = true ∧ 1 ≤ (s.feed f).staleRun →
        exec (.packetArrival f b) s =
          .next (s.withFeed f
            { taken with
              staleRun := min ((s.feed f).staleRun + 1) 4
              otherCurrent := if (s.feed f).staleRun = 0 then false else (s.feed f).otherCurrent
              counters := { counted with stale := bump counted.stale } })) ∧
      (3 ≤ (s.feed f).staleRun → s.sel.mode.excludes f = false → (s.feed f).otherCurrent = false → p.group < 65536 →
        ∃ t, exec (.packetArrival f b) s = .next t ∧ t.sel.expected = some p.group ∧ t.sel.lastAdmitted = none ∧
          t.sel.queue = [] ∧ t.sel.counters = { s.sel.counters with restarts := bump s.sel.counters.restarts } ∧
          t.launch.emitting = s.launch.emitting ∧ t.launch.scheduled = none ∧ (t.feed f).staleRun = 0 ∧
          t.feed f.other =
            { s.feed f.other with
              openCopy := (t.feed f.other).openCopy, current := false, otherCurrent := false, staleRun := 0 } ∧
          (∀ i r, t.record i = some r → r.held = true → r.feed = f ∧ r.group = p.group ∧ r.arrivals = 1) ∧
          ∀ q, t.port q = (s.port q).offer ⟨.sequenceRestart, p.group, feedCode f, s.now⟩)) ∧
    ((∀ e, s.sel.expected = some e → seqEarlier p.group e = false) →
      let told := s.withFeed f.other
        { s.feed f.other with
          otherCurrent := (s.feed f.other).otherCurrent || decide (1 ≤ (s.feed f.other).staleRun) }
      (s.sel.mode.excludes f = true →
        exec (.packetArrival f b) s =
          .next (s.withFeed f
            { taken with staleRun := 0, counters := { counted with excluded := bump counted.excluded } })) ∧
      (s.sel.mode.excludes f = false → s.emittingGroup = some p.group →
        exec (.packetArrival f b) s =
          .next (told.withFeed f
            { taken with staleRun := 0, counters := { counted with stale := bump counted.stale } })) ∧
      (s.sel.mode.excludes f = false → s.emittingGroup ≠ some p.group → s.closedCopy f p.group = none →
        (s.store.freePlace = none →
          exec (.packetArrival f b) s =
            .next (told.withFeed f
              { taken with
                staleRun := 0, counters := { counted with tableFull := bump counted.tableFull } }).testSelector) ∧
        (s.store.freePlace ≠ none → s.store.freeCells = 0 →
          exec (.packetArrival f b) s =
            .next (told.withFeed f
              { taken with
                staleRun := 0, counters := { counted with overrun := bump counted.overrun } }).testSelector)))

/-- A packet that is not of the pacing class joins the open copy: one arrival, one cell, appended in arrival order, and an
error indicator counted on the copy and on the feed; the copy stays open while its declared count is not reached, and closes
with its last arrival, COMPLETE when every arrival was stored and SHORT otherwise, after which the selector tests; without a
free cell the packet is an arrival that is not stored, and the first of a copy raises POOL_OVERRUN; with no copy open it is
a stray. An invalid pacing packet is counted, and is one arrival of an open copy, not stored, which it closes SHORT when it is
the last (R26, R29, R30, R31, R35, R36, R42). -/
def Obligations.PacketsFillTheOpenCopy : Prop :=
  (∀ (s : State) (f : FeedId) (b : Byte),
    s.part = .run → (s.feed f).sync = .locked → (s.feed f).pos = 187 → (s.feed f).accepting = true →
    identifier ((s.feed f).buffer ++ [b]) ≠ s.launch.pacingId →
    let packet := (s.feed f).buffer ++ [b]
    let errored := fun n => if transportError packet then n + 1 else n
    (∀ (place : Nat) (r : GroupRecord),
      (s.feed f).openCopy = some place → s.record place = some r → s.store.freeCells ≠ 0 →
      let filled : GroupRecord :=
        { r with
          arrivals := r.arrivals + 1, stored := r.stored + 1, cells := r.cells ++ [packet]
          errored := errored r.errored }
      (r.arrivals + 1 < r.declared →
        ∃ t, exec (.packetArrival f b) s = .next t ∧
          t.store = ⟨s.store.table.set place (some filled), s.store.freeCells - 1⟩ ∧
          t.sel = s.sel ∧ t.launch = s.launch ∧ t.station = s.station ∧ t.network = s.network ∧
          (t.feed f).openCopy = some place ∧
          (t.feed f).counters.errored =
            (if transportError packet then bump (s.feed f).counters.errored else (s.feed f).counters.errored) ∧
          t.feed f.other = s.feed f.other ∧ s.spliceKept t ∧ s.siteKept t ∧ s.rulesKept t) ∧
      (r.declared ≤ r.arrivals + 1 →
        ∃ u, exec (.packetArrival f b) s = .next u.testSelector ∧
          u.store =
            ⟨s.store.table.set place
              (some { filled with
                phase := if r.arrivals + 1 = r.declared ∧ r.stored = r.arrivals then .complete else .short }),
              s.store.freeCells - 1⟩ ∧
          (u.feed f).openCopy = none ∧
          (u.feed f).counters.complete =
            (if r.arrivals + 1 = r.declared ∧ r.stored = r.arrivals then bump (s.feed f).counters.complete
              else (s.feed f).counters.complete) ∧
          (u.feed f).counters.short =
            (if r.arrivals + 1 = r.declared ∧ r.stored = r.arrivals then (s.feed f).counters.short
              else bump (s.feed f).counters.short) ∧
          u.feed f.other = s.feed f.other ∧ u.sel = s.sel ∧ u.launch = s.launch ∧ u.station = s.station ∧
          u.network = s.network ∧ s.spliceKept u ∧ s.siteKept u ∧ s.rulesKept u)) ∧
    (∀ (place : Nat) (r : GroupRecord),
      (s.feed f).openCopy = some place → s.record place = some r → s.store.freeCells = 0 →
      r.arrivals + 1 < r.declared →
      ∃ t, exec (.packetArrival f b) s = .next t ∧
        t.store = { s.store with
          table := s.store.table.set place (some { r with arrivals := r.arrivals + 1, overrun := true }) } ∧
        (t.feed f).counters.overrun = bump (s.feed f).counters.overrun ∧
        (∀ p, t.port p =
          if r.overrun then s.port p else (s.port p).offer ⟨.poolOverrun, feedCode f, r.group, s.now⟩) ∧
        t.sel = s.sel ∧ t.launch = s.launch ∧ t.feed f.other = s.feed f.other ∧ s.spliceKept t ∧ s.siteKept t ∧
        s.rulesKept t) ∧
    (∀ (place : Nat) (r : GroupRecord),
      (s.feed f).openCopy = some place → s.record place = some r → s.store.freeCells = 0 →
      r.declared ≤ r.arrivals + 1 → r.stored ≤ r.arrivals →
      ∃ u, exec (.packetArrival f b) s = .next u.testSelector ∧
        u.store = { s.store with
          table := s.store.table.set place
            (some { r with arrivals := r.arrivals + 1, overrun := true, phase := .short }) } ∧
        (u.feed f).openCopy = none ∧ (u.feed f).counters.overrun = bump (s.feed f).counters.overrun ∧
        (u.feed f).counters.short = bump (s.feed f).counters.short ∧
        (∀ p, u.port p =
          if r.overrun then s.port p else (s.port p).offer ⟨.poolOverrun, feedCode f, r.group, s.now⟩) ∧
        u.sel = s.sel ∧ u.launch = s.launch ∧ u.feed f.other = s.feed f.other ∧ s.spliceKept u ∧ s.siteKept u ∧
        s.rulesKept u) ∧
    ((s.feed f).openCopy = none →
      ∃ t, exec (.packetArrival f b) s = .next t ∧ t.store = s.store ∧ t.sel = s.sel ∧ t.launch = s.launch ∧
        (t.feed f).counters.strays = bump (s.feed f).counters.strays ∧ t.feed f.other = s.feed f.other ∧
        s.spliceKept t ∧ s.siteKept t ∧ s.rulesKept t)) ∧
  ∀ (s : State) (f : FeedId) (b : Byte),
    s.part = .run → (s.feed f).sync = .locked → (s.feed f).pos = 187 → (s.feed f).accepting = true →
    identifier ((s.feed f).buffer ++ [b]) = s.launch.pacingId → pacingOf ((s.feed f).buffer ++ [b]) = none →
    let counted : Feed :=
      { s.feed f with
        pos := 0, accepting := false, buffer := [], silence := 0
        counters :=
          { (s.feed f).counters with
            accepted := bump (s.feed f).counters.accepted
            pacingInvalid := bump (s.feed f).counters.pacingInvalid } }
    ((s.feed f).openCopy = none → exec (.packetArrival f b) s = .next (s.withFeed f counted)) ∧
    ∀ (place : Nat) (r : GroupRecord), (s.feed f).openCopy = some place → s.record place = some r →
      (r.arrivals + 1 < r.declared →
        exec (.packetArrival f b) s =
          .next ((s.withFeed f counted).withRecord place (some { r with arrivals := r.arrivals + 1 }))) ∧
      (r.declared ≤ r.arrivals + 1 → r.stored ≤ r.arrivals →
        exec (.packetArrival f b) s =
          .next (((s.withRecord place (some { r with arrivals := r.arrivals + 1, phase := .short })).withFeed f
            { counted with
              openCopy := none
              counters := { counted.counters with short := bump (s.feed f).counters.short } }).testSelector))

/-- When site time has reached a deadline, admission and skip are tested until neither is due (R42, R46). The better of the
closed copies of E, by the table of R41 and on a tie that of the preferred feed, is admitted under the first condition of R42
that holds, (a) to (e), and waits where none does: it is QUEUED at the tail of the launch queue, the other feed's copy is
superseded or abandoned, the active feed follows with FEED_SWITCH, its cues are handed over and counted, L becomes E, E moves
on, and the tests go on (R40, R43, R44, R45, R52, R53, R54), after the head decision (log entry 15). A copy of E held only
OPEN is waited for (R42). With no copy of E and a later one held, E is skipped where no feed can bring it or a later closed
copy is past its deadline: held copies not later than L are freed and counted out of reach, and E becomes the nearest remaining
number, the gap counted missing, with GROUP_MISSING; where none remains E stays (R46, R47). -/
def Obligations.SelectorSettles : Prop :=
  (∀ s : State, s.numbered = true → ∃ t, exec .deadlineReached s = .next t ∧ t.selectorDue = false) ∧
  (∀ (s : State) (e place : Nat) (r : GroupRecord), s.part = .run → s.sel.expected = some e →
    s.store.records = [(place, r)] → r.closed = true → r.group = e → r.due s.now = true →
    ∃ t, exec .deadlineReached s = .next t ∧ t.sel.expected = some ((e + 1) % 65536) ∧ t.sel.lastAdmitted = some e ∧
      t.sel.active = some r.feed ∧ t.feedA.sync = s.feedA.sync ∧ t.feedB.sync = s.feedB.sync ∧ s.siteKept t ∧
      s.rulesKept t) ∧
  (∀ (s : State) (e place : Nat) (r : GroupRecord), s.part = .run → s.sel.expected = some e → e < 65536 →
    s.store.records = [(place, r)] → r.phase = .opened → r.group < 65536 → seqLater r.group e = true →
    (∀ l, s.sel.lastAdmitted = some l → seqLater r.group l = true) → (∀ f, s.feedPast f e = true) →
    exec .deadlineReached s =
      .next ((s.withSel
        { s.sel with
          expected := some r.group
          counters :=
            { s.sel.counters with
              missing := bumpBy s.sel.counters.missing (seqGap r.group e), skips := bump s.sel.counters.skips } }).raise
        .groupMissing e (seqGap r.group e))) ∧
  (∀ (s : State) (e : Nat) (f : FeedId) (i : Nat) (r : GroupRecord), s.numbered = true → s.part = .run →
    s.sel.expected = some e → s.heldCopy f e = some (i, r) → r.closed = true →
    (∀ j q, s.heldCopy f.other e = some (j, q) → q.closed = true →
      r.ranksAbove q = true ∨ (q.ranksAbove r = false ∧ s.sel.preferred = f)) →
    (s.admitsBy e r = none → exec .deadlineReached s = .next s) ∧
    ∀ k, s.admitsBy e r = some k →
      ∃ v, exec .deadlineReached s = .next v.headDecision.testSelector ∧ s.admitted v e i r k) ∧
  (∀ (s : State) (e : Nat), s.sel.expected = some e → (∃ f, s.heldCopy f e ≠ none) →
    (∀ f i r, s.heldCopy f e = some (i, r) → r.closed = false) → exec .deadlineReached s = .next s) ∧
  ∀ (s : State) (e : Nat), s.numbered = true → s.part = .run → s.sel.expected = some e → e < 65536 →
    (∀ f, s.heldCopy f e = none) →
    let gap := fun n : Nat => (n + 65536 - e) % 65536
    let beyondL := fun n : Nat => match s.sel.lastAdmitted with | some l => seqLater n l | none => true
    let lost := (s.laterThan e).filter fun x => !beyondL x.2.group
    let rest := (s.laterThan e).filter fun x => beyondL x.2.group
    let due := s.laterThan e ≠ [] ∧
      ((∀ f, (s.feed f).sync = .locked → s.sel.mode.excludes f = false → (s.feed f).beyond e = true) ∨
        ∃ x ∈ s.laterThan e, x.2.closed = true ∧ x.2.pastDeadline s.now = true)
    let counters :=
      { s.sel.counters with outOfReach := lost.foldl (fun n _ => bump n) s.sel.counters.outOfReach }
    let freed : State → Prop := fun u =>
      u.store =
          ⟨lost.foldl (fun t x => t.set x.1 none) s.store.table,
            s.store.freeCells + (lost.map (·.2.cells.length)).sum⟩ ∧
        (∀ f, u.feed f =
          { s.feed f with
            openCopy := if ∃ x ∈ lost, (s.feed f).openCopy = some x.1 then none else (s.feed f).openCopy }) ∧
        u.launch = s.launch ∧ s.spliceKept u ∧ s.siteKept u ∧ s.rulesKept u
    (¬ due → exec .deadlineReached s = .next s) ∧
    (due → rest = [] →
      ∃ u, exec .deadlineReached s = .next u ∧ freed u ∧ u.sel = { s.sel with counters := counters } ∧
        u.station = s.station ∧ u.network = s.network) ∧
    ∀ x ∈ rest, due → (∀ y ∈ rest, gap x.2.group ≤ gap y.2.group) →
      ∃ u, exec .deadlineReached s = .next u.testSelector ∧ freed u ∧
        u.sel =
          { s.sel with
            expected := some x.2.group
            counters :=
              { counters with
                missing := bumpBy counters.missing (gap x.2.group), skips := bump counters.skips } } ∧
        ∀ p, u.port p = (s.port p).offer ⟨.groupMissing, e, gap x.2.group, s.now⟩

/-- SET FEED MODE stores the mode and the preferred feed; outside RUN, or without a change of mode, it does nothing more; a
change of mode in RUN leaves no held copy on a feed that the new mode excludes and the old one did not; values that are none
of the listed ones are refused BAD_VALUE (R50). That a feed is A 0, B 1 as an operand is the model's reading of R175 (log
entry 14). -/
def Obligations.FeedModeIsStored : Prop :=
  ∀ (s : State) (p : Port) (a b : Byte), s.open_ p → (s.paramLock = false ∨ p = .network) →
    (∀ mode preferred, feedModeOf a.toNat = some mode → feedOf b.toNat = some preferred →
      ((s.part ≠ .run ∨ mode = s.sel.mode) →
        exec (.setFeedMode p [a, b]) s =
          .next (((s.takes p [a, b]).withSel { s.sel with mode := mode, preferred := preferred }).respond p
            (.ok []))) ∧
      ∃ t, exec (.setFeedMode p [a, b]) s = .next t ∧ t.sel.mode = mode ∧ t.sel.preferred = preferred ∧
        s.siteKept t ∧ s.rulesKept t ∧
        (s.part = .run → ∀ i r, t.record i = some r → r.held = true → newlyExcluded s.sel.mode mode r.feed = false)) ∧
    ((3 ≤ a.toNat ∨ 2 ≤ b.toNat) →
      exec (.setFeedMode p [a, b]) s = .next (s.answers p [a, b] (.no .badValue)))

/-! ### Launching -/

/-- The outcomes of a head decision in their order: GATE_CLOSED, the reject reason, ON_TIME at R, SLIPPED at Q within the
tolerance, LATE; a start that is scheduled is never earlier than Q (R71). That the slip is 0 where R lies exactly 2^31 seconds
from Q is the model's choice (log entry 41). -/
def Obligations.HeadDecisionOrder : Prop :=
  ∀ (gate : Bool) (launched : Launched) (q : Time) (tolerance : Nat),
    (gate = false → headOutcome gate launched q tolerance = .inl .gateClosed) ∧
    (gate = true → ∀ why, launched = .rejected why → headOutcome gate launched q tolerance = .inl why.drop) ∧
    (gate = true → ∀ r, launched = .release r → reached r q = true →
      headOutcome gate launched q tolerance = .inr ⟨r, false, 0⟩) ∧
    (gate = true → ∀ r, launched = .release r → reached r q = false →
      headOutcome gate launched q tolerance =
        if (tdiff q r).toNat ≤ tolerance then .inr ⟨q, true, (tdiff q r).toNat⟩ else .inl .late) ∧
    (∀ x, headOutcome gate launched q tolerance = .inr x → reached x.start q = true ∧ x.slip ≤ tolerance)

/-- At the scheduled start with the gate open the head group leaves the queue and becomes the group in emission, with its end
tick and its count; with the gate closed it is dropped GATE_CLOSED, with its record, its count and its event, and the start
is withdrawn, and null fill goes on in the same gap with the first null whose start is not earlier than that instant; the head
decision that follows drops every group behind it in the same way (R69, R71, R72, R79). That there is no gap while a group is in
emission, and how the fill remembers that it has stopped, is the model's (log entry 10). -/
def Obligations.ScheduledStartStartsOrDrops : Prop :=
  ∀ (s : State) (x : Scheduled) (place : Nat) (rest : List Nat) (r : GroupRecord),
    s.part = .run → s.launch.nullEnd = none → s.launch.scheduled = some x → reached s.now x.start = true →
    s.sel.queue = place :: rest → s.record place = some r →
    (s.tb.gateOpen = true → ∃ t, exec .scheduledStart s = .next t ∧ t.sel = { s.sel with queue := rest } ∧
      t.record place = some { r with phase := .emitting } ∧ t.store.freeCells = s.store.freeCells ∧
      t.launch = { s.launch with
        emitting := some ⟨place, x.start, 0, r.cells.length⟩, scheduled := none
        lastEnd := some (tadd x.start (offset s.launch.pq r.cells.length)), gap := none, nullsStopped := false
        stats := if x.slipped then
            { s.launch.stats with
              slipped := bump s.launch.stats.slipped, largestSlip := max s.launch.stats.largestSlip x.slip }
          else { s.launch.stats with onTime := bump s.launch.stats.onTime } } ∧
      t.feedA = s.feedA ∧ t.feedB = s.feedB ∧ s.spliceKept t ∧ s.siteKept t ∧ s.rulesKept t ∧
      t.station = s.station ∧ t.network = s.network) ∧
    (s.tb.gateOpen = false → ∃ t, exec .scheduledStart s = .next t ∧ t.launch.emitting = s.launch.emitting ∧
      t.launch.scheduled = none ∧ t.record place = none ∧ t.launch.lastEnd = s.launch.lastEnd ∧
      t.launch.nullsStopped = (s.launch.nullsStopped && t.launch.gap.isNone) ∧
      (∀ g j, s.launch.gap = some (g, j) → 0 < s.launch.pq →
        ∃ k, t.launch.gap = some (g, k) ∧ j ≤ k ∧
          (tdiff s.now g).toNat ≤ offset s.launch.pq k ∧
          ∀ i, j ≤ i → i < k → offset s.launch.pq i < (tdiff s.now g).toNat) ∧
      (∃ dropped, rest = dropped ++ t.sel.queue) ∧
      (rest = [] →
        t.sel = { s.sel with queue := [] } ∧
        t.store = ⟨s.store.table.set place none, s.store.freeCells + r.cells.length⟩ ∧
        t.launch.stats = { s.launch.stats with gateClosed := bump s.launch.stats.gateClosed } ∧
        ∀ p, t.port p = (s.port p).offer ⟨.groupDropped, r.group, 3, s.now⟩) ∧
      (s.launch.emitting = none → (place :: rest).Nodup → (∀ q ∈ rest, s.record q ≠ none) →
        t.sel.queue = [] ∧ (∀ q ∈ rest, t.record q = none) ∧
        t.launch.stats =
          { s.launch.stats with
            gateClosed := (place :: rest).foldl (fun n _ => bump n) s.launch.stats.gateClosed }) ∧
      s.spliceKept t ∧ s.siteKept t ∧ s.rulesKept t)

/-- The start of a packet that is not the group's last: what goes out at its computed start is the null for the pacing
packet and for a stripped cue, and else what the Splice Engine makes of the cell's packet; its cell returns to the pool, and
the next packet is awaited (R72, R73, R74); the start of the last packet frees the record and ends the emission (R34). With no
break CUED or ON_AIR the packet goes out as it stands, and the slot of its identifier observes it (R99). The Splice Engine: at
a start that X is not later than, a CUED break goes on air with its guard offered as Y, or ends NO_AIR where Y is not later
either (R110); an ON_AIR break whose Y is not later than the start ends with the cause of its source and the packet stays
(R115); with a break ON_AIR on the slot of the packet, the first mapped packet of the lane takes its place, with the network
identifier of its entry and the continuity counter that follows the carry (R111, R112), its stamp rebased on the clock entry
(R113); unmapped packets before it are discarded and counted, and an empty lane gives a null, starved or filled, or the
return (R111). At a splice-out every standing window that covers the slot and ends later than the start offers its start, in
ascending index, each that becomes Y counted as a recall (R127). A packet sent while another is leaving is a late start that
waits behind it; the outputs carry valid and packet-start with the first byte, and neither where nothing is sent
(R68); the periods of a packet's bytes (log entry 5) and the site time of a break's event at a start that a slew has skipped (log
entry 39) are the model's. -/
def Obligations.PacketStartSends : Prop :=
  (∀ (s : State) (e : Emission) (r : GroupRecord) (p q : Packet) (rest : List Packet),
    s.part = .run → s.launch.emitting = some e →
    reached s.now (tadd e.start (offset s.launch.pq e.next)) = true →
    s.record e.place = some r → r.cells = p :: q :: rest →
    let start := tadd e.start (offset s.launch.pq e.next)
    let plain := if e.next = 0 ∨ s.launch.strip = true ∧ identifier p = s.launch.cueId then nullPacket else p
    ∃ t, exec .packetStart s = .next t ∧ t.launch.emitting = some { e with next := e.next + 1 } ∧
      t.record e.place = some { r with cells := q :: rest } ∧ t.store.freeCells = s.store.freeCells + 1 ∧
      t.sel = s.sel ∧ t.feedA = s.feedA ∧ t.feedB = s.feedB ∧ s.siteKept t ∧ s.rulesKept t ∧
      t.launch.lastEnd = s.launch.lastEnd ∧ t.launch.scheduled = s.launch.scheduled ∧
      t.launch.outputs = s.launch.outputs ++
        [⟨match (s.splicePacket start plain).2 with | .keep => plain | .put x => x, start, byteOutTime⟩] ∧
      t.lanes = (s.splicePacket start plain).1.lanes ∧ (∀ i, t.brk i = (s.splicePacket start plain).1.brk i) ∧
      ((∀ i, i < 32 → (s.brk i).live = false) →
        t.launch.outputs = s.launch.outputs ++ [⟨plain, start, byteOutTime⟩] ∧ t.lanes = s.lanes ∧
        (∀ i, t.brk i = s.brk i) ∧ t.windows = s.windows ∧ t.station = s.station ∧ t.network = s.network ∧
        (s.networkEntry (identifier plain) = none → t.splice = s.splice) ∧
        ∀ i k, s.networkEntry (identifier plain) = some (i, k) → i < s.splice.slots.length →
          t.slot i =
            { s.slot i with
              entries := (s.slot i).entries.modify k fun x => { x with carry := some (continuity plain) }
              observation :=
                if (s.slot i).clock = some k ∧ hasStamp plain = true then ⟨stampValue plain, start, true⟩
                else (s.slot i).observation } ∧
          ∀ j, j ≠ i → t.slot j = s.slot j)) ∧
  (∀ (s : State) (e : Emission) (r : GroupRecord) (p : Packet),
    s.part = .run → s.launch.emitting = some e →
    reached s.now (tadd e.start (offset s.launch.pq e.next)) = true →
    s.record e.place = some r → r.cells = [p] →
    let start := tadd e.start (offset s.launch.pq e.next)
    let plain := if e.next = 0 ∨ s.launch.strip = true ∧ identifier p = s.launch.cueId then nullPacket else p
    ∃ t, exec .packetStart s = .next t ∧ t.launch.emitting = none ∧ t.record e.place = none ∧
      t.launch.lastEnd = s.launch.lastEnd ∧ s.siteKept t ∧ s.rulesKept t ∧
      t.launch.outputs = s.launch.outputs ++
        [⟨match (s.splicePacket start plain).2 with | .keep => plain | .put x => x, start, byteOutTime⟩] ∧
      (s.sel.queue = [] → t.store.freeCells = s.store.freeCells + 1 ∧ t.sel = s.sel)) ∧
  (∀ (s : State) (start : Time) (p : Packet) (i lane : Nat),
    i < 32 → i < s.splice.breaks.length → lane < s.lanes.length → (s.brk i).lane = some lane →
    (∀ j, j < 32 → j ≠ i → (s.brk j).live = false) → s.networkEntry (identifier p) = none →
    let t := (s.splicePacket start p).1
    let guard := tadd start ((s.slot (s.brk i).slot).guard * 10000000)
    let offering := windowIndices.filter fun w =>
      (s.window w).standing && (s.window w).covers (s.brk i).slot && later (s.window w).stop start
    let onAir : BreakRecord :=
      { s.brk i with
        state := .onAir, aired := true, outTick := some start
        y := match (s.brk i).y with
          | none => some (guard, .guard)
          | some (y, src) => if earlier guard y then some (guard, .guard) else some (y, src) }
    let offeredBy : List Nat → BreakRecord :=
      fun ws => ws.foldl (fun b w => { b with y := b.offered (s.window w).start .window }) onAir
    (s.splicePacket start p).2 = .keep ∧
    (∀ x, (s.brk i).state = .cued → (s.brk i).x = some x → later x start = false →
      ((∃ y src, (s.brk i).y = some (y, src) ∧ later y start = false) → (s.brk i).aired = false →
        t.brk i = { s.brk i with state := .ended, cause := some .noAir, lane := none } ∧
        (t.lane lane).state = .free ∧ ∀ q, t.port q = (s.port q).offer ⟨.breakEnded, i, 11, s.now⟩) ∧
      (later guard start = true → (∀ y src, (s.brk i).y = some (y, src) → later y start = true) →
        (∀ w ∈ offering, later (s.window w).start start = true ∧ w < s.windows.length) →
        (offering = [] → t.brk i = onAir ∧ t.windows = s.windows) ∧
        t.brk i = offeredBy offering ∧
        (∀ w, t.window w =
          if w ∈ offering ∧ (offeredBy (offering.filter (· < w))).takesOffer (s.window w).start = true then
            { s.window w with recalled := bump16 (s.window w).recalled }
          else s.window w) ∧
        t.lane lane = { s.lane lane with state := .onAir } ∧
        ∀ q, t.port q = (s.port q).offer ⟨.breakOnAir, i, (s.brk i).slot, s.now⟩) ∧
      (∀ w, offering = [w] → reached start (s.window w).start = true → later guard start = true →
        (∀ y src, (s.brk i).y = some (y, src) → later y start = true) →
        earlier (s.window w).start (match onAir.y with | some (y, _) => y | none => 0) = true →
        t.brk i =
          { onAir with
            y := some ((s.window w).start, .window), state := .ended, cause := some .recalled, lane := none
            inTick := some start } ∧
        (t.lane lane).state = .free ∧
        ∀ q, t.port q =
          (s.port q).offers
            [⟨.breakOnAir, i, (s.brk i).slot, s.now⟩, ⟨.breakEnded, i, EndCause.recalled.code, s.now⟩])) ∧
    (∀ y src, (s.brk i).state = .onAir → (s.brk i).aired = true → (s.brk i).y = some (y, src) → later y start = false →
      t.brk i = { s.brk i with state := .ended, cause := some src.cause, lane := none, inTick := some start } ∧
      (t.lane lane).state = .free ∧ (t.lane lane).queue = [] ∧
      ∀ q, t.port q = (s.port q).offer ⟨.breakEnded, i, src.cause.code, s.now⟩)) ∧
  (∀ (s : State) (start : Time) (p : Packet) (slot entry i lane : Nat),
    i < 32 → i < s.splice.breaks.length → lane < s.lanes.length → (s.brk i).state = .onAir →
    (s.brk i).lane = some lane → (s.brk i).slot = slot → (s.lane lane).break_ = some i →
    (∀ j, j < 32 → j ≠ i → (s.brk j).live = false) → (∀ y src, (s.brk i).y = some (y, src) → later y start = true) →
    s.networkEntry (identifier p) = some (slot, entry) →
    let t := (s.splicePacket start p).1
    (∀ c rest k, (s.lane lane).queue = c :: rest → (s.slot slot).entryOfClip (identifier c) = some k →
      let e := (s.slot slot).entries.getD k ⟨0, 0, none⟩
      let q := withContinuity (withIdentifier c e.network)
        (match e.carry with
          | some n => if showsPayload c then (n + 1) % 16 else n
          | none => continuity c)
      (t.lane lane).queue = rest ∧ (t.lane lane).packetsTaken = (s.lane lane).packetsTaken + 1 ∧
      (t.brk i).substituted = bump (s.brk i).substituted ∧ (t.brk i).state = .onAir ∧ (t.brk i).y = (s.brk i).y ∧
      (((s.slot slot).clock ≠ some k ∨ hasStamp c = false ∨ (s.brk i).noBase = true) →
        (s.splicePacket start p).2 = .put q ∧ (t.brk i).base = (s.brk i).base ∧ (t.brk i).noBase = (s.brk i).noBase) ∧
      ((s.slot slot).clock = some k → hasStamp c = true → (s.brk i).noBase = false →
        (∀ b c0, (s.brk i).base = some (b, c0) →
          (s.splicePacket start p).2 = .put (withStamp q (rebased b c0 (stampValue q))) ∧
          (t.brk i).base = some (b, c0)) ∧
        ((s.brk i).base = none → (s.slot slot).observation.valid = false →
          (s.splicePacket start p).2 = .put q ∧ (t.brk i).noBase = true ∧ (t.brk i).base = none) ∧
        ((s.brk i).base = none → (s.slot slot).observation.valid = true →
          let b := stampBase (s.slot slot).observation.value (s.slot slot).observation.tick start
          (s.splicePacket start p).2 = .put (withStamp q b) ∧ (t.brk i).base = some (b, stampValue q)))) ∧
    (∀ c rest, (s.lane lane).queue = c :: rest → (s.slot slot).entryOfClip (identifier c) = none →
      let u := s.takePacket lane
      (u.lane lane).queue = rest ∧ (u.lane lane).packetsTaken = (s.lane lane).packetsTaken + 1 ∧
      s.splicePacket start p =
        (u.withBreak i { u.brk i with unmapped := bump (s.brk i).unmapped }).splicePacket start p) ∧
    ((s.lane lane).queue = [] →
      ((s.lane lane).clipEnd = false →
        (s.splicePacket start p).2 = .put nullPacket ∧
        t.brk i = { s.brk i with starved := bump (s.brk i).starved }) ∧
      ((s.lane lane).clipEnd = true → (s.brk i).exhaust = .fill →
        (s.splicePacket start p).2 = .put nullPacket ∧ t.brk i = { s.brk i with filled := bump (s.brk i).filled }) ∧
      ((s.lane lane).clipEnd = true → (s.brk i).exhaust = .ret → (s.brk i).aired = true →
        (s.splicePacket start p).2 = .keep ∧
        t.brk i =
          { s.brk i with
            state := .ended, cause := some .clipEnd, lane := none, inTick := some start
            y := some (start, .clipEnd) }))) ∧
  (∀ (l : Launch) (p : Packet) (start : Time),
    (l.send p start).outputs = l.outputs ++ [⟨p, start, byteOutTime⟩] ∧
    (l.send p start).stats.lateStarts = if l.outputs = [] then l.stats.lateStarts else bump l.stats.lateStarts) ∧
  ∀ (s : State) (pos : Position),
    (s.launch.outputs = [] →
      (s.exciterOutput pos).valid = false ∧ (s.exciterOutput pos).packetStart = false ∧
      ∀ p start,
        (s.withLaunch (s.launch.send p start)).exciterOutput pos = ⟨p.getD 0 0, true, true⟩) ∧
    ∀ x rest, s.launch.outputs = x :: rest →
      (s.exciterOutput pos).valid = true ∧ s.exciterOutput .main = s.exciterOutput .reserve ∧
      s.period.launch.outputs = if x.left ≤ 1 then rest else { x with left := x.left - 1 } :: rest

/-- Null fill: a null whose slot ends by the scheduled start is emitted, one whose slot does not stops the fill, a slot's
end moves the index on, and the end tick of a group opens the next gap (R69, R72). How the fill remembers that it has
stopped, and its index, is the model's (log entry 10). -/
def Obligations.NullFill : Prop :=
  ∀ (s : State) (g : Time) (j : Nat), s.part = .run → s.launch.emitting = none →
    (s.launch.gap = some (g, j) → s.launch.nullEnd = none → s.launch.nullsStopped = false →
      reached s.now (tadd g (offset s.launch.pq j)) = true →
      ((∀ x, s.launch.scheduled = some x → later (tadd g (offset s.launch.pq (j + 1))) x.start = false) →
        exec .nullStart s =
          .next (s.withLaunch
            { s.launch.send nullPacket (tadd g (offset s.launch.pq j)) with
              nullEnd := some (tadd g (offset s.launch.pq (j + 1))) })) ∧
      (∀ x, s.launch.scheduled = some x → later (tadd g (offset s.launch.pq (j + 1))) x.start = true →
        exec .nullStart s = .next (s.withLaunch { s.launch with nullsStopped := true }))) ∧
    (∀ stop, s.launch.nullEnd = some stop → reached s.now stop = true → s.launch.gap = some (g, j) →
      exec .nullSlotEnd s = .next (s.withLaunch { s.launch with nullEnd := none, gap := some (g, j + 1) })) ∧
    (s.launch.lastEnd = some g → s.launch.gap = none → reached s.now g = true →
      exec .groupEndTick s = .next (s.withLaunch { s.launch with gap := some (g, 0), nullsStopped := false }))

/-! ### Clip memory, play lists, lanes -/

/-- A clip command that passes its checks becomes the port's command in progress and waits for clip memory. Its checks in
their order: a parameter length that does not agree with the count is refused BAD_LENGTH; a count outside 1..16, or a run past
the last slot, BAD_VALUE; a CLIP WRITE with a packet that does not begin with 0x47 BAD_VALUE, and one that meets the active
span of a lane IN_USE (R84, R86). A length over 3,072 never reaches these checks (R159). -/
def Obligations.ClipCommandsAreTaken : Prop :=
  ∀ (s : State) (p : Port), s.open_ p →
    (∀ params : List Byte,
      (params.length ≠ 4 → exec (.clipRead p params) s = .next (s.answers p params (.no .badLength))) ∧
      (params.length = 4 →
        (byteAt params 3 = 0 ∨ 16 < byteAt params 3 ∨ 2097152 < field params 0 3 + byteAt params 3 →
          exec (.clipRead p params) s = .next (s.answers p params (.no .badValue))) ∧
        (1 ≤ byteAt params 3 → byteAt params 3 ≤ 16 → field params 0 3 + byteAt params 3 ≤ 2097152 →
          exec (.clipRead p params) s =
            .next ((s.takes p params).withPort p
              { (s.takes p params).port p with
                inProgress := some (.clip ⟨false, field params 0 3, byteAt params 3, field params 0 3, []⟩)
              }).arbitrate))) ∧
    ∀ params : List Byte,
      (params.length ≠ 4 + 188 * byteAt params 3 ∨ 3072 < params.length →
        exec (.clipWrite p params) s = .next (s.answers p params (.no .badLength))) ∧
      (params.length = 4 + 188 * byteAt params 3 → params.length ≤ 3072 →
        (byteAt params 3 = 0 ∨ 16 < byteAt params 3 ∨ 2097152 < field params 0 3 + byteAt params 3 →
          exec (.clipWrite p params) s = .next (s.answers p params (.no .badValue))) ∧
        (1 ≤ byteAt params 3 → byteAt params 3 ≤ 16 → field params 0 3 + byteAt params 3 ≤ 2097152 →
          ((∃ q ∈ packetsOf params, q.head? ≠ some 0x47) →
            exec (.clipWrite p params) s = .next (s.answers p params (.no .badValue))) ∧
          ((∀ q ∈ packetsOf params, q.head? = some 0x47) →
            (s.meetsSpan (field params 0 3) (byteAt params 3) = false →
              exec (.clipWrite p params) s =
                .next ((s.takes p params).withPort p
                  { (s.takes p params).port p with
                    inProgress :=
                      some (.clip ⟨true, field params 0 3, byteAt params 3, field params 0 3, packetsOf params⟩)
                  }).arbitrate) ∧
            (s.meetsSpan (field params 0 3) (byteAt params 3) = true →
              exec (.clipWrite p params) s = .next (s.answers p params (.no .inUse))))))

/-- One slot of a clip write is written whole and every other slot keeps what it held; the last slot completes the command
with OK (R85, R83). One slot of a clip read is read whole and clip memory does not change; the last slot completes the
command with the count and the packets in slot order (R86). -/
def Obligations.ClipSlotsAreServed : Prop :=
  (∀ (s : State) (p : Port) (slot : Nat) (packet : Packet) (c : ClipCommand),
    s.clip.service = some (.write p slot packet false) → (s.port p).inProgress = some (.clip c) →
    ∃ t, exec (.clipWriteSlot p) s = .next t ∧ t.clip.readSlot slot = packet ∧
      (∀ a, a ≠ slot → t.clip.readSlot a = s.clip.readSlot a) ∧ t.clip.playLists = s.clip.playLists ∧
      (c.first + c.count ≤ c.next + 1 →
        (t.port p).inProgress = none ∧
        ∃ r, (t.port p).response = some r ∧ r.code = .ok ∧ r.data = [] ∧ r.overrun = (s.port p).overrun) ∧
      (c.next + 1 < c.first + c.count →
        (t.port p).inProgress = some (.clip { c with next := c.next + 1, packets := c.packets.tail }) ∧
        (t.port p).response = (s.port p).response) ∧
      t.lanes = s.lanes ∧ t.port p.other = s.port p.other ∧ t.splice = s.splice ∧ t.windows = s.windows ∧
      s.intakeKept t ∧ s.siteKept t ∧ s.rulesKept t) ∧
  ∀ (s : State) (p : Port) (slot : Nat) (c : ClipCommand),
    s.clip.service = some (.read p slot false) → (s.port p).inProgress = some (.clip c) →
    ∃ t, exec (.clipReadSlot p) s = .next t ∧ (∀ a, t.clip.readSlot a = s.clip.readSlot a) ∧
      t.clip.playLists = s.clip.playLists ∧
      (c.first + c.count ≤ c.next + 1 →
        (t.port p).inProgress = none ∧
        ∃ r, (t.port p).response = some r ∧ r.code = .ok ∧
          r.data = be 1 (c.packets.length + 1) ++ (c.packets ++ [s.clip.readSlot slot]).flatten) ∧
      (c.next + 1 < c.first + c.count →
        (t.port p).inProgress =
          some (.clip { c with next := c.next + 1, packets := c.packets ++ [s.clip.readSlot slot] })) ∧
      t.lanes = s.lanes ∧ t.port p.other = s.port p.other ∧ t.splice = s.splice ∧ t.windows = s.windows ∧
      s.intakeKept t ∧ s.siteKept t ∧ s.rulesKept t

/-- A lane's read: counted; a packet that begins with 0x47 joins the tail of the queue, any other is a bad slot; the read
position moves on; a read whose lane has been released changes no count (R92, R94). Clip end is set, and the clip status of the
lane's break becomes EXHAUSTED, at a last read that leaves the queue empty and at the removal of the last queued packet after the
last read (R93, R106). -/
def Obligations.LaneReads : Prop :=
  (∀ (s : State) (lane : Fin 4) (slot : Nat), lane.val < s.lanes.length →
    (s.clip.service = some (.lane lane.val slot false) → ∃ t, exec (.laneReadDone lane) s = .next t ∧
      (t.lane lane.val).packetsRead = (s.lane lane.val).packetsRead + 1 ∧
      ((s.clip.readSlot slot).head? = some 0x47 →
        (t.lane lane.val).queue = (s.lane lane.val).queue ++ [s.clip.readSlot slot] ∧
        (t.lane lane.val).badSlots = (s.lane lane.val).badSlots) ∧
      ((s.clip.readSlot slot).head? ≠ some 0x47 →
        (t.lane lane.val).queue = (s.lane lane.val).queue ∧
        (t.lane lane.val).badSlots = (s.lane lane.val).badSlots + 1) ∧
      (t.lane lane.val).packetsTaken = (s.lane lane.val).packetsTaken ∧
      (∀ seg pkt list g, (s.lane lane.val).position = some (seg, pkt) → (s.lane lane.val).playList = some list →
        (s.playList list)[seg]? = some g →
        (t.lane lane.val).position =
          if pkt + 1 < g.count then some (seg, pkt + 1)
          else if seg + 1 < (s.playList list).length then some (seg + 1, 0) else none) ∧
      (∀ i, (s.lane lane.val).state ≠ .free → (s.lane lane.val).break_ = some i → i < s.splice.breaks.length →
        let ended := decide ((t.lane lane.val).position = none ∧ (t.lane lane.val).queue = [])
        (t.lane lane.val).clipEnd = ((s.lane lane.val).clipEnd || ended) ∧
        t.brk i =
          { s.brk i with exhausted := (s.brk i).exhausted || (ended && !(s.lane lane.val).clipEnd) } ∧
        ∀ j, j ≠ i → t.brk j = s.brk j) ∧
      (∀ j, j ≠ lane.val → t.lane j = s.lane j) ∧ (∀ a, t.clip.readSlot a = s.clip.readSlot a) ∧
      t.clip.playLists = s.clip.playLists ∧ t.station = s.station ∧ t.network = s.network ∧ t.windows = s.windows ∧
      s.intakeKept t ∧ s.siteKept t ∧ s.rulesKept t) ∧
    (s.clip.service = some (.lane lane.val slot true) → ∃ t, exec (.laneReadDone lane) s = .next t ∧
      t.lanes = s.lanes ∧ t.splice = s.splice ∧ t.windows = s.windows ∧ s.intakeKept t ∧ s.siteKept t ∧
      s.rulesKept t)) ∧
  ∀ (s : State) (lane i : Nat), lane < s.lanes.length → (s.lane lane).state ≠ .free → (s.lane lane).break_ = some i →
    i < s.splice.breaks.length →
    let t := s.takePacket lane
    let ended := decide ((s.lane lane).position = none ∧ (s.lane lane).queue.tail = [])
    t.lane lane =
      { s.lane lane with
        queue := (s.lane lane).queue.tail, packetsTaken := (s.lane lane).packetsTaken + 1
        clipEnd := (s.lane lane).clipEnd || ended } ∧
    t.brk i = { s.brk i with exhausted := (s.brk i).exhausted || (ended && !(s.lane lane).clipEnd) } ∧
    (∀ j, j ≠ i → t.brk j = s.brk j) ∧ ∀ l, l ≠ lane → t.lane l = s.lane l

/-- A play list is replaced whole, or emptied, unless it is in use (R89, R90). A slot is defined with its
entries, clock entry and clamped guard, keeping the carries of its identifiers and making the observation not valid, or
cleared; either is refused IN_USE while a break names the slot, and each of the four commands is refused BAD_VALUE for values out
of its ranges (R89, R90, R97, R98). The layouts are those of R175; that the value byte of an absent clock entry is not looked at
is the model's choice (log entry 14), and so are the guard and the observation of a cleared slot (log entry 28). -/
def Obligations.PlayListAndSlotCommands : Prop :=
  (∀ (s : State) (p : Port), s.open_ p →
    (∀ params : List Byte, params.length = 2 + 5 * byteAt params 1 → byteAt params 0 < 32 → 1 ≤ byteAt params 1 →
      byteAt params 1 ≤ 16 →
      (∀ g ∈ segmentsOf params, 1 ≤ g.count ∧ g.count ≤ 65535 ∧ g.first + g.count ≤ 2097152) →
      (s.listUser (byteAt params 0) = none →
        exec (.playListWrite p params) s =
          .next (((s.takes p params).withPlayList (byteAt params 0) (segmentsOf params)).respond p (.ok []))) ∧
      (s.listUser (byteAt params 0) ≠ none →
        exec (.playListWrite p params) s = .next (s.answers p params (.no .inUse)))) ∧
    (∀ params : List Byte, params.length = 2 + 5 * byteAt params 1 →
      (32 ≤ byteAt params 0 ∨ byteAt params 1 < 1 ∨ 16 < byteAt params 1 ∨
        ∃ g ∈ segmentsOf params, g.count < 1 ∨ 2097152 < g.first + g.count) →
      exec (.playListWrite p params) s = .next (s.answers p params (.no .badValue))) ∧
    (∀ b : Byte, 32 ≤ b.toNat → exec (.playListClear p [b]) s = .next (s.answers p [b] (.no .badValue))) ∧
    (∀ b : Byte, b.toNat < 32 →
      (s.listUser b.toNat = none →
        exec (.playListClear p [b]) s = .next (((s.takes p [b]).withPlayList b.toNat []).respond p (.ok []))) ∧
      (s.listUser b.toNat ≠ none →
        exec (.playListClear p [b]) s = .next (s.answers p [b] (.no .inUse))))) ∧
  ∀ (s : State) (p : Port), s.open_ p → (s.paramLock = false ∨ p = .network) →
    (∀ (params : List Byte) (clock : Option Nat), params.length = 6 + 4 * byteAt params 1 → params.length ≤ 3072 →
      optionalOf params (2 + 4 * byteAt params 1) 1 = some clock →
      s.badSlot (byteAt params 0) (slotPairs params) clock = false →
      (s.slotInUse (byteAt params 0) = false →
        exec (.defineSlot p params) s =
          .next (((s.takes p params).withSlot (byteAt params 0)
            { defined := true
              entries := (slotPairs params).map fun (n, c) => ⟨n, c, (s.slot (byteAt params 0)).carryOf n⟩
              clock := clock
              guard := max 1 (min 3600 (field params (4 + 4 * byteAt params 1) 2))
              observation := { (s.slot (byteAt params 0)).observation with valid := false } }).respond p
            ⟨.ok, decide (field params (4 + 4 * byteAt params 1) 2 < 1 ∨
              3600 < field params (4 + 4 * byteAt params 1) 2), []⟩)) ∧
      (s.slotInUse (byteAt params 0) = true →
        exec (.defineSlot p params) s = .next (s.answers p params (.no .inUse)))) ∧
    (∀ params : List Byte, params.length = 6 + 4 * byteAt params 1 →
      let pairs := slotPairs params
      let clock := 2 + 4 * byteAt params 1
      (8 ≤ byteAt params 0 ∨ byteAt params 1 < 1 ∨ 4 < byteAt params 1 ∨ 1 < byteAt params clock ∨
        (byteAt params clock = 1 ∧ byteAt params 1 ≤ byteAt params (clock + 1)) ∨ ¬ (pairs.map (·.1)).Nodup ∨
        ¬ (pairs.map (·.2)).Nodup ∨
        ∃ e ∈ pairs,
          8190 < e.1 ∨ 8190 < e.2 ∨ e.1 = s.launch.pacingId ∨ e.1 = s.launch.cueId ∨
            ∃ i, i < 8 ∧ i ≠ byteAt params 0 ∧ (s.slot i).defined = true ∧ ∃ x ∈ (s.slot i).entries, x.network = e.1) →
      exec (.defineSlot p params) s = .next (s.answers p params (.no .badValue))) ∧
    (∀ b : Byte, 8 ≤ b.toNat → exec (.clearSlot p [b]) s = .next (s.answers p [b] (.no .badValue))) ∧
    (∀ b : Byte, b.toNat < 8 →
      (s.slotInUse b.toNat = false →
        exec (.clearSlot p [b]) s = .next (((s.takes p [b]).withSlot b.toNat .reset).respond p (.ok []))) ∧
      (s.slotInUse b.toNat = true → exec (.clearSlot p [b]) s = .next (s.answers p [b] (.no .inUse))))

/-! ### Slots, breaks, windows -/

/-- CREATE BREAK fills the lowest FREE record as LOADED, owned by the sending port, and returns its index; MODIFY BREAK
replaces the fields of a LOADED break; a full table is refused TABLE_FULL, an undefined slot WRONG_STATE, a length that is
not that of the trigger's kind BAD_LENGTH, and a value out of its range BAD_VALUE (R100, R102). The layout is that of R175;
that the value bytes of an absent length are not looked at is the model's choice (log entry 14). -/
def Obligations.BreaksAreMade : Prop :=
  (∀ (s : State) (p : Port) (params : List Byte) (b : BreakFields), s.open_ p → params.length ≤ 3071 →
    breakFits params = true → breakOf params = some b →
    ((s.slot b.slot).defined = false →
      exec (.createBreak p params) s = .next (s.answers p params (.no .wrongState)) ∧
      ∀ i : Byte, i.toNat < 32 → (s.brk i.toNat).state = .loaded → (s.brk i.toNat).owner = p →
        exec (.modifyBreak p (i :: params)) s = .next (s.answers p (i :: params) (.no .wrongState))) ∧
    ((s.slot b.slot).defined = true →
      (s.freeBreak = none → exec (.createBreak p params) s = .next (s.answers p params (.no .tableFull))) ∧
      (∀ i, s.freeBreak = some i →
        exec (.createBreak p params) s =
          .next (((s.takes p params).withBreak i
            { BreakRecord.empty with
              state := .loaded, owner := p, slot := b.slot, playList := b.playList, trigger := b.trigger
              lead := b.lead, length := b.length, exhaust := b.exhaust }).respond p (.ok (be 1 i)))) ∧
      (∀ i : Byte, i.toNat < 32 → (s.brk i.toNat).state = .loaded → (s.brk i.toNat).owner = p →
        exec (.modifyBreak p (i :: params)) s =
          .next (((s.takes p (i :: params)).withBreak i.toNat
            { s.brk i.toNat with
              slot := b.slot, playList := b.playList, trigger := b.trigger, lead := b.lead, length := b.length
              exhaust := b.exhaust }).respond p (.ok []))))) ∧
  (∀ (s : State) (p : Port) (params : List Byte), s.open_ p → breakFits params = false →
    exec (.createBreak p params) s = .next (s.answers p params (.no .badLength)) ∧
    exec (.modifyBreak p []) s = .next (s.answers p [] (.no .badLength)) ∧
    ∀ i : Byte, i.toNat < 32 → (s.brk i.toNat).state ≠ .free → (s.brk i.toNat).owner = p →
      exec (.modifyBreak p (i :: params)) s = .next (s.answers p (i :: params) (.no .badLength))) ∧
  ∀ (s : State) (p : Port) (params : List Byte), s.open_ p → params.length ≤ 3071 → breakFits params = true →
    (8 ≤ byteAt params 0 ∨ 32 ≤ byteAt params 1 ∨ 3 < byteAt params 2 ∨
      (byteAt params 2 = 1 ∧ 9999999 < field params 7 4) ∨
      (byteAt params 2 = 2 ∧ (12 ≤ byteAt params 3 ∨ 1 < byteAt params 4)) ∨
      ∃ n, triggerSize (byteAt params 2) = some n ∧
        (100000000 < field params (3 + n) 4 ∨ 1 < byteAt params (7 + n) ∨
          (byteAt params (7 + n) = 1 ∧ (field params (8 + n) 5 < 1 ∨ 36000000000 < field params (8 + n) 5)) ∨
          1 < byteAt params (13 + n))) →
    exec (.createBreak p params) s = .next (s.answers p params (.no .badValue)) ∧
    ∀ i : Byte, i.toNat < 32 → (s.brk i.toNat).state ≠ .free → (s.brk i.toNat).owner = p →
      exec (.modifyBreak p (i :: params)) s = .next (s.answers p (i :: params) (.no .badValue))

/-- ARM, DISARM, CANCEL and CLEAR BREAK move a break between its states: ARM of a TIME break that is due in RUN fires it at
once, and a LOADED, WAITING or CUED break that is cancelled ends CANCELLED, its lane released; each is refused WRONG_STATE
in every other state, and MODIFY BREAK outside LOADED (R94, R102 to R107). The network port gives CANCEL and CLEAR BREAK to
any break. On a break that the port may not command they and MODIFY BREAK are refused NOT_OWNER; an index out of range is
refused BAD_VALUE and a FREE record WRONG_STATE before that, all before the checks of MODIFY BREAK on its other parameters
(R101, R102). That X, Y and lane stay absent where a check at trigger fails is the model's reading (log entry 21), and the
values of a cleared record are its choice (log entry 28). -/
def Obligations.BreakStateCommands : Prop :=
  (∀ (s : State) (p : Port) (i : Byte), s.open_ p → i.toNat < 32 → (s.brk i.toNat).state ≠ .free →
    ((s.brk i.toNat).owner = p →
      ((s.brk i.toNat).state = .loaded →
        (s.part ≠ .run ∨ ∀ t, (s.brk i.toNat).trigger = .time t → reached s.now t = false) →
        exec (.arm p [i]) s =
          .next (((s.takes p [i]).withBreak i.toNat { s.brk i.toNat with state := .waiting }).respond p (.ok []))) ∧
      (∀ at_, (s.brk i.toNat).state = .loaded → s.part = .run → (s.brk i.toNat).trigger = .time at_ →
        reached s.now at_ = true → i.toNat < s.splice.breaks.length → (s.brk i.toNat).lane = none →
        let armed := (s.takes p [i]).withBreak i.toNat { s.brk i.toNat with state := .waiting }
        ∃ u, exec (.arm p [i]) s = .next (u.respond p (.ok [])) ∧ armed.triggered u i.toNat at_ none ∧
          u.lines = s.lines) ∧
      ((s.brk i.toNat).state = .waiting →
        exec (.disarm p [i]) s =
          .next (((s.takes p [i]).withBreak i.toNat { s.brk i.toNat with state := .loaded }).respond p (.ok []))) ∧
      ((s.brk i.toNat).state ≠ .loaded →
        exec (.arm p [i]) s = .next (s.answers p [i] (.no .wrongState)) ∧
        ∀ (params : List Byte) (x : BreakFields), params.length ≤ 3071 → breakFits params = true →
          breakOf params = some x →
          exec (.modifyBreak p (i :: params)) s = .next (s.answers p (i :: params) (.no .wrongState))) ∧
      ((s.brk i.toNat).state ≠ .waiting → exec (.disarm p [i]) s = .next (s.answers p [i] (.no .wrongState))) ∧
      ((s.brk i.toNat).state ≠ .waiting ∨ (s.brk i.toNat).trigger ≠ .manual ∨ s.part ≠ .run →
        exec (.trigger p [i]) s = .next (s.answers p [i] (.no .wrongState)))) ∧
    ((s.brk i.toNat).owner = p ∨ p = .network →
      ((s.brk i.toNat).state = .ended →
        exec (.clearBreak p [i]) s = .next (((s.takes p [i]).withBreak i.toNat .empty).respond p (.ok []))) ∧
      ((s.brk i.toNat).state = .onAir →
        exec (.cancel p [i]) s =
          .next (((s.takes p [i]).withBreak i.toNat
            { s.brk i.toNat with
              y := match (s.brk i.toNat).y with
                | none => some (s.now, .cancel)
                | some (y, src) => if earlier s.now y then some (s.now, .cancel) else some (y, src) }).respond p
            (.ok []))) ∧
      ((s.brk i.toNat).state = .loaded ∨ (s.brk i.toNat).state = .waiting ∨ (s.brk i.toNat).state = .cued →
        i.toNat < s.splice.breaks.length →
        ∃ t, exec (.cancel p [i]) s = .next t ∧ t.brk i.toNat = (s.brk i.toNat).endedWith .cancelled s.now ∧
          ((s.brk i.toNat).lane = none → t.lanes = s.lanes) ∧ s.laneReleased t i.toNat ∧
          (∀ l, (s.brk i.toNat).lane ≠ some l → t.lane l = s.lane l) ∧
          t.port p.other = (s.port p.other).offer ⟨.breakEnded, i.toNat, 3, s.now⟩ ∧
          (∀ j, j ≠ i.toNat → t.brk j = s.brk j) ∧ t.windows = s.windows ∧ s.intakeKept t ∧
          s.siteKept t ∧ s.rulesKept t) ∧
      ((s.brk i.toNat).state ≠ .ended →
        exec (.clearBreak p [i]) s = .next (s.answers p [i] (.no .wrongState))) ∧
      ((s.brk i.toNat).state = .ended → exec (.cancel p [i]) s = .next (s.answers p [i] (.no .wrongState))))) ∧
  ∀ (s : State) (p : Port) (i : Byte), s.open_ p →
    (32 ≤ i.toNat →
      (∀ c ∈ [Instr.arm p [i], .disarm p [i], .trigger p [i], .cancel p [i], .clearBreak p [i]],
        exec c s = .next (s.answers p [i] (.no .badValue))) ∧
      ∀ params : List Byte, params.length ≤ 3071 →
        exec (.modifyBreak p (i :: params)) s = .next (s.answers p (i :: params) (.no .badValue))) ∧
    (i.toNat < 32 → (s.brk i.toNat).state = .free →
      (∀ c ∈ [Instr.arm p [i], .disarm p [i], .trigger p [i], .cancel p [i], .clearBreak p [i]],
        exec c s = .next (s.answers p [i] (.no .wrongState))) ∧
      ∀ params : List Byte, params.length ≤ 3071 →
        exec (.modifyBreak p (i :: params)) s = .next (s.answers p (i :: params) (.no .wrongState))) ∧
    (i.toNat < 32 → (s.brk i.toNat).state ≠ .free → (s.brk i.toNat).owner ≠ p →
      (∀ c ∈ [Instr.arm p [i], .disarm p [i], .trigger p [i]],
        exec c s = .next (s.answers p [i] (.no .notOwner))) ∧
      (∀ params : List Byte, params.length ≤ 3071 →
        exec (.modifyBreak p (i :: params)) s = .next (s.answers p (i :: params) (.no .notOwner))) ∧
      (p = .station → ∀ c ∈ [Instr.cancel p [i], .clearBreak p [i]],
        exec c s = .next (s.answers p [i] (.no .notOwner))))

/-- A trigger whose checks all pass makes the break CUED with the lowest FREE lane bound to it and X as the trigger gives it:
TRIGGER the command instant plus the lead, a TIME trigger its own instant; Y is X plus the length (R107, R108, R91). A due
TIME trigger, an accepted edge of its line with X that instant plus the lead, and an OUT cue with its instant and its
duration fire a break, and the checks decide in their order: it ends with the cause of the first that fails, or becomes CUED
(R107, R108, R117). A cue without an instant, an immediate one of a rejected copy, counts without instant; one that no break
of its number is in a state for counts ignored; any other counts applied: an IN cue offers its instant as Y and ends a CUED
break NO_AIR where Y is not later than X; a CANCEL cue ends a WAITING or CUED break CANCELLED and offers its admission to an
ON_AIR one (R114, R116 to R120). That X, Y and lane stay absent where a check fails, and X where a duration of 0 ends the break
NO_AIR, is the model's reading of R106 and R108 (log entry 21). -/
def Obligations.TriggersCue : Prop :=
  (∀ (s : State) (i : Fin 32) (lane : Nat),
    s.part = .run → (s.brk i.val).state = .waiting → i.val < s.splice.breaks.length → lane < s.lanes.length →
    s.playList (s.brk i.val).playList ≠ [] → s.liveBreak (s.brk i.val).slot = none → s.freeLane = some lane →
    (∀ n, (s.brk i.val).length = some n → 1 ≤ n ∧ n ≤ 36000000000) →
    (∀ p, s.open_ p → (s.brk i.val).owner = p → (s.brk i.val).trigger = .manual → (s.brk i.val).lead ≤ 100000000 →
      s.blockingWindow (s.brk i.val).slot (tadd s.now (s.brk i.val).lead) = none →
      ∃ t, exec (.trigger p [BitVec.ofNat 8 i.val]) s = .next t ∧
        (t.brk i.val).state = .cued ∧ (t.brk i.val).x = some (tadd s.now (s.brk i.val).lead) ∧
        (t.brk i.val).lane = some lane ∧
        (t.brk i.val).y = (s.brk i.val).length.map (fun n => (tadd (tadd s.now (s.brk i.val).lead) n, .length)) ∧
        (t.lane lane).state = .preroll ∧ (t.lane lane).break_ = some i.val ∧
        (t.lane lane).playList = some (s.brk i.val).playList ∧ (t.lane lane).position = some (0, 0) ∧
        (∀ j, j ≠ i.val → t.brk j = s.brk j) ∧ (∀ l, l ≠ lane → t.lane l = s.lane l) ∧ t.windows = s.windows ∧
        t.splice.slots = s.splice.slots ∧ s.intakeKept t ∧ s.siteKept t ∧ s.rulesKept t) ∧
    (∀ at_, (s.brk i.val).trigger = .time at_ → reached s.now at_ = true → tdiff s.now at_ ≤ 10000000 →
      s.blockingWindow (s.brk i.val).slot at_ = none →
      ∃ t, exec (.timeTriggerDue i) s = .next t ∧
        (t.brk i.val).state = .cued ∧ (t.brk i.val).x = some at_ ∧ (t.brk i.val).lane = some lane ∧
        (t.lane lane).state = .preroll ∧ (t.lane lane).break_ = some i.val ∧
        (∀ j, j ≠ i.val → t.brk j = s.brk j) ∧ (∀ l, l ≠ lane → t.lane l = s.lane l) ∧ t.windows = s.windows ∧
        t.splice.slots = s.splice.slots ∧ s.intakeKept t ∧ s.siteKept t ∧ s.rulesKept t)) ∧
  (∀ (s : State) (i : Fin 32),
    s.part = .run → (s.brk i.val).state = .waiting → i.val < s.splice.breaks.length → (s.brk i.val).lane = none →
    (∀ at_, (s.brk i.val).trigger = .time at_ → reached s.now at_ = true →
      ∃ t, exec (.timeTriggerDue i) s = .next t ∧ s.triggered t i.val at_ none ∧ t.lines = s.lines) ∧
    (∀ (line : Fin 12) (polarity : Polarity) (n : Nat), (s.brk i.val).trigger = .line line.val polarity →
      (s.line line.val).output = false → (s.line line.val).function = .trigger →
      (s.line line.val).pendingChange = some n → 100000 ≤ n →
      (polarity = .rise ↔ ((s.line line.val).pin = .high ↔ (s.line line.val).invert = false)) →
      (∀ j, j < 32 → j ≠ i.val → (s.brk j).state = .waiting → (s.brk j).trigger ≠ .line line.val polarity) →
      ∃ t, exec (.lineEdgeAccepted line) s = .next t ∧
        s.triggered t i.val (tadd s.now (s.brk i.val).lead) none) ∧
    ∀ (c : Cue) (index : Nat) (launched : Launched) (at_ : Time),
      (s.brk i.val).trigger = .cue c.number → c.kind = .out →
      cueInstant c s.now s.launch.advance s.launch.pq index launched = some at_ →
      (∀ j, j < 32 → j ≠ i.val → (s.brk j).state = .waiting → (s.brk j).trigger ≠ .cue c.number) →
      s.triggered (s.handCue c index launched) i.val at_ c.duration) ∧
  ∀ (s : State) (c : Cue) (index : Nat) (launched : Launched),
    (c.air = none → (∃ why, launched = .rejected why) →
      s.handCue c index launched =
        s.withSplice { s.splice with cuesWithoutInstant := bump s.splice.cuesWithoutInstant }) ∧
    ∀ at_,
      ((∃ r, c.air = none ∧ launched = .release r ∧ at_ = tadd r (offset s.launch.pq index)) ∨
        ∃ second tick, c.air = some (second, tick) ∧
          at_ = tsub (instant (fullSecond (s.now / 10000000) second) tick) s.launch.advance) →
      let t := s.handCue c index launched
      ((∀ i, i < 32 → (s.brk i).trigger = .cue c.number → c.kind.applies (s.brk i).state = false) →
        t = s.withSplice { s.splice with cuesIgnored := bump s.splice.cuesIgnored }) ∧
      ∀ i, i < 32 → i < s.splice.breaks.length → (s.brk i).trigger = .cue c.number →
        c.kind.applies (s.brk i).state = true → (∀ j, j < 32 → j ≠ i → (s.brk j).trigger ≠ .cue c.number) →
        t.splice.cuesApplied = bump s.splice.cuesApplied ∧ t.splice.cuesIgnored = s.splice.cuesIgnored ∧
        t.splice.cuesWithoutInstant = s.splice.cuesWithoutInstant ∧ (∀ j, j ≠ i → t.brk j = s.brk j) ∧
        (c.kind = .in_ → (s.brk i).state = .onAir →
          t.brk i = { s.brk i with y := (s.brk i).offered at_ .inCue } ∧ t.lanes = s.lanes) ∧
        (∀ x y source, c.kind = .in_ → (s.brk i).state = .cued → (s.brk i).x = some x →
          (s.brk i).offered at_ .inCue = some (y, source) →
          (later y x = true → t.brk i = { s.brk i with y := some (y, source) } ∧ t.lanes = s.lanes) ∧
          (later y x = false →
            t.brk i = { s.brk i with y := some (y, source) }.endedWith .noAir s.now ∧ s.laneReleased t i)) ∧
        (c.kind = .cancel →
          ((s.brk i).state = .onAir →
            t.brk i = { s.brk i with y := (s.brk i).offered s.now .cancel } ∧ t.lanes = s.lanes) ∧
          ((s.brk i).state ≠ .onAir →
            t.brk i = (s.brk i).endedWith .cancelled s.now ∧ s.laneReleased t i))

/-- A break ends with its cause, its lane released and its list free: at the expiry of its splice-out span a CUED break ends
MISSED (R106, R109, R94). -/
def Obligations.ExpiryEndsMissed : Prop :=
  ∀ (s : State) (i : Fin 32) (x : Time) (lane : Nat),
    (s.brk i.val).state = .cued → (s.brk i.val).x = some x → reached s.now (tadd x 10000000) = true →
    (s.brk i.val).lane = some lane → (s.brk i.val).aired = false → i.val < s.splice.breaks.length →
    lane < s.lanes.length →
    ∃ t, exec (.spliceOutExpiry i) s = .next t ∧
      t.brk i.val = { s.brk i.val with state := .ended, cause := some .missed, lane := none } ∧
      (t.lane lane).state = .free ∧ (t.lane lane).break_ = none ∧ (t.lane lane).playList = none ∧
      (t.lane lane).queue = [] ∧ (t.lane lane).position = none ∧
      (t.lane lane).packetsRead = (s.lane lane).packetsRead ∧ (∀ j, j ≠ i.val → t.brk j = s.brk j) ∧
      (∀ l, l ≠ lane → t.lane l = s.lane l) ∧ t.windows = s.windows ∧ t.splice.slots = s.splice.slots ∧
      s.intakeKept t ∧ s.siteKept t ∧ s.rulesKept t

/-- A window becomes ACTIVE when its start is reached and FREE when its end is, at once where both are; REMOVE WINDOW frees a
standing window, and is refused BAD_VALUE for an index of 8 or more and WRONG_STATE for a FREE record; SET WINDOW takes the
lowest FREE record, PENDING or ACTIVE by the present site time, and is refused BAD_LENGTH, BAD_VALUE for an empty mask, a
tick out of range, or an end not later than the start or the present, so for an end 2^31 seconds after the start, and
TABLE_FULL (R124, R126, R128, R129). As it becomes ACTIVE it ends BLOCKED the CUED breaks of its slots whose X is earlier than
its end; set PENDING, those whose X lies in [start, end); ON_AIR ones are offered its start as Y; a break ended BLOCKED counts
on the lowest window that would block it, an offer that becomes Y on this one (R123, R125, R126, R114). WINDOW_ACTIVE comes
first, then the BREAK_ENDED of the breaks it ends in ascending index, at the present site time (R125, R126). That a PENDING
window whose start is reached counts as one that would block (log entry 40), and the values of a freed record (log entry 28),
are the model's choice. -/
def Obligations.WindowsComeAndGo : Prop :=
  ∀ s : State,
    (∀ w : Fin 8, (s.window w.val).state = .pending → reached s.now (s.window w.val).start = true →
      w.val < s.windows.length →
      let win := s.window w.val
      let act := s.withWindow w.val { win with state := .active }
      ∃ t, exec (.windowStartReached w) s =
          .next (if reached s.now win.stop then (t.withWindow w.val .empty).raise .windowEnded w.val 0 else t) ∧
        (t.window w.val).state = .active ∧ (t.window w.val).mask = win.mask ∧ (t.window w.val).start = win.start ∧
        (t.window w.val).stop = win.stop ∧
        act.windowActed t w.val (fun x => earlier x win.stop) ∧
        (∀ p, t.port p =
          (s.port p).offers (⟨.windowActive, w.val, win.mask.toNat, s.now⟩ ::
            act.blockedEvents w.val fun x => earlier x win.stop)) ∧
        s.intakeKept t ∧ s.siteKept t ∧ s.rulesKept t) ∧
    (∀ w : Fin 8, (s.window w.val).state = .active → reached s.now (s.window w.val).stop = true →
      exec (.windowEndReached w) s = .next ((s.withWindow w.val .empty).raise .windowEnded w.val 0)) ∧
    (s.open_ .network →
      (∀ b : Byte,
        (8 ≤ b.toNat → exec (.removeWindow .network [b]) s = .next (s.answers .network [b] (.no .badValue))) ∧
        (b.toNat < 8 → (s.window b.toNat).state = .free →
          exec (.removeWindow .network [b]) s = .next (s.answers .network [b] (.no .wrongState))) ∧
        (b.toNat < 8 → (s.window b.toNat).state ≠ .free →
          exec (.removeWindow .network [b]) s =
            .next ((((s.takes .network [b]).withWindow b.toNat .empty).raise .windowEnded b.toNat 1).respond .network
              (.ok [])))) ∧
      (∀ params : List Byte, params.length ≠ 17 →
        exec (.setWindow .network params) s = .next (s.answers .network params (.no .badLength))) ∧
      ∀ params : List Byte, params.length = 17 →
        let start := instantAt params 1
        let stop := instantAt params 9
        ((params.headD 0 = 0 ∨ tickFits params 1 = false ∨ tickFits params 9 = false ∨ later stop start = false ∨
            later stop s.now = false) →
          exec (.setWindow .network params) s = .next (s.answers .network params (.no .badValue))) ∧
        (params.headD 0 ≠ 0 → tickFits params 1 = true → tickFits params 9 = true → later stop start = true →
          later stop s.now = true →
          (s.freeWindow = none →
            exec (.setWindow .network params) s = .next (s.answers .network params (.no .tableFull))) ∧
          ∀ w : Nat, s.freeWindow = some w → w < s.windows.length →
            let set_ := s.withWindow w
              ⟨if later start s.now then .pending else .active, params.headD 0, start, stop, s.now, 0, 0⟩
            let ends := fun x => if later start s.now then reached x start && earlier x stop else earlier x stop
            ∃ t, exec (.setWindow .network params) s = .next (t.respond .network (.ok (be 1 w))) ∧
              set_.windowActed t w ends ∧
              (∀ p, t.port p =
                ((s.takes .network params).port p).offers
                  ((if later start s.now then [] else [⟨.windowActive, w, (params.headD 0).toNat, s.now⟩])
                    ++ set_.blockedEvents w ends)) ∧
              s.intakeKept t ∧ s.siteKept t ∧ s.rulesKept t))

/-! ### Monitor, changeover, lines -/

/-- A conversion that has run its 2,500 periods stores its value and classifies it: the class against the limits, the run
count, and the change of state when the run reaches the persistence (R132, R135). A change into LOW or HIGH with no capture
held fills the capture record with the eight values, the range, the channel, its state and the instant; a capture held stays
as it is (R136). Then the next channel of the range is converted, or a pending range takes force: it is the range, its first
channel is converted, and every channel outside it loses its run and previous class and is NORMAL, its value kept (R133).
A change of state raises CHANNEL_LIMIT and a filling CAPTURE_HELD, then the changeover is re-evaluated where the main fault or the
reserve fault has changed, with its events after those; where no channel feeds either fault, the channels that a new range
returns to NORMAL raise CHANNEL_LIMIT in ascending order (R137, R140, R146). -/
def Obligations.ConversionsClassify : Prop :=
  ∀ (s : State) (v : BitVec 10), 2500 ≤ s.mon.elapsed → s.mon.converting < s.mon.channels.length →
    let c := s.channel s.mon.converting
    let k : ChannelClass := if v.toNat < c.low then .l else if c.high < v.toNat then .h else .n
    let run := if k.state = c.state then 0 else if c.previous = some k then c.run + 1 else 1
    let changes : Prop := k.state ≠ c.state ∧ c.persistence ≤ run
    let converted : Channel :=
      { c with
        value := v.toNat, previous := some k
        state := if k.state ≠ c.state ∧ c.persistence ≤ run then k.state else c.state
        run := if k.state ≠ c.state ∧ c.persistence ≤ run then 0 else run }
    let settled : Nat → Channel := fun i => if i = s.mon.converting then converted else s.channel i
    let events : List Event :=
      if k.state ≠ c.state ∧ c.persistence ≤ run then
        ⟨.channelLimit, s.mon.converting, k.state.code, s.now⟩ ::
          if k ≠ .n ∧ s.mon.capture = none then [⟨.captureHeld, s.mon.converting, k.state.code, s.now⟩] else []
      else []
    ∃ t, exec (.conversionComplete v) s = .next t ∧ t.mon.elapsed = 0 ∧ t.mon.pendingRange = none ∧
      t.lines = s.lines ∧ s.intakeKept t ∧ s.spliceKept t ∧ s.rulesKept t ∧
      (s.mon.pendingRange = none → s.chg.history.length ≤ 3 → s.healthFollowed t events) ∧
      (∀ first last, s.mon.pendingRange = some (first, last) →
        (∀ x ∈ s.mon.channels, x.role = .none ∨ x.role = .site) →
        t.chg = s.chg ∧
        ∀ p, t.port p =
          (s.port p).offers
            (events ++
              ((List.range 8).filter fun i =>
                decide ((i < first ∨ last < i) ∧ (settled i).state ≠ .normal)).map
                fun i => ⟨.channelLimit, i, ChannelState.normal.code, s.now⟩)) ∧
      (changes → k ≠ .n → s.mon.capture = none →
        t.mon.capture =
          some ⟨(s.mon.channels.map (·.value)).set s.mon.converting v.toNat, s.mon.first, s.mon.last, s.mon.converting,
            k.state, s.now⟩) ∧
      (¬ changes ∨ k = .n ∨ s.mon.capture ≠ none → t.mon.capture = s.mon.capture) ∧
      (s.mon.pendingRange = none →
        (∀ i, t.channel i = settled i) ∧
        t.mon.converting = (if s.mon.converting < s.mon.last then s.mon.converting + 1 else s.mon.first) ∧
        t.mon.first = s.mon.first ∧ t.mon.last = s.mon.last) ∧
      ∀ first last, s.mon.pendingRange = some (first, last) →
        t.mon.first = first ∧ t.mon.last = last ∧ t.mon.converting = first ∧
        ∀ i, i < 8 →
          (first ≤ i → i ≤ last → t.channel i = settled i) ∧
          (i < first ∨ last < i → t.channel i = { settled i with state := .normal, run := 0, previous := none })

/-- SET SCAN RANGE stores the pending range, and is refused BAD_VALUE for a range that is none; SET CHANNEL replaces the four
settings and keeps the rest of the channel, and is refused BAD_VALUE for a channel, limits or a role out of their ranges; a
change of role is followed by a re-evaluation where it changes the main fault or the reserve fault (R133, R134, R137). -/
def Obligations.MonitorSettings : Prop :=
  ∀ (s : State) (p : Port), s.open_ p →
    (∀ a b : Byte,
      (a.toNat ≤ b.toNat → b.toNat ≤ 7 →
        exec (.setScanRange p [a, b]) s =
          .next (((s.takes p [a, b]).withMon { s.mon with pendingRange := some (a.toNat, b.toNat) }).respond p
            (.ok []))) ∧
      ((b.toNat < a.toNat ∨ 7 < b.toNat) →
        exec (.setScanRange p [a, b]) s = .next (s.answers p [a, b] (.no .badValue)))) ∧
    (∀ (params : List Byte) (role : Role), params.length = 7 → byteAt params 0 < s.mon.channels.length →
      byteAt params 0 ≤ 7 → field params 1 2 ≤ field params 3 2 → field params 3 2 ≤ 1023 →
      roleOf (byteAt params 6) = some role →
      ∃ t, exec (.setChannel p params) s = .next t ∧
        t.channel (byteAt params 0) =
          { s.channel (byteAt params 0) with
            low := field params 1 2, high := field params 3 2
            persistence := max 1 (min 15 (byteAt params 5)), role := role } ∧
        (∀ i, i ≠ byteAt params 0 → t.channel i = s.channel i) ∧
        t.mon = { s.mon with channels := t.mon.channels } ∧ t.lines = s.lines ∧ s.intakeKept t ∧ s.spliceKept t ∧
        s.rulesKept t ∧
        ∃ r, (t.port p).response = some r ∧ r.code = .ok ∧
          r.clamped = decide (byteAt params 5 < 1 ∨ 15 < byteAt params 5)) ∧
    (∀ params : List Byte, params.length = 7 →
      (7 < byteAt params 0 ∨ 1023 < field params 1 2 ∨ 1023 < field params 3 2 ∨ field params 3 2 < field params 1 2 ∨
        3 < byteAt params 6) →
      exec (.setChannel p params) s = .next (s.answers p params (.no .badValue))) ∧
    ∀ (params : List Byte) (role : Role), params.length = 7 → byteAt params 0 ≤ 7 →
      field params 1 2 ≤ field params 3 2 → field params 3 2 ≤ 1023 → roleOf (byteAt params 6) = some role →
      s.chg.history.length ≤ 3 →
      ∃ (t : State) (r : Reply), exec (.setChannel p params) s = .next (t.respond p r) ∧
        (s.takes p params).healthFollowed t []

/-- CHANGEOVER goes to MANUAL and to a healthy target and is refused FAULTED for a faulted one; AUTO returns to AUTO; SET
RETURN stores the two settings; RELEASE HOLD empties the history and clears hold (R142, R143, R144, R145). A CHANGEOVER that
changes the position raises CHANGEOVER with detail MANUAL, a RELEASE HOLD that clears a hold raises CHANGEOVER_HOLD, and AUTO, SET
RETURN and RELEASE HOLD re-evaluate (R140, R146); a target and an auto-return setting that are none are refused BAD_VALUE. The
field sizes are those of R175, and that auto-return is on for a byte of 1 is the model's choice (log entry 14). -/
def Obligations.ChangeoverCommands : Prop :=
  ∀ (s : State) (p : Port), s.open_ p →
    (∀ (b : Byte) (target : Position), positionOf b.toNat = some target →
      (s.faultOf target = true → exec (.changeover p [b]) s = .next (s.answers p [b] (.no .faulted))) ∧
      (s.faultOf target = false → ∃ t, exec (.changeover p [b]) s = .next t ∧
        t.chg = { s.chg with manual := true, returnTimer := none, position := target } ∧ t.mon = s.mon ∧
        t.lines = s.lines ∧ s.intakeKept t ∧ s.spliceKept t ∧ s.rulesKept t)) ∧
    (s.chg.hold = true →
      exec (.auto p []) s = .next (((s.takes p []).withChg { s.chg with manual := false }).respond p (.ok []))) ∧
    (∃ t, exec (.auto p []) s = .next t ∧ t.chg.manual = false ∧ t.chg.returnDelay = s.chg.returnDelay ∧
      t.chg.autoReturn = s.chg.autoReturn ∧ t.mon = s.mon ∧ t.lines = s.lines ∧ s.intakeKept t ∧ s.spliceKept t ∧
      s.rulesKept t) ∧
    (∀ params : List Byte, params.length = 3 → byteAt params 0 ≤ 1 →
      ∃ t, exec (.setReturn p params) s = .next t ∧ t.chg.autoReturn = (byteAt params 0 == 1) ∧
        t.chg.returnDelay = max 1 (min 3600 (field params 1 2)) ∧ t.chg.manual = s.chg.manual ∧
        (byteAt params 0 = 0 → t.chg.returnTimer = none) ∧ t.mon = s.mon ∧ t.lines = s.lines ∧ s.intakeKept t ∧
        s.spliceKept t ∧ s.rulesKept t) ∧
    (s.chg.manual = true → ∃ t, exec (.releaseHold p []) s = .next t ∧
      t.chg = { s.chg with history := [], hold := false }) ∧
    (∃ t, exec (.releaseHold p []) s = .next t ∧ t.chg.manual = s.chg.manual ∧ t.chg.history.length ≤ 1 ∧
      t.mon = s.mon ∧ t.lines = s.lines ∧ s.intakeKept t ∧ s.spliceKept t ∧ s.rulesKept t) ∧
    (∀ b : Byte, 1 < b.toNat → exec (.changeover p [b]) s = .next (s.answers p [b] (.no .badValue))) ∧
    (∀ params : List Byte, params.length = 3 → 1 < byteAt params 0 →
      exec (.setReturn p params) s = .next (s.answers p params (.no .badValue))) ∧
    (∀ (b : Byte) (target : Position), positionOf b.toNat = some target → s.faultOf target = false →
      let moved :=
        (s.takes p [b]).withChg { s.chg with manual := true, returnTimer := none, position := target }
      exec (.changeover p [b]) s =
        .next (State.respond
          (if target = s.chg.position then moved else moved.raise .changeover target.code 1) p (.ok []))) ∧
    (s.chg.history.length ≤ 3 →
      (∃ t : State, exec (.auto p []) s = .next (t.respond p (.ok [])) ∧
        let r := { s.chg with manual := false }.reevaluated s.now s.mainFault s.reserveFault
        t.chg = r.1 ∧ ∀ q, t.port q = ((s.takes p []).port q).offers r.2) ∧
      (∀ params : List Byte, params.length = 3 → byteAt params 0 ≤ 1 →
        ∃ t : State, exec (.setReturn p params) s =
            .next (t.respond p ⟨.ok, decide (field params 1 2 < 1 ∨ 3600 < field params 1 2), []⟩) ∧
          let stored : Changeover :=
            { s.chg with
              autoReturn := byteAt params 0 == 1, returnDelay := max 1 (min 3600 (field params 1 2))
              returnTimer := if byteAt params 0 = 1 then s.chg.returnTimer else none }
          let r := stored.reevaluated s.now s.mainFault s.reserveFault
          t.chg = r.1 ∧ ∀ q, t.port q = ((s.takes p params).port q).offers r.2) ∧
      ∃ t : State, exec (.releaseHold p []) s = .next (t.respond p (.ok [])) ∧
        let r := { s.chg with history := [], hold := false }.reevaluated s.now s.mainFault s.reserveFault
        t.chg = r.1 ∧
        ∀ q, t.port q =
          ((s.takes p []).port q).offers
            ((if s.chg.hold then [⟨.changeoverHold, s.chg.position.code, 0, s.now⟩] else []) ++ r.2))

/-- The automatic changeover: with the main fault alone in AUTO without hold, at MAIN, AUTO changes over to RESERVE; an
expired return timer changes over to MAIN; the third within 600 s sets hold (R140, R141, R142). An accepted edge of a fault line
that changes the main fault or the reserve fault is followed by a re-evaluation: by the table of R140, with CHANGEOVER, and with
CHANGEOVER_HOLD after it where the hold is set (R137, R140, R142, R146). -/
def Obligations.AutomaticChangeovers : Prop :=
  ∀ s : State,
    (s.chg.returnTimer = some 0 → ∃ t, exec .returnTimerExpiry s = .next t ∧ t.chg.position = .main ∧
      t.chg.returnTimer = none ∧ t.chg.manual = s.chg.manual ∧ t.mon = s.mon ∧ t.lines = s.lines ∧
      s.intakeKept t ∧ s.spliceKept t ∧ s.rulesKept t ∧
      (s.chg.history.length < 2 → t.chg.history = s.chg.history ++ [s.now] ∧ t.chg.hold = s.chg.hold) ∧
      (∀ a b, s.chg.history = [a, b] → t.chg.history = [a, b, s.now] ∧
        t.chg.hold = (s.chg.hold || decide (tdiff s.now a ≤ 6000000000)))) ∧
    (∀ p, s.open_ p → s.chg.hold = false → s.chg.position = .main → s.mainFault = true → s.reserveFault = false →
      ∃ t, exec (.auto p []) s = .next t ∧ t.chg.position = .reserve ∧ t.chg.manual = false ∧
        t.chg.returnTimer = none) ∧
    (∀ p, s.open_ p → s.chg.hold = false → s.chg.position = .reserve → s.mainFault = false →
      s.reserveFault = false → s.chg.autoReturn = true → s.chg.returnTimer = none →
      ∃ t, exec (.auto p []) s = .next t ∧ t.chg.position = .reserve ∧
        t.chg.returnTimer = some (s.chg.returnDelay * 10000000)) ∧
    (s.chg.history.length ≤ 3 →
      (s.chg.returnTimer = some 0 → ∃ t, exec .returnTimerExpiry s = .next t ∧
        t.chg = (s.chg.automatic s.now .main).1 ∧
        ∀ p, t.port p = (s.port p).offers (s.chg.automatic s.now .main).2) ∧
      ∀ (i : Fin 12) (n : Nat), (s.line i.val).output = false → (s.line i.val).pendingChange = some n → 100000 ≤ n →
        (s.line i.val).function = .mainFault ∨ (s.line i.val).function = .reserveFault ∨
          (s.line i.val).function = .interlock →
        ∃ t, exec (.lineEdgeAccepted i) s = .next t ∧ s.healthFollowed t [] ∧
          t.lines =
            { s.lines with
              records := s.lines.records.set i.val
                { s.line i.val with accepted := (s.line i.val).pin, pendingChange := none, latched := true } })

/-- MUTE and UNMUTE move the sending port alone in and out of the set of mute holders, in every part state and whatever the
parameter lock; UNMUTE ALL empties the set from the network port and is refused NOT_PERMITTED from the station port;
the set carries over a software RESET (R139). -/
def Obligations.MuteHolders : Prop :=
  ∀ s : State,
    (∀ p, s.open_ p →
      exec (.mute p []) s =
        .next (((s.takes p []).withChg
          { s.chg with
            muteStation := s.chg.muteStation || p == .station
            muteNetwork := s.chg.muteNetwork || p == .network }).respond p (.ok [])) ∧
      exec (.unmute p []) s =
        .next (((s.takes p []).withChg
          { s.chg with
            muteStation := s.chg.muteStation && p != .station
            muteNetwork := s.chg.muteNetwork && p != .network }).respond p (.ok [])) ∧
      ∀ t, exec (.reset p []) s = .next t →
        t.chg.muteStation = s.chg.muteStation ∧ t.chg.muteNetwork = s.chg.muteNetwork) ∧
    (s.open_ .network →
      exec (.unmuteAll .network []) s =
        .next (((s.takes .network []).withChg { s.chg with muteStation := false, muteNetwork := false }).respond
          .network (.ok []))) ∧
    (s.open_ .station →
      exec (.unmuteAll .station []) s = .next (s.answers .station [] (.no .notPermitted)))

/-- A pin that changes begins or discards a pending change; an edge that has held 100,000 periods is accepted, latched and
acted on: a PLAIN line raises LINE_EDGE by the level after invert (R151, R152). While the part is not in RUN or the
launch gate is closed, every unlocked output of function CARRIER_MUTE drives its muting level; an output of every other function
drives the level of its source, turned over when invert is set (R138, R153, R154; BLINK's source as log entry 8 holds it). -/
def Obligations.LineInputsAndMuting : Prop :=
  (∀ (s : State) (i : Fin 12),
    (∀ level, (s.line i.val).output = false →
      exec (.pinLevelChange i level) s =
        .next (s.withLine i.val
          { s.line i.val with
            pin := level
            pendingChange :=
              if level = (s.line i.val).accepted then none else some ((s.line i.val).pendingChange.getD 1) })) ∧
    (∀ n, (s.line i.val).output = false → (s.line i.val).pendingChange = some n → 100000 ≤ n →
      ((s.line i.val).function = .plain →
        exec (.lineEdgeAccepted i) s =
          .next ((s.withLine i.val
            { s.line i.val with accepted := (s.line i.val).pin, pendingChange := none, latched := true }).raise
            .lineEdge i.val
            (if ((s.line i.val).pin = .high ↔ (s.line i.val).invert = false) then 1 else 0))) ∧
      (i.val < s.lines.records.length → ∃ t, exec (.lineEdgeAccepted i) s = .next t ∧
        t.line i.val =
          { s.line i.val with accepted := (s.line i.val).pin, pendingChange := none, latched := true } ∧
        (∀ j, j ≠ i.val → t.line j = s.line j) ∧ t.mon = s.mon ∧ s.intakeKept t ∧ s.rulesKept t))) ∧
  (∀ (s : State) (l : Line), l.output = true → l.function = .carrierMute → l.frozen = none →
    (s.part ≠ .run ∨ s.tb.labelled = false ∨ (s.tb.discipline ≠ .locked ∧ s.tb.discipline ≠ .holdover)) →
    s.drivenLevel l = if l.invert then .low else .high) ∧
  ∀ (s : State) (l : Line), l.output = true → l.frozen = none →
    (∀ high : Bool,
      (l.function = .level ∧ high = (l.commanded == .high)) ∨
      (l.function = .blink ∧ high = (s.lines.blink == .high)) ∨
      (l.function = .changeover ∧ high = (s.chg.position == .reserve)) ∨
      (l.function = .carrierMute ∧
        high = (s.part != .run || !s.tb.gateOpen || s.siteInterlock || (s.mainFault && s.reserveFault)
          || s.chg.muteStation || s.chg.muteNetwork)) ∨
      (l.function = .gate ∧
        high = (s.tb.labelled && (s.tb.discipline == .locked || s.tb.discipline == .holdover))) ∨
      (l.function = .tally ∧ ∃ i, l.tallyLane = some i ∧ high = ((s.lane i).state == .onAir)) ∨
      (l.function = .alert ∧ high = (s.mainFault || s.reserveFault || s.siteInterlock)) →
      s.drivenLevel l = if high = l.invert then .low else .high)

/-- SET LINE LEVEL: BAD_LENGTH, BAD_VALUE, LOCKED, WRONG_STATE in this order; otherwise the commanded level takes the value
and the line drives it, turned over when invert is set (R155). CONFIGURE LINE stores its settings and replaces the commanded
level with the one it carries, whatever the function. The accepted level becomes the pin level where an output becomes an
input and is kept otherwise; the pending change and the latched edge go where the direction changes and are kept where it does
not. The exciter health is then formed anew, with the re-evaluation that follows where the main fault or the reserve fault
changes, and no other event is raised (R137, R150). It is refused BAD_VALUE for a line, direction, function, tally lane or
level out of range (R150). That the tally lane is a plain byte, whatever the function, so that CONFIGURE LINE carries 6 bytes,
and that an invert byte which is neither 0 nor 1 is refused, is the model's reading of R175 (log entry 14). -/
def Obligations.LineLevels : Prop :=
  ∀ (s : State) (p : Port), s.open_ p →
    (∀ params : List Byte, params.length ≠ 2 →
      exec (.setLineLevel p params) s = .next (s.answers p params (.no .badLength))) ∧
    (∀ a b : Byte, (11 < a.toNat ∨ 1 < b.toNat) →
      exec (.setLineLevel p [a, b]) s = .next (s.answers p [a, b] (.no .badValue))) ∧
    (∀ (a b : Byte) (level : Level), a.toNat ≤ 11 → levelOf b.toNat = some level →
      ((s.line a.toNat).locked = true →
        exec (.setLineLevel p [a, b]) s = .next (s.answers p [a, b] (.no .locked))) ∧
      ((s.line a.toNat).locked = false →
        ((s.line a.toNat).output = false ∨ (s.line a.toNat).function ≠ .level) →
        exec (.setLineLevel p [a, b]) s = .next (s.answers p [a, b] (.no .wrongState))) ∧
      ((s.line a.toNat).locked = false → (s.line a.toNat).output = true → (s.line a.toNat).function = .level →
        exec (.setLineLevel p [a, b]) s =
          .next (((s.takes p [a, b]).withLine a.toNat { s.line a.toNat with commanded := level }).respond p
            (.ok [])) ∧
        ((s.line a.toNat).frozen = none →
          ∀ t : State, t.drivenLevel { s.line a.toNat with commanded := level } =
            if (s.line a.toNat).invert then level.turn else level))) ∧
    (∀ (params : List Byte) (c : LineSettings), params.length = 6 → byteAt params 0 ≤ 11 →
      byteAt params 0 < s.lines.records.length → (s.line (byteAt params 0)).locked = false →
      lineSettings params = some c →
      ∃ t, exec (.configureLine p params) s = .next t ∧ (t.line (byteAt params 0)).commanded = c.commanded ∧
        (t.line (byteAt params 0)).output = c.output ∧ (t.line (byteAt params 0)).invert = c.invert ∧
        (t.line (byteAt params 0)).function = c.function ∧
        (t.line (byteAt params 0)).tallyLane = c.tallyLane ∧
        (∀ j, j ≠ byteAt params 0 → t.line j = s.line j) ∧ t.mon = s.mon ∧ s.intakeKept t ∧ s.spliceKept t ∧
        s.rulesKept t) ∧
    (∀ (params : List Byte) (c : LineSettings), params.length = 6 → byteAt params 0 ≤ 11 →
      (s.line (byteAt params 0)).locked = false → lineSettings params = some c → s.chg.history.length ≤ 3 →
      let l := s.line (byteAt params 0)
      ∃ t : State, exec (.configureLine p params) s = .next (t.respond p (.ok [])) ∧
        (s.takes p params).healthFollowed t [] ∧
        t.lines =
          { s.lines with
            records := s.lines.records.set (byteAt params 0)
              { l with
                output := c.output, invert := c.invert, function := c.function, tallyLane := c.tallyLane
                commanded := c.commanded
                accepted := if l.output = true ∧ c.output = false then l.pin else l.accepted
                pendingChange := if l.output = c.output then l.pendingChange else none
                latched := if l.output = c.output then l.latched else false } }) ∧
    (∀ params : List Byte, params.length = 6 → 11 < byteAt params 0 →
      exec (.configureLine p params) s = .next (s.answers p params (.no .badValue))) ∧
    ∀ params : List Byte, params.length = 6 → (s.line (byteAt params 0)).locked = false →
      (1 < byteAt params 1 ∨ 1 < byteAt params 2 ∨ (byteAt params 1 = 0 ∧ 4 < byteAt params 3) ∨
        (byteAt params 1 = 1 ∧ (byteAt params 3 < 5 ∨ 11 < byteAt params 3)) ∨
        (byteAt params 1 = 1 ∧ byteAt params 3 = 10 ∧ 3 < byteAt params 4) ∨ 1 < byteAt params 5) →
      exec (.configureLine p params) s = .next (s.answers p params (.no .badValue))

/-- LOCK LINE sets the lock and freezes an output at the level it drives; a line already locked is left as it is; a locked
line refuses CONFIGURE LINE from both ports (R156); the 6 bytes of a CONFIGURE LINE rest on the model's reading of R175 (log
entry 14). -/
def Obligations.LineLocks : Prop :=
  ∀ s : State,
    (∀ b : Byte, s.open_ .network → b.toNat ≤ 11 →
      ((s.line b.toNat).locked = false →
        exec (.lockLine .network [b]) s =
          .next (((s.takes .network [b]).withLine b.toNat
            { s.line b.toNat with
              locked := true
              frozen := if (s.line b.toNat).output then some (s.drivenLevel (s.line b.toNat))
                else (s.line b.toNat).frozen }).respond .network (.ok []))) ∧
      ((s.line b.toNat).locked = true →
        exec (.lockLine .network [b]) s = .next (s.answers .network [b] (.ok [])))) ∧
    (∀ (p : Port) (params : List Byte), s.open_ p → params.length = 6 → byteAt params 0 ≤ 11 →
      (s.line (byteAt params 0)).locked = true →
      exec (.configureLine p params) s = .next (s.answers p params (.no .locked)))

/-! ### Part states and resets -/

/-- Power-on and the reset pin: STANDBY, the lock clear, the tables empty, the timebase FREE at second 0; clip memory keeps
its slots through the reset pin when no slot is being written, and the launch unit has the advance 0 and the hold limits,
packet period, tolerance and identifiers of its reset table (R173, R19, R38, R55, R60, R61, R76, R82, R83, R85, R96, R122,
R131, R148, R149, R158, R169). That a packet whose bytes are leaving finishes, the levels of the input pins, the values of the
helper fields of the timebase and of the lines' BLINK, of undefined slots and FREE records, and the return timer are the
model's (log entries 5, 8, 12, 27 and 28). -/
def Obligations.PowerOnAndResetPin : Prop :=
  ∀ s : State,
    (∀ c ∈ [Instr.powerOn, .resetPin], ∃ t, exec c s = .next t ∧
      t.tb = .reset ∧ t.feedA = .reset ∧ t.feedB = .reset ∧ t.store = .empty ∧ t.sel = .reset ∧
      t.lanes = List.replicate 4 .reset ∧ t.splice = .reset ∧ t.windows = List.replicate 8 .empty ∧
      t.mon = .reset ∧ t.chg = .reset ∧ t.station = .reset ∧ t.network = .reset ∧ t.part = .standby ∧
      t.paramLock = false ∧ t.launch = { Launch.reset with outputs := s.launch.outputs.take 1 } ∧
      t.clip.playLists = List.replicate 32 [] ∧ t.clip.service = none ∧
      t.lines.records = s.lines.records.map fun l => Line.reset l.pin) ∧
    (∃ t, exec .resetPin s = .next t ∧
      ∀ a, (∀ q slot packet d, s.clip.service = some (.write q slot packet d) → a ≠ slot) →
        t.clip.readSlot a = s.clip.readSlot a)

/-- START in STANDBY enters STARTING with the store and the selector cleared and is the port's command in progress; the
completion enters RUN, answers OK, opens the gap at that instant and raises START_COMPLETE with the port, and then the WAITING
TIME breaks that are due fire; elsewhere START is refused WRONG_STATE (R165, R37, R55, R69, R81, R107). The order of the response,
the event and the triggers is the model's reading (log entry 22), and so is that X, Y and lane of a break that fails a check stay
absent (log entry 21). -/
def Obligations.StartAndItsCompletion : Prop :=
  ∀ (s : State) (p : Port),
    (s.open_ p → s.part = .standby → ∃ t, exec (.start p []) s = .next t ∧ t.part = .starting ∧
      (t.port p).inProgress = some .start ∧ (t.port p).response = none ∧ t.store = .empty ∧
      t.sel = { s.sel with expected := none, lastAdmitted := none, queue := [], active := none } ∧
      t.feedA.lastOpened = none ∧ t.feedB.lastOpened = none ∧ t.feedA.staleRun = 0 ∧ t.feedB.staleRun = 0 ∧
      t.feedA.sync = s.feedA.sync ∧ t.feedB.sync = s.feedB.sync ∧ t.tb = s.tb ∧ t.splice = s.splice ∧
      t.clip = s.clip ∧ t.mon = s.mon ∧ t.chg = s.chg ∧ t.lines = s.lines ∧ t.windows = s.windows) ∧
    (s.open_ p → s.part ≠ .standby → exec (.start p []) s = .next (s.answers p [] (.no .wrongState))) ∧
    (s.part = .starting → (s.port p).inProgress = some .start → (s.port p.other).inProgress ≠ some .start →
      ∃ t, exec .startComplete s = .next t ∧ t.part = .run ∧ (t.port p).inProgress = none ∧
        (∃ r, (t.port p).response = some r ∧ r.code = .ok ∧ r.overrun = (s.port p).overrun) ∧
        t.launch.gap = some (s.now, 0) ∧ t.launch.lastEnd = none ∧ t.store = s.store ∧ t.sel = s.sel ∧
        t.feedA = s.feedA ∧ t.feedB = s.feedB ∧ t.tb = s.tb ∧ t.paramLock = s.paramLock ∧ s.siteKept t ∧
        let started := fun q : Port =>
          PortState.offer
            (if q = p then { s.port p with inProgress := none }.respond (.ok []) else s.port q)
            ⟨.startComplete, portCode p, 0, s.now⟩
        ((∀ i, i < 32 → (s.brk i).timeDue s.now = none) →
          (∀ q, t.port q = started q) ∧ t.splice = s.splice ∧ t.lanes = s.lanes ∧ t.windows = s.windows) ∧
        ∀ i at_, i < 32 → i < s.splice.breaks.length → (s.brk i).state = .waiting → (s.brk i).trigger = .time at_ →
          reached s.now at_ = true → (s.brk i).lane = none →
          (∀ j, j < 32 → j ≠ i → (s.brk j).timeDue s.now = none) →
          ∃ u : State, u.part = .run ∧ u.tb = s.tb ∧ u.clip = s.clip ∧ u.lanes = s.lanes ∧ u.splice = s.splice ∧
            u.windows = s.windows ∧ (∀ q, u.port q = started q) ∧ u.triggered t i at_ none)

/-- STOP enters STANDBY, frees every group, ends CUED and ON_AIR breaks STOPPED, answers OK and abandons a START in progress,
which answers WRONG_STATE; in STANDBY it is refused WRONG_STATE (R165, R166, R37, R81, R121). -/
def Obligations.StopEndsAll : Prop :=
  ∀ (s : State) (p : Port), s.open_ p →
    (s.part = .standby → exec (.stop p []) s = .next (s.answers p [] (.no .wrongState))) ∧
    (s.part ≠ .standby → ∃ t, exec (.stop p []) s = .next t ∧ t.part = .standby ∧ t.store = .empty ∧
      t.sel.queue = [] ∧ t.sel.expected = none ∧ t.launch.emitting = none ∧ t.launch.scheduled = none ∧
      t.launch.gap = none ∧ t.launch.lastEnd = none ∧ t.launch.nullEnd = none ∧ t.launch.stats = s.launch.stats ∧
      t.tb = s.tb ∧ t.mon = s.mon ∧ t.chg = s.chg ∧ t.lines = s.lines ∧ t.windows = s.windows ∧
      t.station.inProgress ≠ some .start ∧ t.network.inProgress ≠ some .start ∧
      (∃ r, (t.port p).response = some r ∧ r.code = .ok ∧ r.overrun = (s.port p).overrun ∧ r.data = []) ∧
      ((s.port p.other).inProgress = some .start →
        (t.port p.other).inProgress = none ∧
        ∃ r, (t.port p.other).response = some r ∧ r.code = .wrongState ∧ r.overrun = (s.port p.other).overrun) ∧
      ((s.port p.other).inProgress ≠ some .start →
        (t.port p.other).inProgress = (s.port p.other).inProgress ∧
        (t.port p.other).response = (s.port p.other).response) ∧
      (∀ i, i < 32 → (t.brk i).live = false) ∧
      (∀ i, i < 32 → (s.brk i).live = false → t.brk i = s.brk i) ∧
      (∀ i, i < 32 → i < s.splice.breaks.length → (s.brk i).live = true →
        (t.brk i).state = .ended ∧ (t.brk i).cause = some .stopped))

/-- A software RESET: STANDBY; the groups, breaks, lanes, counters, captures and latched edges gone; the timebase, the
emission parameters and the slot definitions, the settings of the monitor and of the changeover, the lines, windows, play
lists, clip memory and the lock kept; a pending scan range in force; both event queues emptied, with what a changeover that
the reset brings about then raises. It completes at once unless the other port's clip command has a slot in hand, which is
abandoned; a RESET in progress completes when that slot is done (R167, R38, R55, R82, R85, R86, R96, R122, R131, R148, R149,
R158). That a packet whose bytes are leaving finishes is the model's (log entry 5), and so are that the other port's clip command is
gone at once, its slot in hand finishing alone (log entry 19), the count of the conversion that starts (log entry 27) and the
values of FREE records (log entry 28). -/
def Obligations.SoftwareReset : Prop :=
  ∀ (s : State) (p : Port),
    (s.open_ p → (s.paramLock = false ∨ p = .network) → ∃ t, exec (.reset p []) s = .next t ∧ t.part = .standby ∧
      t.tb = s.tb ∧ t.feedA = .reset ∧ t.feedB = .reset ∧ t.store = .empty ∧
      t.sel =
        { s.sel with expected := none, lastAdmitted := none, queue := [], active := none, counters := .zero } ∧
      t.launch =
        { s.launch with
          emitting := none, scheduled := none, lastEnd := none, gap := none, nullsStopped := false, nullEnd := none
          stats := .zero, outputs := s.launch.outputs.take 1 } ∧
      t.lanes = List.replicate 4 .reset ∧
      t.splice =
        { slots := s.splice.slots.map fun sl =>
            { sl with
              entries := sl.entries.map fun e => { e with carry := none }
              observation := { sl.observation with valid := false } }
          breaks := List.replicate 32 .empty, cuesApplied := 0, cuesIgnored := 0, cuesWithoutInstant := 0 } ∧
      t.windows = s.windows ∧ t.clip.playLists = s.clip.playLists ∧ t.clip.cells = s.clip.cells ∧
      t.clip.occasion = s.clip.occasion ∧
      t.mon =
        { first := (s.mon.pendingRange.getD (s.mon.first, s.mon.last)).1
          last := (s.mon.pendingRange.getD (s.mon.first, s.mon.last)).2
          pendingRange := none, converting := (s.mon.pendingRange.getD (s.mon.first, s.mon.last)).1, elapsed := 0
          channels := s.mon.channels.map fun c => { c with value := 0, state := .normal, run := 0, previous := none }
          capture := none } ∧
      t.lines = { s.lines with records := s.lines.records.map fun l => { l with latched := false } } ∧
      t.chg.manual = s.chg.manual ∧ t.chg.autoReturn = s.chg.autoReturn ∧ t.chg.returnDelay = s.chg.returnDelay ∧
      t.chg.muteStation = s.chg.muteStation ∧ t.chg.muteNetwork = s.chg.muteNetwork ∧
      t.paramLock = s.paramLock ∧ (t.port p.other).response = (s.port p.other).response ∧
      (s.chg.manual = true → t.chg = s.chg) ∧
      (∀ q, (t.port q).lostEvents = 0 ∧ (t.port q).mask = (s.port q).mask ∧
        (∀ e ∈ (t.port q).events, e.kind = .changeover ∨ e.kind = .changeoverHold) ∧
        (t.chg.position = s.chg.position → (t.port q).events = [])) ∧
      (∀ c, (s.port p.other).inProgress = some (.clip c) →
        (t.port p.other).inProgress = none ∧
        ((∃ slot packet d, s.clip.service = some (.write p.other slot packet d)) ∨
            (∃ slot d, s.clip.service = some (.read p.other slot d)) →
          (t.port p).inProgress = some .reset ∧ (t.port p).response = none)) ∧
      (((∀ c, (s.port p.other).inProgress ≠ some (.clip c)) ∨
          ((∀ slot packet d, s.clip.service ≠ some (.write p.other slot packet d)) ∧
            ∀ slot d, s.clip.service ≠ some (.read p.other slot d))) →
        (t.port p).inProgress = none ∧ ∃ r, (t.port p).response = some r ∧ r.code = .ok)) ∧
    ((s.port p).inProgress = some .reset → s.clip.finishing p.other = false →
      ∃ t, exec .resetComplete s = .next t ∧ (t.port p).inProgress = none ∧
        ∃ r, (t.port p).response = some r ∧ r.code = .ok ∧ r.overrun = (s.port p).overrun)

/-! ### What every step keeps -/

/-- Every step keeps the bounds of the ports, of site time, of the emission parameters, and of the monitor with the
changeover: at most 32 event records and 65,535 lost events (R171, R172); tick, correction and the counts of the
discipline in their ranges (R1, R6, R9 to R13); the parameters within what their commands allow (R60, R61, R76, R77,
R169); the scan within its range, the history and the return delay within theirs (R132, R133, R142, R145). -/
def Obligations.StepKeepsRanges : Prop :=
  ∀ s t : State, step s = .next t →
    (s.station.ok = true → s.network.ok = true → t.station.ok = true ∧ t.network.ok = true) ∧
    (s.tb.ok = true → t.tb.ok = true) ∧ (s.launch.ok = true → t.launch.ok = true) ∧
    (s.mon.ok = true → s.chg.ok = true → t.mon.ok = true ∧ t.chg.ok = true)

/-- No step loses or makes a cell: the free cells and the cells of all records are 65,536, and the table has 128 places
(R33, R34). -/
def Obligations.StepKeepsEveryCell : Prop :=
  ∀ s t : State, s.store.ok = true → step s = .next t → t.store.ok = true

/-- Every step keeps every table at the number of records the part is built with, the group numbers at 16 bits, and every
line that is not locked without a frozen level (R28, R33, R91, R99, R123, R134, R156). -/
def Obligations.StepKeepsTables : Prop :=
  ∀ s t : State, step s = .next t →
    (s.shaped = true → t.shaped = true) ∧ (s.numbered = true → t.numbered = true) ∧
    (s.frozenIsLocked = true → t.frozenIsLocked = true)

/-- Every step keeps the canonical form of clip memory and every access under way within it (R83 to R86), and every lane's
queue at 64 packets or fewer (R92). -/
def Obligations.StepKeepsClipMemoryAndQueues : Prop :=
  ∀ s t : State, step s = .next t →
    (s.clipSound = true → t.clipSound = true) ∧ (s.queuesBounded = true → t.queuesBounded = true)

/-- Every step keeps the law that checks 3 and 4 at trigger uphold: every CUED or ON_AIR break holds a lane of its own, and
no two of them name the same slot (R108). -/
def Obligations.StepKeepsSpliceLaw : Prop :=
  ∀ s t : State, s.spliceLaw = true → step s = .next t → t.spliceLaw = true

/-- Every step keeps the part without copies, queue, scheduled start or emission outside RUN (R25, R37, R55, R81). -/
def Obligations.StepKeepsStandbyEmpty : Prop :=
  ∀ s t : State, s.idleOutsideRun = true → step s = .next t → t.idleOutsideRun = true

/-- The state after reset meets what every step keeps. -/
def Obligations.ResetMeetsTheInvariants : Prop :=
  State.reset.station.ok = true ∧ State.reset.network.ok = true ∧ State.reset.tb.ok = true ∧
  State.reset.launch.ok = true ∧ State.reset.mon.ok = true ∧ State.reset.chg.ok = true ∧
  State.reset.store.ok = true ∧ State.reset.clipSound = true ∧ State.reset.queuesBounded = true ∧
  State.reset.spliceLaw = true ∧ State.reset.idleOutsideRun = true ∧ State.reset.shaped = true ∧
  State.reset.numbered = true ∧ State.reset.frozenIsLocked = true
end

