-- ==== Sys2Proof/Laws/State.lean ====
section
/-! SUPPORT. What each setter of the state leaves in each field: one equation per field and setter, so that no later proof
unfolds a record update. -/

namespace Sys2Proof.Machine

open Sys2Proof

/-! ### withTb -/

section

variable (s : State) (x : Timebase)

@[simp] theorem State.withTb_tb : (s.withTb x).tb = x := rfl
@[simp] theorem State.withTb_feedA : (s.withTb x).feedA = s.feedA := rfl
@[simp] theorem State.withTb_feedB : (s.withTb x).feedB = s.feedB := rfl
@[simp] theorem State.withTb_store : (s.withTb x).store = s.store := rfl
@[simp] theorem State.withTb_sel : (s.withTb x).sel = s.sel := rfl
@[simp] theorem State.withTb_launch : (s.withTb x).launch = s.launch := rfl
@[simp] theorem State.withTb_clip : (s.withTb x).clip = s.clip := rfl
@[simp] theorem State.withTb_lanes : (s.withTb x).lanes = s.lanes := rfl
@[simp] theorem State.withTb_splice : (s.withTb x).splice = s.splice := rfl
@[simp] theorem State.withTb_windows : (s.withTb x).windows = s.windows := rfl
@[simp] theorem State.withTb_mon : (s.withTb x).mon = s.mon := rfl
@[simp] theorem State.withTb_chg : (s.withTb x).chg = s.chg := rfl
@[simp] theorem State.withTb_lines : (s.withTb x).lines = s.lines := rfl
@[simp] theorem State.withTb_station : (s.withTb x).station = s.station := rfl
@[simp] theorem State.withTb_network : (s.withTb x).network = s.network := rfl
@[simp] theorem State.withTb_part : (s.withTb x).part = s.part := rfl
@[simp] theorem State.withTb_paramLock : (s.withTb x).paramLock = s.paramLock := rfl
@[simp] theorem State.withTb_draws : (s.withTb x).draws = s.draws := rfl
@[simp] theorem State.withTb_pending : (s.withTb x).pending = s.pending := rfl

end

/-! ### withStore -/

section

variable (s : State) (x : Store)

@[simp] theorem State.withStore_tb : (s.withStore x).tb = s.tb := rfl
@[simp] theorem State.withStore_feedA : (s.withStore x).feedA = s.feedA := rfl
@[simp] theorem State.withStore_feedB : (s.withStore x).feedB = s.feedB := rfl
@[simp] theorem State.withStore_store : (s.withStore x).store = x := rfl
@[simp] theorem State.withStore_sel : (s.withStore x).sel = s.sel := rfl
@[simp] theorem State.withStore_launch : (s.withStore x).launch = s.launch := rfl
@[simp] theorem State.withStore_clip : (s.withStore x).clip = s.clip := rfl
@[simp] theorem State.withStore_lanes : (s.withStore x).lanes = s.lanes := rfl
@[simp] theorem State.withStore_splice : (s.withStore x).splice = s.splice := rfl
@[simp] theorem State.withStore_windows : (s.withStore x).windows = s.windows := rfl
@[simp] theorem State.withStore_mon : (s.withStore x).mon = s.mon := rfl
@[simp] theorem State.withStore_chg : (s.withStore x).chg = s.chg := rfl
@[simp] theorem State.withStore_lines : (s.withStore x).lines = s.lines := rfl
@[simp] theorem State.withStore_station : (s.withStore x).station = s.station := rfl
@[simp] theorem State.withStore_network : (s.withStore x).network = s.network := rfl
@[simp] theorem State.withStore_part : (s.withStore x).part = s.part := rfl
@[simp] theorem State.withStore_paramLock : (s.withStore x).paramLock = s.paramLock := rfl
@[simp] theorem State.withStore_draws : (s.withStore x).draws = s.draws := rfl
@[simp] theorem State.withStore_pending : (s.withStore x).pending = s.pending := rfl

end

/-! ### withSel -/

section

variable (s : State) (x : Selector)

@[simp] theorem State.withSel_tb : (s.withSel x).tb = s.tb := rfl
@[simp] theorem State.withSel_feedA : (s.withSel x).feedA = s.feedA := rfl
@[simp] theorem State.withSel_feedB : (s.withSel x).feedB = s.feedB := rfl
@[simp] theorem State.withSel_store : (s.withSel x).store = s.store := rfl
@[simp] theorem State.withSel_sel : (s.withSel x).sel = x := rfl
@[simp] theorem State.withSel_launch : (s.withSel x).launch = s.launch := rfl
@[simp] theorem State.withSel_clip : (s.withSel x).clip = s.clip := rfl
@[simp] theorem State.withSel_lanes : (s.withSel x).lanes = s.lanes := rfl
@[simp] theorem State.withSel_splice : (s.withSel x).splice = s.splice := rfl
@[simp] theorem State.withSel_windows : (s.withSel x).windows = s.windows := rfl
@[simp] theorem State.withSel_mon : (s.withSel x).mon = s.mon := rfl
@[simp] theorem State.withSel_chg : (s.withSel x).chg = s.chg := rfl
@[simp] theorem State.withSel_lines : (s.withSel x).lines = s.lines := rfl
@[simp] theorem State.withSel_station : (s.withSel x).station = s.station := rfl
@[simp] theorem State.withSel_network : (s.withSel x).network = s.network := rfl
@[simp] theorem State.withSel_part : (s.withSel x).part = s.part := rfl
@[simp] theorem State.withSel_paramLock : (s.withSel x).paramLock = s.paramLock := rfl
@[simp] theorem State.withSel_draws : (s.withSel x).draws = s.draws := rfl
@[simp] theorem State.withSel_pending : (s.withSel x).pending = s.pending := rfl

end

/-! ### withLaunch -/

section

variable (s : State) (x : Launch)

@[simp] theorem State.withLaunch_tb : (s.withLaunch x).tb = s.tb := rfl
@[simp] theorem State.withLaunch_feedA : (s.withLaunch x).feedA = s.feedA := rfl
@[simp] theorem State.withLaunch_feedB : (s.withLaunch x).feedB = s.feedB := rfl
@[simp] theorem State.withLaunch_store : (s.withLaunch x).store = s.store := rfl
@[simp] theorem State.withLaunch_sel : (s.withLaunch x).sel = s.sel := rfl
@[simp] theorem State.withLaunch_launch : (s.withLaunch x).launch = x := rfl
@[simp] theorem State.withLaunch_clip : (s.withLaunch x).clip = s.clip := rfl
@[simp] theorem State.withLaunch_lanes : (s.withLaunch x).lanes = s.lanes := rfl
@[simp] theorem State.withLaunch_splice : (s.withLaunch x).splice = s.splice := rfl
@[simp] theorem State.withLaunch_windows : (s.withLaunch x).windows = s.windows := rfl
@[simp] theorem State.withLaunch_mon : (s.withLaunch x).mon = s.mon := rfl
@[simp] theorem State.withLaunch_chg : (s.withLaunch x).chg = s.chg := rfl
@[simp] theorem State.withLaunch_lines : (s.withLaunch x).lines = s.lines := rfl
@[simp] theorem State.withLaunch_station : (s.withLaunch x).station = s.station := rfl
@[simp] theorem State.withLaunch_network : (s.withLaunch x).network = s.network := rfl
@[simp] theorem State.withLaunch_part : (s.withLaunch x).part = s.part := rfl
@[simp] theorem State.withLaunch_paramLock : (s.withLaunch x).paramLock = s.paramLock := rfl
@[simp] theorem State.withLaunch_draws : (s.withLaunch x).draws = s.draws := rfl
@[simp] theorem State.withLaunch_pending : (s.withLaunch x).pending = s.pending := rfl

end

/-! ### withClip -/

section

variable (s : State) (x : Clip)

@[simp] theorem State.withClip_tb : (s.withClip x).tb = s.tb := rfl
@[simp] theorem State.withClip_feedA : (s.withClip x).feedA = s.feedA := rfl
@[simp] theorem State.withClip_feedB : (s.withClip x).feedB = s.feedB := rfl
@[simp] theorem State.withClip_store : (s.withClip x).store = s.store := rfl
@[simp] theorem State.withClip_sel : (s.withClip x).sel = s.sel := rfl
@[simp] theorem State.withClip_launch : (s.withClip x).launch = s.launch := rfl
@[simp] theorem State.withClip_clip : (s.withClip x).clip = x := rfl
@[simp] theorem State.withClip_lanes : (s.withClip x).lanes = s.lanes := rfl
@[simp] theorem State.withClip_splice : (s.withClip x).splice = s.splice := rfl
@[simp] theorem State.withClip_windows : (s.withClip x).windows = s.windows := rfl
@[simp] theorem State.withClip_mon : (s.withClip x).mon = s.mon := rfl
@[simp] theorem State.withClip_chg : (s.withClip x).chg = s.chg := rfl
@[simp] theorem State.withClip_lines : (s.withClip x).lines = s.lines := rfl
@[simp] theorem State.withClip_station : (s.withClip x).station = s.station := rfl
@[simp] theorem State.withClip_network : (s.withClip x).network = s.network := rfl
@[simp] theorem State.withClip_part : (s.withClip x).part = s.part := rfl
@[simp] theorem State.withClip_paramLock : (s.withClip x).paramLock = s.paramLock := rfl
@[simp] theorem State.withClip_draws : (s.withClip x).draws = s.draws := rfl
@[simp] theorem State.withClip_pending : (s.withClip x).pending = s.pending := rfl

end

/-! ### withLanes -/

section

variable (s : State) (x : List Lane)

@[simp] theorem State.withLanes_tb : (s.withLanes x).tb = s.tb := rfl
@[simp] theorem State.withLanes_feedA : (s.withLanes x).feedA = s.feedA := rfl
@[simp] theorem State.withLanes_feedB : (s.withLanes x).feedB = s.feedB := rfl
@[simp] theorem State.withLanes_store : (s.withLanes x).store = s.store := rfl
@[simp] theorem State.withLanes_sel : (s.withLanes x).sel = s.sel := rfl
@[simp] theorem State.withLanes_launch : (s.withLanes x).launch = s.launch := rfl
@[simp] theorem State.withLanes_clip : (s.withLanes x).clip = s.clip := rfl
@[simp] theorem State.withLanes_lanes : (s.withLanes x).lanes = x := rfl
@[simp] theorem State.withLanes_splice : (s.withLanes x).splice = s.splice := rfl
@[simp] theorem State.withLanes_windows : (s.withLanes x).windows = s.windows := rfl
@[simp] theorem State.withLanes_mon : (s.withLanes x).mon = s.mon := rfl
@[simp] theorem State.withLanes_chg : (s.withLanes x).chg = s.chg := rfl
@[simp] theorem State.withLanes_lines : (s.withLanes x).lines = s.lines := rfl
@[simp] theorem State.withLanes_station : (s.withLanes x).station = s.station := rfl
@[simp] theorem State.withLanes_network : (s.withLanes x).network = s.network := rfl
@[simp] theorem State.withLanes_part : (s.withLanes x).part = s.part := rfl
@[simp] theorem State.withLanes_paramLock : (s.withLanes x).paramLock = s.paramLock := rfl
@[simp] theorem State.withLanes_draws : (s.withLanes x).draws = s.draws := rfl
@[simp] theorem State.withLanes_pending : (s.withLanes x).pending = s.pending := rfl

end

/-! ### withSplice -/

section

variable (s : State) (x : Splice)

@[simp] theorem State.withSplice_tb : (s.withSplice x).tb = s.tb := rfl
@[simp] theorem State.withSplice_feedA : (s.withSplice x).feedA = s.feedA := rfl
@[simp] theorem State.withSplice_feedB : (s.withSplice x).feedB = s.feedB := rfl
@[simp] theorem State.withSplice_store : (s.withSplice x).store = s.store := rfl
@[simp] theorem State.withSplice_sel : (s.withSplice x).sel = s.sel := rfl
@[simp] theorem State.withSplice_launch : (s.withSplice x).launch = s.launch := rfl
@[simp] theorem State.withSplice_clip : (s.withSplice x).clip = s.clip := rfl
@[simp] theorem State.withSplice_lanes : (s.withSplice x).lanes = s.lanes := rfl
@[simp] theorem State.withSplice_splice : (s.withSplice x).splice = x := rfl
@[simp] theorem State.withSplice_windows : (s.withSplice x).windows = s.windows := rfl
@[simp] theorem State.withSplice_mon : (s.withSplice x).mon = s.mon := rfl
@[simp] theorem State.withSplice_chg : (s.withSplice x).chg = s.chg := rfl
@[simp] theorem State.withSplice_lines : (s.withSplice x).lines = s.lines := rfl
@[simp] theorem State.withSplice_station : (s.withSplice x).station = s.station := rfl
@[simp] theorem State.withSplice_network : (s.withSplice x).network = s.network := rfl
@[simp] theorem State.withSplice_part : (s.withSplice x).part = s.part := rfl
@[simp] theorem State.withSplice_paramLock : (s.withSplice x).paramLock = s.paramLock := rfl
@[simp] theorem State.withSplice_draws : (s.withSplice x).draws = s.draws := rfl
@[simp] theorem State.withSplice_pending : (s.withSplice x).pending = s.pending := rfl

end

/-! ### withWindows -/

section

variable (s : State) (x : List Window)

@[simp] theorem State.withWindows_tb : (s.withWindows x).tb = s.tb := rfl
@[simp] theorem State.withWindows_feedA : (s.withWindows x).feedA = s.feedA := rfl
@[simp] theorem State.withWindows_feedB : (s.withWindows x).feedB = s.feedB := rfl
@[simp] theorem State.withWindows_store : (s.withWindows x).store = s.store := rfl
@[simp] theorem State.withWindows_sel : (s.withWindows x).sel = s.sel := rfl
@[simp] theorem State.withWindows_launch : (s.withWindows x).launch = s.launch := rfl
@[simp] theorem State.withWindows_clip : (s.withWindows x).clip = s.clip := rfl
@[simp] theorem State.withWindows_lanes : (s.withWindows x).lanes = s.lanes := rfl
@[simp] theorem State.withWindows_splice : (s.withWindows x).splice = s.splice := rfl
@[simp] theorem State.withWindows_windows : (s.withWindows x).windows = x := rfl
@[simp] theorem State.withWindows_mon : (s.withWindows x).mon = s.mon := rfl
@[simp] theorem State.withWindows_chg : (s.withWindows x).chg = s.chg := rfl
@[simp] theorem State.withWindows_lines : (s.withWindows x).lines = s.lines := rfl
@[simp] theorem State.withWindows_station : (s.withWindows x).station = s.station := rfl
@[simp] theorem State.withWindows_network : (s.withWindows x).network = s.network := rfl
@[simp] theorem State.withWindows_part : (s.withWindows x).part = s.part := rfl
@[simp] theorem State.withWindows_paramLock : (s.withWindows x).paramLock = s.paramLock := rfl
@[simp] theorem State.withWindows_draws : (s.withWindows x).draws = s.draws := rfl
@[simp] theorem State.withWindows_pending : (s.withWindows x).pending = s.pending := rfl

end

/-! ### withMon -/

section

variable (s : State) (x : Monitor)

@[simp] theorem State.withMon_tb : (s.withMon x).tb = s.tb := rfl
@[simp] theorem State.withMon_feedA : (s.withMon x).feedA = s.feedA := rfl
@[simp] theorem State.withMon_feedB : (s.withMon x).feedB = s.feedB := rfl
@[simp] theorem State.withMon_store : (s.withMon x).store = s.store := rfl
@[simp] theorem State.withMon_sel : (s.withMon x).sel = s.sel := rfl
@[simp] theorem State.withMon_launch : (s.withMon x).launch = s.launch := rfl
@[simp] theorem State.withMon_clip : (s.withMon x).clip = s.clip := rfl
@[simp] theorem State.withMon_lanes : (s.withMon x).lanes = s.lanes := rfl
@[simp] theorem State.withMon_splice : (s.withMon x).splice = s.splice := rfl
@[simp] theorem State.withMon_windows : (s.withMon x).windows = s.windows := rfl
@[simp] theorem State.withMon_mon : (s.withMon x).mon = x := rfl
@[simp] theorem State.withMon_chg : (s.withMon x).chg = s.chg := rfl
@[simp] theorem State.withMon_lines : (s.withMon x).lines = s.lines := rfl
@[simp] theorem State.withMon_station : (s.withMon x).station = s.station := rfl
@[simp] theorem State.withMon_network : (s.withMon x).network = s.network := rfl
@[simp] theorem State.withMon_part : (s.withMon x).part = s.part := rfl
@[simp] theorem State.withMon_paramLock : (s.withMon x).paramLock = s.paramLock := rfl
@[simp] theorem State.withMon_draws : (s.withMon x).draws = s.draws := rfl
@[simp] theorem State.withMon_pending : (s.withMon x).pending = s.pending := rfl

end

/-! ### withChg -/

section

variable (s : State) (x : Changeover)

@[simp] theorem State.withChg_tb : (s.withChg x).tb = s.tb := rfl
@[simp] theorem State.withChg_feedA : (s.withChg x).feedA = s.feedA := rfl
@[simp] theorem State.withChg_feedB : (s.withChg x).feedB = s.feedB := rfl
@[simp] theorem State.withChg_store : (s.withChg x).store = s.store := rfl
@[simp] theorem State.withChg_sel : (s.withChg x).sel = s.sel := rfl
@[simp] theorem State.withChg_launch : (s.withChg x).launch = s.launch := rfl
@[simp] theorem State.withChg_clip : (s.withChg x).clip = s.clip := rfl
@[simp] theorem State.withChg_lanes : (s.withChg x).lanes = s.lanes := rfl
@[simp] theorem State.withChg_splice : (s.withChg x).splice = s.splice := rfl
@[simp] theorem State.withChg_windows : (s.withChg x).windows = s.windows := rfl
@[simp] theorem State.withChg_mon : (s.withChg x).mon = s.mon := rfl
@[simp] theorem State.withChg_chg : (s.withChg x).chg = x := rfl
@[simp] theorem State.withChg_lines : (s.withChg x).lines = s.lines := rfl
@[simp] theorem State.withChg_station : (s.withChg x).station = s.station := rfl
@[simp] theorem State.withChg_network : (s.withChg x).network = s.network := rfl
@[simp] theorem State.withChg_part : (s.withChg x).part = s.part := rfl
@[simp] theorem State.withChg_paramLock : (s.withChg x).paramLock = s.paramLock := rfl
@[simp] theorem State.withChg_draws : (s.withChg x).draws = s.draws := rfl
@[simp] theorem State.withChg_pending : (s.withChg x).pending = s.pending := rfl

end

/-! ### withLines -/

section

variable (s : State) (x : Lines)

@[simp] theorem State.withLines_tb : (s.withLines x).tb = s.tb := rfl
@[simp] theorem State.withLines_feedA : (s.withLines x).feedA = s.feedA := rfl
@[simp] theorem State.withLines_feedB : (s.withLines x).feedB = s.feedB := rfl
@[simp] theorem State.withLines_store : (s.withLines x).store = s.store := rfl
@[simp] theorem State.withLines_sel : (s.withLines x).sel = s.sel := rfl
@[simp] theorem State.withLines_launch : (s.withLines x).launch = s.launch := rfl
@[simp] theorem State.withLines_clip : (s.withLines x).clip = s.clip := rfl
@[simp] theorem State.withLines_lanes : (s.withLines x).lanes = s.lanes := rfl
@[simp] theorem State.withLines_splice : (s.withLines x).splice = s.splice := rfl
@[simp] theorem State.withLines_windows : (s.withLines x).windows = s.windows := rfl
@[simp] theorem State.withLines_mon : (s.withLines x).mon = s.mon := rfl
@[simp] theorem State.withLines_chg : (s.withLines x).chg = s.chg := rfl
@[simp] theorem State.withLines_lines : (s.withLines x).lines = x := rfl
@[simp] theorem State.withLines_station : (s.withLines x).station = s.station := rfl
@[simp] theorem State.withLines_network : (s.withLines x).network = s.network := rfl
@[simp] theorem State.withLines_part : (s.withLines x).part = s.part := rfl
@[simp] theorem State.withLines_paramLock : (s.withLines x).paramLock = s.paramLock := rfl
@[simp] theorem State.withLines_draws : (s.withLines x).draws = s.draws := rfl
@[simp] theorem State.withLines_pending : (s.withLines x).pending = s.pending := rfl

end

/-! ### withPart -/

section

variable (s : State) (x : PartState)

@[simp] theorem State.withPart_tb : (s.withPart x).tb = s.tb := rfl
@[simp] theorem State.withPart_feedA : (s.withPart x).feedA = s.feedA := rfl
@[simp] theorem State.withPart_feedB : (s.withPart x).feedB = s.feedB := rfl
@[simp] theorem State.withPart_store : (s.withPart x).store = s.store := rfl
@[simp] theorem State.withPart_sel : (s.withPart x).sel = s.sel := rfl
@[simp] theorem State.withPart_launch : (s.withPart x).launch = s.launch := rfl
@[simp] theorem State.withPart_clip : (s.withPart x).clip = s.clip := rfl
@[simp] theorem State.withPart_lanes : (s.withPart x).lanes = s.lanes := rfl
@[simp] theorem State.withPart_splice : (s.withPart x).splice = s.splice := rfl
@[simp] theorem State.withPart_windows : (s.withPart x).windows = s.windows := rfl
@[simp] theorem State.withPart_mon : (s.withPart x).mon = s.mon := rfl
@[simp] theorem State.withPart_chg : (s.withPart x).chg = s.chg := rfl
@[simp] theorem State.withPart_lines : (s.withPart x).lines = s.lines := rfl
@[simp] theorem State.withPart_station : (s.withPart x).station = s.station := rfl
@[simp] theorem State.withPart_network : (s.withPart x).network = s.network := rfl
@[simp] theorem State.withPart_part : (s.withPart x).part = x := rfl
@[simp] theorem State.withPart_paramLock : (s.withPart x).paramLock = s.paramLock := rfl
@[simp] theorem State.withPart_draws : (s.withPart x).draws = s.draws := rfl
@[simp] theorem State.withPart_pending : (s.withPart x).pending = s.pending := rfl

end

/-! ### withLock -/

section

variable (s : State) (x : Bool)

@[simp] theorem State.withLock_tb : (s.withLock x).tb = s.tb := rfl
@[simp] theorem State.withLock_feedA : (s.withLock x).feedA = s.feedA := rfl
@[simp] theorem State.withLock_feedB : (s.withLock x).feedB = s.feedB := rfl
@[simp] theorem State.withLock_store : (s.withLock x).store = s.store := rfl
@[simp] theorem State.withLock_sel : (s.withLock x).sel = s.sel := rfl
@[simp] theorem State.withLock_launch : (s.withLock x).launch = s.launch := rfl
@[simp] theorem State.withLock_clip : (s.withLock x).clip = s.clip := rfl
@[simp] theorem State.withLock_lanes : (s.withLock x).lanes = s.lanes := rfl
@[simp] theorem State.withLock_splice : (s.withLock x).splice = s.splice := rfl
@[simp] theorem State.withLock_windows : (s.withLock x).windows = s.windows := rfl
@[simp] theorem State.withLock_mon : (s.withLock x).mon = s.mon := rfl
@[simp] theorem State.withLock_chg : (s.withLock x).chg = s.chg := rfl
@[simp] theorem State.withLock_lines : (s.withLock x).lines = s.lines := rfl
@[simp] theorem State.withLock_station : (s.withLock x).station = s.station := rfl
@[simp] theorem State.withLock_network : (s.withLock x).network = s.network := rfl
@[simp] theorem State.withLock_part : (s.withLock x).part = s.part := rfl
@[simp] theorem State.withLock_paramLock : (s.withLock x).paramLock = x := rfl
@[simp] theorem State.withLock_draws : (s.withLock x).draws = s.draws := rfl
@[simp] theorem State.withLock_pending : (s.withLock x).pending = s.pending := rfl

end

/-! ### withRecord -/

section

variable (s : State) (i : Nat) (x : Option GroupRecord)

@[simp] theorem State.withRecord_tb : (s.withRecord i x).tb = s.tb := rfl
@[simp] theorem State.withRecord_feedA : (s.withRecord i x).feedA = s.feedA := rfl
@[simp] theorem State.withRecord_feedB : (s.withRecord i x).feedB = s.feedB := rfl
@[simp] theorem State.withRecord_sel : (s.withRecord i x).sel = s.sel := rfl
@[simp] theorem State.withRecord_launch : (s.withRecord i x).launch = s.launch := rfl
@[simp] theorem State.withRecord_clip : (s.withRecord i x).clip = s.clip := rfl
@[simp] theorem State.withRecord_lanes : (s.withRecord i x).lanes = s.lanes := rfl
@[simp] theorem State.withRecord_splice : (s.withRecord i x).splice = s.splice := rfl
@[simp] theorem State.withRecord_windows : (s.withRecord i x).windows = s.windows := rfl
@[simp] theorem State.withRecord_mon : (s.withRecord i x).mon = s.mon := rfl
@[simp] theorem State.withRecord_chg : (s.withRecord i x).chg = s.chg := rfl
@[simp] theorem State.withRecord_lines : (s.withRecord i x).lines = s.lines := rfl
@[simp] theorem State.withRecord_station : (s.withRecord i x).station = s.station := rfl
@[simp] theorem State.withRecord_network : (s.withRecord i x).network = s.network := rfl
@[simp] theorem State.withRecord_part : (s.withRecord i x).part = s.part := rfl
@[simp] theorem State.withRecord_paramLock : (s.withRecord i x).paramLock = s.paramLock := rfl
@[simp] theorem State.withRecord_draws : (s.withRecord i x).draws = s.draws := rfl
@[simp] theorem State.withRecord_pending : (s.withRecord i x).pending = s.pending := rfl

end

/-! ### withLane -/

section

variable (s : State) (i : Nat) (x : Lane)

@[simp] theorem State.withLane_tb : (s.withLane i x).tb = s.tb := rfl
@[simp] theorem State.withLane_feedA : (s.withLane i x).feedA = s.feedA := rfl
@[simp] theorem State.withLane_feedB : (s.withLane i x).feedB = s.feedB := rfl
@[simp] theorem State.withLane_store : (s.withLane i x).store = s.store := rfl
@[simp] theorem State.withLane_sel : (s.withLane i x).sel = s.sel := rfl
@[simp] theorem State.withLane_launch : (s.withLane i x).launch = s.launch := rfl
@[simp] theorem State.withLane_clip : (s.withLane i x).clip = s.clip := rfl
@[simp] theorem State.withLane_splice : (s.withLane i x).splice = s.splice := rfl
@[simp] theorem State.withLane_windows : (s.withLane i x).windows = s.windows := rfl
@[simp] theorem State.withLane_mon : (s.withLane i x).mon = s.mon := rfl
@[simp] theorem State.withLane_chg : (s.withLane i x).chg = s.chg := rfl
@[simp] theorem State.withLane_lines : (s.withLane i x).lines = s.lines := rfl
@[simp] theorem State.withLane_station : (s.withLane i x).station = s.station := rfl
@[simp] theorem State.withLane_network : (s.withLane i x).network = s.network := rfl
@[simp] theorem State.withLane_part : (s.withLane i x).part = s.part := rfl
@[simp] theorem State.withLane_paramLock : (s.withLane i x).paramLock = s.paramLock := rfl
@[simp] theorem State.withLane_draws : (s.withLane i x).draws = s.draws := rfl
@[simp] theorem State.withLane_pending : (s.withLane i x).pending = s.pending := rfl

end

/-! ### withSlot -/

section

variable (s : State) (i : Nat) (x : Slot)

@[simp] theorem State.withSlot_tb : (s.withSlot i x).tb = s.tb := rfl
@[simp] theorem State.withSlot_feedA : (s.withSlot i x).feedA = s.feedA := rfl
@[simp] theorem State.withSlot_feedB : (s.withSlot i x).feedB = s.feedB := rfl
@[simp] theorem State.withSlot_store : (s.withSlot i x).store = s.store := rfl
@[simp] theorem State.withSlot_sel : (s.withSlot i x).sel = s.sel := rfl
@[simp] theorem State.withSlot_launch : (s.withSlot i x).launch = s.launch := rfl
@[simp] theorem State.withSlot_clip : (s.withSlot i x).clip = s.clip := rfl
@[simp] theorem State.withSlot_lanes : (s.withSlot i x).lanes = s.lanes := rfl
@[simp] theorem State.withSlot_windows : (s.withSlot i x).windows = s.windows := rfl
@[simp] theorem State.withSlot_mon : (s.withSlot i x).mon = s.mon := rfl
@[simp] theorem State.withSlot_chg : (s.withSlot i x).chg = s.chg := rfl
@[simp] theorem State.withSlot_lines : (s.withSlot i x).lines = s.lines := rfl
@[simp] theorem State.withSlot_station : (s.withSlot i x).station = s.station := rfl
@[simp] theorem State.withSlot_network : (s.withSlot i x).network = s.network := rfl
@[simp] theorem State.withSlot_part : (s.withSlot i x).part = s.part := rfl
@[simp] theorem State.withSlot_paramLock : (s.withSlot i x).paramLock = s.paramLock := rfl
@[simp] theorem State.withSlot_draws : (s.withSlot i x).draws = s.draws := rfl
@[simp] theorem State.withSlot_pending : (s.withSlot i x).pending = s.pending := rfl

end

/-! ### withBreak -/

section

variable (s : State) (i : Nat) (x : BreakRecord)

@[simp] theorem State.withBreak_tb : (s.withBreak i x).tb = s.tb := rfl
@[simp] theorem State.withBreak_feedA : (s.withBreak i x).feedA = s.feedA := rfl
@[simp] theorem State.withBreak_feedB : (s.withBreak i x).feedB = s.feedB := rfl
@[simp] theorem State.withBreak_store : (s.withBreak i x).store = s.store := rfl
@[simp] theorem State.withBreak_sel : (s.withBreak i x).sel = s.sel := rfl
@[simp] theorem State.withBreak_launch : (s.withBreak i x).launch = s.launch := rfl
@[simp] theorem State.withBreak_clip : (s.withBreak i x).clip = s.clip := rfl
@[simp] theorem State.withBreak_lanes : (s.withBreak i x).lanes = s.lanes := rfl
@[simp] theorem State.withBreak_windows : (s.withBreak i x).windows = s.windows := rfl
@[simp] theorem State.withBreak_mon : (s.withBreak i x).mon = s.mon := rfl
@[simp] theorem State.withBreak_chg : (s.withBreak i x).chg = s.chg := rfl
@[simp] theorem State.withBreak_lines : (s.withBreak i x).lines = s.lines := rfl
@[simp] theorem State.withBreak_station : (s.withBreak i x).station = s.station := rfl
@[simp] theorem State.withBreak_network : (s.withBreak i x).network = s.network := rfl
@[simp] theorem State.withBreak_part : (s.withBreak i x).part = s.part := rfl
@[simp] theorem State.withBreak_paramLock : (s.withBreak i x).paramLock = s.paramLock := rfl
@[simp] theorem State.withBreak_draws : (s.withBreak i x).draws = s.draws := rfl
@[simp] theorem State.withBreak_pending : (s.withBreak i x).pending = s.pending := rfl

end

/-! ### withWindow -/

section

variable (s : State) (i : Nat) (x : Window)

@[simp] theorem State.withWindow_tb : (s.withWindow i x).tb = s.tb := rfl
@[simp] theorem State.withWindow_feedA : (s.withWindow i x).feedA = s.feedA := rfl
@[simp] theorem State.withWindow_feedB : (s.withWindow i x).feedB = s.feedB := rfl
@[simp] theorem State.withWindow_store : (s.withWindow i x).store = s.store := rfl
@[simp] theorem State.withWindow_sel : (s.withWindow i x).sel = s.sel := rfl
@[simp] theorem State.withWindow_launch : (s.withWindow i x).launch = s.launch := rfl
@[simp] theorem State.withWindow_clip : (s.withWindow i x).clip = s.clip := rfl
@[simp] theorem State.withWindow_lanes : (s.withWindow i x).lanes = s.lanes := rfl
@[simp] theorem State.withWindow_splice : (s.withWindow i x).splice = s.splice := rfl
@[simp] theorem State.withWindow_mon : (s.withWindow i x).mon = s.mon := rfl
@[simp] theorem State.withWindow_chg : (s.withWindow i x).chg = s.chg := rfl
@[simp] theorem State.withWindow_lines : (s.withWindow i x).lines = s.lines := rfl
@[simp] theorem State.withWindow_station : (s.withWindow i x).station = s.station := rfl
@[simp] theorem State.withWindow_network : (s.withWindow i x).network = s.network := rfl
@[simp] theorem State.withWindow_part : (s.withWindow i x).part = s.part := rfl
@[simp] theorem State.withWindow_paramLock : (s.withWindow i x).paramLock = s.paramLock := rfl
@[simp] theorem State.withWindow_draws : (s.withWindow i x).draws = s.draws := rfl
@[simp] theorem State.withWindow_pending : (s.withWindow i x).pending = s.pending := rfl

end

/-! ### withChannel -/

section

variable (s : State) (i : Nat) (x : Channel)

@[simp] theorem State.withChannel_tb : (s.withChannel i x).tb = s.tb := rfl
@[simp] theorem State.withChannel_feedA : (s.withChannel i x).feedA = s.feedA := rfl
@[simp] theorem State.withChannel_feedB : (s.withChannel i x).feedB = s.feedB := rfl
@[simp] theorem State.withChannel_store : (s.withChannel i x).store = s.store := rfl
@[simp] theorem State.withChannel_sel : (s.withChannel i x).sel = s.sel := rfl
@[simp] theorem State.withChannel_launch : (s.withChannel i x).launch = s.launch := rfl
@[simp] theorem State.withChannel_clip : (s.withChannel i x).clip = s.clip := rfl
@[simp] theorem State.withChannel_lanes : (s.withChannel i x).lanes = s.lanes := rfl
@[simp] theorem State.withChannel_splice : (s.withChannel i x).splice = s.splice := rfl
@[simp] theorem State.withChannel_windows : (s.withChannel i x).windows = s.windows := rfl
@[simp] theorem State.withChannel_chg : (s.withChannel i x).chg = s.chg := rfl
@[simp] theorem State.withChannel_lines : (s.withChannel i x).lines = s.lines := rfl
@[simp] theorem State.withChannel_station : (s.withChannel i x).station = s.station := rfl
@[simp] theorem State.withChannel_network : (s.withChannel i x).network = s.network := rfl
@[simp] theorem State.withChannel_part : (s.withChannel i x).part = s.part := rfl
@[simp] theorem State.withChannel_paramLock : (s.withChannel i x).paramLock = s.paramLock := rfl
@[simp] theorem State.withChannel_draws : (s.withChannel i x).draws = s.draws := rfl
@[simp] theorem State.withChannel_pending : (s.withChannel i x).pending = s.pending := rfl

end

/-! ### withLine -/

section

variable (s : State) (i : Nat) (x : Line)

@[simp] theorem State.withLine_tb : (s.withLine i x).tb = s.tb := rfl
@[simp] theorem State.withLine_feedA : (s.withLine i x).feedA = s.feedA := rfl
@[simp] theorem State.withLine_feedB : (s.withLine i x).feedB = s.feedB := rfl
@[simp] theorem State.withLine_store : (s.withLine i x).store = s.store := rfl
@[simp] theorem State.withLine_sel : (s.withLine i x).sel = s.sel := rfl
@[simp] theorem State.withLine_launch : (s.withLine i x).launch = s.launch := rfl
@[simp] theorem State.withLine_clip : (s.withLine i x).clip = s.clip := rfl
@[simp] theorem State.withLine_lanes : (s.withLine i x).lanes = s.lanes := rfl
@[simp] theorem State.withLine_splice : (s.withLine i x).splice = s.splice := rfl
@[simp] theorem State.withLine_windows : (s.withLine i x).windows = s.windows := rfl
@[simp] theorem State.withLine_mon : (s.withLine i x).mon = s.mon := rfl
@[simp] theorem State.withLine_chg : (s.withLine i x).chg = s.chg := rfl
@[simp] theorem State.withLine_station : (s.withLine i x).station = s.station := rfl
@[simp] theorem State.withLine_network : (s.withLine i x).network = s.network := rfl
@[simp] theorem State.withLine_part : (s.withLine i x).part = s.part := rfl
@[simp] theorem State.withLine_paramLock : (s.withLine i x).paramLock = s.paramLock := rfl
@[simp] theorem State.withLine_draws : (s.withLine i x).draws = s.draws := rfl
@[simp] theorem State.withLine_pending : (s.withLine i x).pending = s.pending := rfl

end

/-! ### withPlayList -/

section

variable (s : State) (i : Nat) (x : List Segment)

@[simp] theorem State.withPlayList_tb : (s.withPlayList i x).tb = s.tb := rfl
@[simp] theorem State.withPlayList_feedA : (s.withPlayList i x).feedA = s.feedA := rfl
@[simp] theorem State.withPlayList_feedB : (s.withPlayList i x).feedB = s.feedB := rfl
@[simp] theorem State.withPlayList_store : (s.withPlayList i x).store = s.store := rfl
@[simp] theorem State.withPlayList_sel : (s.withPlayList i x).sel = s.sel := rfl
@[simp] theorem State.withPlayList_launch : (s.withPlayList i x).launch = s.launch := rfl
@[simp] theorem State.withPlayList_lanes : (s.withPlayList i x).lanes = s.lanes := rfl
@[simp] theorem State.withPlayList_splice : (s.withPlayList i x).splice = s.splice := rfl
@[simp] theorem State.withPlayList_windows : (s.withPlayList i x).windows = s.windows := rfl
@[simp] theorem State.withPlayList_mon : (s.withPlayList i x).mon = s.mon := rfl
@[simp] theorem State.withPlayList_chg : (s.withPlayList i x).chg = s.chg := rfl
@[simp] theorem State.withPlayList_lines : (s.withPlayList i x).lines = s.lines := rfl
@[simp] theorem State.withPlayList_station : (s.withPlayList i x).station = s.station := rfl
@[simp] theorem State.withPlayList_network : (s.withPlayList i x).network = s.network := rfl
@[simp] theorem State.withPlayList_part : (s.withPlayList i x).part = s.part := rfl
@[simp] theorem State.withPlayList_paramLock : (s.withPlayList i x).paramLock = s.paramLock := rfl
@[simp] theorem State.withPlayList_draws : (s.withPlayList i x).draws = s.draws := rfl
@[simp] theorem State.withPlayList_pending : (s.withPlayList i x).pending = s.pending := rfl

end

/-! ### draw -/

section

variable (s : State) 

@[simp] theorem State.draw_tb : (s.draw).tb = s.tb := rfl
@[simp] theorem State.draw_feedA : (s.draw).feedA = s.feedA := rfl
@[simp] theorem State.draw_feedB : (s.draw).feedB = s.feedB := rfl
@[simp] theorem State.draw_store : (s.draw).store = s.store := rfl
@[simp] theorem State.draw_sel : (s.draw).sel = s.sel := rfl
@[simp] theorem State.draw_launch : (s.draw).launch = s.launch := rfl
@[simp] theorem State.draw_clip : (s.draw).clip = s.clip := rfl
@[simp] theorem State.draw_lanes : (s.draw).lanes = s.lanes := rfl
@[simp] theorem State.draw_splice : (s.draw).splice = s.splice := rfl
@[simp] theorem State.draw_windows : (s.draw).windows = s.windows := rfl
@[simp] theorem State.draw_mon : (s.draw).mon = s.mon := rfl
@[simp] theorem State.draw_chg : (s.draw).chg = s.chg := rfl
@[simp] theorem State.draw_lines : (s.draw).lines = s.lines := rfl
@[simp] theorem State.draw_station : (s.draw).station = s.station := rfl
@[simp] theorem State.draw_network : (s.draw).network = s.network := rfl
@[simp] theorem State.draw_part : (s.draw).part = s.part := rfl
@[simp] theorem State.draw_paramLock : (s.draw).paramLock = s.paramLock := rfl
@[simp] theorem State.draw_pending : (s.draw).pending = s.pending := rfl

end

/-! ### withFeed -/

section

variable (s : State) (f : FeedId) (x : Feed)

@[simp] theorem State.withFeed_tb : (s.withFeed f x).tb = s.tb := by cases f <;> rfl
@[simp] theorem State.withFeed_store : (s.withFeed f x).store = s.store := by cases f <;> rfl
@[simp] theorem State.withFeed_sel : (s.withFeed f x).sel = s.sel := by cases f <;> rfl
@[simp] theorem State.withFeed_launch : (s.withFeed f x).launch = s.launch := by cases f <;> rfl
@[simp] theorem State.withFeed_clip : (s.withFeed f x).clip = s.clip := by cases f <;> rfl
@[simp] theorem State.withFeed_lanes : (s.withFeed f x).lanes = s.lanes := by cases f <;> rfl
@[simp] theorem State.withFeed_splice : (s.withFeed f x).splice = s.splice := by cases f <;> rfl
@[simp] theorem State.withFeed_windows : (s.withFeed f x).windows = s.windows := by cases f <;> rfl
@[simp] theorem State.withFeed_mon : (s.withFeed f x).mon = s.mon := by cases f <;> rfl
@[simp] theorem State.withFeed_chg : (s.withFeed f x).chg = s.chg := by cases f <;> rfl
@[simp] theorem State.withFeed_lines : (s.withFeed f x).lines = s.lines := by cases f <;> rfl
@[simp] theorem State.withFeed_station : (s.withFeed f x).station = s.station := by cases f <;> rfl
@[simp] theorem State.withFeed_network : (s.withFeed f x).network = s.network := by cases f <;> rfl
@[simp] theorem State.withFeed_part : (s.withFeed f x).part = s.part := by cases f <;> rfl
@[simp] theorem State.withFeed_paramLock : (s.withFeed f x).paramLock = s.paramLock := by cases f <;> rfl
@[simp] theorem State.withFeed_draws : (s.withFeed f x).draws = s.draws := by cases f <;> rfl
@[simp] theorem State.withFeed_pending : (s.withFeed f x).pending = s.pending := by cases f <;> rfl

end

/-! ### withPort -/

section

variable (s : State) (p : Port) (x : PortState)

@[simp] theorem State.withPort_tb : (s.withPort p x).tb = s.tb := by cases p <;> rfl
@[simp] theorem State.withPort_feedA : (s.withPort p x).feedA = s.feedA := by cases p <;> rfl
@[simp] theorem State.withPort_feedB : (s.withPort p x).feedB = s.feedB := by cases p <;> rfl
@[simp] theorem State.withPort_store : (s.withPort p x).store = s.store := by cases p <;> rfl
@[simp] theorem State.withPort_sel : (s.withPort p x).sel = s.sel := by cases p <;> rfl
@[simp] theorem State.withPort_launch : (s.withPort p x).launch = s.launch := by cases p <;> rfl
@[simp] theorem State.withPort_clip : (s.withPort p x).clip = s.clip := by cases p <;> rfl
@[simp] theorem State.withPort_lanes : (s.withPort p x).lanes = s.lanes := by cases p <;> rfl
@[simp] theorem State.withPort_splice : (s.withPort p x).splice = s.splice := by cases p <;> rfl
@[simp] theorem State.withPort_windows : (s.withPort p x).windows = s.windows := by cases p <;> rfl
@[simp] theorem State.withPort_mon : (s.withPort p x).mon = s.mon := by cases p <;> rfl
@[simp] theorem State.withPort_chg : (s.withPort p x).chg = s.chg := by cases p <;> rfl
@[simp] theorem State.withPort_lines : (s.withPort p x).lines = s.lines := by cases p <;> rfl
@[simp] theorem State.withPort_part : (s.withPort p x).part = s.part := by cases p <;> rfl
@[simp] theorem State.withPort_paramLock : (s.withPort p x).paramLock = s.paramLock := by cases p <;> rfl
@[simp] theorem State.withPort_draws : (s.withPort p x).draws = s.draws := by cases p <;> rfl
@[simp] theorem State.withPort_pending : (s.withPort p x).pending = s.pending := by cases p <;> rfl

end

/-! ### raise -/

section

variable (s : State) (k : EventKind) (a b : Nat)

@[simp] theorem State.raise_tb : (s.raise k a b).tb = s.tb := rfl
@[simp] theorem State.raise_feedA : (s.raise k a b).feedA = s.feedA := rfl
@[simp] theorem State.raise_feedB : (s.raise k a b).feedB = s.feedB := rfl
@[simp] theorem State.raise_store : (s.raise k a b).store = s.store := rfl
@[simp] theorem State.raise_sel : (s.raise k a b).sel = s.sel := rfl
@[simp] theorem State.raise_launch : (s.raise k a b).launch = s.launch := rfl
@[simp] theorem State.raise_clip : (s.raise k a b).clip = s.clip := rfl
@[simp] theorem State.raise_lanes : (s.raise k a b).lanes = s.lanes := rfl
@[simp] theorem State.raise_splice : (s.raise k a b).splice = s.splice := rfl
@[simp] theorem State.raise_windows : (s.raise k a b).windows = s.windows := rfl
@[simp] theorem State.raise_mon : (s.raise k a b).mon = s.mon := rfl
@[simp] theorem State.raise_chg : (s.raise k a b).chg = s.chg := rfl
@[simp] theorem State.raise_lines : (s.raise k a b).lines = s.lines := rfl
@[simp] theorem State.raise_part : (s.raise k a b).part = s.part := rfl
@[simp] theorem State.raise_paramLock : (s.raise k a b).paramLock = s.paramLock := rfl
@[simp] theorem State.raise_draws : (s.raise k a b).draws = s.draws := rfl
@[simp] theorem State.raise_pending : (s.raise k a b).pending = s.pending := rfl

end

/-! ### respond -/

section

variable (s : State) (p : Port) (r : Reply)

@[simp] theorem State.respond_tb : (s.respond p r).tb = s.tb := by cases p <;> rfl
@[simp] theorem State.respond_feedA : (s.respond p r).feedA = s.feedA := by cases p <;> rfl
@[simp] theorem State.respond_feedB : (s.respond p r).feedB = s.feedB := by cases p <;> rfl
@[simp] theorem State.respond_store : (s.respond p r).store = s.store := by cases p <;> rfl
@[simp] theorem State.respond_sel : (s.respond p r).sel = s.sel := by cases p <;> rfl
@[simp] theorem State.respond_launch : (s.respond p r).launch = s.launch := by cases p <;> rfl
@[simp] theorem State.respond_clip : (s.respond p r).clip = s.clip := by cases p <;> rfl
@[simp] theorem State.respond_lanes : (s.respond p r).lanes = s.lanes := by cases p <;> rfl
@[simp] theorem State.respond_splice : (s.respond p r).splice = s.splice := by cases p <;> rfl
@[simp] theorem State.respond_windows : (s.respond p r).windows = s.windows := by cases p <;> rfl
@[simp] theorem State.respond_mon : (s.respond p r).mon = s.mon := by cases p <;> rfl
@[simp] theorem State.respond_chg : (s.respond p r).chg = s.chg := by cases p <;> rfl
@[simp] theorem State.respond_lines : (s.respond p r).lines = s.lines := by cases p <;> rfl
@[simp] theorem State.respond_part : (s.respond p r).part = s.part := by cases p <;> rfl
@[simp] theorem State.respond_paramLock : (s.respond p r).paramLock = s.paramLock := by cases p <;> rfl
@[simp] theorem State.respond_draws : (s.respond p r).draws = s.draws := by cases p <;> rfl
@[simp] theorem State.respond_pending : (s.respond p r).pending = s.pending := by cases p <;> rfl

end

/-! ### count -/

section

variable (s : State) (f : FeedId) (g : FeedCounters → FeedCounters)

@[simp] theorem State.count_tb : (s.count f g).tb = s.tb := by cases f <;> rfl
@[simp] theorem State.count_store : (s.count f g).store = s.store := by cases f <;> rfl
@[simp] theorem State.count_sel : (s.count f g).sel = s.sel := by cases f <;> rfl
@[simp] theorem State.count_launch : (s.count f g).launch = s.launch := by cases f <;> rfl
@[simp] theorem State.count_clip : (s.count f g).clip = s.clip := by cases f <;> rfl
@[simp] theorem State.count_lanes : (s.count f g).lanes = s.lanes := by cases f <;> rfl
@[simp] theorem State.count_splice : (s.count f g).splice = s.splice := by cases f <;> rfl
@[simp] theorem State.count_windows : (s.count f g).windows = s.windows := by cases f <;> rfl
@[simp] theorem State.count_mon : (s.count f g).mon = s.mon := by cases f <;> rfl
@[simp] theorem State.count_chg : (s.count f g).chg = s.chg := by cases f <;> rfl
@[simp] theorem State.count_lines : (s.count f g).lines = s.lines := by cases f <;> rfl
@[simp] theorem State.count_station : (s.count f g).station = s.station := by cases f <;> rfl
@[simp] theorem State.count_network : (s.count f g).network = s.network := by cases f <;> rfl
@[simp] theorem State.count_part : (s.count f g).part = s.part := by cases f <;> rfl
@[simp] theorem State.count_paramLock : (s.count f g).paramLock = s.paramLock := by cases f <;> rfl
@[simp] theorem State.count_draws : (s.count f g).draws = s.draws := by cases f <;> rfl
@[simp] theorem State.count_pending : (s.count f g).pending = s.pending := by cases f <;> rfl

end

/-! ### The records that a setter names, read back -/

@[simp] theorem State.withFeed_feed (s : State) (f : FeedId) (x : Feed) : (s.withFeed f x).feed f = x := by
  cases f <;> rfl

@[simp] theorem State.withFeed_feed_other (s : State) (f : FeedId) (x : Feed) :
    (s.withFeed f x).feed f.other = s.feed f.other := by
  cases f <;> rfl

@[simp] theorem State.withPort_port (s : State) (p : Port) (x : PortState) : (s.withPort p x).port p = x := by
  cases p <;> rfl

@[simp] theorem State.withPort_port_other (s : State) (p : Port) (x : PortState) :
    (s.withPort p x).port p.other = s.port p.other := by
  cases p <;> rfl

@[simp] theorem State.withPort_withPort (s : State) (p : Port) (x y : PortState) :
    (s.withPort p x).withPort p y = s.withPort p y := by
  cases p <;> rfl

@[simp] theorem State.respond_port (s : State) (p : Port) (r : Reply) :
    (s.respond p r).port p = (s.port p).respond r := by
  cases p <;> rfl

@[simp] theorem State.raise_port (s : State) (k : EventKind) (a b : Nat) (p : Port) :
    (s.raise k a b).port p = (s.port p).offer ⟨k, a, b, s.now⟩ := by
  cases p <;> rfl

end Sys2Proof.Machine
end

