-- ==== Sys2Proof/Laws/Frames.lean ====
section
/-! SUPPORT. Which blocks each shared operation can touch: one conjunction per operation, an equation for every field it
leaves as it was. -/

namespace Sys2Proof.Machine

open Sys2Proof

@[simp] theorem State.arbitrate_frame (s : State) :
    (s.arbitrate).tb = s.tb ∧ (s.arbitrate).feedA = s.feedA ∧ (s.arbitrate).feedB = s.feedB ∧
    (s.arbitrate).store = s.store ∧ (s.arbitrate).sel = s.sel ∧ (s.arbitrate).launch = s.launch ∧
    (s.arbitrate).lanes = s.lanes ∧ (s.arbitrate).splice = s.splice ∧ (s.arbitrate).windows = s.windows ∧
    (s.arbitrate).mon = s.mon ∧ (s.arbitrate).chg = s.chg ∧ (s.arbitrate).lines = s.lines ∧
    (s.arbitrate).station = s.station ∧ (s.arbitrate).network = s.network ∧ (s.arbitrate).part = s.part ∧
    (s.arbitrate).paramLock = s.paramLock ∧ (s.arbitrate).draws = s.draws ∧ (s.arbitrate).pending = s.pending := by
  simp only [State.arbitrate]
  repeat' split
  all_goals simp

@[simp] theorem State.claimLane_frame (s : State) (i b l : Nat) :
    (s.claimLane i b l).tb = s.tb ∧ (s.claimLane i b l).feedA = s.feedA ∧ (s.claimLane i b l).feedB = s.feedB ∧
    (s.claimLane i b l).store = s.store ∧ (s.claimLane i b l).sel = s.sel ∧ (s.claimLane i b l).launch = s.launch ∧
    (s.claimLane i b l).splice = s.splice ∧ (s.claimLane i b l).windows = s.windows ∧
    (s.claimLane i b l).mon = s.mon ∧ (s.claimLane i b l).chg = s.chg ∧ (s.claimLane i b l).lines = s.lines ∧
    (s.claimLane i b l).station = s.station ∧ (s.claimLane i b l).network = s.network ∧
    (s.claimLane i b l).part = s.part ∧ (s.claimLane i b l).paramLock = s.paramLock ∧
    (s.claimLane i b l).draws = s.draws ∧ (s.claimLane i b l).pending = s.pending := by
  simp [State.claimLane]

@[simp] theorem State.releaseLane_frame (s : State) (i : Nat) :
    (s.releaseLane i).tb = s.tb ∧ (s.releaseLane i).feedA = s.feedA ∧ (s.releaseLane i).feedB = s.feedB ∧
    (s.releaseLane i).store = s.store ∧ (s.releaseLane i).sel = s.sel ∧ (s.releaseLane i).launch = s.launch ∧
    (s.releaseLane i).splice = s.splice ∧ (s.releaseLane i).windows = s.windows ∧ (s.releaseLane i).mon = s.mon ∧
    (s.releaseLane i).chg = s.chg ∧ (s.releaseLane i).lines = s.lines ∧ (s.releaseLane i).station = s.station ∧
    (s.releaseLane i).network = s.network ∧ (s.releaseLane i).part = s.part ∧
    (s.releaseLane i).paramLock = s.paramLock ∧ (s.releaseLane i).draws = s.draws ∧
    (s.releaseLane i).pending = s.pending := by
  simp [State.releaseLane]

@[simp] theorem State.settleClipEnd_frame (s : State) (i : Nat) :
    (s.settleClipEnd i).tb = s.tb ∧ (s.settleClipEnd i).feedA = s.feedA ∧ (s.settleClipEnd i).feedB = s.feedB ∧
    (s.settleClipEnd i).store = s.store ∧ (s.settleClipEnd i).sel = s.sel ∧ (s.settleClipEnd i).launch = s.launch ∧
    (s.settleClipEnd i).clip = s.clip ∧ (s.settleClipEnd i).windows = s.windows ∧ (s.settleClipEnd i).mon = s.mon ∧
    (s.settleClipEnd i).chg = s.chg ∧ (s.settleClipEnd i).lines = s.lines ∧ (s.settleClipEnd i).station = s.station ∧
    (s.settleClipEnd i).network = s.network ∧ (s.settleClipEnd i).part = s.part ∧
    (s.settleClipEnd i).paramLock = s.paramLock ∧ (s.settleClipEnd i).draws = s.draws ∧
    (s.settleClipEnd i).pending = s.pending := by
  simp only [State.settleClipEnd]
  repeat' split
  all_goals simp

@[simp] theorem State.freeRecord_frame (s : State) (i : Nat) :
    (s.freeRecord i).tb = s.tb ∧ (s.freeRecord i).sel = s.sel ∧ (s.freeRecord i).launch = s.launch ∧
    (s.freeRecord i).clip = s.clip ∧ (s.freeRecord i).lanes = s.lanes ∧ (s.freeRecord i).splice = s.splice ∧
    (s.freeRecord i).windows = s.windows ∧ (s.freeRecord i).mon = s.mon ∧ (s.freeRecord i).chg = s.chg ∧
    (s.freeRecord i).lines = s.lines ∧ (s.freeRecord i).station = s.station ∧ (s.freeRecord i).network = s.network ∧
    (s.freeRecord i).part = s.part ∧ (s.freeRecord i).paramLock = s.paramLock ∧ (s.freeRecord i).draws = s.draws ∧
    (s.freeRecord i).pending = s.pending := by
  simp only [State.freeRecord]
  repeat' split
  all_goals simp

@[simp] theorem State.freeRecords_frame (s : State) (l : List Nat) :
    (s.freeRecords l).tb = s.tb ∧ (s.freeRecords l).sel = s.sel ∧ (s.freeRecords l).launch = s.launch ∧
    (s.freeRecords l).clip = s.clip ∧ (s.freeRecords l).lanes = s.lanes ∧ (s.freeRecords l).splice = s.splice ∧
    (s.freeRecords l).windows = s.windows ∧ (s.freeRecords l).mon = s.mon ∧ (s.freeRecords l).chg = s.chg ∧
    (s.freeRecords l).lines = s.lines ∧ (s.freeRecords l).station = s.station ∧
    (s.freeRecords l).network = s.network ∧ (s.freeRecords l).part = s.part ∧
    (s.freeRecords l).paramLock = s.paramLock ∧ (s.freeRecords l).draws = s.draws ∧
    (s.freeRecords l).pending = s.pending := by
  unfold State.freeRecords
  induction l generalizing s <;> simp_all

@[simp] theorem State.dropGroup_frame (s : State) (i : Nat) (w : DropReason) :
    (s.dropGroup i w).tb = s.tb ∧ (s.dropGroup i w).sel = s.sel ∧ (s.dropGroup i w).clip = s.clip ∧
    (s.dropGroup i w).lanes = s.lanes ∧ (s.dropGroup i w).splice = s.splice ∧ (s.dropGroup i w).windows = s.windows ∧
    (s.dropGroup i w).mon = s.mon ∧ (s.dropGroup i w).chg = s.chg ∧ (s.dropGroup i w).lines = s.lines ∧
    (s.dropGroup i w).part = s.part ∧ (s.dropGroup i w).paramLock = s.paramLock ∧ (s.dropGroup i w).draws = s.draws ∧
    (s.dropGroup i w).pending = s.pending := by
  simp [State.dropGroup]

@[simp] theorem State.dropHead_frame (s : State) (w : DropReason) :
    (s.dropHead w).tb = s.tb ∧ (s.dropHead w).clip = s.clip ∧ (s.dropHead w).lanes = s.lanes ∧
    (s.dropHead w).splice = s.splice ∧ (s.dropHead w).windows = s.windows ∧ (s.dropHead w).mon = s.mon ∧
    (s.dropHead w).chg = s.chg ∧ (s.dropHead w).lines = s.lines ∧ (s.dropHead w).part = s.part ∧
    (s.dropHead w).paramLock = s.paramLock ∧ (s.dropHead w).draws = s.draws ∧ (s.dropHead w).pending = s.pending := by
  simp only [State.dropHead]
  repeat' split
  all_goals simp

@[simp] theorem State.decideHead_frame (s : State) (q : Time) (n : Nat) :
    (s.decideHead q n).tb = s.tb ∧ (s.decideHead q n).clip = s.clip ∧ (s.decideHead q n).lanes = s.lanes ∧
    (s.decideHead q n).splice = s.splice ∧ (s.decideHead q n).windows = s.windows ∧ (s.decideHead q n).mon = s.mon ∧
    (s.decideHead q n).chg = s.chg ∧ (s.decideHead q n).lines = s.lines ∧ (s.decideHead q n).part = s.part ∧
    (s.decideHead q n).paramLock = s.paramLock ∧ (s.decideHead q n).draws = s.draws ∧
    (s.decideHead q n).pending = s.pending := by
  induction n generalizing s with
  | zero => simp [State.decideHead]
  | succ n ih =>
    simp only [State.decideHead]
    repeat' split
    all_goals simp [ih]

@[simp] theorem State.headDecision_frame (s : State) :
    (s.headDecision).tb = s.tb ∧ (s.headDecision).clip = s.clip ∧ (s.headDecision).lanes = s.lanes ∧
    (s.headDecision).splice = s.splice ∧ (s.headDecision).windows = s.windows ∧ (s.headDecision).mon = s.mon ∧
    (s.headDecision).chg = s.chg ∧ (s.headDecision).lines = s.lines ∧ (s.headDecision).part = s.part ∧
    (s.headDecision).paramLock = s.paramLock ∧ (s.headDecision).draws = s.draws ∧ (s.headDecision).pending = s.pending := by
  simp only [State.headDecision]
  repeat' split
  all_goals simp

@[simp] theorem State.endGroup_frame (s : State) :
    (s.endGroup).tb = s.tb ∧ (s.endGroup).feedA = s.feedA ∧ (s.endGroup).feedB = s.feedB ∧
    (s.endGroup).store = s.store ∧ (s.endGroup).sel = s.sel ∧ (s.endGroup).clip = s.clip ∧
    (s.endGroup).lanes = s.lanes ∧ (s.endGroup).splice = s.splice ∧ (s.endGroup).windows = s.windows ∧
    (s.endGroup).mon = s.mon ∧ (s.endGroup).chg = s.chg ∧ (s.endGroup).lines = s.lines ∧
    (s.endGroup).station = s.station ∧ (s.endGroup).network = s.network ∧ (s.endGroup).part = s.part ∧
    (s.endGroup).paramLock = s.paramLock ∧ (s.endGroup).draws = s.draws ∧ (s.endGroup).pending = s.pending := by
  simp only [State.endGroup]
  repeat' split
  all_goals simp

@[simp] theorem State.resumeNulls_frame (s : State) :
    (s.resumeNulls).tb = s.tb ∧ (s.resumeNulls).feedA = s.feedA ∧ (s.resumeNulls).feedB = s.feedB ∧
    (s.resumeNulls).store = s.store ∧ (s.resumeNulls).sel = s.sel ∧ (s.resumeNulls).clip = s.clip ∧
    (s.resumeNulls).lanes = s.lanes ∧ (s.resumeNulls).splice = s.splice ∧ (s.resumeNulls).windows = s.windows ∧
    (s.resumeNulls).mon = s.mon ∧ (s.resumeNulls).chg = s.chg ∧ (s.resumeNulls).lines = s.lines ∧
    (s.resumeNulls).station = s.station ∧ (s.resumeNulls).network = s.network ∧ (s.resumeNulls).part = s.part ∧
    (s.resumeNulls).paramLock = s.paramLock ∧ (s.resumeNulls).draws = s.draws ∧ (s.resumeNulls).pending = s.pending := by
  simp only [State.resumeNulls]
  repeat' split
  all_goals simp

/-- The end of a group's or a null's slot and the withdrawal of a start change the gap and the null of the scheduler alone. -/
@[simp] theorem State.endGroup_launch (s : State) :
    s.endGroup.launch.emitting = s.launch.emitting ∧ s.endGroup.launch.scheduled = s.launch.scheduled ∧
    s.endGroup.launch.lastEnd = s.launch.lastEnd ∧ s.endGroup.launch.nullEnd = s.launch.nullEnd ∧
    s.endGroup.launch.stats = s.launch.stats ∧ s.endGroup.launch.outputs = s.launch.outputs ∧
    s.endGroup.launch.pq = s.launch.pq := by
  simp only [State.endGroup]
  split <;> simp [Launch.openGap, Launch.pq]

@[simp] theorem State.resumeNulls_launch (s : State) :
    s.resumeNulls.launch.emitting = s.launch.emitting ∧ s.resumeNulls.launch.scheduled = s.launch.scheduled ∧
    s.resumeNulls.launch.lastEnd = s.launch.lastEnd ∧ s.resumeNulls.launch.stats = s.launch.stats ∧
    s.resumeNulls.launch.outputs = s.launch.outputs ∧ s.resumeNulls.launch.pq = s.launch.pq := by
  have h := State.endGroup_launch s
  simp only [State.resumeNulls]
  repeat' split
  all_goals simp_all [Launch.endNull, Launch.pq]

@[simp] theorem State.withdrawStart_frame (s : State) :
    (s.withdrawStart).tb = s.tb ∧ (s.withdrawStart).feedA = s.feedA ∧ (s.withdrawStart).feedB = s.feedB ∧
    (s.withdrawStart).store = s.store ∧ (s.withdrawStart).sel = s.sel ∧ (s.withdrawStart).clip = s.clip ∧
    (s.withdrawStart).lanes = s.lanes ∧ (s.withdrawStart).splice = s.splice ∧ (s.withdrawStart).windows = s.windows ∧
    (s.withdrawStart).mon = s.mon ∧ (s.withdrawStart).chg = s.chg ∧ (s.withdrawStart).lines = s.lines ∧
    (s.withdrawStart).station = s.station ∧ (s.withdrawStart).network = s.network ∧ (s.withdrawStart).part = s.part ∧
    (s.withdrawStart).paramLock = s.paramLock ∧ (s.withdrawStart).draws = s.draws ∧
    (s.withdrawStart).pending = s.pending := by
  simp only [State.withdrawStart]
  repeat' split
  all_goals simp

@[simp] theorem State.truncateEmitting_frame (s : State) :
    (s.truncateEmitting).tb = s.tb ∧ (s.truncateEmitting).sel = s.sel ∧ (s.truncateEmitting).clip = s.clip ∧
    (s.truncateEmitting).lanes = s.lanes ∧ (s.truncateEmitting).splice = s.splice ∧
    (s.truncateEmitting).windows = s.windows ∧ (s.truncateEmitting).mon = s.mon ∧ (s.truncateEmitting).chg = s.chg ∧
    (s.truncateEmitting).lines = s.lines ∧ (s.truncateEmitting).part = s.part ∧
    (s.truncateEmitting).paramLock = s.paramLock ∧ (s.truncateEmitting).draws = s.draws ∧
    (s.truncateEmitting).pending = s.pending := by
  simp only [State.truncateEmitting]
  repeat' split
  all_goals simp

@[simp] theorem State.dropScheduled_frame (s : State) :
    (s.dropScheduled).tb = s.tb ∧ (s.dropScheduled).clip = s.clip ∧ (s.dropScheduled).lanes = s.lanes ∧
    (s.dropScheduled).splice = s.splice ∧ (s.dropScheduled).windows = s.windows ∧ (s.dropScheduled).mon = s.mon ∧
    (s.dropScheduled).chg = s.chg ∧ (s.dropScheduled).lines = s.lines ∧ (s.dropScheduled).part = s.part ∧
    (s.dropScheduled).paramLock = s.paramLock ∧ (s.dropScheduled).draws = s.draws ∧
    (s.dropScheduled).pending = s.pending := by
  simp only [State.dropScheduled]
  repeat' split
  all_goals simp

@[simp] theorem State.setGuard_frame (s : State) :
    (s.setGuard).tb = s.tb ∧ (s.setGuard).feedA = s.feedA ∧ (s.setGuard).feedB = s.feedB ∧
    (s.setGuard).store = s.store ∧ (s.setGuard).sel = s.sel ∧ (s.setGuard).clip = s.clip ∧
    (s.setGuard).lanes = s.lanes ∧ (s.setGuard).splice = s.splice ∧ (s.setGuard).windows = s.windows ∧
    (s.setGuard).mon = s.mon ∧ (s.setGuard).chg = s.chg ∧ (s.setGuard).lines = s.lines ∧
    (s.setGuard).station = s.station ∧ (s.setGuard).network = s.network ∧ (s.setGuard).part = s.part ∧
    (s.setGuard).paramLock = s.paramLock ∧ (s.setGuard).draws = s.draws ∧ (s.setGuard).pending = s.pending := by
  simp [State.setGuard]

@[simp] theorem State.schedulerStep_frame (s : State) :
    (s.schedulerStep).tb = s.tb ∧ (s.schedulerStep).clip = s.clip ∧ (s.schedulerStep).lanes = s.lanes ∧
    (s.schedulerStep).splice = s.splice ∧ (s.schedulerStep).windows = s.windows ∧ (s.schedulerStep).mon = s.mon ∧
    (s.schedulerStep).chg = s.chg ∧ (s.schedulerStep).lines = s.lines ∧ (s.schedulerStep).part = s.part ∧
    (s.schedulerStep).paramLock = s.paramLock ∧ (s.schedulerStep).draws = s.draws ∧
    (s.schedulerStep).pending = s.pending := by
  simp only [State.schedulerStep]
  repeat' split
  all_goals simp

@[simp] theorem State.endBreak_frame (s : State) (i : Nat) (c : EndCause) (t : Time) :
    (s.endBreak i c t).tb = s.tb ∧ (s.endBreak i c t).feedA = s.feedA ∧ (s.endBreak i c t).feedB = s.feedB ∧
    (s.endBreak i c t).store = s.store ∧ (s.endBreak i c t).sel = s.sel ∧ (s.endBreak i c t).launch = s.launch ∧
    (s.endBreak i c t).windows = s.windows ∧ (s.endBreak i c t).mon = s.mon ∧ (s.endBreak i c t).chg = s.chg ∧
    (s.endBreak i c t).lines = s.lines ∧ (s.endBreak i c t).part = s.part ∧
    (s.endBreak i c t).paramLock = s.paramLock ∧ (s.endBreak i c t).draws = s.draws ∧
    (s.endBreak i c t).pending = s.pending := by
  simp only [State.endBreak]
  repeat' split
  all_goals simp

@[simp] theorem State.offerY_frame (s : State) (i : Nat) (t : Time) (x : YSource) :
    (s.offerY i t x).tb = s.tb ∧ (s.offerY i t x).feedA = s.feedA ∧ (s.offerY i t x).feedB = s.feedB ∧
    (s.offerY i t x).store = s.store ∧ (s.offerY i t x).sel = s.sel ∧ (s.offerY i t x).launch = s.launch ∧
    (s.offerY i t x).clip = s.clip ∧ (s.offerY i t x).lanes = s.lanes ∧ (s.offerY i t x).windows = s.windows ∧
    (s.offerY i t x).mon = s.mon ∧ (s.offerY i t x).chg = s.chg ∧ (s.offerY i t x).lines = s.lines ∧
    (s.offerY i t x).station = s.station ∧ (s.offerY i t x).network = s.network ∧ (s.offerY i t x).part = s.part ∧
    (s.offerY i t x).paramLock = s.paramLock ∧ (s.offerY i t x).draws = s.draws ∧ (s.offerY i t x).pending = s.pending := by
  simp [State.offerY]

@[simp] theorem State.offerWindow_frame (s : State) (w i : Nat) :
    (s.offerWindow w i).tb = s.tb ∧ (s.offerWindow w i).feedA = s.feedA ∧ (s.offerWindow w i).feedB = s.feedB ∧
    (s.offerWindow w i).store = s.store ∧ (s.offerWindow w i).sel = s.sel ∧ (s.offerWindow w i).launch = s.launch ∧
    (s.offerWindow w i).clip = s.clip ∧ (s.offerWindow w i).lanes = s.lanes ∧ (s.offerWindow w i).mon = s.mon ∧
    (s.offerWindow w i).chg = s.chg ∧ (s.offerWindow w i).lines = s.lines ∧ (s.offerWindow w i).station = s.station ∧
    (s.offerWindow w i).network = s.network ∧ (s.offerWindow w i).part = s.part ∧
    (s.offerWindow w i).paramLock = s.paramLock ∧ (s.offerWindow w i).draws = s.draws ∧
    (s.offerWindow w i).pending = s.pending := by
  simp only [State.offerWindow]
  repeat' split
  all_goals simp

@[simp] theorem State.blockBreak_frame (s : State) (w i : Nat) :
    (s.blockBreak w i).tb = s.tb ∧ (s.blockBreak w i).feedA = s.feedA ∧ (s.blockBreak w i).feedB = s.feedB ∧
    (s.blockBreak w i).store = s.store ∧ (s.blockBreak w i).sel = s.sel ∧ (s.blockBreak w i).launch = s.launch ∧
    (s.blockBreak w i).mon = s.mon ∧ (s.blockBreak w i).chg = s.chg ∧ (s.blockBreak w i).lines = s.lines ∧
    (s.blockBreak w i).part = s.part ∧ (s.blockBreak w i).paramLock = s.paramLock ∧
    (s.blockBreak w i).draws = s.draws ∧ (s.blockBreak w i).pending = s.pending := by
  simp [State.blockBreak]

@[simp] theorem State.blockCued_frame (s : State) (w i : Nat) :
    (s.blockCued w i).tb = s.tb ∧ (s.blockCued w i).feedA = s.feedA ∧ (s.blockCued w i).feedB = s.feedB ∧
    (s.blockCued w i).store = s.store ∧ (s.blockCued w i).sel = s.sel ∧ (s.blockCued w i).launch = s.launch ∧
    (s.blockCued w i).mon = s.mon ∧ (s.blockCued w i).chg = s.chg ∧ (s.blockCued w i).lines = s.lines ∧
    (s.blockCued w i).part = s.part ∧ (s.blockCued w i).paramLock = s.paramLock ∧
    (s.blockCued w i).draws = s.draws ∧ (s.blockCued w i).pending = s.pending := by
  simp [State.blockCued]

@[simp] theorem State.fire_frame (s : State) (i : Nat) (x : Time) (d : Option Nat) :
    (s.fire i x d).tb = s.tb ∧ (s.fire i x d).feedA = s.feedA ∧ (s.fire i x d).feedB = s.feedB ∧
    (s.fire i x d).store = s.store ∧ (s.fire i x d).sel = s.sel ∧ (s.fire i x d).launch = s.launch ∧
    (s.fire i x d).mon = s.mon ∧ (s.fire i x d).chg = s.chg ∧ (s.fire i x d).lines = s.lines ∧
    (s.fire i x d).part = s.part ∧ (s.fire i x d).paramLock = s.paramLock ∧ (s.fire i x d).draws = s.draws ∧
    (s.fire i x d).pending = s.pending := by
  simp only [State.fire]
  repeat' split
  all_goals simp

@[simp] theorem State.fireTime_frame (s : State) (i : Nat) :
    (s.fireTime i).tb = s.tb ∧ (s.fireTime i).feedA = s.feedA ∧ (s.fireTime i).feedB = s.feedB ∧
    (s.fireTime i).store = s.store ∧ (s.fireTime i).sel = s.sel ∧ (s.fireTime i).launch = s.launch ∧
    (s.fireTime i).mon = s.mon ∧ (s.fireTime i).chg = s.chg ∧ (s.fireTime i).lines = s.lines ∧
    (s.fireTime i).part = s.part ∧ (s.fireTime i).paramLock = s.paramLock ∧ (s.fireTime i).draws = s.draws ∧
    (s.fireTime i).pending = s.pending := by
  simp only [State.fireTime]
  repeat' split
  all_goals simp

@[simp] theorem State.fireDueTimes_frame (s : State) :
    (s.fireDueTimes).tb = s.tb ∧ (s.fireDueTimes).feedA = s.feedA ∧ (s.fireDueTimes).feedB = s.feedB ∧
    (s.fireDueTimes).store = s.store ∧ (s.fireDueTimes).sel = s.sel ∧ (s.fireDueTimes).launch = s.launch ∧
    (s.fireDueTimes).mon = s.mon ∧ (s.fireDueTimes).chg = s.chg ∧ (s.fireDueTimes).lines = s.lines ∧
    (s.fireDueTimes).part = s.part ∧ (s.fireDueTimes).paramLock = s.paramLock ∧ (s.fireDueTimes).draws = s.draws ∧
    (s.fireDueTimes).pending = s.pending := by
  unfold State.fireDueTimes
  generalize breakIndices = l
  induction l generalizing s <;> simp_all

@[simp] theorem State.fireLine_frame (s : State) (k : Nat) (p : Polarity) :
    (s.fireLine k p).tb = s.tb ∧ (s.fireLine k p).feedA = s.feedA ∧ (s.fireLine k p).feedB = s.feedB ∧
    (s.fireLine k p).store = s.store ∧ (s.fireLine k p).sel = s.sel ∧ (s.fireLine k p).launch = s.launch ∧
    (s.fireLine k p).mon = s.mon ∧ (s.fireLine k p).chg = s.chg ∧ (s.fireLine k p).lines = s.lines ∧
    (s.fireLine k p).part = s.part ∧ (s.fireLine k p).paramLock = s.paramLock ∧ (s.fireLine k p).draws = s.draws ∧
    (s.fireLine k p).pending = s.pending := by
  have key : ∀ (l : List Nat) (u : State), 
      ((l.foldl
      (fun s i =>
        let b := s.brk i
        if b.state == .waiting && b.trigger == .line k p then s.fire i (tadd s.now b.lead) none else s) u)).tb = (u).tb ∧
      ((l.foldl
      (fun s i =>
        let b := s.brk i
        if b.state == .waiting && b.trigger == .line k p then s.fire i (tadd s.now b.lead) none else s) u)).feedA = (u).feedA ∧
      ((l.foldl
      (fun s i =>
        let b := s.brk i
        if b.state == .waiting && b.trigger == .line k p then s.fire i (tadd s.now b.lead) none else s) u)).feedB = (u).feedB ∧
      ((l.foldl
      (fun s i =>
        let b := s.brk i
        if b.state == .waiting && b.trigger == .line k p then s.fire i (tadd s.now b.lead) none else s) u)).store = (u).store ∧
      ((l.foldl
      (fun s i =>
        let b := s.brk i
        if b.state == .waiting && b.trigger == .line k p then s.fire i (tadd s.now b.lead) none else s) u)).sel = (u).sel ∧
      ((l.foldl
      (fun s i =>
        let b := s.brk i
        if b.state == .waiting && b.trigger == .line k p then s.fire i (tadd s.now b.lead) none else s) u)).launch = (u).launch ∧
      ((l.foldl
      (fun s i =>
        let b := s.brk i
        if b.state == .waiting && b.trigger == .line k p then s.fire i (tadd s.now b.lead) none else s) u)).mon = (u).mon ∧
      ((l.foldl
      (fun s i =>
        let b := s.brk i
        if b.state == .waiting && b.trigger == .line k p then s.fire i (tadd s.now b.lead) none else s) u)).chg = (u).chg ∧
      ((l.foldl
      (fun s i =>
        let b := s.brk i
        if b.state == .waiting && b.trigger == .line k p then s.fire i (tadd s.now b.lead) none else s) u)).lines = (u).lines ∧
      ((l.foldl
      (fun s i =>
        let b := s.brk i
        if b.state == .waiting && b.trigger == .line k p then s.fire i (tadd s.now b.lead) none else s) u)).part = (u).part ∧
      ((l.foldl
      (fun s i =>
        let b := s.brk i
        if b.state == .waiting && b.trigger == .line k p then s.fire i (tadd s.now b.lead) none else s) u)).paramLock = (u).paramLock ∧
      ((l.foldl
      (fun s i =>
        let b := s.brk i
        if b.state == .waiting && b.trigger == .line k p then s.fire i (tadd s.now b.lead) none else s) u)).draws = (u).draws ∧
      ((l.foldl
      (fun s i =>
        let b := s.brk i
        if b.state == .waiting && b.trigger == .line k p then s.fire i (tadd s.now b.lead) none else s) u)).pending = (u).pending := by
    intro l
    induction l with
    | nil => simp
    | cons i l ih =>
      intro u
      rw [List.foldl_cons]
      simp only [ih]
      split <;> simp
  unfold State.fireLine
  split
  · exact key breakIndices s
  · simp

@[simp] theorem State.expire_frame (s : State) (i : Nat) :
    (s.expire i).tb = s.tb ∧ (s.expire i).feedA = s.feedA ∧ (s.expire i).feedB = s.feedB ∧
    (s.expire i).store = s.store ∧ (s.expire i).sel = s.sel ∧ (s.expire i).launch = s.launch ∧
    (s.expire i).windows = s.windows ∧ (s.expire i).mon = s.mon ∧ (s.expire i).chg = s.chg ∧
    (s.expire i).lines = s.lines ∧ (s.expire i).part = s.part ∧ (s.expire i).paramLock = s.paramLock ∧
    (s.expire i).draws = s.draws ∧ (s.expire i).pending = s.pending := by
  simp only [State.expire]
  repeat' split
  all_goals simp

@[simp] theorem State.windowActs_frame (s : State) (w : Nat) :
    (s.windowActs w).tb = s.tb ∧ (s.windowActs w).feedA = s.feedA ∧ (s.windowActs w).feedB = s.feedB ∧
    (s.windowActs w).store = s.store ∧ (s.windowActs w).sel = s.sel ∧ (s.windowActs w).launch = s.launch ∧
    (s.windowActs w).mon = s.mon ∧ (s.windowActs w).chg = s.chg ∧ (s.windowActs w).lines = s.lines ∧
    (s.windowActs w).part = s.part ∧ (s.windowActs w).paramLock = s.paramLock ∧ (s.windowActs w).draws = s.draws ∧
    (s.windowActs w).pending = s.pending := by
  unfold State.windowActs
  generalize breakIndices = l
  induction l generalizing s with
  | nil => simp
  | cons i l ih =>
    rw [List.foldl_cons]
    simp only [ih]
    repeat' split
    all_goals simp

@[simp] theorem State.windowSetPending_frame (s : State) (w : Nat) :
    (s.windowSetPending w).tb = s.tb ∧ (s.windowSetPending w).feedA = s.feedA ∧
    (s.windowSetPending w).feedB = s.feedB ∧ (s.windowSetPending w).store = s.store ∧
    (s.windowSetPending w).sel = s.sel ∧ (s.windowSetPending w).launch = s.launch ∧
    (s.windowSetPending w).mon = s.mon ∧ (s.windowSetPending w).chg = s.chg ∧
    (s.windowSetPending w).lines = s.lines ∧ (s.windowSetPending w).part = s.part ∧
    (s.windowSetPending w).paramLock = s.paramLock ∧ (s.windowSetPending w).draws = s.draws ∧
    (s.windowSetPending w).pending = s.pending := by
  unfold State.windowSetPending
  generalize breakIndices = l
  induction l generalizing s with
  | nil => simp
  | cons i l ih =>
    rw [List.foldl_cons]
    simp only [ih]
    repeat' split
    all_goals simp

@[simp] theorem State.windowActive_frame (s : State) (w : Nat) :
    (s.windowActive w).tb = s.tb ∧ (s.windowActive w).feedA = s.feedA ∧ (s.windowActive w).feedB = s.feedB ∧
    (s.windowActive w).store = s.store ∧ (s.windowActive w).sel = s.sel ∧ (s.windowActive w).launch = s.launch ∧
    (s.windowActive w).mon = s.mon ∧ (s.windowActive w).chg = s.chg ∧ (s.windowActive w).lines = s.lines ∧
    (s.windowActive w).part = s.part ∧ (s.windowActive w).paramLock = s.paramLock ∧
    (s.windowActive w).draws = s.draws ∧ (s.windowActive w).pending = s.pending := by
  simp [State.windowActive]

@[simp] theorem State.windowFree_frame (s : State) (w d : Nat) :
    (s.windowFree w d).tb = s.tb ∧ (s.windowFree w d).feedA = s.feedA ∧ (s.windowFree w d).feedB = s.feedB ∧
    (s.windowFree w d).store = s.store ∧ (s.windowFree w d).sel = s.sel ∧ (s.windowFree w d).launch = s.launch ∧
    (s.windowFree w d).clip = s.clip ∧ (s.windowFree w d).lanes = s.lanes ∧ (s.windowFree w d).splice = s.splice ∧
    (s.windowFree w d).mon = s.mon ∧ (s.windowFree w d).chg = s.chg ∧ (s.windowFree w d).lines = s.lines ∧
    (s.windowFree w d).part = s.part ∧ (s.windowFree w d).paramLock = s.paramLock ∧
    (s.windowFree w d).draws = s.draws ∧ (s.windowFree w d).pending = s.pending := by
  simp [State.windowFree]

@[simp] theorem State.windowEnd_frame (s : State) (w : Nat) :
    (s.windowEnd w).tb = s.tb ∧ (s.windowEnd w).feedA = s.feedA ∧ (s.windowEnd w).feedB = s.feedB ∧
    (s.windowEnd w).store = s.store ∧ (s.windowEnd w).sel = s.sel ∧ (s.windowEnd w).launch = s.launch ∧
    (s.windowEnd w).clip = s.clip ∧ (s.windowEnd w).lanes = s.lanes ∧ (s.windowEnd w).splice = s.splice ∧
    (s.windowEnd w).mon = s.mon ∧ (s.windowEnd w).chg = s.chg ∧ (s.windowEnd w).lines = s.lines ∧
    (s.windowEnd w).part = s.part ∧ (s.windowEnd w).paramLock = s.paramLock ∧ (s.windowEnd w).draws = s.draws ∧
    (s.windowEnd w).pending = s.pending := by
  simp only [State.windowEnd]
  repeat' split
  all_goals simp

@[simp] theorem State.windowStart_frame (s : State) (w : Nat) :
    (s.windowStart w).tb = s.tb ∧ (s.windowStart w).feedA = s.feedA ∧ (s.windowStart w).feedB = s.feedB ∧
    (s.windowStart w).store = s.store ∧ (s.windowStart w).sel = s.sel ∧ (s.windowStart w).launch = s.launch ∧
    (s.windowStart w).mon = s.mon ∧ (s.windowStart w).chg = s.chg ∧ (s.windowStart w).lines = s.lines ∧
    (s.windowStart w).part = s.part ∧ (s.windowStart w).paramLock = s.paramLock ∧ (s.windowStart w).draws = s.draws ∧
    (s.windowStart w).pending = s.pending := by
  simp only [State.windowStart]
  repeat' split
  all_goals simp

@[simp] theorem State.inCue_frame (s : State) (i : Nat) (t : Time) :
    (s.inCue i t).tb = s.tb ∧ (s.inCue i t).feedA = s.feedA ∧ (s.inCue i t).feedB = s.feedB ∧
    (s.inCue i t).store = s.store ∧ (s.inCue i t).sel = s.sel ∧ (s.inCue i t).launch = s.launch ∧
    (s.inCue i t).windows = s.windows ∧ (s.inCue i t).mon = s.mon ∧ (s.inCue i t).chg = s.chg ∧
    (s.inCue i t).lines = s.lines ∧ (s.inCue i t).part = s.part ∧ (s.inCue i t).paramLock = s.paramLock ∧
    (s.inCue i t).draws = s.draws ∧ (s.inCue i t).pending = s.pending := by
  simp only [State.inCue]
  repeat' split
  all_goals simp

@[simp] theorem State.cancelBreak_frame (s : State) (i : Nat) :
    (s.cancelBreak i).tb = s.tb ∧ (s.cancelBreak i).feedA = s.feedA ∧ (s.cancelBreak i).feedB = s.feedB ∧
    (s.cancelBreak i).store = s.store ∧ (s.cancelBreak i).sel = s.sel ∧ (s.cancelBreak i).launch = s.launch ∧
    (s.cancelBreak i).windows = s.windows ∧ (s.cancelBreak i).mon = s.mon ∧ (s.cancelBreak i).chg = s.chg ∧
    (s.cancelBreak i).lines = s.lines ∧ (s.cancelBreak i).part = s.part ∧ (s.cancelBreak i).paramLock = s.paramLock ∧
    (s.cancelBreak i).draws = s.draws ∧ (s.cancelBreak i).pending = s.pending := by
  simp only [State.cancelBreak]
  repeat' split
  all_goals simp

@[simp] theorem State.cueActs_frame (s : State) (c : Cue) (t : Time) (i : Nat) :
    (s.cueActs c t i).tb = s.tb ∧ (s.cueActs c t i).feedA = s.feedA ∧ (s.cueActs c t i).feedB = s.feedB ∧
    (s.cueActs c t i).store = s.store ∧ (s.cueActs c t i).sel = s.sel ∧ (s.cueActs c t i).launch = s.launch ∧
    (s.cueActs c t i).mon = s.mon ∧ (s.cueActs c t i).chg = s.chg ∧ (s.cueActs c t i).lines = s.lines ∧
    (s.cueActs c t i).part = s.part ∧ (s.cueActs c t i).paramLock = s.paramLock ∧ (s.cueActs c t i).draws = s.draws ∧
    (s.cueActs c t i).pending = s.pending := by
  simp only [State.cueActs]
  repeat' split
  all_goals simp

@[simp] theorem State.handCue_frame (s : State) (c : Cue) (k : Nat) (x : Launched) :
    (s.handCue c k x).tb = s.tb ∧ (s.handCue c k x).feedA = s.feedA ∧ (s.handCue c k x).feedB = s.feedB ∧
    (s.handCue c k x).store = s.store ∧ (s.handCue c k x).sel = s.sel ∧ (s.handCue c k x).launch = s.launch ∧
    (s.handCue c k x).mon = s.mon ∧ (s.handCue c k x).chg = s.chg ∧ (s.handCue c k x).lines = s.lines ∧
    (s.handCue c k x).part = s.part ∧ (s.handCue c k x).paramLock = s.paramLock ∧ (s.handCue c k x).draws = s.draws ∧
    (s.handCue c k x).pending = s.pending := by
  simp only [State.handCue]
  split
  · simp
  · rename_i t _
    have key : ∀ (l : List Nat) (acc : State × Bool), 
      ((l.foldl
        (fun (acc : State × Bool) i =>
          let b := acc.1.brk i
          if b.trigger == .cue c.number && c.kind.applies b.state then (acc.1.cueActs c t i, true) else acc)
        acc).1).tb = (acc.1).tb ∧
      ((l.foldl
        (fun (acc : State × Bool) i =>
          let b := acc.1.brk i
          if b.trigger == .cue c.number && c.kind.applies b.state then (acc.1.cueActs c t i, true) else acc)
        acc).1).feedA = (acc.1).feedA ∧
      ((l.foldl
        (fun (acc : State × Bool) i =>
          let b := acc.1.brk i
          if b.trigger == .cue c.number && c.kind.applies b.state then (acc.1.cueActs c t i, true) else acc)
        acc).1).feedB = (acc.1).feedB ∧
      ((l.foldl
        (fun (acc : State × Bool) i =>
          let b := acc.1.brk i
          if b.trigger == .cue c.number && c.kind.applies b.state then (acc.1.cueActs c t i, true) else acc)
        acc).1).store = (acc.1).store ∧
      ((l.foldl
        (fun (acc : State × Bool) i =>
          let b := acc.1.brk i
          if b.trigger == .cue c.number && c.kind.applies b.state then (acc.1.cueActs c t i, true) else acc)
        acc).1).sel = (acc.1).sel ∧
      ((l.foldl
        (fun (acc : State × Bool) i =>
          let b := acc.1.brk i
          if b.trigger == .cue c.number && c.kind.applies b.state then (acc.1.cueActs c t i, true) else acc)
        acc).1).launch = (acc.1).launch ∧
      ((l.foldl
        (fun (acc : State × Bool) i =>
          let b := acc.1.brk i
          if b.trigger == .cue c.number && c.kind.applies b.state then (acc.1.cueActs c t i, true) else acc)
        acc).1).mon = (acc.1).mon ∧
      ((l.foldl
        (fun (acc : State × Bool) i =>
          let b := acc.1.brk i
          if b.trigger == .cue c.number && c.kind.applies b.state then (acc.1.cueActs c t i, true) else acc)
        acc).1).chg = (acc.1).chg ∧
      ((l.foldl
        (fun (acc : State × Bool) i =>
          let b := acc.1.brk i
          if b.trigger == .cue c.number && c.kind.applies b.state then (acc.1.cueActs c t i, true) else acc)
        acc).1).lines = (acc.1).lines ∧
      ((l.foldl
        (fun (acc : State × Bool) i =>
          let b := acc.1.brk i
          if b.trigger == .cue c.number && c.kind.applies b.state then (acc.1.cueActs c t i, true) else acc)
        acc).1).part = (acc.1).part ∧
      ((l.foldl
        (fun (acc : State × Bool) i =>
          let b := acc.1.brk i
          if b.trigger == .cue c.number && c.kind.applies b.state then (acc.1.cueActs c t i, true) else acc)
        acc).1).paramLock = (acc.1).paramLock ∧
      ((l.foldl
        (fun (acc : State × Bool) i =>
          let b := acc.1.brk i
          if b.trigger == .cue c.number && c.kind.applies b.state then (acc.1.cueActs c t i, true) else acc)
        acc).1).draws = (acc.1).draws ∧
      ((l.foldl
        (fun (acc : State × Bool) i =>
          let b := acc.1.brk i
          if b.trigger == .cue c.number && c.kind.applies b.state then (acc.1.cueActs c t i, true) else acc)
        acc).1).pending = (acc.1).pending := by
      intro l
      induction l with
      | nil => simp
      | cons i l ih =>
        intro acc
        rw [List.foldl_cons]
        simp only [ih]
        split <;> simp
    have h := key breakIndices (s, false)
    split <;> simp_all

@[simp] theorem State.goOnAir_frame (s : State) (i : Nat) (t : Time) :
    (s.goOnAir i t).tb = s.tb ∧ (s.goOnAir i t).feedA = s.feedA ∧ (s.goOnAir i t).feedB = s.feedB ∧
    (s.goOnAir i t).store = s.store ∧ (s.goOnAir i t).sel = s.sel ∧ (s.goOnAir i t).launch = s.launch ∧
    (s.goOnAir i t).clip = s.clip ∧ (s.goOnAir i t).mon = s.mon ∧ (s.goOnAir i t).chg = s.chg ∧
    (s.goOnAir i t).lines = s.lines ∧ (s.goOnAir i t).part = s.part ∧ (s.goOnAir i t).paramLock = s.paramLock ∧
    (s.goOnAir i t).draws = s.draws ∧ (s.goOnAir i t).pending = s.pending := by
  have key : ∀ (l : List Nat) (u : State), 
      ((l.foldl
      (fun v w =>
        let win := v.window w
        if win.standing && win.covers (s.brk i).slot && later win.stop t then v.offerWindow w i else v) u)).tb = (u).tb ∧
      ((l.foldl
      (fun v w =>
        let win := v.window w
        if win.standing && win.covers (s.brk i).slot && later win.stop t then v.offerWindow w i else v) u)).feedA = (u).feedA ∧
      ((l.foldl
      (fun v w =>
        let win := v.window w
        if win.standing && win.covers (s.brk i).slot && later win.stop t then v.offerWindow w i else v) u)).feedB = (u).feedB ∧
      ((l.foldl
      (fun v w =>
        let win := v.window w
        if win.standing && win.covers (s.brk i).slot && later win.stop t then v.offerWindow w i else v) u)).store = (u).store ∧
      ((l.foldl
      (fun v w =>
        let win := v.window w
        if win.standing && win.covers (s.brk i).slot && later win.stop t then v.offerWindow w i else v) u)).sel = (u).sel ∧
      ((l.foldl
      (fun v w =>
        let win := v.window w
        if win.standing && win.covers (s.brk i).slot && later win.stop t then v.offerWindow w i else v) u)).launch = (u).launch ∧
      ((l.foldl
      (fun v w =>
        let win := v.window w
        if win.standing && win.covers (s.brk i).slot && later win.stop t then v.offerWindow w i else v) u)).clip = (u).clip ∧
      ((l.foldl
      (fun v w =>
        let win := v.window w
        if win.standing && win.covers (s.brk i).slot && later win.stop t then v.offerWindow w i else v) u)).mon = (u).mon ∧
      ((l.foldl
      (fun v w =>
        let win := v.window w
        if win.standing && win.covers (s.brk i).slot && later win.stop t then v.offerWindow w i else v) u)).chg = (u).chg ∧
      ((l.foldl
      (fun v w =>
        let win := v.window w
        if win.standing && win.covers (s.brk i).slot && later win.stop t then v.offerWindow w i else v) u)).lines = (u).lines ∧
      ((l.foldl
      (fun v w =>
        let win := v.window w
        if win.standing && win.covers (s.brk i).slot && later win.stop t then v.offerWindow w i else v) u)).part = (u).part ∧
      ((l.foldl
      (fun v w =>
        let win := v.window w
        if win.standing && win.covers (s.brk i).slot && later win.stop t then v.offerWindow w i else v) u)).paramLock = (u).paramLock ∧
      ((l.foldl
      (fun v w =>
        let win := v.window w
        if win.standing && win.covers (s.brk i).slot && later win.stop t then v.offerWindow w i else v) u)).draws = (u).draws ∧
      ((l.foldl
      (fun v w =>
        let win := v.window w
        if win.standing && win.covers (s.brk i).slot && later win.stop t then v.offerWindow w i else v) u)).pending = (u).pending := by
    intro l
    induction l with
    | nil => simp
    | cons w l ih =>
      intro u
      rw [List.foldl_cons]
      simp only [ih]
      split <;> simp
  simp only [State.goOnAir, key]
  split <;> simp

@[simp] theorem State.spliceOutTest_frame (s : State) (t : Time) (i : Nat) :
    (State.spliceOutTest t s i).tb = s.tb ∧ (State.spliceOutTest t s i).feedA = s.feedA ∧
    (State.spliceOutTest t s i).feedB = s.feedB ∧ (State.spliceOutTest t s i).store = s.store ∧
    (State.spliceOutTest t s i).sel = s.sel ∧ (State.spliceOutTest t s i).launch = s.launch ∧
    (State.spliceOutTest t s i).mon = s.mon ∧ (State.spliceOutTest t s i).chg = s.chg ∧
    (State.spliceOutTest t s i).lines = s.lines ∧ (State.spliceOutTest t s i).part = s.part ∧
    (State.spliceOutTest t s i).paramLock = s.paramLock ∧ (State.spliceOutTest t s i).draws = s.draws ∧
    (State.spliceOutTest t s i).pending = s.pending := by
  simp only [State.spliceOutTest]
  repeat' split
  all_goals simp

@[simp] theorem State.returnTest_frame (s : State) (t : Time) (i : Nat) :
    (State.returnTest t s i).tb = s.tb ∧ (State.returnTest t s i).feedA = s.feedA ∧
    (State.returnTest t s i).feedB = s.feedB ∧ (State.returnTest t s i).store = s.store ∧
    (State.returnTest t s i).sel = s.sel ∧ (State.returnTest t s i).launch = s.launch ∧
    (State.returnTest t s i).windows = s.windows ∧ (State.returnTest t s i).mon = s.mon ∧
    (State.returnTest t s i).chg = s.chg ∧ (State.returnTest t s i).lines = s.lines ∧
    (State.returnTest t s i).part = s.part ∧ (State.returnTest t s i).paramLock = s.paramLock ∧
    (State.returnTest t s i).draws = s.draws ∧ (State.returnTest t s i).pending = s.pending := by
  simp only [State.returnTest]
  repeat' split
  all_goals simp

@[simp] theorem State.takePacket_frame (s : State) (i : Nat) :
    (s.takePacket i).tb = s.tb ∧ (s.takePacket i).feedA = s.feedA ∧ (s.takePacket i).feedB = s.feedB ∧
    (s.takePacket i).store = s.store ∧ (s.takePacket i).sel = s.sel ∧ (s.takePacket i).launch = s.launch ∧
    (s.takePacket i).clip = s.clip ∧ (s.takePacket i).windows = s.windows ∧ (s.takePacket i).mon = s.mon ∧
    (s.takePacket i).chg = s.chg ∧ (s.takePacket i).lines = s.lines ∧ (s.takePacket i).station = s.station ∧
    (s.takePacket i).network = s.network ∧ (s.takePacket i).part = s.part ∧
    (s.takePacket i).paramLock = s.paramLock ∧ (s.takePacket i).draws = s.draws ∧ (s.takePacket i).pending = s.pending := by
  simp [State.takePacket]

@[simp] theorem State.removeUnmapped_frame (s : State) (sl : Slot) (i b : Nat) (q : List Packet) :
    ((State.removeUnmapped sl i b q s).1).tb = s.tb ∧ ((State.removeUnmapped sl i b q s).1).feedA = s.feedA ∧
    ((State.removeUnmapped sl i b q s).1).feedB = s.feedB ∧ ((State.removeUnmapped sl i b q s).1).store = s.store ∧
    ((State.removeUnmapped sl i b q s).1).sel = s.sel ∧ ((State.removeUnmapped sl i b q s).1).launch = s.launch ∧
    ((State.removeUnmapped sl i b q s).1).clip = s.clip ∧ ((State.removeUnmapped sl i b q s).1).windows = s.windows ∧
    ((State.removeUnmapped sl i b q s).1).mon = s.mon ∧ ((State.removeUnmapped sl i b q s).1).chg = s.chg ∧
    ((State.removeUnmapped sl i b q s).1).lines = s.lines ∧
    ((State.removeUnmapped sl i b q s).1).station = s.station ∧
    ((State.removeUnmapped sl i b q s).1).network = s.network ∧ ((State.removeUnmapped sl i b q s).1).part = s.part ∧
    ((State.removeUnmapped sl i b q s).1).paramLock = s.paramLock ∧
    ((State.removeUnmapped sl i b q s).1).draws = s.draws ∧ ((State.removeUnmapped sl i b q s).1).pending = s.pending := by
  induction q generalizing s with
  | nil => simp [State.removeUnmapped]
  | cons p q ih =>
    simp only [State.removeUnmapped]
    split
    · simp
    · simp [ih]

@[simp] theorem State.substitute_frame (s : State) (a b : Nat) (t : Time) (p : Packet) (e : Nat) :
    ((s.substitute a b t p e).1).tb = s.tb ∧ ((s.substitute a b t p e).1).feedA = s.feedA ∧
    ((s.substitute a b t p e).1).feedB = s.feedB ∧ ((s.substitute a b t p e).1).store = s.store ∧
    ((s.substitute a b t p e).1).sel = s.sel ∧ ((s.substitute a b t p e).1).launch = s.launch ∧
    ((s.substitute a b t p e).1).clip = s.clip ∧ ((s.substitute a b t p e).1).lanes = s.lanes ∧
    ((s.substitute a b t p e).1).windows = s.windows ∧ ((s.substitute a b t p e).1).mon = s.mon ∧
    ((s.substitute a b t p e).1).chg = s.chg ∧ ((s.substitute a b t p e).1).lines = s.lines ∧
    ((s.substitute a b t p e).1).station = s.station ∧ ((s.substitute a b t p e).1).network = s.network ∧
    ((s.substitute a b t p e).1).part = s.part ∧ ((s.substitute a b t p e).1).paramLock = s.paramLock ∧
    ((s.substitute a b t p e).1).draws = s.draws ∧ ((s.substitute a b t p e).1).pending = s.pending := by
  simp [State.substitute]

@[simp] theorem State.substitutionStep_frame (s : State) (a b : Nat) (t : Time) :
    ((s.substitutionStep a b t).1).tb = s.tb ∧ ((s.substitutionStep a b t).1).feedA = s.feedA ∧
    ((s.substitutionStep a b t).1).feedB = s.feedB ∧ ((s.substitutionStep a b t).1).store = s.store ∧
    ((s.substitutionStep a b t).1).sel = s.sel ∧ ((s.substitutionStep a b t).1).launch = s.launch ∧
    ((s.substitutionStep a b t).1).windows = s.windows ∧ ((s.substitutionStep a b t).1).mon = s.mon ∧
    ((s.substitutionStep a b t).1).chg = s.chg ∧ ((s.substitutionStep a b t).1).lines = s.lines ∧
    ((s.substitutionStep a b t).1).part = s.part ∧ ((s.substitutionStep a b t).1).paramLock = s.paramLock ∧
    ((s.substitutionStep a b t).1).draws = s.draws ∧ ((s.substitutionStep a b t).1).pending = s.pending := by
  simp only [State.substitutionStep]
  repeat' split
  all_goals simp

@[simp] theorem State.splicePacket_frame (s : State) (t : Time) (p : Packet) :
    ((s.splicePacket t p).1).tb = s.tb ∧ ((s.splicePacket t p).1).feedA = s.feedA ∧
    ((s.splicePacket t p).1).feedB = s.feedB ∧ ((s.splicePacket t p).1).store = s.store ∧
    ((s.splicePacket t p).1).sel = s.sel ∧ ((s.splicePacket t p).1).launch = s.launch ∧
    ((s.splicePacket t p).1).mon = s.mon ∧ ((s.splicePacket t p).1).chg = s.chg ∧
    ((s.splicePacket t p).1).lines = s.lines ∧ ((s.splicePacket t p).1).part = s.part ∧
    ((s.splicePacket t p).1).paramLock = s.paramLock ∧ ((s.splicePacket t p).1).draws = s.draws ∧
    ((s.splicePacket t p).1).pending = s.pending := by
  have k1 : ∀ (l : List Nat) (u : State), 
      ((l.foldl (State.spliceOutTest t) u)).tb = (u).tb ∧
      ((l.foldl (State.spliceOutTest t) u)).feedA = (u).feedA ∧
      ((l.foldl (State.spliceOutTest t) u)).feedB = (u).feedB ∧
      ((l.foldl (State.spliceOutTest t) u)).store = (u).store ∧
      ((l.foldl (State.spliceOutTest t) u)).sel = (u).sel ∧
      ((l.foldl (State.spliceOutTest t) u)).launch = (u).launch ∧
      ((l.foldl (State.spliceOutTest t) u)).mon = (u).mon ∧
      ((l.foldl (State.spliceOutTest t) u)).chg = (u).chg ∧
      ((l.foldl (State.spliceOutTest t) u)).lines = (u).lines ∧
      ((l.foldl (State.spliceOutTest t) u)).part = (u).part ∧
      ((l.foldl (State.spliceOutTest t) u)).paramLock = (u).paramLock ∧
      ((l.foldl (State.spliceOutTest t) u)).draws = (u).draws ∧
      ((l.foldl (State.spliceOutTest t) u)).pending = (u).pending := by
    intro l
    induction l with
    | nil => simp
    | cons x l ih =>
      intro u
      rw [List.foldl_cons]
      simp only [ih]
      simp
  have k2 : ∀ (l : List Nat) (u : State), 
      ((l.foldl (State.returnTest t) u)).tb = (u).tb ∧
      ((l.foldl (State.returnTest t) u)).feedA = (u).feedA ∧
      ((l.foldl (State.returnTest t) u)).feedB = (u).feedB ∧
      ((l.foldl (State.returnTest t) u)).store = (u).store ∧
      ((l.foldl (State.returnTest t) u)).sel = (u).sel ∧
      ((l.foldl (State.returnTest t) u)).launch = (u).launch ∧
      ((l.foldl (State.returnTest t) u)).mon = (u).mon ∧
      ((l.foldl (State.returnTest t) u)).chg = (u).chg ∧
      ((l.foldl (State.returnTest t) u)).lines = (u).lines ∧
      ((l.foldl (State.returnTest t) u)).part = (u).part ∧
      ((l.foldl (State.returnTest t) u)).paramLock = (u).paramLock ∧
      ((l.foldl (State.returnTest t) u)).draws = (u).draws ∧
      ((l.foldl (State.returnTest t) u)).pending = (u).pending := by
    intro l
    induction l with
    | nil => simp
    | cons x l ih =>
      intro u
      rw [List.foldl_cons]
      simp only [ih]
      simp
  unfold State.splicePacket
  generalize breakIndices = l
  dsimp only
  split
  · simp [k1, k2]
  · split <;> simp [k1, k2]

@[simp] theorem State.observe_frame (s : State) (t : Time) (p : Packet) (n : Bool) :
    (s.observe t p n).tb = s.tb ∧ (s.observe t p n).feedA = s.feedA ∧ (s.observe t p n).feedB = s.feedB ∧
    (s.observe t p n).store = s.store ∧ (s.observe t p n).sel = s.sel ∧ (s.observe t p n).launch = s.launch ∧
    (s.observe t p n).clip = s.clip ∧ (s.observe t p n).lanes = s.lanes ∧ (s.observe t p n).windows = s.windows ∧
    (s.observe t p n).mon = s.mon ∧ (s.observe t p n).chg = s.chg ∧ (s.observe t p n).lines = s.lines ∧
    (s.observe t p n).station = s.station ∧ (s.observe t p n).network = s.network ∧ (s.observe t p n).part = s.part ∧
    (s.observe t p n).paramLock = s.paramLock ∧ (s.observe t p n).draws = s.draws ∧
    (s.observe t p n).pending = s.pending := by
  simp only [State.observe]
  repeat' split
  all_goals simp

@[simp] theorem State.disposeOther_frame (s : State) (f : FeedId) (n : Nat) :
    (s.disposeOther f n).tb = s.tb ∧ (s.disposeOther f n).launch = s.launch ∧ (s.disposeOther f n).clip = s.clip ∧
    (s.disposeOther f n).lanes = s.lanes ∧ (s.disposeOther f n).splice = s.splice ∧
    (s.disposeOther f n).windows = s.windows ∧ (s.disposeOther f n).mon = s.mon ∧ (s.disposeOther f n).chg = s.chg ∧
    (s.disposeOther f n).lines = s.lines ∧ (s.disposeOther f n).station = s.station ∧
    (s.disposeOther f n).network = s.network ∧ (s.disposeOther f n).part = s.part ∧
    (s.disposeOther f n).paramLock = s.paramLock ∧ (s.disposeOther f n).draws = s.draws ∧
    (s.disposeOther f n).pending = s.pending := by
  simp only [State.disposeOther]
  repeat' split
  all_goals simp

@[simp] theorem State.switchFeed_frame (s : State) (f : FeedId) :
    (s.switchFeed f).tb = s.tb ∧ (s.switchFeed f).feedA = s.feedA ∧ (s.switchFeed f).feedB = s.feedB ∧
    (s.switchFeed f).store = s.store ∧ (s.switchFeed f).launch = s.launch ∧ (s.switchFeed f).clip = s.clip ∧
    (s.switchFeed f).lanes = s.lanes ∧ (s.switchFeed f).splice = s.splice ∧ (s.switchFeed f).windows = s.windows ∧
    (s.switchFeed f).mon = s.mon ∧ (s.switchFeed f).chg = s.chg ∧ (s.switchFeed f).lines = s.lines ∧
    (s.switchFeed f).part = s.part ∧ (s.switchFeed f).paramLock = s.paramLock ∧ (s.switchFeed f).draws = s.draws ∧
    (s.switchFeed f).pending = s.pending := by
  simp only [State.switchFeed]
  repeat' split
  all_goals simp

@[simp] theorem State.readCue_frame (s : State) (x : Launched) (c : Packet × Nat) :
    (State.readCue x s c).tb = s.tb ∧ (State.readCue x s c).feedA = s.feedA ∧ (State.readCue x s c).feedB = s.feedB ∧
    (State.readCue x s c).store = s.store ∧ (State.readCue x s c).launch = s.launch ∧
    (State.readCue x s c).mon = s.mon ∧ (State.readCue x s c).chg = s.chg ∧ (State.readCue x s c).lines = s.lines ∧
    (State.readCue x s c).part = s.part ∧ (State.readCue x s c).paramLock = s.paramLock ∧
    (State.readCue x s c).draws = s.draws ∧ (State.readCue x s c).pending = s.pending := by
  simp only [State.readCue]
  repeat' split
  all_goals simp

@[simp] theorem State.readCues_frame (s : State) (r : GroupRecord) :
    (s.readCues r).tb = s.tb ∧ (s.readCues r).feedA = s.feedA ∧ (s.readCues r).feedB = s.feedB ∧
    (s.readCues r).store = s.store ∧ (s.readCues r).launch = s.launch ∧ (s.readCues r).mon = s.mon ∧
    (s.readCues r).chg = s.chg ∧ (s.readCues r).lines = s.lines ∧ (s.readCues r).part = s.part ∧
    (s.readCues r).paramLock = s.paramLock ∧ (s.readCues r).draws = s.draws ∧ (s.readCues r).pending = s.pending := by
  unfold State.readCues
  generalize r.cells.zipIdx = l
  induction l generalizing s <;> simp_all

@[simp] theorem State.admitCopy_frame (s : State) (cond : AdmitCond) (e i : Nat) (r : GroupRecord) :
    (s.admitCopy cond e i r).tb = s.tb ∧ (s.admitCopy cond e i r).mon = s.mon ∧
    (s.admitCopy cond e i r).chg = s.chg ∧ (s.admitCopy cond e i r).lines = s.lines ∧
    (s.admitCopy cond e i r).part = s.part ∧ (s.admitCopy cond e i r).paramLock = s.paramLock ∧
    (s.admitCopy cond e i r).draws = s.draws ∧ (s.admitCopy cond e i r).pending = s.pending := by
  simp [State.admitCopy]

@[simp] theorem State.skip_frame (s : State) (e : Nat) :
    (s.skip e).tb = s.tb ∧ (s.skip e).launch = s.launch ∧ (s.skip e).clip = s.clip ∧ (s.skip e).lanes = s.lanes ∧
    (s.skip e).splice = s.splice ∧ (s.skip e).windows = s.windows ∧ (s.skip e).mon = s.mon ∧ (s.skip e).chg = s.chg ∧
    (s.skip e).lines = s.lines ∧ (s.skip e).part = s.part ∧ (s.skip e).paramLock = s.paramLock ∧
    (s.skip e).draws = s.draws ∧ (s.skip e).pending = s.pending := by
  have key : ∀ (l : List Nat) (u : State), 
      ((l.foldl State.freeOutOfReach u)).tb = (u).tb ∧
      ((l.foldl State.freeOutOfReach u)).launch = (u).launch ∧
      ((l.foldl State.freeOutOfReach u)).clip = (u).clip ∧
      ((l.foldl State.freeOutOfReach u)).lanes = (u).lanes ∧
      ((l.foldl State.freeOutOfReach u)).splice = (u).splice ∧
      ((l.foldl State.freeOutOfReach u)).windows = (u).windows ∧
      ((l.foldl State.freeOutOfReach u)).mon = (u).mon ∧
      ((l.foldl State.freeOutOfReach u)).chg = (u).chg ∧
      ((l.foldl State.freeOutOfReach u)).lines = (u).lines ∧
      ((l.foldl State.freeOutOfReach u)).part = (u).part ∧
      ((l.foldl State.freeOutOfReach u)).paramLock = (u).paramLock ∧
      ((l.foldl State.freeOutOfReach u)).draws = (u).draws ∧
      ((l.foldl State.freeOutOfReach u)).pending = (u).pending := by
    intro l
    induction l <;> simp_all [State.freeOutOfReach]
  simp only [State.skip]
  split <;> simp [key]

@[simp] theorem State.selectorTests_frame (s : State) (n : Nat) :
    (s.selectorTests n).tb = s.tb ∧ (s.selectorTests n).mon = s.mon ∧ (s.selectorTests n).chg = s.chg ∧
    (s.selectorTests n).lines = s.lines ∧ (s.selectorTests n).part = s.part ∧
    (s.selectorTests n).paramLock = s.paramLock ∧ (s.selectorTests n).draws = s.draws ∧
    (s.selectorTests n).pending = s.pending := by
  induction n generalizing s with
  | zero => simp [State.selectorTests]
  | succ n ih =>
    simp only [State.selectorTests]
    repeat' split
    all_goals simp [ih]

@[simp] theorem State.testSelector_frame (s : State) :
    (s.testSelector).tb = s.tb ∧ (s.testSelector).mon = s.mon ∧ (s.testSelector).chg = s.chg ∧
    (s.testSelector).lines = s.lines ∧ (s.testSelector).part = s.part ∧ (s.testSelector).paramLock = s.paramLock ∧
    (s.testSelector).draws = s.draws ∧ (s.testSelector).pending = s.pending := by
  simp only [State.testSelector]
  repeat' split
  all_goals simp

@[simp] theorem State.sequenceRestart_frame (s : State) (f : FeedId) (n : Nat) :
    (s.sequenceRestart f n).tb = s.tb ∧ (s.sequenceRestart f n).clip = s.clip ∧
    (s.sequenceRestart f n).lanes = s.lanes ∧ (s.sequenceRestart f n).splice = s.splice ∧
    (s.sequenceRestart f n).windows = s.windows ∧ (s.sequenceRestart f n).mon = s.mon ∧
    (s.sequenceRestart f n).chg = s.chg ∧ (s.sequenceRestart f n).lines = s.lines ∧
    (s.sequenceRestart f n).part = s.part ∧ (s.sequenceRestart f n).paramLock = s.paramLock ∧
    (s.sequenceRestart f n).draws = s.draws ∧ (s.sequenceRestart f n).pending = s.pending := by
  simp [State.sequenceRestart]

@[simp] theorem State.shutCopy_frame (s : State) (f : FeedId) :
    (s.shutCopy f).tb = s.tb ∧ (s.shutCopy f).sel = s.sel ∧ (s.shutCopy f).launch = s.launch ∧
    (s.shutCopy f).clip = s.clip ∧ (s.shutCopy f).lanes = s.lanes ∧ (s.shutCopy f).splice = s.splice ∧
    (s.shutCopy f).windows = s.windows ∧ (s.shutCopy f).mon = s.mon ∧ (s.shutCopy f).chg = s.chg ∧
    (s.shutCopy f).lines = s.lines ∧ (s.shutCopy f).station = s.station ∧ (s.shutCopy f).network = s.network ∧
    (s.shutCopy f).part = s.part ∧ (s.shutCopy f).paramLock = s.paramLock ∧ (s.shutCopy f).draws = s.draws ∧
    (s.shutCopy f).pending = s.pending := by
  simp only [State.shutCopy]
  repeat' split
  all_goals simp [State.count]

@[simp] theorem State.closeCopy_frame (s : State) (f : FeedId) :
    (s.closeCopy f).tb = s.tb ∧ (s.closeCopy f).mon = s.mon ∧ (s.closeCopy f).chg = s.chg ∧
    (s.closeCopy f).lines = s.lines ∧ (s.closeCopy f).part = s.part ∧ (s.closeCopy f).paramLock = s.paramLock ∧
    (s.closeCopy f).draws = s.draws ∧ (s.closeCopy f).pending = s.pending := by
  simp only [State.closeCopy]
  repeat' split
  all_goals simp

@[simp] theorem State.closeIfFull_frame (s : State) (f : FeedId) :
    (s.closeIfFull f).tb = s.tb ∧ (s.closeIfFull f).mon = s.mon ∧ (s.closeIfFull f).chg = s.chg ∧
    (s.closeIfFull f).lines = s.lines ∧ (s.closeIfFull f).part = s.part ∧ (s.closeIfFull f).paramLock = s.paramLock ∧
    (s.closeIfFull f).draws = s.draws ∧ (s.closeIfFull f).pending = s.pending := by
  simp only [State.closeIfFull]
  repeat' split
  all_goals simp

@[simp] theorem State.openCopy_frame (s : State) (f : FeedId) (k : Packet) (p : Pacing) (i : Nat) :
    (s.openCopy f k p i).tb = s.tb ∧ (s.openCopy f k p i).launch = s.launch ∧ (s.openCopy f k p i).clip = s.clip ∧
    (s.openCopy f k p i).lanes = s.lanes ∧ (s.openCopy f k p i).splice = s.splice ∧
    (s.openCopy f k p i).windows = s.windows ∧ (s.openCopy f k p i).mon = s.mon ∧ (s.openCopy f k p i).chg = s.chg ∧
    (s.openCopy f k p i).lines = s.lines ∧ (s.openCopy f k p i).station = s.station ∧
    (s.openCopy f k p i).network = s.network ∧ (s.openCopy f k p i).part = s.part ∧
    (s.openCopy f k p i).paramLock = s.paramLock ∧ (s.openCopy f k p i).draws = s.draws ∧
    (s.openCopy f k p i).pending = s.pending := by
  simp only [State.openCopy]
  repeat' split
  all_goals simp

@[simp] theorem State.pacingOpen_frame (s : State) (f : FeedId) (k : Packet) (p : Pacing) :
    (s.pacingOpen f k p).tb = s.tb ∧ (s.pacingOpen f k p).mon = s.mon ∧ (s.pacingOpen f k p).chg = s.chg ∧
    (s.pacingOpen f k p).lines = s.lines ∧ (s.pacingOpen f k p).part = s.part ∧
    (s.pacingOpen f k p).paramLock = s.paramLock ∧ (s.pacingOpen f k p).draws = s.draws ∧
    (s.pacingOpen f k p).pending = s.pending := by
  simp only [State.pacingOpen]
  repeat' split
  all_goals simp

@[simp] theorem State.passStale_frame (s : State) (f : FeedId) :
    (s.passStale f).tb = s.tb ∧ (s.passStale f).store = s.store ∧ (s.passStale f).sel = s.sel ∧
    (s.passStale f).launch = s.launch ∧ (s.passStale f).clip = s.clip ∧ (s.passStale f).lanes = s.lanes ∧
    (s.passStale f).splice = s.splice ∧ (s.passStale f).windows = s.windows ∧ (s.passStale f).mon = s.mon ∧
    (s.passStale f).chg = s.chg ∧ (s.passStale f).lines = s.lines ∧ (s.passStale f).station = s.station ∧
    (s.passStale f).network = s.network ∧ (s.passStale f).part = s.part ∧ (s.passStale f).paramLock = s.paramLock ∧
    (s.passStale f).draws = s.draws ∧ (s.passStale f).pending = s.pending := by
  simp only [State.passStale]
  repeat' split
  all_goals simp

@[simp] theorem State.pacingArrival_frame (s : State) (f : FeedId) (k : Packet) (p : Pacing) :
    (s.pacingArrival f k p).tb = s.tb ∧ (s.pacingArrival f k p).mon = s.mon ∧ (s.pacingArrival f k p).chg = s.chg ∧
    (s.pacingArrival f k p).lines = s.lines ∧ (s.pacingArrival f k p).part = s.part ∧
    (s.pacingArrival f k p).paramLock = s.paramLock ∧ (s.pacingArrival f k p).draws = s.draws ∧
    (s.pacingArrival f k p).pending = s.pending := by
  simp only [State.pacingArrival]
  repeat' split
  all_goals simp

@[simp] theorem State.fillCopy_frame (s : State) (f : FeedId) (k : Packet) (i : Nat) (r : GroupRecord) :
    (s.fillCopy f k i r).tb = s.tb ∧ (s.fillCopy f k i r).mon = s.mon ∧ (s.fillCopy f k i r).chg = s.chg ∧
    (s.fillCopy f k i r).lines = s.lines ∧ (s.fillCopy f k i r).part = s.part ∧
    (s.fillCopy f k i r).paramLock = s.paramLock ∧ (s.fillCopy f k i r).draws = s.draws ∧
    (s.fillCopy f k i r).pending = s.pending := by
  simp only [State.fillCopy]
  repeat' split
  all_goals simp

@[simp] theorem State.plainArrival_frame (s : State) (f : FeedId) (k : Packet) :
    (s.plainArrival f k).tb = s.tb ∧ (s.plainArrival f k).mon = s.mon ∧ (s.plainArrival f k).chg = s.chg ∧
    (s.plainArrival f k).lines = s.lines ∧ (s.plainArrival f k).part = s.part ∧
    (s.plainArrival f k).paramLock = s.paramLock ∧ (s.plainArrival f k).draws = s.draws ∧
    (s.plainArrival f k).pending = s.pending := by
  simp only [State.plainArrival]
  repeat' split
  all_goals simp

@[simp] theorem State.invalidPacing_frame (s : State) (f : FeedId) :
    (s.invalidPacing f).tb = s.tb ∧ (s.invalidPacing f).mon = s.mon ∧ (s.invalidPacing f).chg = s.chg ∧
    (s.invalidPacing f).lines = s.lines ∧ (s.invalidPacing f).part = s.part ∧
    (s.invalidPacing f).paramLock = s.paramLock ∧ (s.invalidPacing f).draws = s.draws ∧
    (s.invalidPacing f).pending = s.pending := by
  simp only [State.invalidPacing]
  repeat' split
  all_goals simp

@[simp] theorem State.arrival_frame (s : State) (f : FeedId) (k : Packet) :
    (s.arrival f k).tb = s.tb ∧ (s.arrival f k).mon = s.mon ∧ (s.arrival f k).chg = s.chg ∧
    (s.arrival f k).lines = s.lines ∧ (s.arrival f k).part = s.part ∧ (s.arrival f k).paramLock = s.paramLock ∧
    (s.arrival f k).draws = s.draws ∧ (s.arrival f k).pending = s.pending := by
  simp only [State.arrival]
  repeat' split
  all_goals simp

@[simp] theorem State.syncLoss_frame (s : State) (f : FeedId) (c : SyncLoss) :
    (s.syncLoss f c).tb = s.tb ∧ (s.syncLoss f c).mon = s.mon ∧ (s.syncLoss f c).chg = s.chg ∧
    (s.syncLoss f c).lines = s.lines ∧ (s.syncLoss f c).part = s.part ∧ (s.syncLoss f c).paramLock = s.paramLock ∧
    (s.syncLoss f c).draws = s.draws ∧ (s.syncLoss f c).pending = s.pending := by
  simp [State.syncLoss]

@[simp] theorem State.byteHeard_frame (s : State) (f : FeedId) :
    (s.byteHeard f).tb = s.tb ∧ (s.byteHeard f).store = s.store ∧ (s.byteHeard f).sel = s.sel ∧
    (s.byteHeard f).launch = s.launch ∧ (s.byteHeard f).clip = s.clip ∧ (s.byteHeard f).lanes = s.lanes ∧
    (s.byteHeard f).splice = s.splice ∧ (s.byteHeard f).windows = s.windows ∧ (s.byteHeard f).mon = s.mon ∧
    (s.byteHeard f).chg = s.chg ∧ (s.byteHeard f).lines = s.lines ∧ (s.byteHeard f).station = s.station ∧
    (s.byteHeard f).network = s.network ∧ (s.byteHeard f).part = s.part ∧ (s.byteHeard f).paramLock = s.paramLock ∧
    (s.byteHeard f).draws = s.draws ∧ (s.byteHeard f).pending = s.pending := by
  simp [State.byteHeard]

@[simp] theorem State.searchByte_frame (s : State) (f : FeedId) (b : Byte) :
    (s.searchByte f b).tb = s.tb ∧ (s.searchByte f b).store = s.store ∧ (s.searchByte f b).sel = s.sel ∧
    (s.searchByte f b).launch = s.launch ∧ (s.searchByte f b).clip = s.clip ∧ (s.searchByte f b).lanes = s.lanes ∧
    (s.searchByte f b).splice = s.splice ∧ (s.searchByte f b).windows = s.windows ∧ (s.searchByte f b).mon = s.mon ∧
    (s.searchByte f b).chg = s.chg ∧ (s.searchByte f b).lines = s.lines ∧ (s.searchByte f b).station = s.station ∧
    (s.searchByte f b).network = s.network ∧ (s.searchByte f b).part = s.part ∧
    (s.searchByte f b).paramLock = s.paramLock ∧ (s.searchByte f b).draws = s.draws ∧
    (s.searchByte f b).pending = s.pending := by
  simp only [State.searchByte]
  repeat' split
  all_goals simp

@[simp] theorem State.verifyByte_frame (s : State) (f : FeedId) (b : Byte) :
    (s.verifyByte f b).tb = s.tb ∧ (s.verifyByte f b).mon = s.mon ∧ (s.verifyByte f b).chg = s.chg ∧
    (s.verifyByte f b).lines = s.lines ∧ (s.verifyByte f b).part = s.part ∧
    (s.verifyByte f b).paramLock = s.paramLock ∧ (s.verifyByte f b).draws = s.draws ∧
    (s.verifyByte f b).pending = s.pending := by
  simp only [State.verifyByte]
  repeat' split
  all_goals simp

@[simp] theorem State.badSyncByte_frame (s : State) (f : FeedId) :
    (s.badSyncByte f).tb = s.tb ∧ (s.badSyncByte f).mon = s.mon ∧ (s.badSyncByte f).chg = s.chg ∧
    (s.badSyncByte f).lines = s.lines ∧ (s.badSyncByte f).part = s.part ∧ (s.badSyncByte f).paramLock = s.paramLock ∧
    (s.badSyncByte f).draws = s.draws ∧ (s.badSyncByte f).pending = s.pending := by
  simp only [State.badSyncByte]
  repeat' split
  all_goals simp

@[simp] theorem State.lockedSync_frame (s : State) (f : FeedId) (b : Byte) :
    (s.lockedSync f b).tb = s.tb ∧ (s.lockedSync f b).mon = s.mon ∧ (s.lockedSync f b).chg = s.chg ∧
    (s.lockedSync f b).lines = s.lines ∧ (s.lockedSync f b).part = s.part ∧
    (s.lockedSync f b).paramLock = s.paramLock ∧ (s.lockedSync f b).draws = s.draws ∧
    (s.lockedSync f b).pending = s.pending := by
  simp only [State.lockedSync]
  repeat' split
  all_goals simp

@[simp] theorem State.lockedLast_frame (s : State) (f : FeedId) (b : Byte) :
    (s.lockedLast f b).tb = s.tb ∧ (s.lockedLast f b).mon = s.mon ∧ (s.lockedLast f b).chg = s.chg ∧
    (s.lockedLast f b).lines = s.lines ∧ (s.lockedLast f b).part = s.part ∧
    (s.lockedLast f b).paramLock = s.paramLock ∧ (s.lockedLast f b).draws = s.draws ∧
    (s.lockedLast f b).pending = s.pending := by
  simp only [State.lockedLast]
  repeat' split
  all_goals simp

@[simp] theorem State.innerByte_frame (s : State) (f : FeedId) (b : Byte) :
    (s.innerByte f b).tb = s.tb ∧ (s.innerByte f b).store = s.store ∧ (s.innerByte f b).sel = s.sel ∧
    (s.innerByte f b).launch = s.launch ∧ (s.innerByte f b).clip = s.clip ∧ (s.innerByte f b).lanes = s.lanes ∧
    (s.innerByte f b).splice = s.splice ∧ (s.innerByte f b).windows = s.windows ∧ (s.innerByte f b).mon = s.mon ∧
    (s.innerByte f b).chg = s.chg ∧ (s.innerByte f b).lines = s.lines ∧ (s.innerByte f b).station = s.station ∧
    (s.innerByte f b).network = s.network ∧ (s.innerByte f b).part = s.part ∧
    (s.innerByte f b).paramLock = s.paramLock ∧ (s.innerByte f b).draws = s.draws ∧
    (s.innerByte f b).pending = s.pending := by
  simp [State.innerByte]

@[simp] theorem State.takeByte_frame (s : State) (f : FeedId) (b : Byte) :
    (s.takeByte f b).tb = s.tb ∧ (s.takeByte f b).mon = s.mon ∧ (s.takeByte f b).chg = s.chg ∧
    (s.takeByte f b).lines = s.lines ∧ (s.takeByte f b).part = s.part ∧ (s.takeByte f b).paramLock = s.paramLock ∧
    (s.takeByte f b).draws = s.draws ∧ (s.takeByte f b).pending = s.pending := by
  simp only [State.takeByte]
  repeat' split
  all_goals simp

@[simp] theorem State.actInstantly_frame (s : State) (x : Instantly) :
    (s.actInstantly x).tb = s.tb ∧ (s.actInstantly x).mon = s.mon ∧ (s.actInstantly x).chg = s.chg ∧
    (s.actInstantly x).lines = s.lines ∧ (s.actInstantly x).part = s.part ∧
    (s.actInstantly x).paramLock = s.paramLock ∧ (s.actInstantly x).draws = s.draws ∧
    (s.actInstantly x).pending = s.pending := by
  cases x <;> simp [State.actInstantly]

@[simp] theorem State.jump_frame (s : State) :
    (s.jump).tb = s.tb ∧ (s.jump).mon = s.mon ∧ (s.jump).chg = s.chg ∧ (s.jump).lines = s.lines ∧
    (s.jump).part = s.part ∧ (s.jump).paramLock = s.paramLock ∧ (s.jump).pending = s.pending := by
  have key : ∀ (l : List Instantly) (u : State), 
      ((l.foldl State.actInstantly u)).tb = (u).tb ∧
      ((l.foldl State.actInstantly u)).mon = (u).mon ∧
      ((l.foldl State.actInstantly u)).chg = (u).chg ∧
      ((l.foldl State.actInstantly u)).lines = (u).lines ∧
      ((l.foldl State.actInstantly u)).part = (u).part ∧
      ((l.foldl State.actInstantly u)).paramLock = (u).paramLock ∧
      ((l.foldl State.actInstantly u)).pending = (u).pending := by
    intro l
    induction l with
    | nil => simp
    | cons x l ih =>
      intro u
      rw [List.foldl_cons]
      simp only [ih]
      simp
  simp [State.jump, key]

@[simp] theorem State.changeTb_frame (s : State) (t : Timebase) (l : Option (Nat × Nat)) :
    (s.changeTb t l).feedA = s.feedA ∧ (s.changeTb t l).feedB = s.feedB ∧ (s.changeTb t l).store = s.store ∧
    (s.changeTb t l).sel = s.sel ∧ (s.changeTb t l).launch = s.launch ∧ (s.changeTb t l).clip = s.clip ∧
    (s.changeTb t l).lanes = s.lanes ∧ (s.changeTb t l).splice = s.splice ∧ (s.changeTb t l).windows = s.windows ∧
    (s.changeTb t l).mon = s.mon ∧ (s.changeTb t l).chg = s.chg ∧ (s.changeTb t l).lines = s.lines ∧
    (s.changeTb t l).part = s.part ∧ (s.changeTb t l).paramLock = s.paramLock ∧ (s.changeTb t l).draws = s.draws ∧
    (s.changeTb t l).pending = s.pending := by
  simp only [State.changeTb]
  repeat' split
  all_goals simp

@[simp] theorem State.secondMark_frame (s : State) (t : Timebase) (b : Nat) (x : Bool) :
    (s.secondMark t b x).mon = s.mon ∧ (s.secondMark t b x).chg = s.chg ∧ (s.secondMark t b x).part = s.part ∧
    (s.secondMark t b x).paramLock = s.paramLock ∧ (s.secondMark t b x).pending = s.pending := by
  simp only [State.secondMark]
  repeat' split
  all_goals simp

@[simp] theorem State.pulse_frame (s : State) :
    (s.pulse).mon = s.mon ∧ (s.pulse).chg = s.chg ∧ (s.pulse).part = s.part ∧ (s.pulse).paramLock = s.paramLock ∧
    (s.pulse).pending = s.pending := by
  simp only [State.pulse]
  repeat' split
  all_goals simp

@[simp] theorem State.countPeriod_frame (s : State) :
    (s.countPeriod).tb = s.tb ∧ (s.countPeriod).store = s.store ∧ (s.countPeriod).sel = s.sel ∧
    (s.countPeriod).clip = s.clip ∧ (s.countPeriod).lanes = s.lanes ∧ (s.countPeriod).splice = s.splice ∧
    (s.countPeriod).windows = s.windows ∧ (s.countPeriod).station = s.station ∧ (s.countPeriod).network = s.network ∧
    (s.countPeriod).part = s.part ∧ (s.countPeriod).paramLock = s.paramLock ∧ (s.countPeriod).draws = s.draws ∧
    (s.countPeriod).pending = s.pending := by
  simp [State.countPeriod]

@[simp] theorem State.period_frame (s : State) :
    (s.period).part = s.part ∧ (s.period).paramLock = s.paramLock ∧ (s.period).pending = s.pending := by
  simp only [State.period]
  repeat' split
  all_goals simp

@[simp] theorem State.autoChangeover_frame (s : State) (x : Position) :
    (s.autoChangeover x).tb = s.tb ∧ (s.autoChangeover x).feedA = s.feedA ∧ (s.autoChangeover x).feedB = s.feedB ∧
    (s.autoChangeover x).store = s.store ∧ (s.autoChangeover x).sel = s.sel ∧
    (s.autoChangeover x).launch = s.launch ∧ (s.autoChangeover x).clip = s.clip ∧
    (s.autoChangeover x).lanes = s.lanes ∧ (s.autoChangeover x).splice = s.splice ∧
    (s.autoChangeover x).windows = s.windows ∧ (s.autoChangeover x).mon = s.mon ∧
    (s.autoChangeover x).lines = s.lines ∧ (s.autoChangeover x).part = s.part ∧
    (s.autoChangeover x).paramLock = s.paramLock ∧ (s.autoChangeover x).draws = s.draws ∧
    (s.autoChangeover x).pending = s.pending := by
  simp only [State.autoChangeover]
  repeat' split
  all_goals simp

@[simp] theorem State.reevaluate_frame (s : State) :
    (s.reevaluate).tb = s.tb ∧ (s.reevaluate).feedA = s.feedA ∧ (s.reevaluate).feedB = s.feedB ∧
    (s.reevaluate).store = s.store ∧ (s.reevaluate).sel = s.sel ∧ (s.reevaluate).launch = s.launch ∧
    (s.reevaluate).clip = s.clip ∧ (s.reevaluate).lanes = s.lanes ∧ (s.reevaluate).splice = s.splice ∧
    (s.reevaluate).windows = s.windows ∧ (s.reevaluate).mon = s.mon ∧ (s.reevaluate).lines = s.lines ∧
    (s.reevaluate).part = s.part ∧ (s.reevaluate).paramLock = s.paramLock ∧ (s.reevaluate).draws = s.draws ∧
    (s.reevaluate).pending = s.pending := by
  simp only [State.reevaluate]
  repeat' split
  all_goals simp

@[simp] theorem State.reform_frame (s : State) (b : State) :
    (s.reform b).tb = s.tb ∧ (s.reform b).feedA = s.feedA ∧ (s.reform b).feedB = s.feedB ∧
    (s.reform b).store = s.store ∧ (s.reform b).sel = s.sel ∧ (s.reform b).launch = s.launch ∧
    (s.reform b).clip = s.clip ∧ (s.reform b).lanes = s.lanes ∧ (s.reform b).splice = s.splice ∧
    (s.reform b).windows = s.windows ∧ (s.reform b).mon = s.mon ∧ (s.reform b).lines = s.lines ∧
    (s.reform b).part = s.part ∧ (s.reform b).paramLock = s.paramLock ∧ (s.reform b).draws = s.draws ∧
    (s.reform b).pending = s.pending := by
  simp only [State.reform]
  repeat' split
  all_goals simp

@[simp] theorem State.offerCapture_frame (s : State) (i : Nat) :
    (s.offerCapture i).tb = s.tb ∧ (s.offerCapture i).feedA = s.feedA ∧ (s.offerCapture i).feedB = s.feedB ∧
    (s.offerCapture i).store = s.store ∧ (s.offerCapture i).sel = s.sel ∧ (s.offerCapture i).launch = s.launch ∧
    (s.offerCapture i).clip = s.clip ∧ (s.offerCapture i).lanes = s.lanes ∧ (s.offerCapture i).splice = s.splice ∧
    (s.offerCapture i).windows = s.windows ∧ (s.offerCapture i).chg = s.chg ∧ (s.offerCapture i).lines = s.lines ∧
    (s.offerCapture i).part = s.part ∧ (s.offerCapture i).paramLock = s.paramLock ∧
    (s.offerCapture i).draws = s.draws ∧ (s.offerCapture i).pending = s.pending := by
  simp only [State.offerCapture]
  repeat' split
  all_goals simp

@[simp] theorem State.convertChannel_frame (s : State) (i v : Nat) :
    (s.convertChannel i v).tb = s.tb ∧ (s.convertChannel i v).feedA = s.feedA ∧
    (s.convertChannel i v).feedB = s.feedB ∧ (s.convertChannel i v).store = s.store ∧
    (s.convertChannel i v).sel = s.sel ∧ (s.convertChannel i v).launch = s.launch ∧
    (s.convertChannel i v).clip = s.clip ∧ (s.convertChannel i v).lanes = s.lanes ∧
    (s.convertChannel i v).splice = s.splice ∧ (s.convertChannel i v).windows = s.windows ∧
    (s.convertChannel i v).lines = s.lines ∧ (s.convertChannel i v).part = s.part ∧
    (s.convertChannel i v).paramLock = s.paramLock ∧ (s.convertChannel i v).draws = s.draws ∧
    (s.convertChannel i v).pending = s.pending := by
  simp only [State.convertChannel]
  repeat' split
  all_goals simp

@[simp] theorem State.returnNormal_frame (s : State) (i : Nat) :
    (s.returnNormal i).tb = s.tb ∧ (s.returnNormal i).feedA = s.feedA ∧ (s.returnNormal i).feedB = s.feedB ∧
    (s.returnNormal i).store = s.store ∧ (s.returnNormal i).sel = s.sel ∧ (s.returnNormal i).launch = s.launch ∧
    (s.returnNormal i).clip = s.clip ∧ (s.returnNormal i).lanes = s.lanes ∧ (s.returnNormal i).splice = s.splice ∧
    (s.returnNormal i).windows = s.windows ∧ (s.returnNormal i).lines = s.lines ∧ (s.returnNormal i).part = s.part ∧
    (s.returnNormal i).paramLock = s.paramLock ∧ (s.returnNormal i).draws = s.draws ∧
    (s.returnNormal i).pending = s.pending := by
  simp [State.returnNormal]

@[simp] theorem State.takeRange_frame (s : State) (a b : Nat) :
    (s.takeRange a b).tb = s.tb ∧ (s.takeRange a b).feedA = s.feedA ∧ (s.takeRange a b).feedB = s.feedB ∧
    (s.takeRange a b).store = s.store ∧ (s.takeRange a b).sel = s.sel ∧ (s.takeRange a b).launch = s.launch ∧
    (s.takeRange a b).clip = s.clip ∧ (s.takeRange a b).lanes = s.lanes ∧ (s.takeRange a b).splice = s.splice ∧
    (s.takeRange a b).windows = s.windows ∧ (s.takeRange a b).lines = s.lines ∧ (s.takeRange a b).part = s.part ∧
    (s.takeRange a b).paramLock = s.paramLock ∧ (s.takeRange a b).pending = s.pending := by
  have k1 : ∀ (l : List Nat) (u : State), 
      ((l.foldl (fun s i => s.withChannel i (s.channel i).leaveRange) u)).tb = (u).tb ∧
      ((l.foldl (fun s i => s.withChannel i (s.channel i).leaveRange) u)).feedA = (u).feedA ∧
      ((l.foldl (fun s i => s.withChannel i (s.channel i).leaveRange) u)).feedB = (u).feedB ∧
      ((l.foldl (fun s i => s.withChannel i (s.channel i).leaveRange) u)).store = (u).store ∧
      ((l.foldl (fun s i => s.withChannel i (s.channel i).leaveRange) u)).sel = (u).sel ∧
      ((l.foldl (fun s i => s.withChannel i (s.channel i).leaveRange) u)).launch = (u).launch ∧
      ((l.foldl (fun s i => s.withChannel i (s.channel i).leaveRange) u)).clip = (u).clip ∧
      ((l.foldl (fun s i => s.withChannel i (s.channel i).leaveRange) u)).lanes = (u).lanes ∧
      ((l.foldl (fun s i => s.withChannel i (s.channel i).leaveRange) u)).splice = (u).splice ∧
      ((l.foldl (fun s i => s.withChannel i (s.channel i).leaveRange) u)).windows = (u).windows ∧
      ((l.foldl (fun s i => s.withChannel i (s.channel i).leaveRange) u)).lines = (u).lines ∧
      ((l.foldl (fun s i => s.withChannel i (s.channel i).leaveRange) u)).part = (u).part ∧
      ((l.foldl (fun s i => s.withChannel i (s.channel i).leaveRange) u)).paramLock = (u).paramLock ∧
      ((l.foldl (fun s i => s.withChannel i (s.channel i).leaveRange) u)).pending = (u).pending := by
    intro l
    induction l with
    | nil => simp
    | cons x l ih =>
      intro u
      rw [List.foldl_cons]
      simp only [ih]
      simp
  have k2 : ∀ (l : List Nat) (u : State), 
      ((l.foldl (fun s i => s.raise .channelLimit i 0) u)).tb = (u).tb ∧
      ((l.foldl (fun s i => s.raise .channelLimit i 0) u)).feedA = (u).feedA ∧
      ((l.foldl (fun s i => s.raise .channelLimit i 0) u)).feedB = (u).feedB ∧
      ((l.foldl (fun s i => s.raise .channelLimit i 0) u)).store = (u).store ∧
      ((l.foldl (fun s i => s.raise .channelLimit i 0) u)).sel = (u).sel ∧
      ((l.foldl (fun s i => s.raise .channelLimit i 0) u)).launch = (u).launch ∧
      ((l.foldl (fun s i => s.raise .channelLimit i 0) u)).clip = (u).clip ∧
      ((l.foldl (fun s i => s.raise .channelLimit i 0) u)).lanes = (u).lanes ∧
      ((l.foldl (fun s i => s.raise .channelLimit i 0) u)).splice = (u).splice ∧
      ((l.foldl (fun s i => s.raise .channelLimit i 0) u)).windows = (u).windows ∧
      ((l.foldl (fun s i => s.raise .channelLimit i 0) u)).lines = (u).lines ∧
      ((l.foldl (fun s i => s.raise .channelLimit i 0) u)).part = (u).part ∧
      ((l.foldl (fun s i => s.raise .channelLimit i 0) u)).paramLock = (u).paramLock ∧
      ((l.foldl (fun s i => s.raise .channelLimit i 0) u)).pending = (u).pending := by
    intro l
    induction l with
    | nil => simp
    | cons x l ih =>
      intro u
      rw [List.foldl_cons]
      simp only [ih]
      simp
  have k3 : ∀ (l : List Nat) (u : State), 
      ((l.foldl State.returnNormal u)).tb = (u).tb ∧
      ((l.foldl State.returnNormal u)).feedA = (u).feedA ∧
      ((l.foldl State.returnNormal u)).feedB = (u).feedB ∧
      ((l.foldl State.returnNormal u)).store = (u).store ∧
      ((l.foldl State.returnNormal u)).sel = (u).sel ∧
      ((l.foldl State.returnNormal u)).launch = (u).launch ∧
      ((l.foldl State.returnNormal u)).clip = (u).clip ∧
      ((l.foldl State.returnNormal u)).lanes = (u).lanes ∧
      ((l.foldl State.returnNormal u)).splice = (u).splice ∧
      ((l.foldl State.returnNormal u)).windows = (u).windows ∧
      ((l.foldl State.returnNormal u)).lines = (u).lines ∧
      ((l.foldl State.returnNormal u)).part = (u).part ∧
      ((l.foldl State.returnNormal u)).paramLock = (u).paramLock ∧
      ((l.foldl State.returnNormal u)).pending = (u).pending := by
    intro l
    induction l with
    | nil => simp
    | cons x l ih =>
      intro u
      rw [List.foldl_cons]
      simp only [ih]
      simp
  simp [State.takeRange, k1, k2, k3]

@[simp] theorem State.completeConversion_frame (s : State) (v : Nat) :
    (s.completeConversion v).tb = s.tb ∧ (s.completeConversion v).feedA = s.feedA ∧
    (s.completeConversion v).feedB = s.feedB ∧ (s.completeConversion v).store = s.store ∧
    (s.completeConversion v).sel = s.sel ∧ (s.completeConversion v).launch = s.launch ∧
    (s.completeConversion v).clip = s.clip ∧ (s.completeConversion v).lanes = s.lanes ∧
    (s.completeConversion v).splice = s.splice ∧ (s.completeConversion v).windows = s.windows ∧
    (s.completeConversion v).lines = s.lines ∧ (s.completeConversion v).part = s.part ∧
    (s.completeConversion v).paramLock = s.paramLock ∧ (s.completeConversion v).pending = s.pending := by
  simp only [State.completeConversion]
  repeat' split
  all_goals simp

@[simp] theorem State.acceptEdge_frame (s : State) (i : Nat) :
    (s.acceptEdge i).tb = s.tb ∧ (s.acceptEdge i).feedA = s.feedA ∧ (s.acceptEdge i).feedB = s.feedB ∧
    (s.acceptEdge i).store = s.store ∧ (s.acceptEdge i).sel = s.sel ∧ (s.acceptEdge i).launch = s.launch ∧
    (s.acceptEdge i).mon = s.mon ∧ (s.acceptEdge i).part = s.part ∧ (s.acceptEdge i).paramLock = s.paramLock ∧
    (s.acceptEdge i).draws = s.draws ∧ (s.acceptEdge i).pending = s.pending := by
  simp only [State.acceptEdge]
  repeat' split
  all_goals simp

end Sys2Proof.Machine
end

