-- ==== Sys2Proof/Laws/Changeover.lean ====
section
/-! SUPPORT. What an automatic changeover, a re-evaluation and a change of the exciter health do, said once: the controller
and the events that both ports are offered (R137, R140 to R142, R146). -/

namespace Sys2Proof.Machine

open Sys2Proof

theorem PortState.offers_append (q : PortState) (a b : List Event) : q.offers (a ++ b) = (q.offers a).offers b := by
  simp [PortState.offers]

/-- A history of at most three keeps the newest three (R142). -/
theorem appendHistory_eq {h : List Time} (t : Time) (hl : h.length ≤ 3) :
    appendHistory h t = (h ++ [t]).drop (h.length - 2) := by
  match h, hl with
  | [], _ => rfl
  | [_], _ => rfl
  | [_, _], _ => rfl
  | [_, _, _], _ => rfl

theorem holdDue_eq (h : List Time) :
    holdDue h = (match h with | [a, _, b] => decide (tdiff b a ≤ 6000000000) | _ => false) := by
  match h with
  | [] => rfl
  | [_] => rfl
  | [_, _] => rfl
  | [_, _, _] => rfl
  | _ :: _ :: _ :: _ :: _ => rfl

theorem Changeover.automatic_eq (c : Changeover) (now : Time) (target : Position) (hl : c.history.length ≤ 3) :
    c.automatic now target =
      let history := appendHistory c.history now
      ({ c with position := target, returnTimer := none, history := history, hold := c.hold || holdDue history },
        ⟨.changeover, target.code, 0, now⟩ ::
          if holdDue history then [⟨.changeoverHold, target.code, 1, now⟩] else []) := by
  simp only [Changeover.automatic, appendHistory_eq _ hl]
  rw [holdDue_eq] <;> rfl

/-- An automatic changeover (R140, R142). -/
theorem State.autoChangeover_spec (s : State) (target : Position) (hl : s.chg.history.length ≤ 3) :
    (s.autoChangeover target).chg = (s.chg.automatic s.now target).1 ∧
    ∀ p, (s.autoChangeover target).port p = (s.port p).offers (s.chg.automatic s.now target).2 := by
  rw [Changeover.automatic_eq _ _ _ hl]
  simp only [State.autoChangeover]
  cases holdDue (appendHistory s.chg.history s.now)
  · exact ⟨by simp [State.withChg, State.raise], fun p => by cases p <;> rfl⟩
  · exact ⟨by simp [State.withChg, State.raise], fun p => by cases p <;> rfl⟩

/-- A re-evaluation (the table of R140). -/
theorem State.reevaluate_spec (s : State) (hl : s.chg.history.length ≤ 3) :
    s.reevaluate.chg = (s.chg.reevaluated s.now s.mainFault s.reserveFault).1 ∧
    ∀ p, s.reevaluate.port p = (s.port p).offers (s.chg.reevaluated s.now s.mainFault s.reserveFault).2 := by
  have ha := fun t => State.autoChangeover_spec s t hl
  have hc : ∀ t, (s.autoChangeover t).chg = (s.chg.automatic s.now t).1 := fun t => (ha t).1
  have hp : ∀ (x : Changeover) p, (s.withChg x).port p = s.port p := fun x p => by cases p <;> rfl
  unfold State.reevaluate Changeover.reevaluated
  by_cases h : s.chg.manual = true ∨ s.chg.hold = true
  · have : (s.chg.manual || s.chg.hold) = true := by simpa using h
    simp [h, this, PortState.offers]
  · have h' : (s.chg.manual || s.chg.hold) = false := by simpa using h
    rw [if_neg h, h']
    simp only [Bool.false_eq_true, ↓reduceIte]
    cases e : s.chg.position <;> cases s.mainFault <;> cases s.reserveFault <;>
      simp [hc, ha, e, PortState.offers, Changeover.stopTimer, hp]
    cases er : s.chg.autoReturn
    · cases hch : s.chg
      simp_all
    · simp only [↓reduceIte, State.withChg_chg, hp, implies_true, and_true, Changeover.startTimer]
      cases et : s.chg.returnTimer
      · simp [ticksPerSecond, e, er]
      · cases hch : s.chg; simp_all

/-- A re-evaluation where the main fault or the reserve fault has changed (R137). -/
theorem State.reform_spec (s before : State) (hl : s.chg.history.length ≤ 3) :
    let r := if s.mainFault = before.mainFault ∧ s.reserveFault = before.reserveFault then (s.chg, [])
      else s.chg.reevaluated s.now s.mainFault s.reserveFault
    (s.reform before).chg = r.1 ∧ ∀ p, (s.reform before).port p = (s.port p).offers r.2 := by
  simp only [State.reform]
  split
  · simp [PortState.offers]
  · exact State.reevaluate_spec s hl

/-- A channel record that keeps its role and its state takes the same part in the exciter health (R137). -/
theorem State.withChannel_faultAs {s : State} {i : Nat} (hi : i < s.mon.channels.length) (role : Role) {x : Channel}
    (h1 : x.role = (s.channel i).role) (h2 : x.state = (s.channel i).state) :
    (s.withChannel i x).mon.channels.any (·.faultAs role) = s.mon.channels.any (·.faultAs role) := by
  have hx : x.faultAs role = (s.mon.channels[i]).faultAs role := by
    have : s.channel i = s.mon.channels[i] := by simp [State.channel, hi]
    simp [Channel.faultAs, h1, h2, this]
  have : ∀ (cs : List Channel) (j : Nat) (hj : j < cs.length), x.faultAs role = (cs[j]).faultAs role →
      (cs.set j x).any (·.faultAs role) = cs.any (·.faultAs role) := by
    intro cs
    induction cs with
    | nil => intro j hj; simp at hj
    | cons c cs ih =>
      intro j hj h
      match j with
      | 0 => simpa using by rw [show x.faultAs role = c.faultAs role from h]
      | j + 1 => simp only [List.set_cons_succ, List.any_cons]; rw [ih j (by simpa using hj) (by simpa using h)]
  exact this _ _ hi hx

/-- A conversion stored and classified: CHANNEL_LIMIT, CAPTURE_HELD and then what the changeover does (R135 to R137,
R146). -/
theorem State.convertChannel_follow {s : State} (v : Nat) {i : Nat} (hi : i < s.mon.channels.length)
    (hl : s.chg.history.length ≤ 3) :
    let c := s.channel i
    let k := c.classOf v
    let run := if k.state = c.state then 0 else if c.previous = some k then c.run + 1 else 1
    s.healthFollowed (s.convertChannel i v)
      (if k.state ≠ c.state ∧ c.persistence ≤ run then
        ⟨.channelLimit, i, k.state.code, s.now⟩ ::
          if k ≠ .n ∧ s.mon.capture = none then [⟨.captureHeld, i, k.state.code, s.now⟩] else []
      else []) := by
  intro c k run
  have at_ : ∀ x e a b, ((s.withChannel i x).raise e a b).channel i = x := by
    intro x e a b; simp [State.channel, State.withChannel, State.raise, hi]
  simp only [State.convertChannel]
  by_cases hc : k.state ≠ c.state ∧ c.persistence ≤ run
  · rw [show (s.channel i).convert v = ({ c with value := v, state := k.state, run := 0, previous := some k }, true) from
      if_pos hc, if_pos hc]
    simp only [↓reduceIte]
    generalize hu : State.offerCapture _ i = u
    have e : u.chg = s.chg ∧ u.now = s.now ∧ ∀ p, u.port p = (s.port p).offers
        (⟨.channelLimit, i, k.state.code, s.now⟩ ::
          if k ≠ .n ∧ s.mon.capture = none then [⟨.captureHeld, i, k.state.code, s.now⟩] else []) := by
      subst hu
      have hk : k = .n ↔ k.state = .normal := by cases k <;> simp [ChannelClass.state]
      simp only [State.offerCapture, at_]
      by_cases h : k.state = .normal ∨ s.mon.capture.isSome
      · rw [if_pos (by simpa [State.withChannel] using h), if_neg (by
          rintro ⟨h1, h2⟩; rcases h with h | h
          · exact h1 (hk.mpr h)
          · simp [h2] at h)]
        exact ⟨by simp [State.withChannel], by simp [State.withChannel, State.now], fun p => by cases p <;> rfl⟩
      · rw [if_neg (by simpa [State.withChannel] using h), if_pos (by
          rw [not_or] at h; exact ⟨fun hn => h.1 (hk.mp hn), by simpa using h.2⟩)]
        exact ⟨by simp [State.withChannel], by simp [State.withChannel, State.now], fun p => by cases p <;> rfl⟩
    have follow := State.reform_spec u s (by rw [e.1]; exact hl)
    have hm : (u.reform s).mainFault = u.mainFault ∧ (u.reform s).reserveFault = u.reserveFault := by
      simp [State.mainFault, State.reserveFault]
    simp only [State.healthFollowed, hm, e] at follow ⊢
    exact ⟨follow.1, fun p => by rw [follow.2, PortState.offers_append]⟩
  · rw [show (s.channel i).convert v = ({ c with value := v, run := run, previous := some k }, false) from if_neg hc,
      if_neg hc]
    simp only [Bool.false_eq_true, ↓reduceIte, State.healthFollowed]
    rw [if_pos]
    · exact ⟨by simp [State.withChannel], fun p => by cases p <;> rfl⟩
    · constructor
      · simp only [State.mainFault]; congr 1; exact State.withChannel_faultAs hi _ rfl rfl
      · simp only [State.reserveFault]; congr 1; exact State.withChannel_faultAs hi _ rfl rfl

end Sys2Proof.Machine
end

