-- ==== Sys2Proof/Laws/Memory.lean ====
section
/-! SUPPORT. Clip memory: a slot reads back what was written to it, every other slot reads as before, and every write keeps
the canonical form. -/

namespace Sys2Proof.Machine

open Sys2Proof

theorem cellsFind_write_same (cells : List (Nat × Packet)) (a : Nat) (p : Packet) :
    cellsFind (cellsWrite cells a p) a = some p := by
  induction cells with
  | nil => simp [cellsWrite, cellsFind]
  | cons c rest ih =>
    simp only [cellsWrite]
    split
    · simp [cellsFind]
    · split
      · simp [cellsFind]
      · rename_i h
        simp [cellsFind, ih, Ne.symm h]

theorem cellsFind_write_other (cells : List (Nat × Packet)) {a b : Nat} (p : Packet) (h : b ≠ a) :
    cellsFind (cellsWrite cells a p) b = cellsFind cells b := by
  induction cells with
  | nil => simp [cellsWrite, cellsFind, Ne.symm h]
  | cons c rest ih =>
    simp only [cellsWrite]
    split
    · simp [cellsFind, Ne.symm h]
    · split
      · rename_i e
        simp [cellsFind, ← e, Ne.symm h]
      · simp [cellsFind, ih]

theorem cellsRising_write (cells : List (Nat × Packet)) {lo a : Nat} (p : Packet) (h : cellsRising cells lo = true)
    (hlo : lo ≤ a) : cellsRising (cellsWrite cells a p) lo = true := by
  induction cells generalizing lo with
  | nil => simp [cellsWrite, cellsRising, hlo]
  | cons c rest ih =>
    simp only [cellsRising, Bool.and_eq_true, decide_eq_true_eq] at h
    simp only [cellsWrite]
    split
    · simp only [cellsRising, Bool.and_eq_true, decide_eq_true_eq]
      exact ⟨hlo, by omega, h.2⟩
    · split
      · rename_i e
        subst e
        simp [cellsRising, hlo, h.2]
      · simp only [cellsRising, Bool.and_eq_true, decide_eq_true_eq]
        exact ⟨h.1, ih h.2 (by omega)⟩

theorem cellsWrite_all (q : Nat × Packet → Bool) (cells : List (Nat × Packet)) (a : Nat) (p : Packet)
    (h : cells.all q = true) (hq : q (a, p) = true) : (cellsWrite cells a p).all q = true := by
  induction cells with
  | nil => simp [cellsWrite, hq]
  | cons c rest ih =>
    simp only [List.all_cons, Bool.and_eq_true] at h
    simp only [cellsWrite]
    split
    · simp [hq, h.1, h.2]
    · split
      · simp [hq, h.2]
      · simp [h.1, ih h.2]

/-- A write keeps the canonical form of clip memory. -/
theorem Memory.wf_write (cells : List (Nat × Packet)) (a : Nat) (p : Packet) (h : Memory.wf cells = true)
    (ha : a < clipSlots) : Memory.wf (cellsWrite cells a p) = true := by
  simp only [Memory.wf, Bool.and_eq_true] at h ⊢
  exact ⟨cellsRising_write cells p h.1 (Nat.zero_le a), cellsWrite_all _ cells a p h.2 (by simp [ha])⟩

/-- Clip memory has its canonical form after reset. -/
theorem Memory.wf_reset : Memory.wf State.reset.clip.cells = true := by decide

/-- A slot reads back what was last written to it (R83). -/
@[simp] theorem Clip.readSlot_writeSlot (c : Clip) (a : Nat) (p : Packet) : (c.writeSlot a p).readSlot a = p := by
  simp [Clip.readSlot, Clip.writeSlot, cellsFind_write_same]

/-- A write leaves every other slot as it was (R83). -/
theorem Clip.readSlot_writeSlot_other (c : Clip) {a b : Nat} (p : Packet) (h : b ≠ a) :
    (c.writeSlot a p).readSlot b = c.readSlot b := by
  simp [Clip.readSlot, Clip.writeSlot, cellsFind_write_other _ p h]

end Sys2Proof.Machine
end

