-- ==== Sys2Proof/Laws/Ops.lean ====
section
/-! SUPPORT. What each shared operation can do, said once: events, frames and responses, group records, lanes, breaks,
windows. -/

namespace Sys2Proof.Machine

open Sys2Proof

/-! ### Events (R171) -/

/-- An event offered to a port is masked, queued at the tail, or counted lost, and nothing else of the port changes. -/
theorem PortState.offer_cases (q : PortState) (e : Event) :
    (q.mask.getD (e.kind.code - 1) true = false ∧ q.offer e = q) ∨
    (q.mask.getD (e.kind.code - 1) true = true ∧ q.events.length < 32 ∧
      q.offer e = { q with events := q.events ++ [e] }) ∨
    (q.mask.getD (e.kind.code - 1) true = true ∧ 32 ≤ q.events.length ∧
      q.offer e = { q with lostEvents := bump16 q.lostEvents }) := by
  unfold PortState.offer
  by_cases hm : q.mask.getD (e.kind.code - 1) true = true
  · by_cases hl : q.events.length < 32
    · exact .inr (.inl ⟨hm, hl, by rw [if_pos hm, if_pos hl]⟩)
    · exact .inr (.inr ⟨hm, by omega, by rw [if_pos hm, if_neg hl]⟩)
  · exact .inl ⟨by simpa using hm, by rw [if_neg hm]⟩

/-- What an offer leaves of a port. -/
@[simp] theorem PortState.offer_frame (q : PortState) (e : Event) :
    (q.offer e).transaction = q.transaction ∧ (q.offer e).inProgress = q.inProgress ∧
    (q.offer e).response = q.response ∧ (q.offer e).overrun = q.overrun ∧ (q.offer e).lost = q.lost ∧
    (q.offer e).mask = q.mask ∧ (q.offer e).dataOut = q.dataOut := by
  rcases q.offer_cases e with ⟨_, h⟩ | ⟨_, _, h⟩ | ⟨_, _, h⟩ <;> simp [h]

theorem bump16_le (n : Nat) : bump16 n ≤ 65535 := by
  unfold bump16
  split <;> omega

theorem bump_le (n : Nat) : bump n ≤ 4294967295 := by
  unfold bump
  split <;> omega

/-- The queue of a port never grows beyond 32 records by an offer, and its lost-event count never beyond 65,535. -/
theorem PortState.offer_bounds (q : PortState) (e : Event) (h : q.events.length ≤ 32) (hl : q.lostEvents ≤ 65535) :
    (q.offer e).events.length ≤ 32 ∧ (q.offer e).lostEvents ≤ 65535 := by
  rcases q.offer_cases e with ⟨_, r⟩ | ⟨_, _, r⟩ | ⟨_, _, r⟩
  · simpa [r] using ⟨h, hl⟩
  · rw [r]
    refine ⟨?_, hl⟩
    simp only [List.length_append, List.length_singleton]
    omega
  · simpa [r] using ⟨h, bump16_le _⟩

/-! ### Frames and responses (R159 to R162) -/

/-- A frame taken while a long command is in progress is overrun. -/
theorem State.onFrame_overrun (s : State) (p : Port) (n : Nat) (act : State → State × Option Reply)
    (h : (s.port p).inProgress.isSome = true) : s.onFrame p n act = s.withPort p ((s.port p).overran n) := by
  simp [State.onFrame, h]

/-- A frame that its command answers at once. -/
theorem State.onFrame_answered {s t : State} {p : Port} {n : Nat} {act : State → State × Option Reply} {r : Reply}
    (h : (s.port p).inProgress = none) (ha : act (s.withPort p ((s.port p).taken n)) = (t, some r)) :
    s.onFrame p n act = t.respond p r := by
  simp [State.onFrame, h, ha]

/-- A frame that starts a long command. -/
theorem State.onFrame_long {s t : State} {p : Port} {n : Nat} {act : State → State × Option Reply}
    (h : (s.port p).inProgress = none) (ha : act (s.withPort p ((s.port p).taken n)) = (t, none)) :
    s.onFrame p n act = t := by
  simp [State.onFrame, h, ha]

/-- A command frame of the length its command takes, on a port with no long command in progress, is dealt with by the
command. -/
theorem State.onCommand_taken {s : State} {p : Port} {params : List Byte} {fits : Bool}
    {act : State → State × Option Reply} (h : (s.port p).inProgress = none) (hl : params.length ≤ maxParams)
    (hf : fits = true) :
    s.onCommand p params fits act = s.onFrame p (frameBytes params) act := by
  simp [State.onCommand, State.onFrame, h, hl, hf]

/-- A command frame of another length is refused BAD_LENGTH. -/
theorem State.onCommand_badLength {s : State} {p : Port} {params : List Byte} {fits : Bool}
    {act : State → State × Option Reply} (h : (s.port p).inProgress = none) (hf : fits = false) :
    s.onCommand p params fits act =
      (s.withPort p ((s.port p).taken (frameBytes params))).respond p (.no .badLength) := by
  simp [State.onCommand, State.onFrame, h, hf]

/-- What taking a frame leaves of a port. -/
@[simp] theorem PortState.taken_frame (q : PortState) (n : Nat) :
    (q.taken n).inProgress = q.inProgress ∧ (q.taken n).response = none ∧ (q.taken n).overrun = q.overrun ∧
    (q.taken n).lost = (q.lost || q.response.isSome) ∧ (q.taken n).events = q.events ∧ (q.taken n).mask = q.mask ∧
    (q.taken n).lostEvents = q.lostEvents ∧ (q.taken n).dataOut = List.replicate n 0 := by
  simp [PortState.taken, PortState.filled, PortState.discardResponse]

/-- What making a response ready leaves of a port. -/
@[simp] theorem PortState.respond_frame (q : PortState) (r : Reply) :
    (q.respond r).inProgress = q.inProgress ∧ (q.respond r).events = q.events ∧ (q.respond r).mask = q.mask ∧
    (q.respond r).lostEvents = q.lostEvents ∧ (q.respond r).dataOut = q.dataOut ∧ (q.respond r).overrun = false ∧
    (q.respond r).lost = false := by
  simp [PortState.respond]

/-! ### Group records (R32, R34) -/

theorem Store.cellsHeld_set_sum (table : List (Option GroupRecord)) (i : Nat) (x : Option GroupRecord)
    (h : i < table.length) :
    ((table.set i x).map fun r => match r with | some g => g.cells.length | none => 0).sum
        + (match table.getD i none with | some g => g.cells.length | none => 0) =
      (table.map fun r => match r with | some g => g.cells.length | none => 0).sum
        + (match x with | some g => g.cells.length | none => 0) := by
  induction table generalizing i with
  | nil => simp at h
  | cons y rest ih =>
    cases i with
    | zero =>
      simp only [List.set_cons_zero, List.map_cons, List.sum_cons, List.getD_cons_zero]
      omega
    | succ i =>
      have h' : i < rest.length := by simpa using h
      have := ih i h'
      simp only [List.set_cons_succ, List.map_cons, List.sum_cons, List.getD_cons_succ]
      omega

/-- A record that the table holds stands at a place of the table. -/
theorem State.record_lt {s : State} {place : Nat} {r : GroupRecord} (h : s.record place = some r) :
    place < s.store.table.length := by
  unfold State.record at h
  by_contra hn
  rw [List.getD_eq_default _ _ (by omega)] at h
  cases h

/-- Handing back a place that holds no record changes nothing. -/
theorem State.freeRecord_none {s : State} {place : Nat} (h : s.record place = none) : s.freeRecord place = s := by
  simp [State.freeRecord, h]

/-- A record handed back: its place is free and its cells are in the pool again (R32). -/
theorem State.freeRecord_some {s : State} {place : Nat} {r : GroupRecord} (h : s.record place = some r) :
    (s.freeRecord place).store =
      ⟨s.store.table.set place none, s.store.freeCells + r.cells.length⟩ := by
  simp [State.freeRecord, h]

/-! ### Breaks and windows (R106, R114) -/

/-- An offer of Y is taken when it is earlier than the Y in force or none is, and changes nothing else of the break. -/
theorem BreakRecord.offerY_cases (b : BreakRecord) (t : Time) (src : YSource) :
    (b.takesOffer t = true ∧ b.offerY t src = { b with y := some (t, src) }) ∨
    (b.takesOffer t = false ∧ b.offerY t src = b) := by
  unfold BreakRecord.offerY
  cases h : b.takesOffer t <;> simp

/-- The state and the slot of a break are not changed by an offer. -/
@[simp] theorem BreakRecord.offerY_frame (b : BreakRecord) (t : Time) (src : YSource) :
    (b.offerY t src).state = b.state ∧ (b.offerY t src).slot = b.slot ∧ (b.offerY t src).lane = b.lane ∧
    (b.offerY t src).x = b.x ∧ (b.offerY t src).aired = b.aired := by
  rcases b.offerY_cases t src with ⟨_, h⟩ | ⟨_, h⟩ <;> simp [h]

/-! ### Ranges (R164) -/

/-- A clamped value lies in its range, and the flag tells whether it had to be brought there. -/
theorem clampTo_spec (lo hi v : Nat) (h : lo ≤ hi) :
    lo ≤ (clampTo lo hi v).1 ∧ (clampTo lo hi v).1 ≤ hi ∧
    ((clampTo lo hi v).2 = false ↔ lo ≤ v ∧ v ≤ hi) ∧ (lo ≤ v → v ≤ hi → (clampTo lo hi v).1 = v) := by
  unfold clampTo
  by_cases h1 : v < lo
  · rw [if_pos h1]
    simp
    omega
  · by_cases h2 : hi < v
    · rw [if_neg h1, if_pos h2]
      simp
      omega
    · rw [if_neg h1, if_neg h2]
      simp
      omega

/-! ### Numbers in bytes (R175) -/

theorem number_foldl_lt (bs : List Byte) (n : Nat) :
    bs.foldl (fun n b => n * 256 + b.toNat) n < (n + 1) * 256 ^ bs.length := by
  induction bs generalizing n with
  | nil => simp
  | cons b bs ih =>
    have hb := b.isLt
    have := ih (n * 256 + b.toNat)
    have h2 : (n * 256 + b.toNat + 1) * 256 ^ bs.length ≤ ((n + 1) * 256) * 256 ^ bs.length :=
      Nat.mul_le_mul_right _ (by omega)
    simp only [List.foldl_cons, List.length_cons, pow_succ]
    calc _ < _ := this
      _ ≤ _ := h2
      _ = (n + 1) * (256 ^ bs.length * 256) := by ring

/-- A number read from bytes is less than 256 to their count. -/
theorem number_lt (bs : List Byte) : number bs < 256 ^ bs.length := by
  simpa [number] using number_foldl_lt bs 0

/-- A field of `n` bytes holds less than 256 to the `n`. -/
theorem field_lt (bs : List Byte) (i n : Nat) : field bs i n < 256 ^ n := by
  unfold field
  refine lt_of_lt_of_le (number_lt _) (Nat.pow_le_pow_right (by norm_num) ?_)
  simp only [List.length_take]
  omega

/-- A byte read as a number is less than 256. -/
theorem byteAt_lt (bs : List Byte) (i : Nat) : byteAt bs i < 256 := (bs.getD i 0).isLt

end Sys2Proof.Machine
end

