-- ==== Sys2Proof/Laws/Records.lean ====
section
/-! SUPPORT. The records of the tables after one of them has been replaced: the replaced place holds the new record, every
other place what it held, and a table that an update leaves alone reads as before. -/

namespace Sys2Proof.Machine

open Sys2Proof

theorem State.brk_withBreak {s : State} {i : Nat} (x : BreakRecord) (h : i < s.splice.breaks.length) :
    (s.withBreak i x).brk i = x := by
  simp [State.withBreak, State.brk, State.withSplice, h]

theorem State.brk_withBreak_ne {s : State} {i j : Nat} (x : BreakRecord) (h : j ≠ i) : (s.withBreak i x).brk j = s.brk j := by
  simp [State.withBreak, State.brk, State.withSplice, List.getD_eq_getElem?_getD, h.symm]

theorem State.brk_congr {s t : State} (h : t.splice = s.splice) (i : Nat) : t.brk i = s.brk i := by
  simp [State.brk, h]

theorem State.lane_withLane {s : State} {i : Nat} (x : Lane) (h : i < s.lanes.length) :
    (s.withLane i x).lane i = x := by
  simp [State.withLane, State.lane, State.withLanes, h]

theorem State.lane_withLane_ne {s : State} {i j : Nat} (x : Lane) (h : j ≠ i) : (s.withLane i x).lane j = s.lane j := by
  simp [State.withLane, State.lane, State.withLanes, List.getD_eq_getElem?_getD, h.symm]

theorem State.lane_congr {s t : State} (h : t.lanes = s.lanes) (i : Nat) : t.lane i = s.lane i := by
  simp [State.lane, h]

theorem State.slot_withSlot {s : State} {i : Nat} (x : Slot) (h : i < s.splice.slots.length) :
    (s.withSlot i x).slot i = x := by
  simp [State.withSlot, State.slot, State.withSplice, h]

theorem State.slot_withSlot_ne {s : State} {i j : Nat} (x : Slot) (h : j ≠ i) : (s.withSlot i x).slot j = s.slot j := by
  simp [State.withSlot, State.slot, State.withSplice, List.getD_eq_getElem?_getD, h.symm]

theorem State.slot_congr {s t : State} (h : t.splice = s.splice) (i : Nat) : t.slot i = s.slot i := by
  simp [State.slot, h]

theorem State.window_withWindow {s : State} {i : Nat} (x : Window) (h : i < s.windows.length) :
    (s.withWindow i x).window i = x := by
  simp [State.withWindow, State.window, State.withWindows, h]

theorem State.window_withWindow_ne {s : State} {i j : Nat} (x : Window) (h : j ≠ i) : (s.withWindow i x).window j = s.window j := by
  simp [State.withWindow, State.window, State.withWindows, List.getD_eq_getElem?_getD, h.symm]

theorem State.window_congr {s t : State} (h : t.windows = s.windows) (i : Nat) : t.window i = s.window i := by
  simp [State.window, h]

theorem State.channel_withChannel {s : State} {i : Nat} (x : Channel) (h : i < s.mon.channels.length) :
    (s.withChannel i x).channel i = x := by
  simp [State.withChannel, State.channel, State.withMon, h]

theorem State.channel_withChannel_ne {s : State} {i j : Nat} (x : Channel) (h : j ≠ i) : (s.withChannel i x).channel j = s.channel j := by
  simp [State.withChannel, State.channel, State.withMon, List.getD_eq_getElem?_getD, h.symm]

theorem State.channel_congr {s t : State} (h : t.mon = s.mon) (i : Nat) : t.channel i = s.channel i := by
  simp [State.channel, h]

theorem State.line_withLine {s : State} {i : Nat} (x : Line) (h : i < s.lines.records.length) :
    (s.withLine i x).line i = x := by
  simp [State.withLine, State.line, State.withLines, h]

theorem State.line_withLine_ne {s : State} {i j : Nat} (x : Line) (h : j ≠ i) : (s.withLine i x).line j = s.line j := by
  simp [State.withLine, State.line, State.withLines, List.getD_eq_getElem?_getD, h.symm]

theorem State.line_congr {s t : State} (h : t.lines = s.lines) (i : Nat) : t.line i = s.line i := by
  simp [State.line, h]

theorem State.playList_withPlayList {s : State} {i : Nat} (x : List Segment) (h : i < s.clip.playLists.length) :
    (s.withPlayList i x).playList i = x := by
  simp [State.withPlayList, State.playList, State.withClip, h]

theorem State.playList_withPlayList_ne {s : State} {i j : Nat} (x : List Segment) (h : j ≠ i) : (s.withPlayList i x).playList j = s.playList j := by
  simp [State.withPlayList, State.playList, State.withClip, List.getD_eq_getElem?_getD, h.symm]

theorem State.playList_congr {s t : State} (h : t.clip = s.clip) (i : Nat) : t.playList i = s.playList i := by
  simp [State.playList, h]

theorem State.record_withRecord {s : State} {i : Nat} (x : Option GroupRecord) (h : i < s.store.table.length) :
    (s.withRecord i x).record i = x := by
  simp [State.withRecord, State.record, State.withStore, h]

theorem State.record_withRecord_ne {s : State} {i j : Nat} (x : Option GroupRecord) (h : j ≠ i) : (s.withRecord i x).record j = s.record j := by
  simp [State.withRecord, State.record, State.withStore, List.getD_eq_getElem?_getD, h.symm]

theorem State.record_congr {s t : State} (h : t.store = s.store) (i : Nat) : t.record i = s.record i := by
  simp [State.record, h]

@[simp] theorem State.feed_withFeed (s : State) (f : FeedId) (x : Feed) : (s.withFeed f x).feed f = x := by
  cases f <;> rfl

@[simp] theorem State.feed_withFeed_other (s : State) (f : FeedId) (x : Feed) :
    (s.withFeed f x).feed f.other = s.feed f.other := by
  cases f <;> rfl

@[simp] theorem State.port_withPort (s : State) (p : Port) (x : PortState) : (s.withPort p x).port p = x := by
  cases p <;> rfl

@[simp] theorem State.port_withPort_other (s : State) (p : Port) (x : PortState) :
    (s.withPort p x).port p.other = s.port p.other := by
  cases p <;> rfl

end Sys2Proof.Machine
end

