-- ==== Sys2Proof/Laws/Commands.lean ====
section
/-! SUPPORT. What a command frame on an open port does, in the words of the statements: the taking of a frame leaves
everything but its port, and the command's own reply is the port's response. -/

namespace Sys2Proof.Machine

open Sys2Proof

/-- The taking of a frame touches its own port alone (R162). -/
@[simp] theorem State.takes_frame (s : State) (p : Port) (params : List Byte) :
    (s.takes p params).tb = s.tb ∧ (s.takes p params).feedA = s.feedA ∧ (s.takes p params).feedB = s.feedB ∧
    (s.takes p params).store = s.store ∧ (s.takes p params).sel = s.sel ∧ (s.takes p params).launch = s.launch ∧
    (s.takes p params).clip = s.clip ∧ (s.takes p params).lanes = s.lanes ∧ (s.takes p params).splice = s.splice ∧
    (s.takes p params).windows = s.windows ∧ (s.takes p params).mon = s.mon ∧ (s.takes p params).chg = s.chg ∧
    (s.takes p params).lines = s.lines ∧ (s.takes p params).part = s.part ∧
    (s.takes p params).paramLock = s.paramLock ∧ (s.takes p params).draws = s.draws ∧
    (s.takes p params).pending = s.pending ∧ (s.takes p params).port p = (s.port p).taken (frameBytes params) ∧
    (s.takes p params).port p.other = s.port p.other ∧ (s.takes p params).now = s.now := by
  cases p <;> exact ⟨rfl, rfl, rfl, rfl, rfl, rfl, rfl, rfl, rfl, rfl, rfl, rfl, rfl, rfl, rfl, rfl, rfl, rfl, rfl, rfl⟩

/-- The records and the derived conditions that commands read are the same after the taking of a frame. -/
@[simp] theorem State.takes_reads (s : State) (p : Port) (params : List Byte) :
    (∀ i, (s.takes p params).brk i = s.brk i) ∧ (∀ i, (s.takes p params).lane i = s.lane i) ∧
    (∀ i, (s.takes p params).slot i = s.slot i) ∧ (∀ i, (s.takes p params).window i = s.window i) ∧
    (∀ i, (s.takes p params).channel i = s.channel i) ∧ (∀ i, (s.takes p params).line i = s.line i) ∧
    (∀ i, (s.takes p params).playList i = s.playList i) ∧ (∀ i, (s.takes p params).record i = s.record i) ∧
    (∀ i, (s.takes p params).networkEntry i = s.networkEntry i) ∧
    (∀ i, (s.takes p params).listUser i = s.listUser i) ∧ (∀ i, (s.takes p params).slotInUse i = s.slotInUse i) ∧
    (∀ i j k, (s.takes p params).badSlot i j k = s.badSlot i j k) ∧
    (∀ i j, (s.takes p params).meetsSpan i j = s.meetsSpan i j) ∧ (s.takes p params).freeBreak = s.freeBreak ∧
    (s.takes p params).freeWindow = s.freeWindow ∧ (s.takes p params).running = s.running ∧
    (s.takes p params).lockedOut p = (s.paramLock && p == .station) ∧
    (∀ x, (s.takes p params).faultOf x = s.faultOf x) := by
  cases p <;>
    exact ⟨fun _ => rfl, fun _ => rfl, fun _ => rfl, fun _ => rfl, fun _ => rfl, fun _ => rfl, fun _ => rfl,
      fun _ => rfl, fun _ => rfl, fun _ => rfl, fun _ => rfl, fun _ _ _ => rfl, fun _ _ => rfl, rfl, rfl, rfl, rfl,
      fun x => by cases x <;> rfl⟩

/-- A command that answers at once. -/
theorem State.onCommand_answered {s t : State} {p : Port} {params : List Byte} {fits : Bool}
    {act : State → State × Option Reply} {r : Reply} (h : s.open_ p) (hl : params.length ≤ 3072) (hf : fits = true)
    (ha : act (s.takes p params) = (t, some r)) : s.onCommand p params fits act = t.respond p r := by
  rw [State.onCommand_taken h hl hf]
  exact State.onFrame_answered h ha

/-- A command that becomes the port's long command. -/
theorem State.onCommand_long {s t : State} {p : Port} {params : List Byte} {fits : Bool}
    {act : State → State × Option Reply} (h : s.open_ p) (hl : params.length ≤ 3072) (hf : fits = true)
    (ha : act (s.takes p params) = (t, none)) : s.onCommand p params fits act = t := by
  rw [State.onCommand_taken h hl hf]
  exact State.onFrame_long h ha

/-- A port that the parameter lock does not hold out (R168). -/
theorem State.permitted {s : State} {p : Port} (h : s.paramLock = false ∨ p = .network) :
    (s.paramLock && p == .station) = false := by
  rcases h with h | h <;> simp [h]

end Sys2Proof.Machine
end

