-- ==== Sys2Proof/Laws/Feeds.lean ====
section
/-! SUPPORT. What the selector and the scheduler leave of a feed: everything but its open copy, which a record handed back
takes away. -/

namespace Sys2Proof.Machine

open Sys2Proof

/-- Two states whose feeds differ in their open copies alone. -/
def State.feedsBut (s t : State) : Prop := ∀ f, ∃ o, t.feed f = { s.feed f with openCopy := o }

theorem State.feedsBut_refl (s : State) : s.feedsBut s := fun f => ⟨(s.feed f).openCopy, rfl⟩

theorem State.feedsBut_trans {s t u : State} (h : s.feedsBut t) (k : t.feedsBut u) : s.feedsBut u := by
  intro f
  obtain ⟨o, ho⟩ := h f
  obtain ⟨q, hq⟩ := k f
  exact ⟨q, by rw [hq, ho]⟩

/-- States whose feeds are equal. -/
theorem State.feedsBut_of_eq {s t : State} (ha : t.feedA = s.feedA) (hb : t.feedB = s.feedB) : s.feedsBut t := by
  intro f
  refine ⟨(s.feed f).openCopy, ?_⟩
  cases f <;> simp [State.feed, ha, hb]

theorem State.feedsBut_foldl {α : Type} (g : State → α → State) (h : ∀ (s : State) (a : α), s.feedsBut (g s a)) (l : List α)
    (s : State) : s.feedsBut (l.foldl g s) := by
  induction l generalizing s with
  | nil => exact s.feedsBut_refl
  | cons a l ih => exact State.feedsBut_trans (h s a) (ih (g s a))

theorem State.freeRecord_feeds (s : State) (place : Nat) : s.feedsBut (s.freeRecord place) := by
  unfold State.freeRecord
  split
  · exact s.feedsBut_refl
  · intro f
    cases f <;> simp only [State.feed, Feed.release] <;> split <;> exact ⟨_, rfl⟩

theorem State.dropGroup_feeds (s : State) (place : Nat) (why : DropReason) : s.feedsBut (s.dropGroup place why) :=
  State.feedsBut_trans (s.freeRecord_feeds place) (State.feedsBut_of_eq (by simp [State.dropGroup])
    (by simp [State.dropGroup]))

theorem State.dropHead_feeds (s : State) (why : DropReason) : s.feedsBut (s.dropHead why) := by
  unfold State.dropHead
  split
  · exact s.feedsBut_refl
  · exact State.feedsBut_trans (State.feedsBut_of_eq rfl rfl) (State.dropGroup_feeds _ _ _)

theorem State.decideHead_feeds (q : Time) (n : Nat) (s : State) : s.feedsBut (State.decideHead q n s) := by
  induction n generalizing s with
  | zero => exact s.feedsBut_refl
  | succ n ih =>
    unfold State.decideHead
    repeat' split
    · exact s.feedsBut_refl
    · exact s.feedsBut_refl
    · exact State.feedsBut_trans (s.dropHead_feeds _) (ih _)
    · exact State.feedsBut_of_eq rfl rfl

theorem State.headDecision_feeds (s : State) : s.feedsBut s.headDecision := by
  unfold State.headDecision
  split
  · exact State.decideHead_feeds _ _ s
  · exact s.feedsBut_refl

theorem State.disposeOther_feeds (s : State) (f : FeedId) (n : Nat) : s.feedsBut (s.disposeOther f n) := by
  unfold State.disposeOther
  repeat' split
  all_goals first
    | exact s.feedsBut_refl
    | exact State.feedsBut_trans (s.freeRecord_feeds _) (State.feedsBut_of_eq rfl rfl)

/-- An admission leaves the feeds but for their open copies (R44). -/
theorem State.admitCopy_feeds (s : State) (cond : AdmitCond) (e i : Nat) (r : GroupRecord) :
    s.feedsBut (s.admitCopy cond e i r) := by
  unfold State.admitCopy
  refine State.feedsBut_trans ?_ (State.headDecision_feeds _)
  refine State.feedsBut_trans (t := (((s.withRecord i (some { r with phase := .queued })).withSel
    { s.sel with queue := s.sel.queue ++ [i], counters := s.sel.counters.admitted cond r.feed }).disposeOther r.feed e))
    ?_ ?_
  · exact State.feedsBut_trans (State.feedsBut_of_eq rfl rfl) (State.disposeOther_feeds _ _ _)
  · exact State.feedsBut_of_eq (by simp) (by simp)

/-- A skip leaves the feeds but for their open copies (R47). -/
theorem State.skip_feeds (s : State) (e : Nat) : s.feedsBut (s.skip e) := by
  have hf : s.feedsBut ((s.outOfReach e).foldl State.freeOutOfReach s) :=
    State.feedsBut_foldl State.freeOutOfReach
      (fun s a => State.feedsBut_trans (s.freeRecord_feeds a) (State.feedsBut_of_eq rfl rfl)) _ s
  unfold State.skip
  simp only []
  split
  · exact hf
  · exact State.feedsBut_trans hf (State.feedsBut_of_eq rfl rfl)

theorem State.selectorTests_feeds (n : Nat) (s : State) : s.feedsBut (State.selectorTests n s) := by
  induction n generalizing s with
  | zero => exact s.feedsBut_refl
  | succ n ih =>
    unfold State.selectorTests
    split
    · exact s.feedsBut_refl
    · split
      · exact State.feedsBut_trans (State.admitCopy_feeds s _ _ _ _) (ih _)
      · split
        · exact State.feedsBut_trans (State.skip_feeds s _) (ih _)
        · exact s.feedsBut_refl

/-- The tests of the selector leave the feeds but for their open copies (R42 to R47). -/
theorem State.testSelector_feeds (s : State) : s.feedsBut s.testSelector := by
  unfold State.testSelector
  split
  · exact State.selectorTests_feeds _ s
  · exact s.feedsBut_refl

end Sys2Proof.Machine
end

