-- ==== Sys2Proof/Laws/Marks.lean ====
section
/-! SUPPORT. What a change of the timebase and a second mark do, said once: the events in the order of R15, and the jump
that follows a label which differs from the second it replaces or a step (R75). -/

namespace Sys2Proof.Machine

open Sys2Proof

@[simp] theorem State.changeTb_tb (s : State) (tb : Timebase) (label : Option (Nat × Nat)) :
    (s.changeTb tb label).tb = tb := by
  simp only [State.changeTb]
  repeat' split
  all_goals simp [State.raise, State.withTb]

/-- A change of the timebase offers its events to both ports (R2, R14, R15). -/
theorem State.changeTb_port (s : State) (tb : Timebase) (label : Option (Nat × Nat)) (p : Port) :
    (s.changeTb tb label).port p = (s.port p).offers (s.tb.changeEvents tb label (s.withTb tb).now) := by
  unfold State.changeTb Timebase.changeEvents PortState.offers
  cases label <;> by_cases h1 : tb.discipline = s.tb.discipline <;> by_cases h2 : tb.gateOpen = s.tb.gateOpen <;>
    cases p <;> simp [h1, h2, State.raise, State.port, State.now, State.withTb]

/-- A pending advance takes force, and none is pending then (R76). -/
theorem Launch.takeAdvance_eq (l : Launch) :
    l.takeAdvance = { l with advance := l.pendingAdvance.getD l.advance, pendingAdvance := none } := by
  unfold Launch.takeAdvance
  cases h : l.pendingAdvance with
  | none => cases l; simp_all
  | some a => rfl

/-- A second mark: its events alone when the site second is the one due, and a jump after them otherwise (R15, R75). -/
theorem State.secondMark_spec (s : State) (tb : Timebase) (base : Nat) (step : Bool) :
    let t := s.secondMark tb base step
    let ev := s.tb.changeEvents t.tb (tb.pendingLabel.map fun v => (v, base)) t.now
    (step = false → tb.pendingLabel.getD base = base → ∀ p, t.port p = (s.port p).offers ev) ∧
    ((step = true ∨ tb.pendingLabel.getD base ≠ base) → s.jumped t ev) := by
  intro t ev
  have htb : t.tb = tb.mark base := by
    simp only [t, State.secondMark]
    split <;> simp [State.withLines, State.withLaunch] <;> split <;> simp
  have hnow : t.now = (s.withTb (tb.mark base)).now := by simp [State.now, htb]
  have hc := State.changeTb_port s (tb.mark base) (tb.pendingLabel.map fun v => (v, base))
  have hev : ev = s.tb.changeEvents (tb.mark base) (tb.pendingLabel.map fun v => (v, base))
      (s.withTb (tb.mark base)).now := by simp [ev, htb, hnow]
  constructor
  · intro hs hl p
    rw [hev, ← hc p]
    simp only [t, State.secondMark, hs, Bool.false_or]
    cases h : tb.pendingLabel with
    | none => cases p <;> simp [State.port, State.withLaunch, State.withLines]
    | some v =>
      simp [h] at hl; subst hl
      cases p <;> simp [State.port, State.withLaunch, State.withLines]
  · intro hs
    let u1 := s.changeTb (tb.mark base) (tb.pendingLabel.map fun v => (v, base))
    let u2 := u1.withLaunch u1.launch.takeAdvance
    let u := u2.withLines { u2.lines with blink := .high }
    have ht : t = u.jump := by
      simp only [t, State.secondMark]
      rw [if_pos]
      rcases hs with h | h
      · simp [h]
      · cases hp : tb.pendingLabel with
        | none => simp [hp] at h
        | some v => simp [hp] at h; simp [h]
    refine ⟨u, ht, ?_, ?_, fun f => ?_, ?_⟩
    · simp [htb, u, u2, u1]
    · simp [u, u2, u1, Launch.takeAdvance_eq]
    · cases f <;> simp [u, u2, u1, State.feed]
    · refine ⟨?_, ?_, ?_, ?_, ?_, ?_, ?_, ?_, ?_, ?_, fun p => ?_⟩
      all_goals try (simp [u, u2, u1, State.spliceKept]; done)
      rw [hev, ← hc p]
      cases p <;> simp [u, u2, u1, State.port]

end Sys2Proof.Machine
end

