-- ==== Sys2Proof/Laws/Selector.lean ====
section
/-! SUPPORT. What the closing of a copy and the steps of an admission do, each said once: the disposal of the other feed's
copy, the active feed, and the reading of the cues (R30, R44, R45, R52, R53). -/

namespace Sys2Proof.Machine

open Sys2Proof

/-! ### The closing of a copy (R30) -/

theorem State.shutCopy_none {s : State} {f : FeedId} (h : (s.feed f).openCopy = none) : s.shutCopy f = s := by
  simp [State.shutCopy, h]

/-- A copy whose arrivals have not reached the declared count closes SHORT. -/
theorem State.shutCopy_short {s : State} {f : FeedId} {place : Nat} {r : GroupRecord}
    (ho : (s.feed f).openCopy = some place) (hr : s.record place = some r) (hn : r.arrivals ≠ r.declared) :
    s.shutCopy f =
      (s.withRecord place (some { r with phase := .short })).withFeed f
        { s.feed f with
          openCopy := none
          counters := { (s.feed f).counters with short := bump (s.feed f).counters.short } } := by
  have hw : (r.arrivals == r.declared && r.stored == r.arrivals) = false := by simp [hn]
  simp only [State.shutCopy, ho, hr, hw]
  cases f <;> rfl

theorem State.shutCopy_feed_other (s : State) (f : FeedId) : (s.shutCopy f).feed f.other = s.feed f.other := by
  simp only [State.shutCopy, State.count]
  repeat' split
  all_goals simp [State.feed, State.withRecord, State.withStore]
  all_goals cases f <;> rfl

/-! ### The copies a feed holds -/

/-- A copy that a feed holds is a record of the table, of that feed and number, open or closed. -/
theorem State.heldCopy_spec {s : State} {f : FeedId} {n i : Nat} {r : GroupRecord} (h : s.heldCopy f n = some (i, r)) :
    s.store.table[i]? = some (some r) ∧ s.record i = some r ∧ r.held = true ∧ r.feed = f ∧ r.group = n := by
  have hm := List.mem_of_find?_eq_some h
  have hp := List.find?_some h
  have ht : s.store.table[i]? = some (some r) := by
    obtain ⟨⟨x, j⟩, hx, hj⟩ := List.mem_filterMap.mp hm
    have := List.mem_zipIdx_iff_getElem?.mp hx
    cases x with
    | none => simp at hj
    | some x => simp at hj; obtain ⟨rfl, rfl⟩ := hj; simpa using this
  simp only [Bool.and_eq_true, beq_iff_eq] at hp
  exact ⟨ht, by simp [State.record, List.getD_eq_getElem?_getD, ht], hp.1.1, hp.1.2, hp.2⟩

/-! ### The steps of an admission (R44) -/

/-- Step 2: the other feed's copy is freed and counted superseded or abandoned, and no feed keeps it as its open copy. -/
theorem State.disposeOther_spec (s : State) (f : FeedId) (n : Nat) :
    let other := s.heldCopy f.other n
    (s.disposeOther f n).store =
      (match other with
        | none => s.store
        | some (j, q) => ⟨s.store.table.set j none, s.store.freeCells + q.cells.length⟩) ∧
    (∀ g, (s.disposeOther f n).feed g =
      { s.feed g with
        openCopy := if other ≠ none ∧ (s.feed g).openCopy = other.map (·.1) then none else (s.feed g).openCopy }) ∧
    (s.disposeOther f n).sel =
      { s.sel with
        counters :=
          { s.sel.counters with
            superseded :=
              if (other.map (·.2)).any (·.closed) then bump s.sel.counters.superseded else s.sel.counters.superseded
            abandoned :=
              if (other.map (·.2)).any (!·.closed) then bump s.sel.counters.abandoned
              else s.sel.counters.abandoned } } ∧
    ∀ p, (s.disposeOther f n).port p = s.port p := by
  dsimp only
  cases hh : s.heldCopy f.other n with
  | none => simp [State.disposeOther, hh]
  | some x =>
    obtain ⟨j, q⟩ := x
    have he : s.disposeOther f n =
        (s.freeRecord j).withSel
          { s.sel with
            counters :=
              if q.closed then { s.sel.counters with superseded := bump s.sel.counters.superseded }
              else { s.sel.counters with abandoned := bump s.sel.counters.abandoned } } := by
      have : (s.freeRecord j).sel = s.sel := by simp
      simp only [State.disposeOther, hh]
    have hf : s.freeRecord j =
        { s with
          store := { table := s.store.table.set j none, freeCells := s.store.freeCells + q.cells.length }
          feedA := s.feedA.release j
          feedB := s.feedB.release j } := by
      simp only [State.freeRecord, (State.heldCopy_spec hh).2.1]
    rw [he, hf]
    refine ⟨rfl, fun g => ?_, ?_, fun p => by cases p <;> rfl⟩
    · have : ∀ x : Feed, x.release j = { x with openCopy := if x.openCopy = some j then none else x.openCopy } := by
        intro x; unfold Feed.release; split <;> simp [*]
      cases g <;> simp [State.feed, this, State.withSel]
    · cases hc : q.closed <;> simp [hc, State.withSel]

/-- Step 3: the active feed, the count of switches and FEED_SWITCH (R45). -/
theorem State.switchFeed_spec (s : State) (f : FeedId) :
    (s.switchFeed f).sel =
      { s.sel with
        active := some f
        counters :=
          { s.sel.counters with
            switches := if s.sel.active = some f then s.sel.counters.switches else bump s.sel.counters.switches } } ∧
    ∀ p, (s.switchFeed f).port p = (s.port p).offers (s.switchEvents f) := by
  unfold State.switchFeed State.switchEvents
  by_cases h : s.sel.active = some f
  · simp only [h, if_true]; exact ⟨by rw [← h], fun p => rfl⟩
  · simp only [h, if_false]; exact ⟨rfl, fun p => by cases p <;> rfl⟩

/-- Step 4, the counts: one cue handed for each valid cue packet, one invalid cue for each other (R52, R53). -/
theorem State.readCue_foldl_sel (launched : Launched) (l : List (Packet × Nat)) (s : State) :
    (l.foldl (State.readCue launched) s).sel =
      { s.sel with
        counters :=
          { s.sel.counters with
            cuesHanded := (l.filter fun x => s.cueIs true x.1).foldl (fun n _ => bump n) s.sel.counters.cuesHanded
            invalidCues :=
              (l.filter fun x => s.cueIs false x.1).foldl (fun n _ => bump n) s.sel.counters.invalidCues } } := by
  induction l generalizing s with
  | nil => rfl
  | cons a l ih =>
    have hl : ∀ v p, (State.readCue launched s a).cueIs v p = s.cueIs v p := by intro v p; simp [State.cueIs]
    rw [List.foldl_cons, ih]
    simp only [hl]
    unfold State.readCue
    by_cases h : (identifier a.1 == s.launch.cueId) = true
    · rw [if_pos h]
      cases hc : cueOf a.1 <;> simp [State.cueIs, h, hc, State.withSel]
    · rw [if_neg h]
      simp only [Bool.not_eq_true] at h
      simp [State.cueIs, h]

/-- Packets without a valid cue hand nothing to the Splice Engine. -/
theorem State.readCue_foldl_idle (launched : Launched) (l : List (Packet × Nat)) (s : State)
    (h : ∀ x ∈ l, s.cueIs true x.1 = false) :
    s.spliceKept (l.foldl (State.readCue launched) s) ∧ ∀ p, (l.foldl (State.readCue launched) s).port p = s.port p := by
  induction l generalizing s with
  | nil => exact ⟨⟨rfl, rfl, rfl, rfl⟩, fun p => rfl⟩
  | cons a l ih =>
    have he : ∃ x, State.readCue launched s a = s.withSel x := by
      have ha := h a (by simp)
      unfold State.readCue
      split
      · rename_i hi
        cases hc : cueOf a.1 with
        | none => exact ⟨_, rfl⟩
        | some c => simp [State.cueIs, hi, hc] at ha
      · exact ⟨s.sel, rfl⟩
    obtain ⟨x, hx⟩ := he
    rw [List.foldl_cons, hx]
    obtain ⟨h1, h2⟩ := ih (s.withSel x) fun y hy => h y (by simp [hy])
    exact ⟨h1, fun p => (h2 p).trans (by cases p <;> rfl)⟩

end Sys2Proof.Machine
end

