-- ==== Sys2Proof/Laws/Splice.lean ====
section
/-! SUPPORT. What sending a packet, ending a break and the tests of one packet start can do, and folds over the indices of
which at most one acts. -/

namespace Sys2Proof.Machine

open Sys2Proof

/-! ### Folds over indices -/

/-- A fold of which no member acts changes nothing. -/
theorem foldl_eq_of_noop {α β : Type} (f : β → α → β) (s : β) (l : List α) (h : ∀ a ∈ l, f s a = s) :
    l.foldl f s = s := by
  induction l with
  | nil => rfl
  | cons a l ih => rw [List.foldl_cons, h a (by simp)]; exact ih fun b hb => h b (by simp [hb])

/-- A fold of which one member alone acts is that member's act. -/
theorem foldl_eq_of_only {α β : Type} (f : β → α → β) (s : β) (i : α) (l : List α) (hn : l.Nodup) (hi : i ∈ l)
    (before : ∀ a ∈ l, a ≠ i → f s a = s) (after : ∀ a ∈ l, a ≠ i → f (f s i) a = f s i) : l.foldl f s = f s i := by
  induction l with
  | nil => simp at hi
  | cons a l ih =>
    have hn' := List.nodup_cons.mp hn
    rw [List.foldl_cons]
    by_cases e : a = i
    · subst e
      exact foldl_eq_of_noop f _ l fun b hb => after b (by simp [hb]) (by rintro rfl; exact hn'.1 hb)
    · rw [before a (by simp) e]
      exact ih hn'.2 ((List.mem_cons.mp hi).resolve_left (Ne.symm e)) (fun b hb => before b (by simp [hb]))
        fun b hb => after b (by simp [hb])

theorem mem_breakIndices {i : Nat} : i ∈ breakIndices ↔ i < 32 := by simp [breakIndices]

theorem breakIndices_nodup : breakIndices.Nodup := List.nodup_range

theorem mem_windowIndices {i : Nat} : i ∈ windowIndices ↔ i < 8 := by simp [windowIndices]

theorem windowIndices_nodup : windowIndices.Nodup := List.nodup_range

/-! ### Sending (R68) -/

@[simp] theorem Launch.send_outputs (l : Launch) (p : Packet) (start : Time) :
    (l.send p start).outputs = l.outputs ++ [⟨p, start, byteOutTime⟩] := rfl

@[simp] theorem drainOutputs_nil : drainOutputs [] = [] := rfl

theorem drainOutputs_cons (x : Leaving) (rest : List Leaving) :
    drainOutputs (x :: rest) = if x.left ≤ 1 then rest else { x with left := x.left - 1 } :: rest := rfl

theorem byteOutTime_pos : 0 < byteOutTime := by unfold byteOutTime; omega

/-! ### The head of the launch queue dropped (R71, R79) -/

/-- A drop of the head frees its record, counts the reason and raises GROUP_DROPPED. -/
theorem State.dropHead_spec {s : State} {place : Nat} {rest : List Nat} {r : GroupRecord} (why : DropReason)
    (hq : s.sel.queue = place :: rest) (hr : s.record place = some r) :
    (s.dropHead why).sel = { s.sel with queue := rest } ∧
    (s.dropHead why).store = ⟨s.store.table.set place none, s.store.freeCells + r.cells.length⟩ ∧
    (s.dropHead why).launch = { s.launch with stats := s.launch.stats.drop why } ∧
    ∀ p, (s.dropHead why).port p = (s.port p).offer ⟨.groupDropped, r.group, why.code, s.now⟩ := by
  have hr' : (s.withSel { s.sel with queue := rest }).record place = some r := hr
  simp only [State.dropHead, hq, State.dropGroup]
  refine ⟨?_, ?_, ?_, fun p => ?_⟩
  · simp [State.raise]
  · show ((s.withSel { s.sel with queue := rest }).freeRecord place).store = _
    rw [State.freeRecord_some hr']; rfl
  · simp [State.raise]
  · rw [hr']; cases p <;> simp [State.raise, State.port, State.now]

/-! ### The end of a break (R106) -/

/-- The end of a break: its record, its lane released, its event, and nothing else of the tables. -/
theorem State.endBreak_spec {s : State} {i : Nat} (cause : EndCause) (at_ : Time) (hi : i < s.splice.breaks.length) :
    (s.endBreak i cause at_).brk i = (s.brk i).endedWith cause at_ ∧
    (∀ j, j ≠ i → (s.endBreak i cause at_).brk j = s.brk j) ∧
    (s.endBreak i cause at_).splice.slots = s.splice.slots ∧
    ((s.brk i).lane = none → (s.endBreak i cause at_).lanes = s.lanes) ∧
    s.laneReleased (s.endBreak i cause at_) i ∧
    ∀ p, (s.endBreak i cause at_).port p = (s.port p).offer ⟨.breakEnded, i, cause.code, s.now⟩ := by
  cases h : (s.brk i).lane with
  | none =>
    simp only [State.endBreak, h]
    refine ⟨?_, fun j hj => ?_, ?_, fun _ => ?_, fun lane hl => ?_, fun p => ?_⟩
    · simp [State.brk, State.raise, State.withBreak, hi, BreakRecord.endedWith]
    · simp [State.brk, State.raise, State.withBreak, List.getD_eq_getElem?_getD, hj.symm]
    · simp [State.raise, State.withBreak]
    · simp [State.raise, State.withBreak]
    · exact absurd (h.symm.trans hl) (by simp)
    · cases p <;> simp [State.port, State.raise, State.withBreak, State.now]
  | some l =>
    simp only [State.endBreak, h]
    refine ⟨?_, fun j hj => ?_, ?_, fun e => ?_, fun lane hl hlt => ?_, fun p => ?_⟩
    · simp [State.brk, State.raise, State.withBreak, hi, BreakRecord.endedWith]
    · simp [State.brk, State.raise, State.withBreak, List.getD_eq_getElem?_getD, hj.symm]
    · simp [State.raise, State.withBreak]
    · exact absurd e (by simp)
    · obtain rfl : l = lane := Option.some.inj (h.symm.trans hl)
      simp [State.lane, State.raise, State.withBreak, State.releaseLane, State.withLane, hlt]
    · cases p <;> simp [State.port, State.raise, State.withBreak, State.now]

/-! ### A trigger that fires (R107, R108) -/

/-- A break ended by a trigger's check, which has no lane to release. -/
theorem State.endBreak_unbound {s : State} {i : Nat} (cause : EndCause) (hi : i < s.splice.breaks.length)
    (hn : (s.brk i).lane = none) :
    let t := s.endBreak i cause s.now
    (∀ j, j ≠ i → t.brk j = s.brk j) ∧ t.splice.slots = s.splice.slots ∧ s.intakeKept t ∧ t.mon = s.mon ∧
    t.chg = s.chg ∧ s.rulesKept t ∧ t.brk i = (s.brk i).endedWith cause s.now ∧ t.lanes = s.lanes ∧
    t.windows = s.windows ∧ ∀ p, t.port p = (s.port p).offer ⟨.breakEnded, i, cause.code, s.now⟩ := by
  obtain ⟨h1, h2, h3, h4, -, h6⟩ := State.endBreak_spec cause s.now hi
  simp only [State.intakeKept, State.rulesKept]
  refine ⟨h2, h3, ?_, ?_, ?_, ?_, h1, h4 hn, ?_, h6⟩ <;> simp

/-- A break made CUED by a trigger, with the lane it takes. -/
theorem State.cue_spec {s : State} {i lane : Nat} (x : Time) (y : Option (Time × YSource))
    (hi : i < s.splice.breaks.length) :
    let u := s.claimLane lane i (s.brk i).playList
    let t := (u.withBreak i { u.brk i with state := .cued, x := some x, lane := some lane, y := y }).raise .breakCued i lane
    (∀ j, j ≠ i → t.brk j = s.brk j) ∧ t.splice.slots = s.splice.slots ∧ s.intakeKept t ∧ t.mon = s.mon ∧
    t.chg = s.chg ∧ s.rulesKept t ∧
    t.brk i = { s.brk i with state := .cued, x := some x, lane := some lane, y := y } ∧
    t.lanes = s.lanes.set lane ⟨.preroll, some i, some (s.brk i).playList, some (0, 0), [], 0, 0, 0, false⟩ ∧
    t.windows = s.windows ∧ ∀ p, t.port p = (s.port p).offer ⟨.breakCued, i, lane, s.now⟩ := by
  intro u t
  refine ⟨fun j hj => ?_, ?_, ?_, ?_, ?_, ?_, ?_, ?_, ?_, fun p => ?_⟩
  · simp [t, u, State.brk, State.raise, State.withBreak, List.getD_eq_getElem?_getD, hj.symm]
  · simp [t, u, State.raise, State.withBreak]
  · simp [t, u, State.raise, State.withBreak, State.intakeKept]
  · simp [t, u, State.raise, State.withBreak]
  · simp [t, u, State.raise, State.withBreak]
  · simp [t, u, State.raise, State.withBreak, State.rulesKept]
  · simp [t, u, State.brk, State.raise, State.withBreak, hi]
  · simp [t, u, State.raise, State.withBreak, State.claimLane, State.withLane]
  · simp [t, u, State.raise, State.withBreak]
  · cases p <;> simp [t, u, State.port, State.raise, State.withBreak, State.now]

/-! ### The tests of one packet start (R110, R115) -/

theorem State.spliceOutTest_idle {s : State} {start : Time} {i : Nat} (h : (s.brk i).state ≠ .cued) :
    s.spliceOutTest start i = s := by
  simp only [State.spliceOutTest]
  split
  · rename_i h1 _; exact absurd h1 h
  · rfl

theorem State.returnTest_idle {s : State} {start : Time} {i : Nat} (h : (s.brk i).state ≠ .onAir) :
    s.returnTest start i = s := by
  simp only [State.returnTest]
  split
  · rename_i h1 _; exact absurd h1 h
  · rfl

theorem State.returnTest_early {s : State} {start : Time} {i : Nat}
    (h : ∀ y source, (s.brk i).y = some (y, source) → later y start = true) : s.returnTest start i = s := by
  simp only [State.returnTest]
  split
  · rename_i y source _ h1; simp [h _ _ h1]
  · rfl

end Sys2Proof.Machine
end

