-- ==== Sys2Proof/Laws/Times.lean ====
section
/-! SUPPORT. The arithmetic of site time: an instant some ticks after another lies that far from it, and has been reached
from it exactly when that is no ticks. -/

namespace Sys2Proof.Machine

open Sys2Proof

theorem State.now_lt (s : State) : s.now < timeModulus := Nat.mod_lt _ (by decide)

/-- The arithmetic of an earlier instant, on numbers. -/
theorem later_minus (a n m h : Nat) (hm : m = h + h) (hn : n < h) : ((a + n) % m + (m - a % m)) % m = n := by
  have h1 : a % m < m := Nat.mod_lt _ (by omega)
  rw [Nat.add_mod a n m, Nat.mod_eq_of_lt (show n < m by omega)]
  generalize a % m = x at *
  rcases Nat.lt_or_ge (x + n) m with hx | hx
  · rw [Nat.mod_eq_of_lt hx, show x + n + (m - x) = n + m by omega, Nat.add_mod_right, Nat.mod_eq_of_lt (by omega)]
  · rw [Nat.mod_eq_sub_mod hx, Nat.mod_eq_of_lt (show x + n - m < m by omega),
      show x + n - m + (m - x) = n by omega, Nat.mod_eq_of_lt (by omega)]

/-- The arithmetic of a later instant, on numbers. -/
theorem earlier_minus (a n m h : Nat) (hm : m = h + h) (h0 : 0 < n) (hn : n < h) :
    (a + (m - (a + n) % m % m)) % m = m - n := by
  have h1 : a % m < m := Nat.mod_lt _ (by omega)
  rw [Nat.mod_mod, Nat.add_mod a n m, Nat.mod_eq_of_lt (show n < m by omega), Nat.add_mod a]
  generalize a % m = x at *
  rcases Nat.lt_or_ge (x + n) m with hx | hx
  · rw [Nat.mod_eq_of_lt hx, Nat.mod_eq_of_lt (show m - (x + n) < m by omega),
      show x + (m - (x + n)) = m - n by omega, Nat.mod_eq_of_lt (by omega)]
  · rw [Nat.mod_eq_sub_mod hx, Nat.mod_eq_of_lt (show x + n - m < m by omega)]
    rcases Nat.lt_or_ge (m - (x + n - m)) m with hy | hy
    · rw [Nat.mod_eq_of_lt hy, show x + (m - (x + n - m)) = m - n + m by omega, Nat.add_mod_right,
        Nat.mod_eq_of_lt (by omega)]
    · rw [show m - (x + n - m) = m by omega, Nat.mod_self, Nat.add_zero, Nat.mod_eq_of_lt (by omega)]
      omega

/-- The difference to an earlier instant. -/
theorem tdiff_tadd (a n : Nat) (h : n < halfModulus) : tdiff (tadd a n) a = (n : Int) := by
  unfold tdiff tadd
  rw [later_minus a n timeModulus halfModulus rfl h, if_pos h]

/-- The difference to a later instant. -/
theorem tdiff_tadd_neg (a n : Nat) (h0 : 0 < n) (h : n < halfModulus) : tdiff a (tadd a n) = -(n : Int) := by
  have hm : timeModulus = halfModulus + halfModulus := rfl
  have hn : ¬ timeModulus - n < halfModulus := by omega
  unfold tdiff tadd
  rw [earlier_minus a n timeModulus halfModulus hm h0 h, if_neg hn]
  omega

theorem reached_tadd (a n : Nat) (h : n < halfModulus) : reached (tadd a n) a = true := by
  simp [reached, tdiff_tadd a n h]

theorem not_reached_tadd (a n : Nat) (hn : 0 < n) (h : n < halfModulus) : reached a (tadd a n) = false := by
  simp only [reached, tdiff_tadd_neg a n hn h, decide_eq_false_iff_not]
  omega

theorem tdiff_self (a : Nat) : tdiff a a = 0 := by
  have h := later_minus a 0 timeModulus halfModulus rfl (by decide)
  have h1 : (a + (timeModulus - a % timeModulus)) % timeModulus = 0 := by
    rw [Nat.add_mod] at h ⊢; simpa using h
  unfold tdiff
  rw [h1]
  rfl

/-- Every instant has reached itself. -/
@[simp] theorem reached_self (a : Nat) : reached a a = true := by simp [reached, tdiff_self]

/-- An instant is earlier than another exactly when it has not reached it. -/
theorem earlier_eq_not_reached (a b : Nat) : earlier a b = !reached a b := by
  simp only [earlier, reached]
  by_cases h : tdiff a b < 0
  · simp [h]
  · simp [h, not_lt.mp h]

end Sys2Proof.Machine
end

