-- ==== Sys2Proof/Laws/Windows.lean ====
section
/-! SUPPORT. The events of a window that acts on the breaks: one BREAK_ENDED for each break it ends BLOCKED, in ascending
break index (R125, R126). -/

namespace Sys2Proof.Machine

open Sys2Proof

theorem State.window_withWindow_bounds (s : State) {v : Nat} {x : Window} (w : Nat) (hm : x.mask = (s.window v).mask)
    (hs : x.start = (s.window v).start) (he : x.stop = (s.window v).stop) :
    ((s.withWindow v x).window w).mask = (s.window w).mask ∧
    ((s.withWindow v x).window w).start = (s.window w).start ∧
    ((s.withWindow v x).window w).stop = (s.window w).stop := by
  unfold State.withWindow State.window at *
  simp only [State.withWindows, List.getD_eq_getElem?_getD, List.getElem?_set] at *
  by_cases e : v = w
  · subst e
    by_cases hl : v < s.windows.length
    · simp [hl, hm, hs, he]
    · simp [hl]
  · simp [e]

/-- What a window's work on the breaks has left of `u` when the breaks of `rest` are still to come: those breaks, the bounds
and slots of the window, the time, and the events so far. -/
structure State.Acting (u s : State) (w : Nat) (rest : List Nat) (es : List Event) : Prop where
  brk : ∀ i ∈ rest, s.brk i = u.brk i
  mask : (s.window w).mask = (u.window w).mask
  start : (s.window w).start = (u.window w).start
  stop : (s.window w).stop = (u.window w).stop
  now : s.now = u.now
  port : ∀ p, s.port p = (u.port p).offers es

theorem State.Acting.tail {u s : State} {w i : Nat} {rest : List Nat} {es : List Event}
    (h : u.Acting s w (i :: rest) es) : u.Acting s w rest es :=
  ⟨fun j hj => h.brk j (by simp [hj]), h.mask, h.start, h.stop, h.now, h.port⟩

/-- A break ended BLOCKED adds its event. -/
theorem State.Acting.block {u s : State} {w i : Nat} {rest : List Nat} {es : List Event} (hn : (i :: rest).Nodup)
    (h : u.Acting s w (i :: rest) es) (hi : (s.brk i).state = .cued) :
    u.Acting (s.blockCued w i) w rest (es ++ [⟨.breakEnded, i, EndCause.blocked.code, u.now⟩]) := by
  have hlen : i < s.splice.breaks.length := by
    by_contra hc
    have : s.brk i = .empty := by
      simp [State.brk, List.getD_eq_getElem?_getD, List.getElem?_eq_none (Nat.le_of_not_lt hc)]
    rw [this] at hi; cases hi
  obtain ⟨v, hv⟩ : ∃ v, v = s.countingWindow w i := ⟨_, rfl⟩
  obtain ⟨x, hx⟩ : ∃ x : State, x = s.withWindow v { s.window v with blocked := bump16 (s.window v).blocked } := ⟨_, rfl⟩
  have hw := s.window_withWindow_bounds (v := v) (x := { s.window v with blocked := bump16 (s.window v).blocked }) w
    rfl rfl rfl
  have he : s.blockCued w i = x.endBreak i .blocked s.now := by subst hx hv; rfl
  rw [← hx] at hw
  have hs : x.splice = s.splice := by subst hx; rfl
  have ht : x.now = s.now := by subst hx; rfl
  have hp : ∀ p, x.port p = s.port p := by subst hx; intro p; cases p <;> rfl
  obtain ⟨-, h2, -, -, -, h6⟩ := State.endBreak_spec (s := x) (i := i) .blocked s.now (by rw [hs]; exact hlen)
  have hwin : ∀ k, (x.endBreak i .blocked s.now).window k = x.window k := by
    intro k; simp only [State.endBreak, State.window]; split <;> simp [State.raise, State.withBreak]
  have hnow : (x.endBreak i .blocked s.now).now = x.now := by
    simp only [State.endBreak]; split <;> simp [State.raise, State.withBreak, State.now, State.releaseLane, State.withLane]
  rw [he]
  refine ⟨fun j hj => ?_, ?_, ?_, ?_, ?_, fun p => ?_⟩
  · rw [h2 j (by rintro rfl; exact (List.nodup_cons.mp hn).1 hj), State.brk_congr hs]; exact h.brk j (by simp [hj])
  · rw [hwin, hw.1]; exact h.mask
  · rw [hwin, hw.2.1]; exact h.start
  · rw [hwin, hw.2.2]; exact h.stop
  · rw [hnow, ht]; exact h.now
  · rw [h6, hp, ht, h.port, PortState.offers_append, h.now]; rfl

/-- An offer raises nothing. -/
theorem State.Acting.offer {u s : State} {w i : Nat} {rest : List Nat} {es : List Event} (hn : (i :: rest).Nodup)
    (h : u.Acting s w (i :: rest) es) : u.Acting (s.offerWindow w i) w rest es := by
  have hy : u.Acting (s.offerY i (s.window w).start .window) w rest es := by
    refine ⟨fun j hj => ?_, h.mask, h.start, h.stop, h.now, fun p => ?_⟩
    · have hji : j ≠ i := by rintro rfl; exact (List.nodup_cons.mp hn).1 hj
      exact (State.brk_withBreak_ne _ hji).trans (h.brk j (by simp [hj]))
    · rw [← h.port p]; cases p <;> rfl
  simp only [State.offerWindow]
  split
  · have hb := (s.offerY i (s.window w).start .window).window_withWindow_bounds (v := w)
      (x := { s.window w with recalled := bump16 (s.window w).recalled }) w rfl rfl rfl
    exact ⟨hy.brk, hb.1.trans hy.mask, hb.2.1.trans hy.start, hb.2.2.trans hy.stop, hy.now,
      fun p => by rw [← hy.port p]; cases p <;> rfl⟩
  · exact hy

/-- The window's work over a list of breaks, whose ends are those that the window's bounds tell. -/
theorem State.windowFold_port (u : State) (w : Nat) (ends : Window → Time → Bool)
    (hg : ∀ a b : Window, a.mask = b.mask → a.start = b.start → a.stop = b.stop → ends a = ends b)
    (l : List Nat) (s : State) (es : List Event) (hn : l.Nodup) (h : u.Acting s w l es) :
    u.Acting
      (l.foldl
        (fun s i =>
          if (s.window w).covers (s.brk i).slot then
            if (s.brk i).state == .cued && (match (s.brk i).x with | some x => ends (s.window w) x | none => false) then
              s.blockCued w i
            else if (s.brk i).state == .onAir then s.offerWindow w i
            else s
          else s)
        s)
      w []
      (es ++ (l.filter fun i =>
          (u.window w).covers (u.brk i).slot && (u.brk i).state == .cued
            && (match (u.brk i).x with | some x => ends (u.window w) x | none => false)).map
        fun i => ⟨.breakEnded, i, EndCause.blocked.code, u.now⟩) := by
  induction l generalizing s es with
  | nil => simpa using h
  | cons i l ih =>
    have hn' := (List.nodup_cons.mp hn).2
    have hb : s.brk i = u.brk i := h.brk i (by simp)
    have hgw : ends (s.window w) = ends (u.window w) := hg _ _ h.mask h.start h.stop
    have hc : ∀ k, (s.window w).covers k = (u.window w).covers k := by intro k; unfold Window.covers; rw [h.mask]
    rw [List.foldl_cons]
    simp only [hb, hgw, hc]
    by_cases he : ((u.window w).covers (u.brk i).slot && (u.brk i).state == .cued
        && (match (u.brk i).x with | some x => ends (u.window w) x | none => false)) = true
    · have h' := he
      simp only [Bool.and_eq_true] at h'
      rw [if_pos h'.1.1, if_pos (by simp only [Bool.and_eq_true]; exact ⟨h'.1.2, h'.2⟩), List.filter_cons, if_pos he]
      have := ih _ _ hn' (h.block hn (by rw [hb]; simpa using h'.1.2))
      simpa using this
    · rw [List.filter_cons, if_neg he]
      by_cases h1 : (u.window w).covers (u.brk i).slot = true
      · rw [if_pos h1, if_neg fun h2 => he (by
          simp only [Bool.and_eq_true] at h2 ⊢; exact ⟨⟨h1, h2.1⟩, h2.2⟩)]
        by_cases h3 : ((u.brk i).state == .onAir) = true
        · rw [if_pos h3]; exact ih _ _ hn' (h.offer hn)
        · rw [if_neg h3]; exact ih _ _ hn' h.tail
      · rw [if_neg h1]; exact ih _ _ hn' h.tail

theorem State.acting_refl (u : State) (w : Nat) : u.Acting u w breakIndices [] :=
  ⟨fun _ _ => rfl, rfl, rfl, rfl, rfl, fun _ => rfl⟩

/-- An ACTIVE window's events. -/
theorem State.windowActs_port (u : State) (w : Nat) (p : Port) :
    (u.windowActs w).port p = (u.port p).offers (u.blockedEvents w fun x => earlier x (u.window w).stop) :=
  (u.windowFold_port w (fun win x => earlier x win.stop) (by intro a b _ _ h; funext x; rw [h]) breakIndices u []
    breakIndices_nodup (u.acting_refl w)).port p

/-- The events of a window set PENDING. -/
theorem State.windowSetPending_port (u : State) (w : Nat) (p : Port) :
    (u.windowSetPending w).port p =
      (u.port p).offers (u.blockedEvents w fun x => reached x (u.window w).start && earlier x (u.window w).stop) :=
  (u.windowFold_port w (fun win x => reached x win.start && earlier x win.stop)
    (by intro a b _ h1 h2; funext x; rw [h1, h2]) breakIndices u [] breakIndices_nodup (u.acting_refl w)).port p

end Sys2Proof.Machine
end

