-- ==== Sys2Proof/Tests/Slice0.lean ====
section
/-! SUPPORT. Tests on fixed values: what well-formedness refuses, the manual's worked figures and sequences, the reading
of frames, and one witness for each statement, a state and operands that meet all its hypotheses (one for each clause,
at a boundary of its range). -/

namespace Sys2Proof.Tests

open Sys2Proof Sys2Proof.Machine

set_option Elab.async false

/-! ### Helpers -/

/-- The state after a command; every command answers a next state. -/
def after (c : Instr) (s : State) : State :=
  match exec c s with
  | .next t => t
  | _ => s

/-- The command answers a next state. -/
def answers (c : Instr) (s : State) : Bool :=
  match exec c s with
  | .next _ => true
  | _ => false

/-- The result code of the response pending on a port. -/
def code (p : Port) (s : State) : Option ResultCode := (s.port p).response.map (·.code)

/-- A part in RUN, labelled and LOCKED, at a site time. -/
def run (second tick : Nat) : State :=
  { State.reset with
    tb := { Timebase.reset with second := second, tick := tick, labelled := true, discipline := .locked }
    part := .run }

/-- The timebase of a state at a tick in a discipline state. -/
def atTick (d : Discipline) (tick : Nat) (s : State := .reset) : State :=
  s.withTb { s.tb with discipline := d, tick := tick }

/-- A feed LOCKED at the last byte of a kept packet. -/
def lastByte (buffer : List Byte) : Feed :=
  { Feed.reset with sync := .locked, pos := 187, accepting := true, buffer := buffer }

/-- The first 187 bytes of a pacing packet: group 7, 400 packets, launch second 108 modulo 256, launch tick 9,100,000. -/
def pacingHead : List Byte :=
  let body : List Byte := [0x5A, 0x00, 0x07, 0x01, 0x90, 0x6C, 0x00, 0x8A, 0xDA, 0xE0]
  [0x47, 0x1F, 0xF0, 0x10] ++ body ++ be 4 (crc32 body) ++ List.replicate 169 0xFF

/-- A packet of another identifier, with a sync byte. -/
def plainPacket : Packet := [0x47, 0x01, 0x00, 0x10] ++ List.replicate 184 0x00

/-- A closed copy of group 7 from feed A with two packets. -/
def copy7 (phase : Phase) : GroupRecord :=
  { feed := .a, group := 7, declared := 2, arrivals := 2, stored := 2, errored := 0, overrun := false, phase := phase
    arrivalTick := 0, launched := .release 60000000, cells := [plainPacket, plainPacket] }

/-- A part in RUN whose group table holds one record, at place 0. -/
def holding (r : GroupRecord) (second tick : Nat) : State :=
  { run second tick with store := ⟨(List.replicate 128 none).set 0 (some r), 65536 - r.cells.length⟩ }

/-- A part in RUN whose slot 0 is defined, whose list 0 has one segment, and whose break 0 has a state and a trigger. -/
def withBreak0 (st : BreakState) (trigger : Trigger) : State :=
  let b : BreakRecord := { BreakRecord.empty with state := st, trigger := trigger, length := some 36000000000, lead := 100000000 }
  let s := (run 100 0).withSlot 0 { Slot.reset with defined := true, entries := [⟨256, 512, none⟩], guard := 1 }
  (s.withPlayList 0 [⟨0, 1⟩]).withBreak 0 b

/-- A CUED break 0 with lane 0 and a splice-out instant. -/
def cued0 (x : Time) : State :=
  let s := withBreak0 .cued .manual
  (s.withBreak 0 { s.brk 0 with x := some x, lane := some 0 }).withLane 0
    { Lane.reset with state := .preroll, break_ := some 0, playList := some 0, position := some (0, 0) }

/-! ### Well-formedness: an ill-formed term for each check -/

theorem test_wf_sync_byte_is_not_wrong : (Instr.badSyncByte .a 0x47).wf = false := by decide
theorem test_wf_overrun_has_a_byte : (Instr.frameOverrun .station 0).wf = false := by decide
theorem test_wf_bad_length_has_a_byte : (Instr.badFrameLength .station 0).wf = false := by decide
theorem test_wf_known_code : (Instr.unknownCommand .station 0x3B []).wf = false := by decide
theorem test_wf_read_code : (Instr.unknownCommand .station 0xF0 []).wf = false := by decide
theorem test_wf_unknown_too_long : (Instr.unknownCommand .station 0x3C (List.replicate 3073 0)).wf = false := by
  decide +kernel
theorem test_wf_too_long : (Instr.clipWrite .network (List.replicate 3073 0)).wf = false := by decide +kernel
theorem test_wf_longest : (Instr.clipWrite .network (List.replicate 3072 0)).wf = true := by decide +kernel

/-! ### Frames (R159, R175) -/

/-- The six codes that R175 names one by one, the response-read code, and a transaction without a whole byte. -/
theorem test_named_codes (p : Port) :
    decodeTransaction p [0x01, 0x00, 0x00] = .identify p [] ∧
    decodeTransaction p [0x04, 0x00, 0x00] = .start p [] ∧
    decodeTransaction p [0x14, 0x00, 0x04, 0x00, 0x00, 0x0A, 0x00] = .clipWrite p [0x00, 0x00, 0x0A, 0x00] ∧
    decodeTransaction p [0x1D, 0x00, 0x01, 0x07] = .createBreak p [0x07] ∧
    decodeTransaction p [0x38, 0x00, 0x00] = .readEvents p [] ∧
    decodeTransaction p [0x3B, 0x00, 0x00] = .unlockParameters p [] ∧
    decodeTransaction p [0xF0, 0x00, 0x00, 0x00, 0x00] = .responseRead p 4 ∧
    decodeTransaction p [] = .emptyTransaction p := by
  cases p <;> decide +kernel

/-- The catalogue counted from IDENTIFY: TIME LABEL is the 7th name, DEFINE SLOT the 26th, SET WINDOW the 37th, MUTE the
49th, CONFIGURE LINE the 52nd. -/
theorem test_catalogue_positions :
    decodeTransaction .station [0x07, 0x00, 0x00] = .timeLabel .station [] ∧
    decodeTransaction .station [0x1A, 0x00, 0x00] = .defineSlot .station [] ∧
    decodeTransaction .network [0x25, 0x00, 0x00] = .setWindow .network [] ∧
    decodeTransaction .network [0x31, 0x00, 0x00] = .mute .network [] ∧
    decodeTransaction .network [0x34, 0x00, 0x00] = .configureLine .network [] := by
  decide +kernel

/-- A length that differs from the bytes sent is a bad frame, and a code above the catalogue names nothing. -/
theorem test_frame_checks :
    decodeTransaction .station [0x07, 0x00, 0x04, 0x01] = .badFrameLength .station 4 ∧
    decodeTransaction .station [0x3C, 0x00, 0x01, 0x09] = .unknownCommand .station 0x3C [0x09] := by
  decide +kernel

/-- The response frame of 12.2: code, flags, length, data. -/
theorem test_response_bytes :
    Response.bytes ⟨.faulted, true, false, true, true, [0xAA]⟩ = [0x0A, 0x0D, 0x00, 0x01, 0xAA] := by decide +kernel

/-- The event record of 12.2. -/
theorem test_event_bytes :
    Event.bytes ⟨.lineEdge, 11, 1, 20000003⟩ =
      [0x14, 0, 0, 0, 0x0B, 0, 0, 0, 0x01, 0, 0, 0, 0x02, 0, 0, 0, 0x03] := by decide +kernel

/-! ### The manual's worked figures -/

/-- R174: the CRC over the ASCII digits 1 to 9. -/
theorem test_crc_digits : crc32 [0x31, 0x32, 0x33, 0x34, 0x35, 0x36, 0x37, 0x38, 0x39] = 0x0376E6E7 := by
  decide +kernel

/-- Worked cases 1 and 2 of chapter 4. -/
theorem test_release_ticks :
    releaseTick 1000300 108 9100000 350000 = instant 1000300 8750000 ∧
    launchResult true (instant 1000300 4200000) (instant 1000300 8750000) 1000000 10000000 =
      .release (instant 1000300 8750000) ∧
    releaseTick 1000447 2 150000 350000 = instant 1000449 9800000 ∧
    launchResult true (instant 1000447 6000000) (instant 1000449 9800000) 1000000 10000000 = .rejected .holdLong := by
  decide +kernel

/-- The edges of the window of chapter 4. -/
theorem test_window_edges :
    fullSecond 1000192 0 = 1000192 ∧ fullSecond 1000192 1 = 1000193 ∧ fullSecond 1000192 127 = 1000319 ∧
    fullSecond 1000192 128 = 1000064 ∧ fullSecond 1000192 255 = 1000191 ∧ fullSecond 4294967295 1 = 1 := by
  decide

/-- The offsets of worked case 1 and the end tick of its SHORT variant. -/
theorem test_offsets :
    offset 41069227 1 = 626 ∧ offset 41069227 2 = 1253 ∧ offset 41069227 3 = 1880 ∧ offset 41069227 17 = 10653 ∧
    offset 41069227 400 = 250666 ∧ offset 41069227 398 = 249413 ∧ periodQ 626 43691 = 41069227 := by
  decide

/-- The two cue instants of chapter 4. -/
theorem test_cue_instants :
    cueInstant ⟨0, .out, none, none⟩ (instant 1000300 4450700) 350000 41069227 17
      (.release (instant 1000300 8750000)) = some (instant 1000300 8760653) ∧
    cueInstant ⟨0, .in_, some (110, 2000000), none⟩ (instant 1000300 4450700) 350000 41069227 203
      (.release (instant 1000300 8750000)) = some (instant 1000302 1650000) := by
  decide +kernel

/-- Worked case 3 of chapter 4. -/
theorem test_rebased_stamps :
    stampBase 2576980300000 0 1000000 = 2622400 ∧ rebased 2622400 45000000 45000000 = 2622400 ∧
    rebased 2622400 45000000 47700000 = 5322400 ∧ rebased 2622400 45000000 44000000 = 1622400 := by
  decide

/-- A stamp written and read back, the largest one among them; the six reserved bits stay. -/
theorem test_stamp_fields :
    stampValue (withStamp (List.replicate 12 0xFF) 2622400) = 2622400 ∧
    stampValue (withStamp (List.replicate 12 0x00) 2576980377599) = 2576980377599 ∧
    (withStamp (List.replicate 12 0xFF) 0).getD 10 0 = 0x7E := by
  decide +kernel

/-- The second row of the acquisition of chapter 1: the step of a FREE timebase with a label pending. -/
theorem test_first_pulse :
    let s := after .pulse (State.reset.withTb { Timebase.reset with tick := 3417200, pendingLabel := some 1000299 })
    s.tb.second = 1000299 ∧ s.tb.tick = 0 ∧ s.tb.discipline = .acquiring ∧ s.tb.labelled = true ∧
    s.tb.lastError = some 3417200 ∧ s.tb.watch = true ∧
    s.station.events = [⟨.labelApplied, 1000299, 0, 10002990000000⟩, ⟨.timebaseState, 1, 0, 10002990000000⟩] := by
  decide +kernel

/-- Its last row: the fourth close pulse enters LOCKED and opens the gate. -/
theorem test_fourth_pulse :
    let s := after .pulse (State.reset.withTb
      { Timebase.reset with second := 1000303, tick := 1, labelled := true, discipline := .acquiring, good := 3 })
    s.tb.discipline = .locked ∧ s.tb.correction = 1 ∧
    s.network.events = [⟨.timebaseState, 2, 1, 10003030000001⟩, ⟨.gate, 1, 2, 10003030000001⟩] := by
  decide +kernel

/-- The loss of reference of chapter 1: the third missed pulse, and the mark that expires the holdover. -/
theorem test_holdover :
    (after .pulseWatchCheck (State.reset.withTb
      { Timebase.reset with tick := 1001, discipline := .locked, missed := 2 })).tb.discipline = .holdover ∧
    (after .secondMark (State.reset.withTb
      { Timebase.reset with tick := 9999999, discipline := .holdover, holdoverSeconds := 299 })).tb.discipline =
      .expired := by
  decide +kernel

/-- A positive correction holds tick 9,999,999, a negative one skips the last ticks (R6). -/
theorem test_slewed_second :
    ({ Timebase.reset with tick := 9999999, correction := 2, held := 1 } : Timebase).atSecondEnd = false ∧
    ({ Timebase.reset with tick := 9999999, correction := 2, held := 2 } : Timebase).atSecondEnd = true ∧
    ({ Timebase.reset with tick := 9999983, correction := -16 } : Timebase).atSecondEnd = true := by
  decide

/-- A part that idles from reset counts the first tick. -/
theorem test_first_period : (match step .reset with | .next t => t.tb.tick | _ => 0) = 1 := by decide +kernel

/-- READ TIME at (2, 258), FREE, unlabelled: the second in 4 bytes, the tick in 3 (log entry 14). -/
theorem test_time_bytes :
    (State.reset.withTb { Timebase.reset with second := 2, tick := 258 }).timeData =
      [0x00, 0x00, 0x00, 0x02, 0x00, 0x01, 0x02, 0x00, 0x00] := by decide +kernel

/-- IDENTIFY: vendor 0x4F52, part 0x5120 (R175). -/
theorem test_identity_bytes : (identifyData .network).take 4 = [0x4F, 0x52, 0x51, 0x20] := by decide

/-! ### Witnesses: for each statement a state and operands that meet its hypotheses -/

theorem witness_StepTakesFrontCommand :
    ({ State.reset with pending := [.blinkFall] }).pending = [.blinkFall] ∧ State.reset.pending = [] ∧
    State.reset.due = [] ∧ (atTick .free 5000000).due ≠ [] := by decide +kernel

theorem witness_FramesReadBack :
    frameParts (.timeLabel .station [0, 0, 0, 1]) = some (.station, 0x07, [0, 0, 0, 1]) ∧
    (Instr.timeLabel .station [0, 0, 0, 1]).wf = true ∧
    frameParts (.clipWrite .network (List.replicate 3072 9)) = some (.network, 0x14, List.replicate 3072 9) ∧
    (Instr.clipWrite .network (List.replicate 3072 9)).wf = true := by decide +kernel

theorem witness_CodesAndFrameChecks :
    (0xEF : Byte) ≠ responseReadCode ∧ 3072 < (0x0C : Byte).toNat * 256 + (0x01 : Byte).toNat ∧
    ([] : List Byte).length ≠ (0x00 : Byte).toNat * 256 + (0x01 : Byte).toNat ∧
    (0x0C : Byte).toNat * 256 + (0x00 : Byte).toNat ≤ 3072 ∧
    (List.replicate 3072 (0 : Byte)).length = (0x0C : Byte).toNat * 256 + (0x00 : Byte).toNat ∧
    isCommandCode 0x3C = false ∧ isCommandCode 0x00 = false := by decide +kernel

/-- A part whose station port has a START in progress. -/
def starting : State := after (.start .station []) .reset

theorem witness_OverrunDiscardsFrames :
    (starting.port .station).inProgress ≠ none ∧ frameParts (.stop .station []) = some (.station, 0x05, []) ∧
    (after (.stop .station []) starting).part = .starting ∧
    ((after (.stop .station []) starting).port .station).overrun = true := by decide +kernel

/-- The state that most statements about commands are met by. -/
theorem witness_open : State.reset.open_ .station ∧ State.reset.open_ .network := by decide +kernel

theorem witness_RefusalsChangeNothing :
    frameParts (.stop .station []) = some (.station, 0x05, []) ∧ State.reset.open_ .station ∧
    code .station (after (.stop .station []) .reset) = some .wrongState := by decide +kernel

theorem witness_RefusedFramesAnswer :
    State.reset.open_ .network ∧ (List.replicate 3072 (0 : Byte)).length ≤ 3072 ∧
    code .network (after (.unknownCommand .network 0x3C []) .reset) = some .unknown ∧
    code .network (after (.badFrameLength .network 1) .reset) = some .badLength := by decide +kernel

theorem witness_WrongLengthIsRefused :
    frameParts (.setEventMask .station []) = some (.station, 0x39, []) ∧
    (Instr.setEventMask .station []).plainLength = some 20 ∧ ([] : List Byte).length ≠ 20 ∧
    State.reset.open_ .station ∧ (Instr.identify .station [0]).plainLength = some 0 := by decide +kernel

theorem witness_ResponseReadTakesTheResponse :
    (((after (.stop .station []) .reset).port .station).response.map Response.bytes) = some [4, 0, 0, 0] ∧
    ((after (.responseRead .station 3) (after (.stop .station []) .reset)).port .station).response.isSome = true ∧
    ((after (.responseRead .station 4) (after (.stop .station []) .reset)).port .station).response = none ∧
    (State.reset.port .station).response = none := by decide +kernel

theorem witness_EventQueueCommands :
    (List.replicate 20 (1 : Byte)).length = 20 ∧ (∀ b ∈ List.replicate 20 (1 : Byte), b.toNat ≤ 1) ∧
    (∃ b ∈ (2 : Byte) :: List.replicate 19 0, 1 < b.toNat) ∧ State.reset.open_ .station ∧
    answers .powerOn .reset = true := by decide +kernel

/-- A state whose station port holds so many event records. -/
def waiting (n : Nat) : State :=
  State.reset.withPort .station { PortState.reset with events := List.replicate n ⟨.gate, 0, 0, 0⟩ }

theorem witness_EventsReachBothPorts :
    ({ PortState.reset with mask := List.replicate 20 false } : PortState).mask.getD (EventKind.lineEdge.code - 1) true
      = false ∧
    (State.reset.station.mask).getD (EventKind.lineEdge.code - 1) true = true ∧
    ((waiting 31).port .station).events.length < 32 ∧ 32 ≤ ((waiting 32).port .station).events.length := by
  decide +kernel

/-- A part under the parameter lock. -/
def lockedPart : State := after (.lockParameters .network []) .reset

theorem witness_LockHoldsTheStationOut :
    lockedPart.paramLock = true ∧ lockedPart.open_ .station ∧ ([0, 0, 0, 0] : List Byte).length ≤ 3072 ∧
    code .station (after (.timeLabel .station [0, 0, 0, 0]) lockedPart) = some .notPermitted ∧
    code .station (after (.reset .station []) lockedPart) = some .locked ∧
    code .station (after (.lockLine .station [0]) .reset) = some .notPermitted := by decide +kernel

theorem witness_SettingsAreStored :
    (State.reset.paramLock = false ∨ Port.station = .network) ∧ number [0x1E, 0x84, 0x80] = 2000000 ∧
    number [0x1E, 0x84, 0x81] = 2000001 ∧ field [0x01, 0x2C, 0, 0] 0 2 = 300 ∧ field [0x3A, 0xC0, 0, 0] 0 2 = 15040 ∧
    field [0x01, 0x2B, 0, 0] 0 2 = 299 ∧ field [0x3A, 0xC1, 0, 0] 0 2 = 15041 ∧ State.reset.part = .standby ∧
    (run 0 0).part ≠ .standby ∧
    min 20000000 (field [0, 0, 0, 1, 0, 0, 0, 0] 0 4) ≤ max 1 (min 20000000 (field [0, 0, 0, 1, 0, 0, 0, 0] 4 4)) ∧
    max 1 (min 20000000 (field [0, 0, 0, 2, 0, 0, 0, 1] 4 4)) < min 20000000 (field [0, 0, 0, 2, 0, 0, 0, 1] 0 4) ∧
    field [0x1F, 0xFE, 0, 0, 1] 0 2 = 8190 ∧ State.reset.networkEntry 8190 = none ∧
    State.reset.networkEntry 0 = none ∧ field [0x1F, 0xFF, 0, 0, 1] 0 2 = 8191 := by decide +kernel

theorem witness_SecondMarkMakesTheNextSecond :
    (atTick .holdover 9999999).tb.atSecondEnd = true ∧ (atTick .locked 9999999).tb.atSecondEnd = true ∧
    State.reset.tb.pendingLabel = none ∧ (after .secondMark (atTick .locked 9999999)).tb.second = 1 := by decide +kernel

theorem witness_PulseDisciplines :
    (atTick .free 0).tb.discipline = .free ∧ (pulseError 16).natAbs ≤ 16 ∧ 16 < (pulseError 9999983).natAbs ∧
    (pulseError 9999000).natAbs ≤ 1000 ∧ 1000 < (pulseError 1001).natAbs ∧
    (after .pulse (atTick .locked 1001)).tb.stray = 1 ∧
    (after .pulse ((atTick .holdover 1001).withTb
      { (atTick .holdover 1001).tb with stray := 2 })).tb.discipline = .acquiring := by decide +kernel

theorem witness_PulseCorrectsTheSecond :
    State.reset.tb.pendingLabel = none ∧ (9999999 : Nat) < 10000000 ∧ (pulseError 9999984).natAbs ≤ 1000 ∧
    (pulseError 1000).natAbs ≤ 1000 ∧ (after .pulse (atTick .locked 9999984)).tb.tick = 0 ∧
    (after .pulse (atTick .locked 9999983)).tb.correction = -16 ∧
    (after .pulse (atTick .free 5000000)).tb.second = 1 := by decide +kernel

theorem witness_WatchAndBlink :
    (atTick .locked 1001).tb.watchOpen = true ∧ 1001 ≤ (atTick .locked 1001).tb.tick ∧
    (atTick .acquiring 1001).tb.watch = false ∧ State.reset.lines.blink = .high ∧
    5000000 ≤ (atTick .free 5000000).tb.tick := by decide +kernel

theorem witness_LaunchSecondIsTheNearest :
    (4294967295 : Nat) < 4294967296 ∧ (255 : Nat) < 256 ∧ (9999999 : Nat) < 10000000 ∧
    fullSecond 4294967295 127 = 4294967167 ∧ fullSecond 0 255 = 4294967295 := by decide

theorem witness_HoldChecks :
    (0 : Nat) < timeModulus ∧ (1000000 : Nat) = (0 + 1000000) % timeModulus ∧ (1000000 : Nat) ≤ 20000000 ∧
    launchResult true 0 999999 1000000 10000000 = .rejected .holdShort ∧
    launchResult true 0 1000000 1000000 10000000 = .release 1000000 ∧
    launchResult true 0 10000000 1000000 10000000 = .release 10000000 ∧
    launchResult true 0 10000001 1000000 10000000 = .rejected .holdLong ∧
    launchResult true 1 0 0 10000000 = .rejected .holdShort := by decide +kernel

theorem witness_OffsetsAndStamps :
    (65535 : Nat) < 65536 ∧ 12 ≤ (List.replicate 12 (0 : Byte)).length ∧ (2576980377599 : Nat) < 2576980377600 := by
  decide

/-- A feed in VERIFY at a check byte. -/
def verifying (confirm : Nat) : State :=
  State.reset.withFeed .a { Feed.reset with sync := .verify, confirm := confirm, pos := 0, silence := 500000 }

/-- A feed in LOCKED at a sync byte. -/
def syncing (badRun : Nat) : State :=
  State.reset.withFeed .a { Feed.reset with sync := .locked, badRun := badRun, pos := 0, silence := 500000 }

theorem witness_FramingSteps :
    (State.reset.feed .a).sync = .search ∧ ((verifying 1).feed .a).sync = .verify ∧
    ((verifying 1).feed .a).pos = 0 ∧ ((verifying 1).feed .a).confirm < 2 ∧ ((verifying 2).feed .a).confirm = 2 ∧
    ((syncing 1).feed .a).sync = .locked ∧ ((syncing 1).feed .a).badRun < 2 ∧ 2 ≤ ((syncing 2).feed .a).badRun ∧
    500000 ≤ ((syncing 2).feed .a).silence ∧ (0x46 : Byte) ≠ 0x47 ∧
    ((after (.checkByte .a 0x47) (verifying 2)).feed .a).sync = .locked ∧
    ((after (.badSyncByte .a 0x46) (syncing 2)).feed .a).sync = .search := by decide +kernel

theorem witness_ArrivalsAreCounted :
    ((State.reset.withFeed .b (lastByte [])).feed .b).sync = .locked ∧
    ((State.reset.withFeed .b (lastByte [])).feed .b).pos = 187 ∧
    ((State.reset.withFeed .b (lastByte [])).feed .b).accepting = true ∧
    (State.reset.withFeed .b (lastByte [])).part ≠ .run := by decide +kernel

/-- A part in RUN that has taken 187 bytes of a pacing packet on feed A. -/
def pacingNext : State := (run 1000300 4200000).withFeed .a (lastByte pacingHead)

theorem witness_FirstPacketOpensACopy :
    pacingNext.part = .run ∧ (pacingNext.feed .a).sync = .locked ∧ (pacingNext.feed .a).pos = 187 ∧
    (pacingNext.feed .a).accepting = true ∧ identifier (pacingHead ++ [0xFF]) = pacingNext.launch.pacingId ∧
    pacingOf (pacingHead ++ [0xFF]) = some ⟨7, 400, 108, 9100000⟩ ∧ pacingNext.store = .empty ∧
    pacingNext.sel.expected = none ∧ pacingNext.sel.mode.excludes .a = false ∧ pacingNext.launch.emitting = none ∧
    (pacingNext.feed .a).openCopy = none ∧ (pacingNext.feed .b).staleRun = 0 ∧
    ((after (.packetArrival .a 0xFF) pacingNext).record 0).map (·.launched) =
      some (.release (instant 1000300 9100000)) := by decide +kernel

/-- A part in RUN with an OPEN copy at place 0, at the last byte of a packet of another identifier. -/
def filling : State :=
  (holding { copy7 .opened with declared := 4 } 5 0).withFeed .a
    { lastByte (plainPacket.take 187) with openCopy := some 0 }

theorem witness_PacketsFillTheOpenCopy :
    filling.part = .run ∧ (filling.feed .a).pos = 187 ∧ (filling.feed .a).sync = .locked ∧
    (filling.feed .a).accepting = true ∧ identifier plainPacket ≠ filling.launch.pacingId ∧
    (filling.feed .a).openCopy = some 0 ∧ filling.record 0 = some { copy7 .opened with declared := 4 } ∧
    filling.store.freeCells ≠ 0 ∧ transportError plainPacket = false ∧ (pacingNext.feed .a).openCopy = none ∧
    (after (.packetArrival .a 0) filling).store.freeCells = 65533 := by decide +kernel

/-- A part in RUN whose only record is a closed copy of E past its deadline. -/
def overdue : State :=
  let s := holding (copy7 .short) 5 9500000
  s.withSel { s.sel with expected := some 7 }

theorem witness_SelectorSettles :
    overdue.numbered = true ∧ overdue.part = .run ∧ overdue.sel.expected = some 7 ∧
    overdue.store.records = [(0, copy7 .short)] ∧ (copy7 .short).closed = true ∧
    (copy7 .short).due overdue.now = true ∧ (after .deadlineReached overdue).sel.expected = some 8 ∧
    (after .deadlineReached overdue).launch.scheduled = some ⟨60000000, false, 0⟩ := by decide +kernel

theorem witness_FeedModeIsStored :
    feedModeOf (2 : Byte).toNat = some .onlyB ∧ feedOf (1 : Byte).toNat = some .b ∧ State.reset.open_ .station ∧
    State.reset.paramLock = false ∧ State.reset.part ≠ .run ∧ 3 ≤ (3 : Byte).toNat ∧ 2 ≤ (2 : Byte).toNat := by
  decide +kernel

theorem witness_HeadDecisionOrder :
    reached 60000000 60000000 = true ∧ reached 60000000 60000001 = false ∧
    headOutcome true (.release 60000000) 60000200 200 = .inr ⟨60000200, true, 200⟩ ∧
    headOutcome true (.release 60000000) 60000201 200 = .inl .late := by decide +kernel

/-- A part in RUN at the scheduled start of the group at place 0. -/
def starts (labelled : Bool) : State :=
  let s := holding (copy7 .queued) 6 0
  ((s.withTb { s.tb with labelled := labelled }).withSel { s.sel with queue := [0] }).withLaunch
    { s.launch with scheduled := some ⟨60000000, false, 0⟩ }

theorem witness_ScheduledStartStartsOrDrops :
    (starts true).part = .run ∧ (starts true).launch.nullEnd = none ∧
    (starts true).launch.scheduled = some ⟨60000000, false, 0⟩ ∧ reached (starts true).now 60000000 = true ∧
    (starts true).sel.queue = [0] ∧ (starts true).record 0 = some (copy7 .queued) ∧
    (starts true).tb.gateOpen = true ∧ (starts false).tb.gateOpen = false ∧
    (after .scheduledStart (starts true)).launch.lastEnd = some 60001253 ∧
    (after .scheduledStart (starts false)).launch.stats.gateClosed = 1 := by decide +kernel

theorem witness_PacketStartSends :
    let s := after .scheduledStart (starts true)
    s.part = .run ∧ s.launch.emitting = some ⟨0, 60000000, 0, 2⟩ ∧
    reached s.now (tadd 60000000 (offset s.launch.pq 0)) = true ∧
    (s.record 0).map (·.cells) = some [plainPacket, plainPacket] ∧ s.networkEntry (identifier nullPacket) = none ∧
    (∀ i, i < 32 → (s.brk i).live = false) ∧ s.sel.queue = [] ∧
    ((after .packetStart s).record 0).map (·.cells) = some [plainPacket] := by decide +kernel

/-- A part in RUN with a gap from (6, 0), with a start scheduled. -/
def gap (start : Time) : State :=
  let s := run 6 0
  s.withLaunch { s.launch with gap := some (60000000, 0), scheduled := some ⟨start, false, 0⟩ }

theorem witness_NullFill :
    (gap 0).part = .run ∧ (gap 0).launch.emitting = none ∧ (gap 0).launch.gap = some (60000000, 0) ∧
    (gap 0).launch.nullEnd = none ∧ (gap 0).launch.nullsStopped = false ∧
    reached (gap 0).now (tadd 60000000 (offset (gap 0).launch.pq 0)) = true ∧
    reached 60000626 (tadd 60000000 (offset (gap 0).launch.pq 1)) = true ∧
    reached 60000625 (tadd 60000000 (offset (gap 0).launch.pq 1)) = false ∧
    (after .nullStart (gap 60000625)).launch.nullsStopped = true ∧
    (after .groupEndTick ((run 6 0).withLaunch { Launch.reset with lastEnd := some 60000000 })).launch.gap =
      some (60000000, 0) := by decide +kernel

theorem witness_NullSlotEnd :
    let s := (gap 0).withLaunch { (gap 0).launch with nullEnd := some 60000000 }
    s.launch.nullEnd = some 60000000 ∧ reached s.now 60000000 = true ∧
    (after .nullSlotEnd s).launch.gap = some (60000000, 1) := by decide +kernel

/-- The parameters of a CLIP WRITE of one packet to the last slot. -/
def lastSlot : List Byte := [0x1F, 0xFF, 0xFF, 0x01] ++ plainPacket

theorem witness_ClipCommandsAreTaken :
    State.reset.open_ .station ∧ lastSlot.length = 4 + 188 * byteAt lastSlot 3 ∧
    field lastSlot 0 3 + byteAt lastSlot 3 = 2097152 ∧ (∀ q ∈ packetsOf lastSlot, q.head? = some 0x47) ∧
    State.reset.meetsSpan 2097151 1 = false ∧
    ((cued0 0).meetsSpan 0 1) = true ∧ byteAt [0, 0, 0, 0x10] 3 = 16 := by decide +kernel

theorem witness_ClipSlotsAreServed :
    let s := after (.clipWrite .station lastSlot) .reset
    s.clip.service = some (.write .station 2097151 plainPacket false) ∧
    (s.port .station).inProgress = some (.clip ⟨true, 2097151, 1, 2097151, [plainPacket]⟩) ∧
    (after (.clipWriteSlot .station) s).clip.readSlot 2097151 = plainPacket ∧
    code .station (after (.clipWriteSlot .station) s) = some .ok := by decide +kernel

theorem witness_ClipSlotsAreServed_read :
    let s := after (.clipRead .network [0, 0, 0, 2]) .reset
    s.clip.service = some (.read .network 0 false) ∧
    (s.port .network).inProgress = some (.clip ⟨false, 0, 2, 0, []⟩) ∧ (0 + 1 < 0 + 2) := by decide +kernel

/-- Lane 0 reading slot 0, which holds a packet. -/
def laneReads (discarded : Bool) : State :=
  (cued0 0).withClip { (cued0 0).clip with cells := [(0, plainPacket)], service := some (.lane 0 0 discarded) }

theorem witness_LaneReads :
    0 < (laneReads false).lanes.length ∧ (laneReads false).clip.service = some (.lane 0 0 false) ∧
    (laneReads true).clip.service = some (.lane 0 0 true) ∧
    ((laneReads false).clip.readSlot 0).head? = some 0x47 ∧
    ((laneReads false).lane 0).position = some (0, 0) ∧ ((laneReads false).lane 0).playList = some 0 ∧
    ((laneReads false).playList 0)[0]? = some ⟨0, 1⟩ ∧
    ((after (.laneReadDone 0) (laneReads false)).lane 0).queue = [plainPacket] ∧
    ((after (.laneReadDone 0) (laneReads false)).lane 0).position = none := by decide +kernel

/-- One segment that ends with clip memory, for list 31. -/
def segment31 : List Byte := [31, 1, 0x1F, 0xFF, 0xFF, 0x00, 0x01]

/-- One entry for slot 7, guard 3,600, without a clock entry. -/
def slot7 : List Byte := [7, 1, 0x01, 0x00, 0x02, 0x00, 0, 0, 0x0E, 0x10]

theorem witness_PlayListAndSlotCommands :
    segment31.length = 2 + 5 * byteAt segment31 1 ∧ byteAt segment31 0 < 32 ∧
    (∀ g ∈ segmentsOf segment31, 1 ≤ g.count ∧ g.count ≤ 65535 ∧ g.first + g.count ≤ 2097152) ∧
    State.reset.listUser 31 = none ∧ (cued0 0).listUser 0 ≠ none ∧
    slot7.length = 6 + 4 * byteAt slot7 1 ∧ optionalOf slot7 (2 + 4 * byteAt slot7 1) 1 = some none ∧
    State.reset.badSlot 7 (slotPairs slot7) none = false ∧ State.reset.slotInUse 7 = false ∧
    (cued0 0).slotInUse 0 = true := by decide +kernel

/-- The fields of a break on slot 0, list 31, MANUAL, lead 100,000,000, length 1, RETURN. -/
def fields0 : List Byte := [0, 31, 3, 0x05, 0xF5, 0xE1, 0x00, 1, 0, 0, 0, 0, 1, 0]

theorem witness_BreaksAreMade :
    fields0.length ≤ 3071 ∧ breakFits fields0 = true ∧
    breakOf fields0 = some ⟨0, 31, .manual, 100000000, some 1, .ret⟩ ∧ (State.reset.slot 0).defined = false ∧
    ((withBreak0 .loaded .manual).slot 0).defined = true ∧ (withBreak0 .loaded .manual).freeBreak = some 1 ∧
    ((withBreak0 .loaded .manual).brk 0).state = .loaded ∧ ((withBreak0 .loaded .manual).brk 0).owner = .station ∧
    ((run 0 0).withSplice { Splice.reset with breaks := List.replicate 32 { BreakRecord.empty with state := .ended } }
      ).freeBreak = none ∧
    code .station (after (.createBreak .station fields0) (withBreak0 .loaded .manual)) = some .ok := by
  decide +kernel

theorem witness_BreakStateCommands :
    (∀ st ∈ [BreakState.loaded, .waiting, .onAir, .ended], ((withBreak0 st .manual).brk 0).state = st ∧
      ((withBreak0 st .manual).brk 0).owner = .station ∧ (withBreak0 st .manual).open_ .station) ∧
    ((withBreak0 .loaded .manual).brk 0).lane = none ∧ ((withBreak0 .loaded .manual).brk 0).aired = false ∧
    (State.reset.brk 31).state = .free ∧ (31 : Byte).toNat < 32 ∧ 32 ≤ (32 : Byte).toNat ∧
    code .network (after (.arm .network [0]) (withBreak0 .loaded .manual)) = some .notOwner ∧
    ((after (.arm .station [0]) (withBreak0 .loaded .manual)).brk 0).state = .waiting := by decide +kernel

theorem witness_TriggersCue :
    let s := withBreak0 .waiting .manual
    s.part = .run ∧ (s.brk 0).state = .waiting ∧ 0 < s.splice.breaks.length ∧ 0 < s.lanes.length ∧
    s.playList 0 ≠ [] ∧ s.liveBreak 0 = none ∧ s.freeLane = some 0 ∧ (s.brk 0).length = some 36000000000 ∧
    s.open_ .station ∧ (s.brk 0).owner = .station ∧ (s.brk 0).lead ≤ 100000000 ∧
    s.blockingWindow 0 (tadd s.now (s.brk 0).lead) = none ∧
    ((after (.trigger .station [0]) s).brk 0).x = some 1100000000 := by decide +kernel

theorem witness_TriggersCue_time :
    let s := withBreak0 .waiting (.time 990000000)
    reached s.now 990000000 = true ∧ tdiff s.now 990000000 ≤ 10000000 ∧ s.blockingWindow 0 990000000 = none ∧
    ((after (.timeTriggerDue 0) s).brk 0).state = .cued := by decide +kernel

theorem witness_ExpiryEndsMissed :
    let s := cued0 990000000
    (s.brk 0).state = .cued ∧ (s.brk 0).x = some 990000000 ∧ reached s.now (tadd 990000000 10000000) = true ∧
    (s.brk 0).lane = some 0 ∧ (s.brk 0).aired = false ∧ 0 < s.splice.breaks.length ∧ 0 < s.lanes.length ∧
    ((after (.spliceOutExpiry 0) s).brk 0).cause = some .missed := by decide +kernel

/-- A part with window 7 in a state, from (100, 0) to a stop. -/
def window7 (st : WindowState) (stop : Time) : State :=
  (run 100 0).withWindow 7 ⟨st, 0xFF, 1000000000, stop, 0, 0, 0⟩

theorem witness_WindowsComeAndGo :
    ((window7 .pending 1000000001).window 7).state = .pending ∧
    reached (window7 .pending 1000000001).now 1000000000 = true ∧
    reached (window7 .pending 1000000001).now 1000000001 = false ∧ 7 < (window7 .pending 0).windows.length ∧
    ((window7 .active 1000000000).window 7).state = .active ∧
    reached (window7 .active 1000000000).now 1000000000 = true ∧ (window7 .active 0).open_ .network ∧
    ((after (.windowStartReached 7) (window7 .pending 1000000001)).window 7).state = .active := by decide +kernel

theorem witness_WindowsComeAndGo_set :
    let ps : List Byte := [0x01, 0, 0, 0, 100, 0, 0, 0, 0, 0, 0, 0, 100, 0, 0, 0, 1]
    ps.length = 17 ∧ ps.headD 0 ≠ 0 ∧ tickFits ps 1 = true ∧ tickFits ps 9 = true ∧
    reached (instantAt ps 1) (instantAt ps 9) = false ∧ reached (run 100 0).now (instantAt ps 9) = false ∧
    (run 100 0).freeWindow = some 0 ∧ 0 < (run 100 0).windows.length ∧
    ((after (.setWindow .network ps) (run 100 0)).window 0).state = .active := by decide +kernel

/-- A monitor whose conversion of channel 0 has run its time, one run short of LOW. -/
def converting : State :=
  State.reset.withMon
    { Monitor.reset with
      elapsed := 2500
      channels := (List.replicate 8 .reset).set 0
        { Channel.reset with low := 500, persistence := 3, run := 2, previous := some .l, role := .main } }

theorem witness_ConversionsClassify :
    2500 ≤ converting.mon.elapsed ∧ converting.mon.pendingRange = none ∧
    converting.mon.converting < converting.mon.channels.length ∧
    ((after (.conversionComplete 499) converting).channel 0).state = .low ∧
    (after (.conversionComplete 499) converting).chg.position = .reserve ∧
    ((after (.conversionComplete 500) converting).channel 0).state = .normal := by decide +kernel

theorem witness_MonitorSettings :
    (7 : Byte).toNat ≤ (7 : Byte).toNat ∧ (6 : Byte).toNat < (7 : Byte).toNat ∧ 7 < (8 : Byte).toNat ∧
    byteAt [7, 0, 0, 3, 0xFF, 16, 1] 0 < State.reset.mon.channels.length ∧
    field [7, 0, 0, 3, 0xFF, 16, 1] 3 2 = 1023 ∧ roleOf (byteAt [7, 0, 0, 3, 0xFF, 16, 1] 6) = some .main ∧
    ((after (.setChannel .station [7, 0, 0, 3, 0xFF, 16, 1]) .reset).channel 7).persistence = 15 := by decide +kernel

/-- A part whose input line 0, of function MAIN_FAULT, is at its active level. -/
def mainFaulted : State :=
  State.reset.withLine 0 { Line.reset .high with function := .mainFault }

theorem witness_ChangeoverCommands :
    positionOf (1 : Byte).toNat = some .reserve ∧ State.reset.faultOf .reserve = false ∧
    mainFaulted.faultOf .main = true ∧ State.reset.open_ .station ∧
    (State.reset.withChg { Changeover.reset with hold := true }).chg.hold = true ∧
    (State.reset.withChg { Changeover.reset with manual := true }).chg.manual = true ∧
    byteAt [1, 0, 0] 0 ≤ 1 ∧ code .station (after (.changeover .station [0]) mainFaulted) = some .faulted := by
  decide +kernel

theorem witness_AutomaticChangeovers :
    let timed := State.reset.withChg { Changeover.reset with position := .reserve, returnTimer := some 0, history := [0, 1] }
    timed.chg.returnTimer = some 0 ∧ timed.chg.history = [0, 1] ∧ timed.chg.history.length = 2 ∧
    (State.reset.chg.history.length < 2) ∧
    mainFaulted.open_ .network ∧ mainFaulted.chg.hold = false ∧ mainFaulted.chg.position = .main ∧
    mainFaulted.mainFault = true ∧ mainFaulted.reserveFault = false ∧
    (after .returnTimerExpiry timed).chg.hold = true ∧
    (after (.auto .network []) mainFaulted).chg.position = .reserve := by decide +kernel

theorem witness_AutomaticChangeovers_timer :
    let s := State.reset.withChg { Changeover.reset with position := .reserve }
    s.chg.hold = false ∧ s.chg.position = .reserve ∧ s.mainFault = false ∧ s.reserveFault = false ∧
    s.chg.autoReturn = true ∧ s.chg.returnTimer = none ∧
    (after (.auto .station []) s).chg.returnTimer = some 600000000 := by decide +kernel

theorem witness_MuteHolders :
    State.reset.open_ .station ∧ answers (.reset .station []) .reset = true ∧
    (after (.mute .network []) .reset).chg.muteNetwork = true := by decide +kernel

theorem witness_LineInputsAndMuting :
    let l := { Line.reset .low with pin := .high, pendingChange := some 100000 }
    let s := State.reset.withLine 11 l
    (s.line 11).output = false ∧ (s.line 11).pendingChange = some 100000 ∧ (s.line 11).function = .plain ∧
    11 < s.lines.records.length ∧ (after (.lineEdgeAccepted 11) s).station.events = [⟨.lineEdge, 11, 1, 0⟩] ∧
    s.part ≠ .run ∧
    s.drivenLevel { Line.reset .low with output := true, function := .carrierMute, invert := true } = .low := by
  decide +kernel

/-- A part whose line 11 is an output of function LEVEL. -/
def levelLine (isLocked : Bool) : State :=
  State.reset.withLine 11 { Line.reset .low with output := true, function := .level, locked := isLocked }

theorem witness_LineLevels :
    (levelLine false).open_ .station ∧ (11 : Byte).toNat ≤ 11 ∧ levelOf (1 : Byte).toNat = some .high ∧
    11 < (12 : Byte).toNat ∧ 1 < (2 : Byte).toNat ∧ ((levelLine true).line 11).locked = true ∧
    ((levelLine false).line 11).locked = false ∧ ((levelLine false).line 11).output = true ∧
    ((levelLine false).line 11).function = .level ∧ ((levelLine false).line 11).frozen = none ∧
    (State.reset.line 11).output = false ∧ lineSettings [11, 1, 0, 10, 3, 1] = some ⟨true, false, .tally, some 3, .high⟩ ∧
    byteAt [11, 1, 0, 10, 3, 1] 0 < (levelLine false).lines.records.length := by decide +kernel

theorem witness_LineLocks :
    (levelLine false).open_ .network ∧ ((levelLine false).line 11).locked = false ∧
    ((levelLine true).line 11).locked = true ∧
    ((after (.lockLine .network [11]) (levelLine false)).line 11).frozen = some .low := by decide +kernel

theorem witness_PowerOnAndResetPin :
    answers .resetPin .reset = true ∧ State.reset.clip.service = none := by decide +kernel

theorem witness_StartAndItsCompletion :
    State.reset.part = .standby ∧ (run 0 0).part ≠ .standby ∧ starting.part = .starting ∧
    (starting.port .station).inProgress = some .start ∧ (starting.port .network).inProgress ≠ some .start ∧
    (after .startComplete starting).part = .run ∧ code .station (after .startComplete starting) = some .ok := by
  decide +kernel

theorem witness_StopEndsAll :
    (cued0 0).open_ .network ∧ (cued0 0).part ≠ .standby ∧ ((cued0 0).brk 0).live = true ∧
    ((after (.stop .network []) (cued0 0)).brk 0).cause = some .stopped := by decide +kernel

/-- A part whose network port has a CLIP READ in progress, and then a RESET on the station port. -/
def resetting : State := after (.reset .station []) (after (.clipRead .network [0, 0, 0, 1]) .reset)

theorem witness_SoftwareReset :
    State.reset.open_ .station ∧ State.reset.paramLock = false ∧ (State.reset.port .network).inProgress = none ∧
    (resetting.port .station).inProgress = some .reset ∧ resetting.clip.finishing .network = true ∧
    resetting.clip.finishing .station = false := by decide +kernel

theorem witness_SoftwareReset_complete :
    let s := resetting.withClip { resetting.clip with service := none }
    (s.port .station).inProgress = some .reset ∧ s.clip.finishing .network = false ∧
    code .station (after .resetComplete s) = some .ok := by decide +kernel

theorem witness_StepKeeps :
    (match step .reset with | .next t => t.tb.tick | _ => 0) = 1 ∧ State.reset.station.ok = true ∧ State.reset.network.ok = true ∧
    State.reset.tb.ok = true ∧ State.reset.launch.ok = true ∧ State.reset.mon.ok = true ∧ State.reset.chg.ok = true ∧
    State.reset.store.ok = true ∧ State.reset.clipSound = true ∧ State.reset.queuesBounded = true ∧
    (cued0 0).spliceLaw = true ∧ State.reset.idleOutsideRun = true := by decide +kernel

/-! ### Further witnesses, one for each further clause of a statement -/

theorem witness_ReadsAnswer_expiry :
    let s := State.reset.withChg { Changeover.reset with position := .reserve, returnTimer := some 0 }
    s.open_ .station ∧ s.chg.returnTimer = some 0 ∧ State.reset.chg.returnTimer ≠ some 0 ∧
    (after (.readChangeover .station []) s).chg.position = .main := by decide +kernel

/-- A LOCKED part in RUN with a start scheduled, after two strays. -/
def stepping : State := (starts true).withTb { (starts true).tb with tick := 1001, stray := 2 }

theorem witness_PulseCorrectsTheSecond_step :
    stepping.tb.discipline = .locked ∧ 1000 < (pulseError stepping.tb.tick).natAbs ∧ 2 ≤ stepping.tb.stray ∧
    stepping.part = .run ∧ (after .pulse stepping).tb.second = 6 ∧ (after .pulse stepping).tb.tick = 0 ∧
    (after .pulse stepping).launch.stats.stepped = 1 ∧
    (after .pulse stepping).launch.lastEnd = some 60000627 := by decide +kernel

theorem witness_PulseCorrectsTheSecond_label :
    let s := State.reset.withTb
      { Timebase.reset with discipline := .holdover, tick := 9999984, pendingLabel := some 77 }
    (pulseError s.tb.tick).natAbs ≤ 1000 ∧ (after .pulse s).tb.second = 77 ∧ (after .pulse s).tb.tick = 0 ∧
    (after .pulse s).tb.discipline = .locked ∧ (after .pulse s).tb.labelled = true ∧
    (after .pulse (atTick .acquiring 9999983)).tb.correction = -16 ∧
    (after .pulse (atTick .expired 4999999)).tb.second = 0 := by decide +kernel

theorem witness_FramingSteps_inner :
    let s := State.reset.withFeed .a { lastByte [0x47] with pos := 186 }
    (s.feed .a).sync = .locked ∧ (s.feed .a).pos ≠ 187 ∧ (s.feed .a).pos ≠ 0 ∧
    ((after (.byteTaken .a 0x55) s).feed .a).buffer = [0x47, 0x55] ∧
    ((after (.byteTaken .a 0x55) s).feed .a).pos = 187 := by decide +kernel

/-- A part in RUN with an OPEN copy at place 0, whose feed has lost two sync bytes in a row. -/
def losing : State :=
  (holding { copy7 .opened with declared := 4 } 5 0).withFeed .a
    { Feed.reset with sync := .locked, badRun := 2, openCopy := some 0, silence := 500000 }

theorem witness_FramingSteps_loss :
    losing.sel.expected = none ∧ (losing.feed .a).sync = .locked ∧ (losing.feed .a).pos = 0 ∧
    2 ≤ (losing.feed .a).badRun ∧ 500000 ≤ (losing.feed .a).silence ∧ (losing.feed .a).openCopy = some 0 ∧
    ((after (.badSyncByte .a 0x46) losing).record 0).map (·.phase) = some .short ∧
    (after (.badSyncByte .a 0x46) losing).station.events = [⟨.feedSync, 1, 1, 50000000⟩] ∧
    (after (.feedSilence .a) losing).station.events = [⟨.feedSync, 1, 2, 50000000⟩] ∧
    (after (.checkByte .a 0x47) (verifying 2)).network.events = [⟨.feedSync, 1, 0, 0⟩] := by decide +kernel

/-- The state of `pacingNext` with E at 8 and so many stale packets before. -/
def staleNext (run_ : Nat) : State :=
  let s := pacingNext.withFeed .a { pacingNext.feed .a with staleRun := run_ }
  s.withSel { s.sel with expected := some 8 }

theorem witness_FirstPacketOpensACopy_stale :
    seqEarlier 7 8 = true ∧ ((staleNext 2).feed .a).staleRun < 3 ∧ 3 ≤ ((staleNext 3).feed .a).staleRun ∧
    ((staleNext 3).feed .a).otherCurrent = false ∧
    ((after (.packetArrival .a 0xFF) (staleNext 2)).feed .a).counters.stale = 1 ∧
    (after (.packetArrival .a 0xFF) (staleNext 3)).sel.expected = some 7 ∧
    (after (.packetArrival .a 0xFF) (staleNext 3)).sel.counters.restarts = 1 := by decide +kernel

/-- The state of `pacingNext` with another store. -/
def pacingWith (st : Store) : State := pacingNext.withStore st

theorem witness_FirstPacketOpensACopy_refused :
    let excluded := pacingNext.withSel { pacingNext.sel with mode := .onlyB }
    let full := pacingWith ⟨List.replicate 128 (some { copy7 .queued with group := 9 }), 65280⟩
    let emitting := (pacingWith ⟨[some (copy7 .emitting)], 65534⟩).withLaunch
      { Launch.reset with emitting := some ⟨0, 0, 0, 2⟩ }
    excluded.sel.mode.excludes .a = true ∧ full.store.freePlace = none ∧ full.closedCopy .a 7 = none ∧
    full.emittingGroup ≠ some 7 ∧ emitting.emittingGroup = some 7 ∧ (pacingWith ⟨[none], 0⟩).store.freeCells = 0 ∧
    ((after (.packetArrival .a 0xFF) excluded).feed .a).counters.excluded = 1 ∧
    ((after (.packetArrival .a 0xFF) full).feed .a).counters.tableFull = 1 ∧
    ((after (.packetArrival .a 0xFF) emitting).feed .a).counters.stale = 1 ∧
    ((after (.packetArrival .a 0xFF) (pacingWith ⟨[none], 0⟩)).feed .a).counters.overrun = 1 := by decide +kernel

/-- The state of `filling` with another record, one packet from its last. -/
def closing (stored freeCells : Nat) : State :=
  filling.withStore ⟨[some { copy7 .opened with declared := 3, stored := stored }], freeCells⟩

theorem witness_PacketsFillTheOpenCopy_closing :
    (closing 2 9).record 0 = some { copy7 .opened with declared := 3, stored := 2 } ∧
    ((after (.packetArrival .a 0) (closing 2 9)).feed .a).counters.complete = 1 ∧
    ((after (.packetArrival .a 0) (closing 1 9)).feed .a).counters.short = 1 ∧
    ((after (.packetArrival .a 0) (closing 1 9)).record 0).map (·.phase) = some .short := by decide +kernel

theorem witness_PacketsFillTheOpenCopy_overrun :
    let s := filling.withStore { filling.store with freeCells := 0 }
    s.record 0 = some { copy7 .opened with declared := 4 } ∧ s.store.freeCells = 0 ∧
    ((after (.packetArrival .a 0) s).record 0).map (·.stored) = some 2 ∧
    (after (.packetArrival .a 0) s).station.events = [⟨.poolOverrun, 1, 7, 50000000⟩] := by decide +kernel

theorem witness_SelectorSettles_skip :
    let s := (holding (copy7 .opened) 5 0).withSel { Selector.reset with expected := some 65535 }
    s.store.records = [(0, copy7 .opened)] ∧ seqLater 7 65535 = true ∧ s.sel.lastAdmitted = none ∧
    (∀ f ∈ [FeedId.a, .b], s.feedPast f 65535 = true) ∧ (after .deadlineReached s).sel.expected = some 7 ∧
    (after .deadlineReached s).sel.counters.missing = 8 := by decide +kernel

theorem witness_FeedModeIsStored_run :
    let s := holding (copy7 .short) 5 0
    s.part = .run ∧ newlyExcluded s.sel.mode .onlyB .a = true ∧
    (after (.setFeedMode .station [2, 1]) s).record 0 = none ∧
    (after (.setFeedMode .station [2, 1]) s).sel.counters.freedByMode = 1 := by decide +kernel

/-- The state of `starts false` with a second group behind the head. -/
def twoStarts : State :=
  let s := (starts false).withRecord 1 (some { copy7 .queued with group := 8 })
  s.withSel { s.sel with queue := [0, 1] }

theorem witness_ScheduledStartStartsOrDrops_rest :
    twoStarts.sel.queue = [0, 1] ∧ [0, 1].Nodup ∧ twoStarts.record 0 = some (copy7 .queued) ∧
    twoStarts.record 1 ≠ none ∧ twoStarts.launch.emitting = none ∧ twoStarts.tb.gateOpen = false ∧
    (after .scheduledStart twoStarts).sel.queue = [] ∧ (after .scheduledStart twoStarts).record 1 = none ∧
    (after .scheduledStart twoStarts).launch.stats.gateClosed = 2 ∧
    (after .scheduledStart twoStarts).launch.scheduled = none ∧
    (after .scheduledStart (starts false)).station.events = [⟨.groupDropped, 7, 3, 60000000⟩] := by decide +kernel

theorem witness_PacketStartSends_last :
    let s := (after .scheduledStart (starts true)).withRecord 0 (some { copy7 .emitting with cells := [plainPacket] })
    (s.record 0).map (·.cells) = some [plainPacket] ∧ s.sel.queue = [] ∧
    (after .packetStart s).launch.emitting = none ∧ (after .packetStart s).record 0 = none ∧
    (after .packetStart s).launch.outputs.map (·.packet) = [nullPacket] := by decide +kernel

/-- A CUED break 0 on slot 0 with X at (100, 0) and Y at an instant, on lane 0. -/
def spliceAt (st : BreakState) (y : Option (Time × YSource)) : State :=
  let s := cued0 1000000000
  s.withBreak 0 { s.brk 0 with state := st, y := y, aired := st == .onAir }

theorem witness_PacketStartSends_splice :
    let cued := spliceAt .cued none
    let noAir := spliceAt .cued (some (1000000000, .length))
    let aired := spliceAt .onAir (some (1000000000, .cancel))
    (cued.brk 0).lane = some 0 ∧ (∀ j, j < 32 → j ≠ 0 → (cued.brk j).live = false) ∧
    (∀ w, w < 8 → (cued.window w).covers (cued.brk 0).slot = false) ∧
    cued.networkEntry (identifier nullPacket) = none ∧ later 1000000000 1000000000 = false ∧
    later (tadd 1000000000 ((cued.slot 0).guard * 10000000)) 1000000000 = true ∧
    ((cued.splicePacket 1000000000 nullPacket).1.brk 0).state = .onAir ∧
    ((cued.splicePacket 1000000000 nullPacket).1.brk 0).y = some (1010000000, .guard) ∧
    ((noAir.splicePacket 1000000000 nullPacket).1.brk 0).cause = some .noAir ∧
    ((aired.splicePacket 1000000000 nullPacket).1.brk 0).cause = some .cancelled := by decide +kernel

/-- A packet of an identifier, control 1, counter 5. -/
def packetOf (hi lo : Byte) : Packet := [0x47, hi, lo, 0x15] ++ List.replicate 184 0

/-- Break 0 ON_AIR on slot 0, whose entry pairs 256 with 512, with a queue on its lane. -/
def substituting (queue : List Packet) (clipEnd : Bool) (exhaust : Exhaust) : State :=
  let s := spliceAt .onAir (some (1000000001, .length))
  let s := s.withBreak 0 { s.brk 0 with exhaust := exhaust }
  s.withLane 0 { s.lane 0 with state := .onAir, queue := queue, clipEnd := clipEnd }

theorem witness_PacketStartSends_substitution :
    let s := substituting [packetOf 3 0, packetOf 2 0] false .fill
    let u := s.splicePacket 1000000000 (packetOf 1 0)
    (s.brk 0).state = .onAir ∧ (s.lane 0).break_ = some 0 ∧ s.networkEntry (identifier (packetOf 1 0)) = some (0, 0) ∧
    later 1000000001 1000000000 = true ∧ (s.slot 0).entryOfClip (identifier (packetOf 3 0)) = none ∧
    (s.slot 0).entryOfClip (identifier (packetOf 2 0)) = some 0 ∧ (s.slot 0).clock ≠ some 0 ∧
    u.2 = .put (packetOf 1 0) ∧ (u.1.brk 0).unmapped = 1 ∧ (u.1.brk 0).substituted = 1 ∧
    (u.1.lane 0).packetsTaken = 2 := by decide +kernel

theorem witness_PacketStartSends_empty :
    ((substituting [] false .fill).splicePacket 1000000000 (packetOf 1 0)).2 = .put nullPacket ∧
    (((substituting [] false .fill).splicePacket 1000000000 (packetOf 1 0)).1.brk 0).starved = 1 ∧
    (((substituting [] true .fill).splicePacket 1000000000 (packetOf 1 0)).1.brk 0).filled = 1 ∧
    ((substituting [] true .ret).splicePacket 1000000000 (packetOf 1 0)).2 = .keep ∧
    (((substituting [] true .ret).splicePacket 1000000000 (packetOf 1 0)).1.brk 0).cause = some .clipEnd := by
  decide +kernel

/-- A packet of clip identifier 512 with a stamp of 0, control 3. -/
def stampedPacket : Packet := [0x47, 2, 0, 0x30, 7, 0x10] ++ List.replicate 182 0

/-- Break 0 ON_AIR on slot 0, whose clock entry is entry 0, with a stamped packet in its lane. -/
def stamping (valid noBase : Bool) (base : Option (Nat × Nat)) : State :=
  let s := substituting [stampedPacket] false .fill
  let s := s.withSlot 0
    { s.slot 0 with clock := some 0, observation := ⟨300, 999999990, valid⟩, entries := [⟨256, 512, some 15⟩] }
  s.withBreak 0 { s.brk 0 with base := base, noBase := noBase }

theorem witness_PacketStartSends_stamp :
    hasStamp stampedPacket = true ∧ ((stamping true false none).slot 0).clock = some 0 ∧
    (((stamping true false none).splicePacket 1000000000 (packetOf 1 0)).1.brk 0).base = some (327, 0) ∧
    (((stamping false false none).splicePacket 1000000000 (packetOf 1 0)).1.brk 0).noBase = true ∧
    (match ((stamping true false (some (900, 0))).splicePacket 1000000000 (packetOf 1 0)).2 with
      | .put q => (stampValue q, continuity q, identifier q)
      | .keep => (0, 0, 0)) = (900, 0, 256) ∧
    (match ((stamping true true none).splicePacket 1000000000 (packetOf 1 0)).2 with
      | .put q => stampValue q
      | .keep => 1) = 0 := by decide +kernel

theorem witness_PacketStartSends_outputs :
    let s := State.reset.withLaunch (Launch.reset.send plainPacket 0)
    State.reset.launch.outputs = [] ∧ s.launch.outputs.length = 1 ∧
    (s.launch.send plainPacket 626).stats.lateStarts = 1 ∧ s.launch.stats.lateStarts = 0 := by decide +kernel

theorem witness_NullFill_equal :
    later (tadd 60000000 (offset (gap 0).launch.pq 1)) 60000626 = false ∧
    later (tadd 60000000 (offset (gap 0).launch.pq 1)) 60000625 = true := by decide +kernel

theorem witness_BreakStateCommands_due :
    let s := withBreak0 .loaded (.time 1000000000)
    s.part = .run ∧ (s.brk 0).state = .loaded ∧ (s.brk 0).trigger = .time 1000000000 ∧
    reached s.now 1000000000 = true ∧ (s.brk 0).lane = none ∧
    ((after (.arm .station [0]) s).brk 0).state = .cued ∧
    reached s.now 1000000001 = false ∧
    ((after (.arm .station [0]) (withBreak0 .loaded (.time 1000000001))).brk 0).state = .waiting := by decide +kernel

theorem witness_BreakStateCommands_cancel :
    ((cued0 0).brk 0).state = .cued ∧ ((cued0 0).brk 0).lane = some 0 ∧ 0 < (cued0 0).lanes.length ∧
    ((after (.cancel .station [0]) (cued0 0)).brk 0).cause = some .cancelled ∧
    ((after (.cancel .station [0]) (cued0 0)).lane 0).state = .free ∧
    (after (.cancel .station [0]) (cued0 0)).network.events = [⟨.breakEnded, 0, 3, 1000000000⟩] ∧
    ((after (.cancel .station [0]) (withBreak0 .waiting .manual)).brk 0).state = .ended := by decide +kernel

/-- The state of `withBreak0` with one thing wrong for its trigger, in the order of the checks. -/
def failing (n : Nat) : State :=
  let s := withBreak0 .waiting (.time 990000000)
  match n with
  | 0 => s.withPlayList 0 []
  | 1 => s.withWindow 3 ⟨.active, 1, 0, 1000000001, 0, 0, 0⟩
  | 2 => s.withBreak 1 { BreakRecord.empty with state := .onAir }
  | 3 => s.withLanes (List.replicate 4 { Lane.reset with state := .onAir })
  | _ => s.withBreak 0 { s.brk 0 with trigger := .time 989999999 }

theorem witness_TriggersCue_checks :
    (∀ n < 5, ((failing n).brk 0).state = .waiting ∧ ((failing n).brk 0).lane = none) ∧
    ((List.range 5).map fun n => (failing n).failedCheck 0 (if n = 4 then 989999999 else 990000000) none) =
      [some .listEmpty, some .blocked, some .slotBusy, some .noLane, some .missed] ∧
    ((List.range 5).map fun n => ((after (.timeTriggerDue 0) (failing n)).brk 0).cause) =
      [some .listEmpty, some .blocked, some .slotBusy, some .noLane, some .missed] ∧
    ((after (.timeTriggerDue 0) (failing 1)).window 3).blocked = 1 ∧
    (withBreak0 .waiting .manual).failedCheck 0 0 (some 0) = some .missed ∧
    (withBreak0 .waiting .manual).failedCheck 0 1000000000 (some 0) = some .noAir ∧
    (withBreak0 .waiting .manual).failedCheck 0 1000000000 (some 1) = none := by decide +kernel

theorem witness_TriggersCue_line :
    let s := (withBreak0 .waiting (.line 11 .fall)).withLine 11
      { Line.reset .high with function := .trigger, pin := .low, pendingChange := some 100000 }
    s.part = .run ∧ (s.line 11).output = false ∧ (s.line 11).function = .trigger ∧
    (s.line 11).pendingChange = some 100000 ∧
    (Polarity.fall = .rise ↔ ((s.line 11).pin = .high ↔ (s.line 11).invert = false)) ∧
    (∀ j, j < 32 → j ≠ 0 → (s.brk j).state ≠ .waiting) ∧
    ((after (.lineEdgeAccepted 11) s).brk 0).state = .cued ∧
    ((after (.lineEdgeAccepted 11) s).brk 0).x = some 1100000000 := by decide +kernel

/-- Break 0 in a state, triggered by cue 65,535; CUED and ON_AIR on lane 0 from (100, 0). -/
def cueing (st : BreakState) : State :=
  let s := spliceAt st none
  let s := s.withBreak 0 { s.brk 0 with trigger := .cue 65535 }
  if st = .waiting then (s.withLane 0 .reset).withBreak 0 { s.brk 0 with lane := none, x := none } else s

theorem witness_TriggersCue_cues :
    let release := Launched.release 1000000000
    let out : Cue := ⟨65535, .out, none, some 5⟩
    (∀ st ∈ [BreakState.waiting, .cued, .onAir], ((cueing st).brk 0).trigger = .cue 65535) ∧
    (∀ j, j < 32 → j ≠ 0 → ((cueing .cued).brk j).trigger ≠ .cue 65535) ∧
    cueInstant out (cueing .waiting).now 0 (cueing .waiting).launch.pq 1 release = some 1000000626 ∧
    (((cueing .waiting).handCue out 1 release).brk 0).y = some (1000000631, .length) ∧
    ((cueing .waiting).handCue out 1 (.rejected .noTime)).splice.cuesWithoutInstant = 1 ∧
    ((cueing .cued).handCue out 1 release).splice.cuesIgnored = 1 ∧
    (((cueing .cued).handCue ⟨65535, .in_, some (100, 1), none⟩ 1 release).brk 0).y = some (1000000001, .inCue) ∧
    (((cueing .cued).handCue ⟨65535, .in_, some (100, 0), none⟩ 1 release).brk 0).cause = some .noAir ∧
    (((cueing .onAir).handCue ⟨65535, .in_, some (100, 0), none⟩ 1 release).brk 0).y = some (1000000000, .inCue) ∧
    (((cueing .onAir).handCue ⟨65535, .cancel, some (101, 0), none⟩ 1 release).brk 0).y = some (1000000000, .cancel) ∧
    (((cueing .waiting).handCue ⟨65535, .cancel, some (101, 0), none⟩ 1 release).brk 0).cause = some .cancelled ∧
    ((cueing .waiting).handCue ⟨65535, .cancel, some (101, 0), none⟩ 1 release).splice.cuesApplied = 1 := by
  decide +kernel

/-- Break 0 CUED or ON_AIR under window 7 of a state, and window 2, which stands with the same bounds, over the same slots
when `two` is set. -/
def covered (st : BreakState) (window : WindowState) (two : Bool) : State :=
  let s := (spliceAt st none).withWindow 7 ⟨window, 0xFF, 1000000000, 1000000001, 0, 0, 0⟩
  if two then s.withWindow 2 ⟨window, 0x01, 1000000000, 1000000001, 0, 65535, 0⟩ else s

theorem witness_WindowsComeAndGo_acts :
    let cued := after (.windowStartReached 7) (covered .cued .pending false)
    let both := after (.windowStartReached 7) (covered .cued .pending true)
    let aired := after (.windowStartReached 7) (covered .onAir .pending false)
    ((covered .cued .pending true).brk 0).x = some 1000000000 ∧ earlier 1000000000 1000000001 = true ∧
    (cued.brk 0).cause = some .blocked ∧ (cued.lane 0).state = .free ∧ (cued.window 7).blocked = 1 ∧
    (both.window 7).blocked = 0 ∧ (both.window 2).blocked = 65535 ∧
    (aired.brk 0).y = some (1000000000, .window) ∧ (aired.window 7).recalled = 1 ∧
    (∀ j, j < 32 → j ≠ 0 → ((covered .cued .pending true).brk j).live = false) := by decide +kernel

/-- SET WINDOW over slot 0, from (100, 0) and a tick, to (100, 2). -/
def setWindow0 (tick : Byte) : List Byte := [0x01, 0, 0, 0, 100, 0, 0, 0, tick, 0, 0, 0, 100, 0, 0, 0, 2]

theorem witness_WindowsComeAndGo_setActs :
    (∀ tick ∈ [(0 : Byte), 1], (setWindow0 tick).length = 17 ∧ later (instantAt (setWindow0 tick) 9)
      (instantAt (setWindow0 tick) 1) = true) ∧
    ((after (.setWindow .network (setWindow0 0)) (spliceAt .cued none)).brk 0).cause = some .blocked ∧
    ((after (.setWindow .network (setWindow0 0)) (spliceAt .cued none)).window 0).blocked = 1 ∧
    ((after (.setWindow .network (setWindow0 1)) (spliceAt .cued none)).brk 0).state = .cued ∧
    ((after (.setWindow .network (setWindow0 1)) (spliceAt .cued none)).window 0).state = .pending ∧
    ((after (.setWindow .network (setWindow0 1)) (spliceAt .onAir none)).brk 0).y = some (1000000001, .window) := by
  decide +kernel

/-- An end exactly 2^31 seconds after the start is refused, and one tick less is not (R124). -/
theorem witness_WindowsComeAndGo_refused :
    let end_ := fun (tick : List Byte) => [(0x01 : Byte), 0, 0, 0, 100, 0, 0, 0, 0] ++ tick
    later (instantAt (end_ [0x80, 0, 0, 100, 0, 0, 0, 0]) 9) (instantAt (end_ []) 1) = false ∧
    code .network (after (.setWindow .network (end_ [0x80, 0, 0, 100, 0, 0, 0, 0])) (run 100 0)) = some .badValue ∧
    code .network (after (.setWindow .network (end_ [0x80, 0, 0, 99, 0, 0x98, 0x96, 0x7F])) (run 100 0)) = some .ok ∧
    ((run 100 0).withWindows (List.replicate 8 { Window.empty with state := .active })).freeWindow = none ∧
    tickFits (setWindow0 0) 1 = true ∧
    tickFits ((0x01 : Byte) :: [0, 0, 0, 100, 0, 0x98, 0x96, 0x80, 0, 0, 0, 100, 0, 0, 0, 1]) 1 = false := by
  decide +kernel

/-- The state of `converting` with a range pending in which channel 0 does not lie. -/
def ranging : State := converting.withMon { converting.mon with pendingRange := some (7, 7) }

theorem witness_ConversionsClassify_pending :
    ranging.mon.pendingRange = some (7, 7) ∧ (after (.conversionComplete 499) ranging).mon.converting = 7 ∧
    ((after (.conversionComplete 499) ranging).channel 0).state = .normal ∧
    ((after (.conversionComplete 499) ranging).channel 0).value = 499 ∧
    ((after (.conversionComplete 499) ranging).channel 0).previous = none := by decide +kernel

theorem witness_ConversionsClassify_capture :
    converting.mon.capture = none ∧
    ((after (.conversionComplete 499) converting).mon.capture.map fun c => (c.values, c.first, c.last, c.channel, c.state)) =
      some ([499, 0, 0, 0, 0, 0, 0, 0], 0, 7, 0, .low) ∧
    (after (.conversionComplete 500) converting).mon.capture = none := by decide +kernel

theorem witness_PowerOnAndResetPin_outputs :
    let s := State.reset.withLaunch ((Launch.reset.send plainPacket 0).send nullPacket 1)
    s.launch.outputs.length = 2 ∧ (after .powerOn s).launch.outputs.map (·.packet) = [plainPacket] := by decide +kernel

theorem witness_SoftwareReset_waits :
    let s := after (.clipRead .network [0, 0, 0, 1]) .reset
    (s.port .network).inProgress = some (.clip ⟨false, 0, 1, 0, []⟩) ∧
    s.clip.service = some (.read .network 0 false) ∧ (resetting.port .network).inProgress = none ∧
    (resetting.port .station).response = none := by decide +kernel

/-- A part ON_AIR at RESERVE for want of the main exciter: the reset ends the fault of channel 0, and nothing moves; where the
reserve channel was at fault too, the changeover that follows is the one event left. -/
theorem witness_SoftwareReset_events :
    let s := (run 5 0).withChannel 0 { Channel.reset with state := .low, role := .main }
    let s := (s.withChg { s.chg with position := .reserve }).withPort .station
      { PortState.reset with events := [⟨.gate, 0, 1, 0⟩] }
    (s.port .network).inProgress = none ∧ s.paramLock = false ∧ s.mainFault = true ∧
    (after (.reset .station []) s).station.events = [] ∧
    (after (.reset .station []) s).chg.position = .reserve ∧
    (after (.reset .station []) s).chg.returnTimer = some 600000000 := by decide +kernel

/-- A label that differs from the second it replaces steps the scheduler at a natural mark too, after its own event; one that
does not leaves it alone (R2, R75). -/
theorem witness_SecondMarkMakesTheNextSecond_label :
    let s := fun v => (starts true).withTb { (starts true).tb with tick := 9999999, pendingLabel := some v }
    (s 77).tb.atSecondEnd = true ∧ (after .secondMark (s 77)).launch.stats.stepped = 1 ∧
    (after .secondMark (s 77)).launch.lastEnd = some 770000627 ∧
    (after .secondMark (s 77)).station.events =
      [⟨.labelApplied, 77, 7, 770000000⟩, ⟨.groupDropped, 7, 5, 770000000⟩] ∧
    (after .secondMark (s 7)).launch.stats.stepped = 0 ∧
    (after .secondMark (s 7)).station.events = [⟨.labelApplied, 7, 7, 70000000⟩] := by decide +kernel

theorem witness_WatchAndBlink_events :
    let s := (run 5 1001).withTb { (run 5 1001).tb with missed := 2 }
    (after .pulseWatchCheck s).network.events = [⟨.timebaseState, 3, 2, 50001001⟩] := by decide +kernel

/-- A pacing identifier that is the network identifier of slot 0's entry, 256, is refused (R169). -/
theorem witness_SettingsAreStored_slot :
    let s := (withBreak0 .free .manual).withPart .standby
    s.part = .standby ∧ s.open_ .station ∧ s.networkEntry (field [0x01, 0x00, 0x01, 0x01, 1] 0 2) = some (0, 0) ∧
    code .station (after (.setStreamIds .station [0x01, 0x00, 0x01, 0x01, 1]) s) = some .badValue ∧
    code .station (after (.setStreamIds .station [0x01, 0x02, 0x01, 0x01, 1]) s) = some .ok := by decide +kernel

theorem witness_FramingSteps_good :
    ((syncing 2).feed .a).pos = 0 ∧ ((after (.byteTaken .a 0x47) (syncing 2)).feed .a).badRun = 0 ∧
    ((after (.byteTaken .a 0x47) (syncing 2)).feed .a).accepting = true ∧
    ((after (.byteTaken .a 0x47) (syncing 2)).feed .a).buffer = [0x47] := by decide +kernel

/-- The state of `pacingNext` with E at 7, its feed's stale run at 0 and the other's at 1, and a closed copy of group 7. -/
def pacingAgain : State :=
  let s := pacingWith ⟨(List.replicate 128 none).set 5 (some (copy7 .short)), 65534⟩
  (s.withSel { s.sel with expected := some 7 }).withFeed .b { Feed.reset with staleRun := 1 }

theorem witness_FirstPacketOpensACopy_again :
    let t := after (.packetArrival .a 0xFF) pacingAgain
    pacingAgain.closedCopy .a 7 = some (5, copy7 .short) ∧ (pacingAgain.feed .b).openCopy ≠ some 5 ∧
    seqEarlier 7 7 = false ∧ (t.record 0).map (·.declared) = some 400 ∧ t.record 5 = none ∧ t.store.freeCells = 65535 ∧
    t.sel.expected = some 7 ∧ (t.feed .b).otherCurrent = true ∧ (pacingNext.feed .b).staleRun = 0 ∧
    ((after (.packetArrival .a 0xFF) pacingNext).feed .b).otherCurrent = false := by decide +kernel

/-- A feed with an open copy of group 7 at place 5, a packet short of it, and then a pacing packet of its number. -/
theorem witness_FirstPacketOpensACopy_closes :
    let s := pacingWith ⟨(List.replicate 128 none).set 5 (some { copy7 .opened with declared := 3 }), 65534⟩
    let s := s.withFeed .a { s.feed .a with openCopy := some 5 }
    let t := after (.packetArrival .a 0xFF) s
    (s.record 5).map (·.arrivals) = some 2 ∧ (t.feed .a).counters.short = 1 ∧ t.record 5 = none ∧
    ((s.withRecord 5 (some { copy7 .short with declared := 3 })).withFeed .a
      { s.feed .a with openCopy := none, counters := { (s.feed .a).counters with short := 1 } }).selectorDue = false ∧
    (t.feed .a).openCopy = some 0 := by decide +kernel

/-- The state of `filling` before the last byte of a pacing packet of a wrong type, with a record. -/
def invalidNext (r : Option GroupRecord) : State :=
  let s := (run 5 0).withStore ⟨(List.replicate 128 none).set 0 r, 9⟩
  s.withFeed .a { lastByte ([0x47, 0x1F, 0xF0, 0x10] ++ List.replicate 183 0) with openCopy := r.map fun _ => 0 }

theorem witness_PacketsFillTheOpenCopy_invalid :
    let next := fun r => after (.packetArrival .a 0) (invalidNext r)
    pacingOf (((invalidNext none).feed .a).buffer ++ [0]) = none ∧
    identifier (((invalidNext none).feed .a).buffer ++ [0]) = (invalidNext none).launch.pacingId ∧
    ((next none).feed .a).counters.pacingInvalid = 1 ∧
    ((next (some { copy7 .opened with declared := 4 })).record 0).map (·.arrivals) = some 3 ∧
    ((next (some { copy7 .opened with declared := 4 })).feed .a).openCopy = some 0 ∧
    ((next (some { copy7 .opened with declared := 3 })).record 0).map (·.phase) = some .short ∧
    (next (some { copy7 .opened with declared := 3 })).store.freeCells = 9 := by decide +kernel

theorem witness_PacketsFillTheOpenCopy_lastWithoutCell :
    (closing 2 0).store.freeCells = 0 ∧ ((closing 2 0).record 0).map (·.arrivals) = some 2 ∧
    ((after (.packetArrival .a 0) (closing 2 0)).record 0).map (fun r => (r.phase, r.overrun)) = some (.short, true) ∧
    ((after (.packetArrival .a 0) (closing 2 0)).feed .a).counters.overrun = 1 ∧
    (after (.packetArrival .a 0) (closing 2 0)).station.events = [⟨.poolOverrun, 1, 7, 50000000⟩] := by decide +kernel

/-- Null fill goes on at the first null that does not start before the withdrawal, whether the fill has stopped or not
(R69). -/
theorem witness_ScheduledStartStartsOrDrops_gap :
    let s := fun stopped => (starts false).withLaunch
      { (starts false).launch with gap := some (59999000, 1), nullsStopped := stopped }
    (s true).launch.nullEnd = none ∧ 0 < (s true).launch.pq ∧
    offset (s true).launch.pq 1 = 626 ∧ offset (s true).launch.pq 2 = 1253 ∧
    (after .scheduledStart (s true)).launch.gap = some (59999000, 2) ∧
    (after .scheduledStart (s false)).launch.gap = some (59999000, 2) ∧
    (after .scheduledStart (s true)).launch.nullsStopped = false := by decide +kernel

/-- A break CUED on slot 0 with X at (100, 0), under window 7 ACTIVE over slots that it covers, and window 2 PENDING. -/
def offered (start7 start2 : Time) : State :=
  ((spliceAt .cued none).withWindow 7 ⟨.active, 0xFF, start7, 1000000009, 0, 0, 0⟩).withWindow 2
    ⟨.pending, 0x01, start2, 1000000009, 0, 0, 65535⟩

theorem witness_PacketStartSends_offers :
    let t := ((offered 1000000003 1000000005).splicePacket 1000000000 nullPacket).1
    (windowIndices.filter fun w =>
      ((offered 1000000003 1000000005).window w).standing && ((offered 1000000003 1000000005).window w).covers 0 &&
        later ((offered 1000000003 1000000005).window w).stop 1000000000) = [2, 7] ∧
    (t.brk 0).state = .onAir ∧ (t.brk 0).y = some (1000000003, .window) ∧ (t.window 2).recalled = 65535 ∧
    (t.window 7).recalled = 1 ∧
    (((offered 1000000005 1000000003).splicePacket 1000000000 nullPacket).1.window 7).recalled = 0 := by decide +kernel

theorem witness_PacketStartSends_recalled :
    let s := (spliceAt .cued none).withWindow 7 ⟨.active, 0xFF, 1000000000, 1000000001, 0, 0, 0⟩
    let t := (s.splicePacket 1000000000 nullPacket).1
    reached 1000000000 (s.window 7).start = true ∧ (t.brk 0).state = .ended ∧ (t.brk 0).cause = some .recalled ∧
    (t.brk 0).inTick = some 1000000000 ∧ (t.brk 0).outTick = some 1000000000 ∧ (t.lane 0).state = .free ∧
    t.station.events = [⟨.breakOnAir, 0, 0, 1000000000⟩, ⟨.breakEnded, 0, 4, 1000000000⟩] := by decide +kernel

theorem witness_LaneReads_clipEnd :
    let bad := (laneReads false).withClip { (laneReads false).clip with cells := [] }
    let bad := bad.withClip { bad.clip with cells := [(0, List.replicate 188 1)] }
    let last := (cued0 0).withLane 0 { (cued0 0).lane 0 with position := none, queue := [plainPacket] }
    ((laneReads false).lane 0).break_ = some 0 ∧ ((laneReads false).lane 0).state ≠ .free ∧
    ((after (.laneReadDone 0) (laneReads false)).lane 0).clipEnd = false ∧
    ((after (.laneReadDone 0) bad).lane 0).clipEnd = true ∧ ((after (.laneReadDone 0) bad).brk 0).exhausted = true ∧
    ((last.takePacket 0).lane 0).clipEnd = true ∧ ((last.takePacket 0).brk 0).exhausted = true := by decide +kernel

/-- Values out of the ranges of R89, R97 and R100, each with all else in range. -/
theorem witness_BadValues :
    segmentsFit [31, 1, 0x1F, 0xFF, 0xFF, 0x00, 0x02] = true ∧ slotFits (slot7.set 7 1) = true ∧
    [[31, 1, 0x1F, 0xFF, 0xFF, 0x00, 0x02], segment31.set 0 32, segment31.set 6 0].map
      (fun ps => code .station (after (.playListWrite .station ps) .reset)) = List.replicate 3 (some .badValue) ∧
    [slot7.set 0 8, slot7.set 2 0x20, slot7.set 6 2, (slot7.set 6 1).set 7 1].map
      (fun ps => code .station (after (.defineSlot .station ps) .reset)) = List.replicate 4 (some .badValue) ∧
    breakFits (fields0.set 2 4) = true ∧
    [fields0.set 0 8, fields0.set 1 32, fields0.set 2 4, fields0.set 6 1, fields0.set 7 2, fields0.set 12 0, fields0.set 13 2].map
      (fun ps => code .station (after (.createBreak .station ps) .reset)) = List.replicate 7 (some .badValue) ∧
    code .station (after (.modifyBreak .station (0 :: fields0.set 2 4)) (withBreak0 .loaded .manual)) = some .badValue ∧
    code .station (after (.setChannel .station [7, 0, 1, 0, 0, 3, 0]) .reset) = some .badValue ∧
    code .station (after (.setReturn .station [2, 0, 1]) .reset) = some .badValue ∧
    code .station (after (.changeover .station [2]) .reset) = some .badValue := by decide +kernel

/-- What the port may not command, and what the state does not allow (R101 to R106). -/
theorem witness_BreakStateCommands_refused :
    (∀ st ∈ [BreakState.waiting, .cued, .onAir, .ended],
      code .station (after (.arm .station [0]) (withBreak0 st .manual)) = some .wrongState) ∧
    (∀ st ∈ [BreakState.loaded, .waiting, .cued, .onAir],
      code .network (after (.clearBreak .network [0]) (withBreak0 st .manual)) = some .wrongState) ∧
    code .station (after (.disarm .station [0]) (withBreak0 .cued .manual)) = some .wrongState ∧
    code .station (after (.trigger .station [0]) (withBreak0 .waiting (.cue 1))) = some .wrongState ∧
    code .station (after (.modifyBreak .station (0 :: fields0)) (withBreak0 .waiting .manual)) = some .wrongState ∧
    code .network (after (.cancel .network [0]) (withBreak0 .waiting .manual)) = some .ok ∧
    code .network (after (.clearBreak .network [0]) (withBreak0 .ended .manual)) = some .ok ∧
    code .network (after (.cancel .network [0]) (withBreak0 .ended .manual)) = some .wrongState := by decide +kernel

/-- A cue duration of 0 ends the break NO_AIR with Y at X and the source LENGTH (R106, R108). -/
theorem witness_TriggersCue_noDuration :
    let t := (cueing .waiting).handCue ⟨65535, .out, none, some 0⟩ 1 (.release 1000000000)
    (t.brk 0).state = .ended ∧ (t.brk 0).cause = some .noAir ∧ (t.brk 0).y = some (1000000626, .length) ∧
    (t.brk 0).x = none := by decide +kernel

theorem witness_ConversionsClassify_events :
    converting.chg.history.length ≤ 3 ∧
    (after (.conversionComplete 499) converting).station.events =
      [⟨.channelLimit, 0, 1, 0⟩, ⟨.captureHeld, 0, 1, 0⟩, ⟨.changeover, 1, 0, 0⟩] := by decide +kernel

theorem witness_ConversionsClassify_returns :
    let s := ranging.withMon { ranging.mon with channels := ranging.mon.channels.map fun c => { c with role := .site } }
    (∀ x ∈ s.mon.channels, x.role = .none ∨ x.role = .site) ∧
    (after (.conversionComplete 499) s).network.events =
      [⟨.channelLimit, 0, 1, 0⟩, ⟨.captureHeld, 0, 1, 0⟩, ⟨.channelLimit, 0, 0, 0⟩] := by
  decide +kernel

theorem witness_MonitorSettings_role :
    let s := State.reset.withChannel 7 { Channel.reset with state := .low }
    (after (.setChannel .station [7, 0, 0, 3, 0xFF, 3, 1]) s).chg.position = .reserve ∧
    (after (.setChannel .station [7, 0, 0, 3, 0xFF, 3, 1]) s).network.events = [⟨.changeover, 1, 0, 0⟩] := by decide +kernel

theorem witness_ChangeoverCommands_events :
    let held := State.reset.withChg { Changeover.reset with position := .reserve, hold := true, history := [0, 0, 0] }
    positionOf (0 : Byte).toNat = some .main ∧ held.faultOf .main = false ∧ held.chg.history.length ≤ 3 ∧
    (after (.changeover .station [0]) held).network.events = [⟨.changeover, 0, 1, 0⟩] ∧
    (after (.changeover .station [1]) held).network.events = [] ∧
    (after (.releaseHold .station []) held).network.events = [⟨.changeoverHold, 1, 0, 0⟩] ∧
    (after (.releaseHold .station []) held).chg.returnTimer = some 600000000 := by decide +kernel

/-- The third automatic changeover within 600 s, by the edge of a fault line (the fourth row of chapter 9's sequence). -/
theorem witness_AutomaticChangeovers_edge :
    let s := (State.reset.withTb { Timebase.reset with second := 7000200 }).withLine 0
      { Line.reset .low with function := .mainFault, pin := .high, pendingChange := some 100000 }
    let s := s.withChg { s.chg with history := [70000000000000, 70000700000000] }
    let t := after (.lineEdgeAccepted 0) s
    (s.line 0).function = .mainFault ∧ s.chg.history.length ≤ 3 ∧ t.chg.position = .reserve ∧ t.chg.hold = true ∧
    t.station.events = [⟨.changeover, 1, 0, 70002000000000⟩, ⟨.changeoverHold, 1, 1, 70002000000000⟩] := by decide +kernel

theorem witness_LineInputsAndMuting_functions :
    let out := fun fn => { Line.reset .low with output := true, function := fn, tallyLane := some 0, invert := true }
    let s := (spliceAt .onAir none).withLane 0 { Lane.reset with state := .onAir }
    let s := s.withChg { s.chg with position := .reserve }
    [LineFunction.level, .blink, .changeover, .carrierMute, .gate, .tally, .alert].map (fun fn => s.drivenLevel (out fn)) =
      [.high, .low, .low, .high, .low, .low, .high] := by decide +kernel

/-- A WAITING TIME break that is due fires at the entry to RUN, after the response and START_COMPLETE (R107, R165). -/
theorem witness_StartAndItsCompletion_due :
    let s := after (.start .station []) ((withBreak0 .waiting (.time 1000000000)).withPart .standby)
    s.part = .starting ∧ (s.brk 0).timeDue s.now = some 1000000000 ∧ (s.brk 0).lane = none ∧
    (∀ j, j < 32 → j ≠ 0 → (s.brk j).timeDue s.now = none) ∧ ((after .startComplete s).brk 0).state = .cued ∧
    (after .startComplete s).network.events = [⟨.startComplete, 0, 0, 1000000000⟩, ⟨.breakCued, 0, 0, 1000000000⟩] ∧
    (∀ i, i < 32 → (starting.brk i).timeDue starting.now = none) := by decide +kernel

theorem witness_StopEndsAll_start :
    starting.part ≠ .standby ∧ (starting.port .station).inProgress = some .start ∧ starting.open_ .network ∧
    code .network (after (.stop .network []) starting) = some .ok ∧
    code .station (after (.stop .network []) starting) = some .wrongState ∧
    ((after (.stop .network []) starting).port .station).inProgress = none := by decide +kernel

/-- A line 11 with a pin at HIGH, an accepted level LOW, a change pending and an edge latched. -/
def directed (output : Bool) : State :=
  State.reset.withLine 11
    { Line.reset .low with
      output := output, function := if output then .level else .plain, pin := .high
      pendingChange := some 99999, latched := true }

/-- CONFIGURE LINE by the four changes of direction (the table of R150): accepted level, pending change, latched edge. -/
theorem witness_LineLevels_directions :
    let seen := fun (output : Bool) (params : List Byte) =>
      let l := (after (.configureLine .station params) (directed output)).line 11
      (l.accepted, l.pendingChange, l.latched)
    lineSettings [11, 0, 0, 0, 0, 0] = some ⟨false, false, .plain, none, .low⟩ ∧
    lineSettings [11, 1, 0, 5, 0, 0] = some ⟨true, false, .level, none, .low⟩ ∧
    ((directed true).line 11).locked = false ∧ (directed true).open_ .station ∧ (directed true).chg.history.length ≤ 3 ∧
    seen false [11, 0, 0, 0, 0, 0] = (.low, some 99999, true) ∧ seen true [11, 0, 0, 0, 0, 0] = (.high, none, false) ∧
    seen false [11, 1, 0, 5, 0, 0] = (.low, none, false) ∧ (after (.configureLine .station [11, 0, 0, 0, 0, 0])
      (directed true)).station.events = [] := by decide +kernel

/-- An inverted input of function MAIN_FAULT is a main fault at once, and the changeover follows (R137, R150). -/
theorem witness_LineLevels_health :
    let t := after (.configureLine .network [0, 0, 1, 2, 0, 0]) .reset
    t.chg.position = .reserve ∧ t.network.events = [⟨.changeover, 1, 0, 0⟩] := by decide +kernel

/-- Values that CONFIGURE LINE refuses, each with all else in range (R150, log entry 14). -/
theorem witness_LineLevels_badValue :
    [[(12 : Byte), 0, 0, 0, 0, 0], [0, 2, 0, 0, 0, 0], [0, 0, 2, 0, 0, 0], [0, 0, 0, 5, 0, 0], [0, 1, 0, 4, 0, 0],
        [0, 1, 0, 12, 0, 0], [0, 1, 0, 10, 4, 0], [0, 0, 0, 0, 0, 2]].map
      (fun ps => code .station (after (.configureLine .station ps) .reset)) = List.replicate 8 (some .badValue) ∧
    code .station (after (.configureLine .station [11, 1, 1, 10, 3, 1]) .reset) = some .ok := by decide +kernel

/-- A pulse that ends its second with a label pending jumps with the hold of tick 0 already standing (R6, R75). -/
theorem witness_PulseCorrectsTheSecond_hold :
    let s := (starts true).withTb { (starts true).tb with tick := 9999999, pendingLabel := some 77 }
    (pulseError s.tb.tick).natAbs ≤ 1000 ∧ 9999984 ≤ s.tb.tick ∧ (after .pulse s).tb.markHold = true ∧
    (after .pulse s).now = 770000000 ∧ (after .pulse s).launch.stats.stepped = 1 ∧
    (after .pulse (s.withTb { s.tb with discipline := .free, markHold := true })).tb.markHold = false := by decide +kernel

/-- R57, R58: an advance of 0 and of 2,000,000, with the launch tick below, at and above it, and in second 0. -/
theorem witness_LaunchSecondIsTheNearest_advance :
    releaseTick 1000300 108 2000000 2000000 = 1000300 * 10000000 ∧
    releaseTick 1000300 108 1999999 2000000 = 1000299 * 10000000 + 9999999 ∧
    releaseTick 1000300 108 9999999 2000000 = 1000300 * 10000000 + 7999999 ∧
    releaseTick 1000300 108 0 0 = 1000300 * 10000000 ∧ releaseTick 0 0 0 1 = 42949672959999999 ∧
    releaseTick 0 0 1999999 2000000 = 42949672959999999 := by decide +kernel

/-- A CLIP WRITE of 0 packets, one past the last slot, one whose packet does not begin with 0x47, lengths of one byte more,
one less and none, and 16 packets, the most; a CLIP READ at the same bounds (R84, R86). -/
theorem witness_ClipCommandsAreTaken_refused :
    let write := fun ps => after (.clipWrite .station ps) .reset
    let read := fun ps => after (.clipRead .network ps) .reset
    code .station (write [0, 0, 0, 0]) = some .badValue ∧
    code .station (write ([0x20, 0, 0, 1] ++ plainPacket)) = some .badValue ∧
    code .station (write ([0, 0, 0, 1] ++ plainPacket.set 0 0x46)) = some .badValue ∧
    code .station (write ([0, 0, 0, 1] ++ plainPacket ++ [0])) = some .badLength ∧
    code .station (write [0, 0, 0, 1]) = some .badLength ∧ code .station (write []) = some .badLength ∧
    code .station (write ([0, 0, 0, 17] ++ List.replicate 3196 0x47)) = some .badLength ∧
    ((write ([0x1F, 0xFF, 0xF0, 16] ++ (List.replicate 16 plainPacket).flatten)).port .station).inProgress.isSome = true ∧
    [[(0 : Byte), 0, 0, 0], [0, 0, 0, 17], [0x1F, 0xFF, 0xFF, 2], [0, 0, 0], [0, 0, 0, 1, 0]].map
      (fun ps => code .network (read ps)) =
      [some .badValue, some .badValue, some .badValue, some .badLength, some .badLength] := by decide +kernel

/-- REMOVE WINDOW of index 8 and of a FREE record, SET WINDOW of 16 bytes (R124, R129). -/
theorem witness_WindowsComeAndGo_removed :
    code .network (after (.removeWindow .network [8]) (window7 .active 0)) = some .badValue ∧
    code .network (after (.removeWindow .network [6]) (window7 .active 0)) = some .wrongState ∧
    code .network (after (.removeWindow .network [7]) (window7 .pending 0)) = some .ok ∧
    code .network (after (.setWindow .network (List.replicate 16 1)) (run 100 0)) = some .badLength := by decide +kernel

/-- Breaks 0 and 31 CUED on slots 0 and 1 with X at (100, 0). -/
def twoCued : State :=
  let s := spliceAt .cued none
  s.withBreak 31 { s.brk 0 with slot := 1, lane := none }

/-- The events of a window that becomes ACTIVE, that is set ACTIVE, and that is set PENDING, on the breaks they end, in order;
a window whose end is reached too ends at once (R125, R126, R128). -/
theorem witness_WindowsComeAndGo_events :
    let sets := fun (ps : List Byte) => (after (.setWindow .network (ps.set 0 0x03)) twoCued).station.events
    let reached_ := fun stop => after (.windowStartReached 7) (twoCued.withWindow 7 ⟨.pending, 0x83, 999999990, stop, 0, 0, 0⟩)
    sets (setWindow0 0) = [⟨.windowActive, 0, 3, 1000000000⟩, ⟨.breakEnded, 0, 7, 1000000000⟩,
      ⟨.breakEnded, 31, 7, 1000000000⟩] ∧
    sets (setWindow0 1) = [] ∧ twoCued.freeWindow = some 0 ∧
    (reached_ 1000000001).network.events = [⟨.windowActive, 7, 0x83, 1000000000⟩, ⟨.breakEnded, 0, 7, 1000000000⟩,
      ⟨.breakEnded, 31, 7, 1000000000⟩] ∧
    (reached_ 1000000000).network.events = [⟨.windowActive, 7, 0x83, 1000000000⟩, ⟨.windowEnded, 7, 0, 1000000000⟩] ∧
    ((reached_ 1000000000).window 7) = .empty ∧ ((reached_ 1000000001).window 7).blocked = 2 := by decide +kernel

/-- MODIFY BREAK of index 32, of a FREE record, over the other port, and of a length that is not its trigger's, each before
the checks behind it (R101, R102). -/
theorem witness_BreakStateCommands_modify :
    let modify := fun p i (ps : List Byte) s => code p (after (.modifyBreak p (i :: ps)) s)
    modify .station 32 [] .reset = some .badValue ∧ modify .network 255 fields0 .reset = some .badValue ∧
    modify .station 31 [] .reset = some .wrongState ∧
    modify .network 0 [] (withBreak0 .loaded .manual) = some .notOwner ∧
    modify .network 0 fields0 (withBreak0 .waiting .manual) = some .notOwner ∧
    modify .station 0 [0, 31] (withBreak0 .loaded .manual) = some .badLength ∧
    modify .station 0 fields0 (withBreak0 .loaded .manual) = some .ok ∧
    modify .station 0 (fields0.set 0 7) (withBreak0 .loaded .manual) = some .wrongState ∧
    breakFits [0, 31] = false ∧ code .station (after (.createBreak .station [0, 31]) .reset) = some .badLength ∧
    code .station (after (.modifyBreak .station []) .reset) = some .badLength := by decide +kernel

/-- Sync loss in RUN with E present: the open copy of E closes SHORT, and E is admitted with it by condition (c), after
FEED_SYNC (R24, R30, R42); a third confirmation is followed by the same tests. -/
theorem witness_FramingSteps_tested :
    let s := losing.withSel { losing.sel with expected := some 7 }
    let t := after (.badSyncByte .a 0x46) s
    let v := after (.checkByte .a 0x47) (overdue.withFeed .a (verifying 2).feedA)
    s.part = .run ∧ (s.feed .a).openCopy = some 0 ∧ (s.record 0).map (fun r => (r.arrivals, r.declared)) = some (2, 4) ∧
    t.feedA.sync = .search ∧ t.feedA.openCopy = none ∧ t.feedA.counters.short = 1 ∧ t.feedA.counters.syncLosses = 1 ∧
    t.feedA.counters.badSync = 1 ∧ t.sel.counters.admitC = 1 ∧ t.sel.expected = some 8 ∧
    t.network.events = [⟨.feedSync, 1, 1, 50000000⟩, ⟨.feedSwitch, 1, 0, 50000000⟩] ∧
    (after (.feedSilence .a) s).sel.expected = some 8 ∧ (after (.feedSilence .a) s).feedA.counters.badSync = 0 ∧
    v.feedA.sync = .locked ∧ v.sel.counters.admitC = 1 ∧
    v.station.events = [⟨.feedSync, 1, 0, 59500000⟩, ⟨.feedSwitch, 1, 0, 59500000⟩] := by decide +kernel

/-- A part in RUN at (5, 0) that waits for E = 7 and holds two records, at places 0 and 1; feed B is LOCKED and may still
bring E. -/
def twoCopies (r q : GroupRecord) : State :=
  let s := (run 5 0).withStore ⟨[some r, some q], 65532⟩
  (s.withSel { s.sel with expected := some 7, active := some .a }).withFeed .b { Feed.reset with sync := .locked }

/-- A copy of group 7 from feed B. -/
def copyB (phase : Phase) : GroupRecord := { copy7 phase with feed := .b }

/-- The two closed copies of E: by rank, by the order within a rank, and on a tie by the preferred feed (R41); the other is
superseded, under condition (b), and the active feed follows (R44, R45). -/
theorem witness_SelectorSettles_ranks :
    let err := fun n (r : GroupRecord) => { r with errored := n }
    let won := fun (s : State) => ((after .deadlineReached s).sel.queue, (after .deadlineReached s).sel.counters.superseded)
    let tie := twoCopies (err 1 (copy7 .complete)) (err 1 (copyB .complete))
    let toB := tie.withSel { tie.sel with preferred := .b }
    let t := after .deadlineReached toB
    won (twoCopies (err 1 (copy7 .complete)) (err 0 { copyB .short with stored := 400 })) = ([0], 1) ∧
    won (twoCopies (err 40 (copy7 .complete)) (err 39 (copyB .complete))) = ([1], 1) ∧
    won (twoCopies { copy7 .short with stored := 398 } { copyB .short with stored := 399 }) = ([1], 1) ∧
    won (twoCopies { copy7 .complete with launched := .rejected .noTime } (copyB .short)) = ([1], 1) ∧
    won tie = ([0], 1) ∧ won toB = ([1], 1) ∧ (err 1 (copy7 .complete)).ranksAbove (err 1 (copyB .complete)) = false ∧
    toB.heldCopy .b 7 = some (1, err 1 (copyB .complete)) ∧ toB.admitsBy 7 (err 1 (copyB .complete)) = some .b ∧
    t.sel.counters.admitB = 1 ∧ t.sel.counters.fromB = 1 ∧ t.sel.counters.switches = 1 ∧ t.sel.active = some .b ∧
    t.sel.lastAdmitted = some 7 ∧ t.sel.expected = some 8 ∧ t.record 0 = none ∧ t.store.freeCells = 65534 ∧
    t.station.events = [⟨.feedSwitch, 2, 1, 50000000⟩] ∧ (after .deadlineReached tie).sel.counters.switches = 0 ∧
    tie.numbered = true := by decide +kernel

/-- Conditions (a), with the other feed's OPEN copy abandoned, (c), (d) and (e), and none of them (R42, R44). -/
theorem witness_SelectorSettles_conditions :
    let far := { copy7 .short with launched := .release 60000000 }
    let later_ := fun t => { copyB .short with group := 8, launched := .release t }
    let s := twoCopies (copy7 .complete) (copyB .opened)
    let s := s.withFeed .b { s.feedB with openCopy := some 1 }
    let t := after .deadlineReached s
    let waits := twoCopies far (later_ 55000000)
    let beyond := waits.withFeed .b { waits.feedB with current := true, lastOpened := some 8 }
    let overdue_ := twoCopies { far with launched := .release 50500000 } (later_ 55000000)
    s.admitsBy 7 (copy7 .complete) = some .a ∧ t.sel.counters.abandoned = 1 ∧ t.feedB.openCopy = none ∧
    t.record 1 = none ∧ t.store.freeCells = 65534 ∧ t.sel.counters.admitA = 1 ∧
    waits.admitsBy 7 far = none ∧ after .deadlineReached waits = waits ∧
    beyond.admitsBy 7 far = some .c ∧ (after .deadlineReached beyond).sel.counters.admitC = 2 ∧
    overdue_.admitsBy 7 { far with launched := .release 50500000 } = some .d ∧
    (after .deadlineReached overdue_).sel.counters.admitD = 1 ∧
    (twoCopies far (later_ 50500000)).admitsBy 7 far = some .e ∧
    (after .deadlineReached (twoCopies far (later_ 50500000))).sel.counters.admitE = 1 ∧
    (after .deadlineReached (twoCopies far (later_ 50500000))).sel.expected = some 9 ∧
    after .deadlineReached (twoCopies (copy7 .opened) (copyB .opened)) = twoCopies (copy7 .opened) (copyB .opened) := by
  decide +kernel

/-- A cue packet of cue 65,535 from the layout of chapter 12: OUT, immediate, without a duration, its CRC right or one off. -/
def cuePacket (wrong : Nat) : Packet :=
  let body : List Byte := [0xC5, 0xFF, 0xFF, 1, 0, 0, 0, 0, 0, 0, 0, 0, 0, 0]
  [0x47, 0x1F, 0xF1, 0x10] ++ body ++ be 4 (crc32 body + wrong) ++ List.replicate 166 0xFF

/-- One valid cue, at position 1 of the admitted copy, and an invalid one (R52, R53): both counted, and the valid one handed
over, with the packet's offset for an instant; the cue of the copy that is not admitted is not read. -/
theorem witness_SelectorSettles_cues :
    let r := { copy7 .complete with cells := [plainPacket, cuePacket 0, cuePacket 1] }
    let s := twoCopies r { copyB .short with cells := [plainPacket, cuePacket 0] }
    let s := (s.withSplice (cueing .waiting).splice).withClip (cueing .waiting).clip
    let t := after .deadlineReached s
    identifier (cuePacket 0) = s.launch.cueId ∧ cueOf (cuePacket 0) = some ⟨65535, .out, none, none⟩ ∧
    s.cueIs true (cuePacket 0) = true ∧ s.cueIs false (cuePacket 1) = true ∧ s.cueIs true plainPacket = false ∧
    t.sel.counters.cuesHanded = 1 ∧ t.sel.counters.invalidCues = 1 ∧ (t.brk 0).state = .cued ∧
    (t.brk 0).x = some 60000626 ∧ t.sel.queue = [0] := by decide +kernel

/-- A skip with two later copies: the nearest becomes E; one not later than L is freed, counted and its feed left without an
open copy; where all are, E stays; with a feed that may bring E, nothing; E = 65,535 is followed by 0 (R46, R47). -/
theorem witness_SelectorSettles_skips :
    let open_ := fun n (f : FeedId) => { copy7 .opened with group := n, feed := f }
    let base := fun (e : Nat) (l : Option Nat) n m =>
      let s := ((run 5 0).withStore ⟨[some (open_ n .a), some (open_ m .b)], 65532⟩).withFeed .b
        { Feed.reset with openCopy := some 1 }
      s.withSel { s.sel with expected := some e, lastAdmitted := l }
    let lastTwo := after .deadlineReached (base 7 (some 6) 9 8)
    let lost := after .deadlineReached (base 7 (some 8) 9 8)
    let all_ := after .deadlineReached (base 7 (some 9) 9 8)
    let wrap := after .deadlineReached (base 65535 none 32766 0)
    let waits := (base 7 none 9 8).withFeed .a { Feed.reset with sync := .locked, current := true, lastOpened := some 7 }
    (base 7 (some 6) 9 8).numbered = true ∧ (base 7 (some 6) 9 8).heldCopy .a 7 = none ∧
    (base 7 (some 6) 9 8).heldCopy .b 7 = none ∧ ((base 7 (some 6) 9 8).laterThan 7).length = 2 ∧
    lastTwo.sel.expected = some 8 ∧ lastTwo.sel.counters.missing = 1 ∧ lastTwo.sel.counters.skips = 1 ∧
    lastTwo.station.events = [⟨.groupMissing, 7, 1, 50000000⟩] ∧ lastTwo.feedB.openCopy = some 1 ∧
    lost.sel.expected = some 9 ∧ lost.sel.counters.missing = 2 ∧ lost.sel.counters.outOfReach = 1 ∧
    lost.record 1 = none ∧ lost.feedB.openCopy = none ∧ lost.store.freeCells = 65534 ∧
    lost.station.events = [⟨.groupMissing, 7, 2, 50000000⟩] ∧
    all_.sel.expected = some 7 ∧ all_.sel.counters.outOfReach = 2 ∧ all_.sel.counters.skips = 0 ∧
    all_.store.freeCells = 65536 ∧ all_.station.events = [] ∧
    wrap.sel.expected = some 0 ∧ wrap.sel.counters.missing = 1 ∧ ((base 65535 none 32766 0).laterThan 65535).length = 2 ∧
    after .deadlineReached waits = waits := by decide +kernel

end Sys2Proof.Tests
end

