-- ==== Sys2Proof/Proofs/LaunchArithmetic.lean ====
section
/-! The launch arithmetic of chapter 4: the recovered launch second is the balanced remainder modulo 256 away from the
arrival's second (R57), and an advance is taken off an instant within its second or out of the second before (R58). -/

namespace Sys2Proof.Machine

open Sys2Proof

/-! ### The launch second (R57) -/

theorem fullSecond_lt (ss s8 : Nat) : fullSecond ss s8 < 4294967296 := by
  unfold fullSecond secondModulus
  dsimp only
  split <;> exact Nat.mod_lt _ (by decide)

/-- The unsigned distance that the model computes is the remainder of the plain difference. -/
theorem launchDistance_cast (ss s8 : Nat) :
    (((s8 % 256 + (256 - ss % 256)) % 256 : Nat) : Int) = ((s8 : Int) - ss) % 256 := by
  omega

/-- The launch second lies the balanced remainder of `s8 - ss` modulo 256 from the arrival's second: the model's case
128 ≤ d is the one in which `Int.bmod` takes 256 off. -/
theorem fullSecond_eq_add_bmod (ss s8 : Nat) :
    (fullSecond ss s8 : Int) = ((ss : Int) + ((s8 : Int) - ss).bmod 256) % 4294967296 := by
  have hd := launchDistance_cast ss s8
  unfold fullSecond secondModulus
  rw [Int.bmod_def]
  generalize (s8 % 256 + (256 - ss % 256)) % 256 = d at hd ⊢
  by_cases far : 128 ≤ d
  · rw [if_pos far, if_neg (by omega)]
    omega
  · rw [if_neg far, if_pos (by omega)]
    omega

/-- The balanced remainder lies in the window of R57 and gives the second the remainder of `s8`. -/
theorem bmod_in_launchWindow (ss s8 : Nat) :
    -128 ≤ ((s8 : Int) - ss).bmod 256 ∧ ((s8 : Int) - ss).bmod 256 ≤ 127 ∧
      (((s8 : Int) - ss).bmod 256 - ((s8 : Int) - (ss % 256 : Nat))) % 256 = 0 := by
  have low : -(256 / 2 : Int) ≤ ((s8 : Int) - ss).bmod 256 := Int.le_bmod (by decide)
  have high : ((s8 : Int) - ss).bmod 256 < (256 + 1) / 2 := Int.bmod_lt (by decide)
  have rem : ((s8 : Int) - ss).bmod 256 % 256 = ((s8 : Int) - ss) % 256 := Int.bmod_emod
  omega

/-! ### Instants and the advance taken off them (R58) -/

/-- An instant of a site second and a tick in it is not reduced by the modulus. -/
theorem instant_of_lt (sec tick : Nat) (hs : sec < 4294967296) (ht : tick < 10000000) :
    instant sec tick = sec * 10000000 + tick := by
  unfold instant ticksPerSecond timeModulus
  exact Nat.mod_eq_of_lt (by omega)

theorem tsub_cast (t k : Nat) : (tsub t k : Int) = ((t : Int) - k) % 42949672960000000 := by
  unfold tsub timeModulus
  omega

/-- The instant `k` ticks before `t` is the one value of site time that `k` ticks more take to `t`. -/
theorem tsub_eq_of_add (t k r : Nat) (hr : r < 42949672960000000)
    (h : (r + k) % 42949672960000000 = t % 42949672960000000) : tsub t k = r := by
  have ht := tsub_cast t k
  apply Int.ofNat_inj.mp
  omega

theorem tsub_instant_same_second (sec tick a : Nat) (hs : sec < 4294967296) (ht : tick < 10000000) (ha : a ≤ tick) :
    tsub (instant sec tick) a = sec * 10000000 + (tick - a) := by
  rw [instant_of_lt sec tick hs ht]
  have back : sec * 10000000 + (tick - a) + a = sec * 10000000 + tick := by omega
  exact tsub_eq_of_add _ _ _ (by omega) (by rw [back])

/-- The second before second 0 is 4,294,967,295: there the subtraction passes the start of site time. -/
theorem tsub_instant_second_before (sec tick a : Nat) (hs : sec < 4294967296) (ha : tick < a) (hm : a ≤ 10000000) :
    tsub (instant sec tick) a = (sec + 4294967295) % 4294967296 * 10000000 + (tick + 10000000 - a) := by
  rw [instant_of_lt sec tick hs (by omega)]
  rcases Nat.eq_zero_or_pos sec with rfl | pos
  · exact tsub_eq_of_add _ _ _ (by omega) (by omega)
  · have before : (sec + 4294967295) % 4294967296 = sec - 1 := by omega
    rw [before]
    exact tsub_eq_of_add _ _ _ (by omega) (by omega)

/-- Settles O20: the balanced remainder is the distance of the launch second, and the release tick is read off the rules
for an instant less an advance. -/
theorem launchSecondIsTheNearest : Obligations.LaunchSecondIsTheNearest := by
  unfold Obligations.LaunchSecondIsTheNearest
  intro ss s8 lt _ _ hlt
  have hsec := fullSecond_lt ss s8
  obtain ⟨low, high, rem⟩ := bmod_in_launchWindow ss s8
  refine ⟨⟨_, low, high, rem, fullSecond_eq_add_bmod ss s8⟩, ?launchInstant, by decide, fun a ha =>
    ⟨?modulo, tsub_instant_same_second _ lt a hsec hlt,
      fun before => tsub_instant_second_before _ lt a hsec before (by omega)⟩⟩
  case launchInstant => exact tsub_instant_same_second _ lt 0 hsec hlt (Nat.zero_le lt)
  case modulo =>
    rw [releaseTick, tsub_cast, instant_of_lt _ _ hsec hlt]
    omega

end Sys2Proof.Machine
end

