-- ==== Sys2Proof/Proofs/MuteHolders.lean ====
section
/-! The mute holders of R139: MUTE and UNMUTE move their own port alone, UNMUTE ALL is the network port's, and no
automatic changeover, and so no software RESET, moves a port in or out of the set. -/

namespace Sys2Proof.Machine

open Sys2Proof

/-! ### The set of mute holders -/

theorem Changeover.hold_true_eq (c : Changeover) (p : Port) :
    c.hold_ p true =
      { c with
        muteStation := c.muteStation || p == .station
        muteNetwork := c.muteNetwork || p == .network } := by
  cases p <;> simp [Changeover.hold_]

theorem Changeover.hold_false_eq (c : Changeover) (p : Port) :
    c.hold_ p false =
      { c with
        muteStation := c.muteStation && p != .station
        muteNetwork := c.muteNetwork && p != .network } := by
  cases p <;> simp [Changeover.hold_]

/-- The same ports hold the mute in two changeover records. -/
def Changeover.sameHolders (c d : Changeover) : Prop := d.muteStation = c.muteStation ∧ d.muteNetwork = c.muteNetwork

theorem Changeover.sameHolders_refl (c : Changeover) : c.sameHolders c := ⟨rfl, rfl⟩

theorem Changeover.sameHolders_stopTimer (c : Changeover) : c.sameHolders c.stopTimer := ⟨rfl, rfl⟩

theorem Changeover.sameHolders_startTimer (c : Changeover) : c.sameHolders c.startTimer := by
  unfold Changeover.startTimer
  split <;> exact ⟨rfl, rfl⟩

/-! ### What the changeover and a software RESET leave of it (R140, R141, R167) -/

theorem State.autoChangeover_sameHolders (s : State) (target : Position) :
    s.chg.sameHolders (s.autoChangeover target).chg := by
  unfold State.autoChangeover
  dsimp only
  split <;> exact ⟨rfl, rfl⟩

theorem State.reevaluate_sameHolders (s : State) : s.chg.sameHolders s.reevaluate.chg := by
  unfold State.reevaluate
  split
  · exact s.chg.sameHolders_refl
  · split
    · exact s.autoChangeover_sameHolders .reserve
    · exact s.chg.sameHolders_stopTimer
    · exact s.autoChangeover_sameHolders .main
    · split
      · exact s.chg.sameHolders_startTimer
      · exact s.chg.sameHolders_refl
    · exact s.chg.sameHolders_stopTimer

theorem State.reform_sameHolders (s before : State) : s.chg.sameHolders (s.reform before).chg := by
  unfold State.reform
  split
  · exact s.chg.sameHolders_refl
  · exact s.reevaluate_sameHolders

@[simp] theorem State.softReset_chg (s : State) (p : Port) : (s.softReset p).chg = s.chg := by
  simp [State.softReset]

/-- On an open port the changeover after a command of no parameters is what the command itself leaves: the frame and the
response touch the port alone. -/
theorem State.onCommand_chg {s : State} {p : Port} (h : s.open_ p) (act : State → State × Option Reply) :
    (s.onCommand p [] true act).chg = (act (s.takes p [])).1.chg := by
  rcases e : act (s.takes p []) with ⟨t, reply⟩
  cases reply with
  | none => rw [State.onCommand_long h (Nat.zero_le _) rfl e]
  | some r => rw [State.onCommand_answered h (Nat.zero_le _) rfl e, State.respond_chg]

/-- A RESET on an open port carries the set over, whether it is refused LOCKED, waits for the other port's slot or
completes at once. -/
theorem exec_reset_sameHolders {s t : State} {p : Port} (h : s.open_ p) (ht : exec (.reset p []) s = .next t) :
    s.chg.sameHolders t.chg := by
  have carried : s.chg.sameHolders (((s.takes p []).softReset p).reform (s.takes p [])).chg := by
    simpa using State.reform_sameHolders ((s.takes p []).softReset p) (s.takes p [])
  cases ht
  rw [List.isEmpty_nil, State.onCommand_chg h]
  dsimp only
  split
  case isTrue locked => simpa [refuse] using s.chg.sameHolders_refl
  case isFalse permitted =>
    split
    case isTrue waits => simpa using carried
    case isFalse completes => exact carried

/-! ### The commands on an open port (R139) -/

theorem exec_mute_open {s : State} {p : Port} (h : s.open_ p) :
    exec (.mute p []) s = .next (((s.takes p []).withChg (s.chg.hold_ p true)).respond p (.ok [])) :=
  congrArg Host.Outcome.next (State.onCommand_answered h (Nat.zero_le _) rfl (by simp [done]))

theorem exec_unmute_open {s : State} {p : Port} (h : s.open_ p) :
    exec (.unmute p []) s = .next (((s.takes p []).withChg (s.chg.hold_ p false)).respond p (.ok [])) :=
  congrArg Host.Outcome.next (State.onCommand_answered h (Nat.zero_le _) rfl (by simp [done]))

theorem exec_unmuteAll_network {s : State} (h : s.open_ .network) :
    exec (.unmuteAll .network []) s =
      .next (((s.takes .network []).withChg { s.chg with muteStation := false, muteNetwork := false }).respond .network
        (.ok [])) :=
  congrArg Host.Outcome.next (State.onCommand_answered h (Nat.zero_le _) rfl (by simp [done]))

theorem exec_unmuteAll_station {s : State} (h : s.open_ .station) :
    exec (.unmuteAll .station []) s = .next (s.answers .station [] (.no .notPermitted)) :=
  congrArg Host.Outcome.next (State.onCommand_answered h (Nat.zero_le _) rfl (by simp [refuse]))

/-- Settles O46: each command's answer on an open port, and the set that a software RESET carries over. -/
theorem muteHolders : Obligations.MuteHolders := by
  unfold Obligations.MuteHolders
  refine fun s => ⟨fun p h => ⟨?mute, ?unmute, ?reset⟩, exec_unmuteAll_network, exec_unmuteAll_station⟩
  case mute => rw [exec_mute_open h, Changeover.hold_true_eq]
  case unmute => rw [exec_unmute_open h, Changeover.hold_false_eq]
  case reset => exact fun t ht => exec_reset_sameHolders h ht

end Sys2Proof.Machine
end

