-- ==== Sys2Proof/Proofs/Moves.lean ====
section
/-! What a step can do to the state, said once: every command and every period is a run of basic updates, each with the
facts under which the model makes it. An invariant that every basic update keeps is then kept by every step. -/

namespace Sys2Proof.Machine

open Sys2Proof

-- One proof after the other: proofs that wait for each other hold a thread each.
set_option Elab.async false

/-! ### The basic updates -/

/-- The part can hold groups: it is in RUN, where nothing stands outside RUN. -/
def State.busy (s : State) : Prop := s.idleOutsideRun = true → s.part = .run

/-- The cells that a place of the group table holds. -/
def State.cellsAt (s : State) (place : Nat) : Nat :=
  match s.record place with
  | some g => g.cells.length
  | none => 0

/-- A CUED break on air, with the lane it holds (R110). -/
def State.airBreak (s : State) (i : Nat) (x : BreakRecord) : State :=
  match (s.brk i).lane with
  | some l => (s.withBreak i x).withLane l { (s.withBreak i x).lane l with state := .onAir }
  | none => s.withBreak i x

/-- A break bound to a FREE lane and CUED (R108, R91). -/
def State.cueBreak (s : State) (i lane : Nat) (x : Time) (y : Option (Time × YSource)) : State :=
  let u := s.claimLane lane i (s.brk i).playList
  u.withBreak i { u.brk i with state := .cued, x := some x, lane := some lane, y := y }

/-- Power-on or the reset pin, with the clip memory it leaves (R173). -/
def State.restarted (s : State) (c : Clip) : State :=
  { State.reset with
    launch := s.launch.powerOn
    clip := c
    lines := s.lines.powerOn
    draws := s.draws + 1
    pending := s.pending }

/-- One basic update of the state. Each hypothesis is a fact under which the model makes the update, and which some
invariant rests on. -/
inductive State.Move : State → State → Prop where
  | raise (s : State) (k : EventKind) (a b : Nat) : State.Move s (s.raise k a b)
  | port (s : State) (p : Port) (q : PortState) (bounds : (s.port p).ok = true → q.ok = true)
      (clip : (s.port p).clipOk = true → q.clipOk = true) : State.Move s (s.withPort p q)
  | tb (s : State) (x : Timebase) (ranges : s.tb.ok = true → x.ok = true) : State.Move s (s.withTb x)
  | feed (s : State) (f : FeedId) (x : Feed) (copy : s.busy ∨ x.openCopy = (s.feed f).openCopy ∨ x.openCopy = none) :
      State.Move s (s.withFeed f x)
  | freeRecord (s : State) (place : Nat) : State.Move s (s.freeRecord place)
  | cells (s : State) (place : Nat) (r : GroupRecord) (free : Nat) (busy : s.busy) (hp : place < s.store.table.length)
      (kept : free + r.cells.length = s.store.freeCells + s.cellsAt place)
      (group : s.numbered = true → r.group < 65536) :
      State.Move s (s.withStore { table := s.store.table.set place (some r), freeCells := free })
  | sel (s : State) (x : Selector) (queue : s.busy ∨ x.queue = s.sel.queue) : State.Move s (s.withSel x)
  | launch (s : State) (x : Launch) (ranges : s.launch.ok = true → x.ok = true)
      (group : s.busy ∨ x.emitting = s.launch.emitting ∧ x.scheduled = s.launch.scheduled) :
      State.Move s (s.withLaunch x)
  | forget (s : State) (x : PartState) : State.Move s (s.forgetGroups.withPart x)
  | enterRun (s : State) : State.Move s (s.withPart .run)
  | arbitrate (s : State) : State.Move s s.arbitrate
  | endService (s : State) : State.Move s s.endService
  | writeSlot (s : State) (q : Port) (slot : Nat) (packet : Packet) (abandoned : Bool)
      (service : s.clip.service = some (.write q slot packet abandoned)) :
      State.Move s (s.withClip (s.clip.writeSlot slot packet))
  | playList (s : State) (i : Nat) (x : List Segment) : State.Move s (s.withPlayList i x)
  | laneRead (s : State) (i slot : Nat) (segments : List Segment) (p : Packet)
      (service : s.clip.service = some (.lane i slot false)) :
      State.Move s (s.endService.withLane i ((s.lane i).readDone segments p))
  | lane (s : State) (i : Nat) (x : Lane) (state : x.state = (s.lane i).state := by rfl)
      (break_ : x.break_ = (s.lane i).break_ := by rfl)
      (queue : x.queue.length ≤ (s.lane i).queue.length := by simp) : State.Move s (s.withLane i x)
  | endBreak (s : State) {i : Nat} (index : i < 32) (cause : EndCause) (at_ : Time) : State.Move s (s.endBreak i cause at_)
  | brk (s : State) (i : Nat) (x : BreakRecord) (state : x.state = (s.brk i).state := by rfl)
      (lane : x.lane = (s.brk i).lane := by rfl) (slot : x.slot = (s.brk i).slot := by rfl) : State.Move s (s.withBreak i x)
  | brkIdle (s : State) (i : Nat) (x : BreakRecord) (before : (s.brk i).live = false) (after : x.live = false)
      (lane : x.lane = (s.brk i).lane ∨ x.lane = none) : State.Move s (s.withBreak i x)
  | cue (s : State) (i lane : Nat) (x : Time) (y : Option (Time × YSource)) (before : (s.brk i).live = false)
      (slot : s.liveBreak (s.brk i).slot = none) (free : s.freeLane = some lane) : State.Move s (s.cueBreak i lane x y)
  | air (s : State) {i : Nat} (index : i < 32) (x : BreakRecord) (before : (s.brk i).state = .cued) (after : x.state = .onAir)
      (lane : x.lane = (s.brk i).lane) (slot : x.slot = (s.brk i).slot) : State.Move s (s.airBreak i x)
  | cueCounts (s : State) (x : Splice) (slots : x.slots = s.splice.slots := by rfl)
      (breaks : x.breaks = s.splice.breaks := by rfl) :
      State.Move s (s.withSplice x)
  | slot (s : State) (i : Nat) (x : Slot) : State.Move s (s.withSlot i x)
  | window (s : State) (i : Nat) (x : Window) : State.Move s (s.withWindow i x)
  | mon (s : State) (x : Monitor) (ranges : s.mon.ok = true → x.ok = true)
      (channels : x.channels.length = s.mon.channels.length) : State.Move s (s.withMon x)
  | chg (s : State) (x : Changeover) (ranges : s.chg.ok = true → x.ok = true) : State.Move s (s.withChg x)
  | lines (s : State) (x : Lines) (records : x.records.length = s.lines.records.length)
      (frozen : s.frozenIsLocked = true → (s.withLines x).frozenIsLocked = true) : State.Move s (s.withLines x)
  | lock (s : State) (x : Bool) : State.Move s (s.withLock x)
  | draw (s : State) : State.Move s s.draw
  | softReset (s : State) (p : Port) : State.Move s (s.softReset p)
  | restart (s : State) (c : Clip) (memory : s.clipSound = true → Memory.wf c.cells = true) (service : c.service = none) :
      State.Move s (s.restarted c)

/-- A run of basic updates. -/
def State.Moves (s t : State) : Prop := Relation.ReflTransGen State.Move s t

theorem State.Moves.refl (s : State) : s.Moves s := Relation.ReflTransGen.refl

theorem State.Moves.tail {s t u : State} (h : s.Moves t) (m : t.Move u) : s.Moves u := Relation.ReflTransGen.tail h m

theorem State.Moves.trans {s t u : State} (h : s.Moves t) (k : t.Moves u) : s.Moves u := Relation.ReflTransGen.trans h k

theorem State.Move.moves {s t : State} (h : s.Move t) : s.Moves t := Relation.ReflTransGen.single h

/-- An invariant that every basic update keeps is kept by a run of them. -/
theorem State.Moves.keeps {P : State → Prop} (hP : ∀ s t : State, s.Move t → P s → P t) {s t : State} (h : s.Moves t)
    (hs : P s) : P t := by
  induction h with
  | refl => exact hs
  | tail _ m ih => exact hP _ _ m ih

theorem State.Moves.foldl_mem {α : Type} {f : State → α → State} (l : List α) (hf : ∀ (s : State), ∀ a ∈ l, s.Moves (f s a))
    (s : State) : s.Moves (l.foldl f s) := by
  induction l generalizing s with
  | nil => exact .refl s
  | cons a l ih => exact (hf s a (by simp)).trans (ih (fun s b hb => hf s b (by simp [hb])) _)

theorem State.Moves.foldl {α : Type} {f : State → α → State} (hf : ∀ (s : State) a, s.Moves (f s a)) (l : List α) (s : State) :
    s.Moves (l.foldl f s) :=
  .foldl_mem l (fun s a _ => hf s a) s

/-- The breaks of the table in ascending index. -/
theorem State.Moves.foldl_breaks {f : State → Nat → State} (hf : ∀ (s : State) {i : Nat}, i < 32 → s.Moves (f s i))
    (s : State) : s.Moves (breakIndices.foldl f s) :=
  .foldl_mem breakIndices (fun s _ hi => hf s (mem_breakIndices.mp hi)) s

/-- A choice between two updates, each made under its side of the condition. -/
theorem State.Moves.ite {s t u : State} {c : Prop} [Decidable c] (yes : c → s.Moves t) (no : ¬c → s.Moves u) :
    s.Moves (if c then t else u) := by
  split
  · exact yes ‹_›
  · exact no ‹_›

/-! ### When the part can hold groups -/

theorem State.busy_of_run {s : State} (h : s.part = .run) : s.busy := fun _ => h

theorem State.busy_of_ne {s : State}
    (h : s.store ≠ .empty ∨ s.sel.queue ≠ [] ∨ s.launch.emitting ≠ none ∨ s.launch.scheduled ≠ none) : s.busy := by
  intro idle
  simp only [State.idleOutsideRun, State.running, Bool.or_eq_true, Bool.and_eq_true, beq_iff_eq, List.isEmpty_iff,
    Option.isNone_iff_eq_none] at idle
  rcases idle with run | ⟨⟨⟨⟨⟨hstore, -⟩, -⟩, hqueue⟩, hemit⟩, hsched⟩
  · exact run
  · simp [hstore, hqueue, hemit, hsched] at h

theorem State.record_empty {s : State} (h : s.store = .empty) (place : Nat) : s.record place = none := by
  simp only [State.record, h, Store.empty, List.getD_eq_getElem?_getD, List.getElem?_replicate]
  split <;> rfl

theorem State.busy_of_record {s : State} {place : Nat} {r : GroupRecord} (h : s.record place = some r) : s.busy :=
  State.busy_of_ne (.inl fun e => by simp [State.record_empty e] at h)

theorem State.busy_of_running {s : State} (h : s.running = true) : s.busy :=
  State.busy_of_run (by simpa [State.running] using h)

/-! ### Group records (R32) -/

theorem State.freeRecords_moves (s : State) (places : List Nat) : s.Moves (s.freeRecords places) :=
  State.Moves.foldl (fun s a => (State.Move.freeRecord s a).moves) places s

theorem State.numbered_group {s : State} {place : Nat} {r : GroupRecord} (h : s.record place = some r)
    (numbered : s.numbered = true) : r.group < 65536 := by
  simp only [State.numbered, List.all_eq_true] at numbered
  have hlt := State.record_lt h
  have hmem : some r ∈ s.store.table := by
    have e : s.store.table[place] = some r := by simpa [State.record, hlt] using h
    exact e ▸ List.getElem_mem hlt
  simpa using numbered _ hmem

/-- A record replaced by one with the same cells and number. -/
theorem State.withRecord_move {s : State} {place : Nat} {r : GroupRecord} (h : s.record place = some r) (r' : GroupRecord)
    (cells : r'.cells = r.cells) (group : r'.group = r.group) : s.Move (s.withRecord place (some r')) :=
  State.Move.cells s place r' s.store.freeCells (State.busy_of_record h) (State.record_lt h)
    (by rw [cells, State.cellsAt, h]) fun numbered => group ▸ State.numbered_group h numbered

end Sys2Proof.Machine
end

