-- ==== Sys2Proof/Proofs/MovesOfOps.lean ====
section
/-! The shared operations of the scheduler, the Splice Engine and the selector as runs of basic updates. -/

namespace Sys2Proof.Machine

open Sys2Proof

-- One proof after the other: proofs that wait for each other hold a thread each.
set_option Elab.async false

/-! ### Lanes (R93) -/

theorem State.settleClipEnd_moves (s : State) (i : Nat) : s.Moves (s.settleClipEnd i) := by
  have ended : s.Moves (s.withLane i { s.lane i with clipEnd := true }) := (State.Move.lane s i _).moves
  unfold State.settleClipEnd
  dsimp only
  split
  · split
    · exact ended.tail (.brk _ _ _)
    · exact ended
  · exact .refl s

/-! ### The scheduler (R68 to R72, R75) -/

/-- A change of the scheduler that moves neither its parameters nor its group. -/
theorem State.withLaunch_move (s : State) (x : Launch) (ranges : s.launch.ok = true → x.ok = true := by exact id)
    (emitting : x.emitting = s.launch.emitting := by rfl) (scheduled : x.scheduled = s.launch.scheduled := by rfl) :
    s.Move (s.withLaunch x) :=
  .launch s x ranges (.inr ⟨emitting, scheduled⟩)

theorem State.dropGroup_moves (s : State) (place : Nat) (why : DropReason) : s.Moves (s.dropGroup place why) := by
  unfold State.dropGroup
  exact (((State.Move.freeRecord s place).moves).tail (State.withLaunch_move _ _)).tail (.raise _ _ _ _)

theorem State.busy_of_queue {s : State} {place : Nat} {rest : List Nat} (h : s.sel.queue = place :: rest) : s.busy :=
  State.busy_of_ne (.inr (.inl (by simp [h])))

theorem State.dropHead_moves (s : State) (why : DropReason) : s.Moves (s.dropHead why) := by
  unfold State.dropHead
  split
  case h_1 => exact .refl s
  case h_2 place rest queue =>
    exact (State.Move.sel s _ (.inl (State.busy_of_queue queue))).moves.trans (State.dropGroup_moves _ _ _)

theorem State.decideHead_moves (q : Time) (fuel : Nat) (s : State) : s.Moves (State.decideHead q fuel s) := by
  induction fuel generalizing s with
  | zero => exact .refl s
  | succ fuel ih =>
    unfold State.decideHead
    split
    case h_1 => exact .refl s
    case h_2 place rest queue =>
      split
      · exact .refl s
      · split
        · exact (s.dropHead_moves _).trans (ih _)
        · exact (State.Move.launch s _ (by exact id) (.inl (State.busy_of_queue queue))).moves

theorem State.headDecision_moves (s : State) : s.Moves s.headDecision := by
  unfold State.headDecision
  split
  · exact State.decideHead_moves _ _ s
  · exact .refl s

theorem State.endGroup_moves (s : State) : s.Moves s.endGroup := by
  unfold State.endGroup
  split
  · exact (State.withLaunch_move s _).moves
  · exact .refl s

theorem State.resumeNulls_moves (s : State) : s.Moves s.resumeNulls := by
  have ended : s.Moves (if s.endGroup.nullEndDue then s.endGroup.withLaunch s.endGroup.launch.endNull else s.endGroup) := by
    split
    · exact s.endGroup_moves.tail (State.withLaunch_move _ _)
    · exact s.endGroup_moves
  unfold State.resumeNulls
  dsimp only
  split
  · exact ended.tail (State.withLaunch_move _ _)
  · exact ended

theorem State.withdrawStart_moves (s : State) : s.Moves s.withdrawStart := by
  unfold State.withdrawStart
  split
  case h_1 => exact .refl s
  case h_2 x scheduled =>
    have busy : s.busy := State.busy_of_ne (.inr (.inr (.inr (by simp [scheduled]))))
    exact (State.Move.launch s _ (by exact id) (.inl busy)).moves.trans (State.resumeNulls_moves _)

theorem State.truncateEmitting_moves (s : State) : s.Moves s.truncateEmitting := by
  unfold State.truncateEmitting
  split
  case h_1 => exact .refl s
  case h_2 x emitting =>
    have busy : s.busy := State.busy_of_ne (.inr (.inr (.inl (by simp [emitting]))))
    exact (State.Move.launch s _ (by exact id) (.inl busy)).moves.trans (State.dropGroup_moves _ _ _)

theorem State.dropScheduled_moves (s : State) : s.Moves s.dropScheduled := by
  unfold State.dropScheduled
  split
  case h_1 => exact .refl s
  case h_2 x scheduled =>
    have busy : s.busy := State.busy_of_ne (.inr (.inr (.inr (by simp [scheduled]))))
    exact (State.Move.launch s _ (by exact id) (.inl busy)).moves.trans (State.dropHead_moves _ _)

theorem State.schedulerStep_moves (s : State) : s.Moves s.schedulerStep := by
  unfold State.schedulerStep
  split
  · exact (((s.truncateEmitting_moves.trans (State.dropScheduled_moves _)).tail
      (State.withLaunch_move _ _)).trans (State.headDecision_moves _))
  · exact .refl s

/-! ### Breaks: ends, offers and triggers (R106, R108, R114) -/

theorem State.offerY_moves (s : State) (i : Nat) (at_ : Time) (source : YSource) : s.Moves (s.offerY i at_ source) :=
  (State.Move.brk s i _ (by simp) (by simp) (by simp)).moves

theorem State.offerWindow_moves (s : State) (w i : Nat) : s.Moves (s.offerWindow w i) := by
  unfold State.offerWindow
  dsimp only
  split
  · exact (s.offerY_moves i _ _).tail (.window _ _ _)
  · exact s.offerY_moves i _ _

theorem State.blockBreak_moves (s : State) (w : Nat) {i : Nat} (hi : i < 32) : s.Moves (s.blockBreak w i) :=
  (State.Move.window s w _).moves.tail (.endBreak _ hi _ _)

theorem State.blockCued_moves (s : State) (w : Nat) {i : Nat} (hi : i < 32) : s.Moves (s.blockCued w i) :=
  s.blockBreak_moves _ hi

theorem BreakRecord.not_live_of_waiting {b : BreakRecord} (h : b.state = .waiting) : b.live = false := by
  simp [BreakRecord.live, h]

/-- A trigger fires for a WAITING break: one of the checks ends it, or it is CUED with a FREE lane (R108). -/
theorem State.fire_moves {s : State} {i : Nat} (hi : i < 32) (waiting : (s.brk i).state = .waiting) (x : Time) (duration : Option Nat) :
    s.Moves (s.fire i x duration) := by
  have idle := BreakRecord.not_live_of_waiting waiting
  unfold State.fire
  dsimp only
  split
  · exact (State.Move.endBreak s hi _ _).moves
  · split
    · exact s.blockBreak_moves _ hi
    · split
      · exact (State.Move.endBreak s hi _ _).moves
      · rename_i notBusy
        have slot : s.liveBreak (s.brk i).slot = none := by simpa using notBusy
        split
        · exact (State.Move.endBreak s hi _ _).moves
        · rename_i lane free
          split
          · exact (State.Move.endBreak s hi _ _).moves
          · exact .ite (fun _ => (State.Move.brk s i _).moves.tail (.endBreak _ hi _ _)) fun _ =>
              (State.Move.cue s i lane x _ idle slot free).moves.tail (.raise _ _ _ _)

theorem BreakRecord.waiting_of_timeDue {b : BreakRecord} {now t : Time} (h : b.timeDue now = some t) :
    b.state = .waiting := by
  unfold BreakRecord.timeDue at h
  split at h
  · assumption
  · cases h

theorem State.fireTime_moves (s : State) {i : Nat} (hi : i < 32) : s.Moves (s.fireTime i) := by
  unfold State.fireTime
  split
  · split
    · exact State.fire_moves hi (BreakRecord.waiting_of_timeDue ‹_›) _ _
    · exact .refl s
  · exact .refl s

theorem State.fireDueTimes_moves (s : State) : s.Moves s.fireDueTimes := State.Moves.foldl_breaks State.fireTime_moves s

theorem State.fireLine_moves (s : State) (line : Nat) (polarity : Polarity) : s.Moves (s.fireLine line polarity) := by
  unfold State.fireLine
  split
  · refine State.Moves.foldl_breaks (fun s i hi => ?_) s
    dsimp only
    split
    case isTrue fires =>
      simp only [Bool.and_eq_true, beq_iff_eq] at fires
      exact State.fire_moves hi fires.1 _ _
    case isFalse => exact .refl s
  · exact .refl s

theorem State.expire_moves (s : State) {i : Nat} (hi : i < 32) : s.Moves (s.expire i) := by
  unfold State.expire
  split
  · exact (State.Move.endBreak s hi _ _).moves
  · exact .refl s

/-! ### Windows (R125, R126, R128) -/

theorem State.windowActs_moves (s : State) (w : Nat) : s.Moves (s.windowActs w) := by
  refine State.Moves.foldl_breaks (fun s i hi => ?_) s
  exact .ite (fun _ => .ite (fun _ => s.blockCued_moves w hi) fun _ =>
    .ite (fun _ => s.offerWindow_moves w i) fun _ => .refl s) fun _ => .refl s

theorem State.windowSetPending_moves (s : State) (w : Nat) : s.Moves (s.windowSetPending w) := by
  refine State.Moves.foldl_breaks (fun s i hi => ?_) s
  exact .ite (fun _ => .ite (fun _ => s.blockCued_moves w hi) fun _ =>
    .ite (fun _ => s.offerWindow_moves w i) fun _ => .refl s) fun _ => .refl s

theorem State.windowActive_moves (s : State) (w : Nat) : s.Moves (s.windowActive w) :=
  (State.Move.raise s _ _ _).moves.trans (State.windowActs_moves _ w)

theorem State.windowFree_moves (s : State) (w detail : Nat) : s.Moves (s.windowFree w detail) :=
  (State.Move.window s w _).moves.tail (.raise _ _ _ _)

theorem State.windowEnd_moves (s : State) (w : Nat) : s.Moves (s.windowEnd w) := by
  unfold State.windowEnd
  split
  · exact s.windowFree_moves w 0
  · exact .refl s

theorem State.windowStart_moves (s : State) (w : Nat) : s.Moves (s.windowStart w) := by
  unfold State.windowStart
  dsimp only
  split
  · exact ((State.Move.window s w _).moves.trans (State.windowActive_moves _ w)).trans (State.windowEnd_moves _ w)
  · exact .refl s

/-! ### Cues (R116 to R119) -/

theorem State.inCue_moves (s : State) {i : Nat} (hi : i < 32) (at_ : Time) : s.Moves (s.inCue i at_) := by
  unfold State.inCue
  dsimp only
  split
  · split
    · exact (s.offerY_moves i at_ _).tail (.endBreak _ hi _ _)
    · exact s.offerY_moves i at_ _
  · exact s.offerY_moves i at_ _

theorem State.cancelBreak_moves (s : State) {i : Nat} (hi : i < 32) : s.Moves (s.cancelBreak i) := by
  unfold State.cancelBreak
  split
  · exact s.offerY_moves i _ _
  · exact (State.Move.endBreak s hi _ _).moves

/-- A cue that applies to the break's state acts on it. -/
theorem State.cueActs_moves {s : State} {c : Cue} {i : Nat} (hi : i < 32) (applies : c.kind.applies (s.brk i).state = true) (at_ : Time) :
    s.Moves (s.cueActs c at_ i) := by
  unfold State.cueActs
  split
  case h_1 kind => exact State.fire_moves hi (by simpa [CueKind.applies, kind] using applies) _ _
  case h_2 => exact s.inCue_moves hi at_
  case h_3 => exact s.cancelBreak_moves hi

/-- The breaks that a cue finds, in ascending index: whether one was hit is kept beside the state. -/
theorem State.cueFold_moves (c : Cue) (at_ : Time) (l : List Nat) (hl : ∀ i ∈ l, i < 32) (acc : State × Bool) :
    acc.1.Moves
      (l.foldl
        (fun (acc : State × Bool) i =>
          let b := acc.1.brk i
          if b.trigger == .cue c.number && c.kind.applies b.state then (acc.1.cueActs c at_ i, true) else acc)
        acc).1 := by
  induction l generalizing acc with
  | nil => exact .refl _
  | cons i l ih =>
    rw [List.foldl_cons]
    refine State.Moves.trans ?_ (ih (fun j hj => hl j (by simp [hj])) _)
    dsimp only
    split
    case isTrue hit =>
      simp only [Bool.and_eq_true] at hit
      exact State.cueActs_moves (hl i (by simp)) hit.2 at_
    case isFalse => exact .refl _

theorem State.handCue_moves (s : State) (c : Cue) (index : Nat) (launched : Launched) :
    s.Moves (s.handCue c index launched) := by
  unfold State.handCue
  split
  · exact (State.Move.cueCounts s _).moves
  · have acted := State.cueFold_moves c ‹_› breakIndices (fun _ => mem_breakIndices.mp) (s, false)
    dsimp only at acted ⊢
    generalize List.foldl _ (s, false) breakIndices = found at acted ⊢
    split
    · exact acted.tail (.cueCounts _ _)
    · exact acted.tail (.cueCounts _ _)

/-! ### Splice-out, return and substitution (R110 to R115) -/

theorem State.goOnAir_eq (s : State) (i : Nat) (start : Time) :
    s.goOnAir i start =
      windowIndices.foldl
        (fun t w =>
          if (t.window w).standing && (t.window w).covers (s.brk i).slot && later (t.window w).stop start then
            t.offerWindow w i
          else t)
        ((s.airBreak i ({ s.brk i with state := .onAir, aired := true, outTick := some start }.offerY
          (tadd start ((s.slot (s.brk i).slot).guard * ticksPerSecond)) .guard)).raise .breakOnAir i (s.brk i).slot) := by
  unfold State.goOnAir State.airBreak
  cases lane : (s.brk i).lane <;> simp only [lane]

theorem State.goOnAir_moves {s : State} {i : Nat} (hi : i < 32) (cued : (s.brk i).state = .cued) (start : Time) :
    s.Moves (s.goOnAir i start) := by
  rw [State.goOnAir_eq]
  refine State.Moves.trans ((State.Move.air s hi _ cued ?_ ?_ ?_).moves.tail (.raise _ _ _ _))
    (State.Moves.foldl (fun t w => .ite (fun _ => t.offerWindow_moves w i) fun _ => .refl t) _ _) <;> simp

theorem State.spliceOutTest_moves (start : Time) (s : State) {i : Nat} (hi : i < 32) : s.Moves (s.spliceOutTest start i) := by
  unfold State.spliceOutTest
  dsimp only
  split
  · rename_i cued _
    split
    · split
      · split
        · exact (State.Move.endBreak s hi _ _).moves
        · exact State.goOnAir_moves hi cued start
      · exact State.goOnAir_moves hi cued start
    · exact .refl s
  · exact .refl s

theorem State.returnTest_moves (start : Time) (s : State) {i : Nat} (hi : i < 32) : s.Moves (s.returnTest start i) := by
  unfold State.returnTest
  dsimp only
  split
  · split
    · exact (State.Move.endBreak s hi _ _).moves
    · exact .refl s
  · exact .refl s

theorem State.takePacket_moves (s : State) (lane : Nat) : s.Moves (s.takePacket lane) :=
  (State.Move.lane s lane _).moves.trans (State.settleClipEnd_moves _ lane)

theorem State.removeUnmapped_moves (slot : Slot) (lane brk : Nat) (queue : List Packet) (s : State) :
    s.Moves (State.removeUnmapped slot lane brk queue s).1 := by
  induction queue generalizing s with
  | nil => exact .refl s
  | cons p rest ih =>
    unfold State.removeUnmapped
    dsimp only
    split
    · exact s.takePacket_moves lane
    · exact ((s.takePacket_moves lane).tail (.brk _ _ _)).trans (ih _)

theorem rebaseStamp_frame (observation : Observation) (start : Time) (b : BreakRecord) (p : Packet) :
    (rebaseStamp observation start b p).2.state = b.state ∧ (rebaseStamp observation start b p).2.lane = b.lane ∧
      (rebaseStamp observation start b p).2.slot = b.slot := by
  unfold rebaseStamp
  repeat' split
  all_goals exact ⟨rfl, rfl, rfl⟩

theorem State.substitute_moves (s : State) (slot brk : Nat) (start : Time) (p : Packet) (e : Nat) :
    s.Moves (s.substitute slot brk start p e).1 := by
  unfold State.substitute
  dsimp only
  refine (State.Move.brk s brk _ ?_ ?_ ?_).moves
  all_goals
    split
    · simp [rebaseStamp_frame]
    · rfl

theorem State.substitutionStep_moves (s : State) (slot : Nat) {brk : Nat} (hi : brk < 32) (start : Time) :
    s.Moves (s.substitutionStep slot brk start).1 := by
  unfold State.substitutionStep
  split
  · exact .refl s
  · rename_i lane _
    have removed := (State.removeUnmapped_moves (s.slot slot) lane brk (s.lane lane).queue s).tail (.arbitrate _)
    dsimp only
    split
    · exact removed.trans (State.substitute_moves _ slot brk start _ _)
    · split
      · exact removed.tail (.brk _ _ _)
      · split
        · exact removed.tail (.brk _ _ _)
        · exact (removed.trans (State.offerY_moves _ brk start _)).trans (State.returnTest_moves start _ hi)

theorem State.splicePacket_moves (s : State) (start : Time) (p : Packet) : s.Moves (s.splicePacket start p).1 := by
  have tested : s.Moves (breakIndices.foldl (State.returnTest start) (breakIndices.foldl (State.spliceOutTest start) s)) :=
    (State.Moves.foldl_breaks (State.spliceOutTest_moves start) s).trans (State.Moves.foldl_breaks (State.returnTest_moves start) _)
  unfold State.splicePacket
  dsimp only
  generalize breakIndices.foldl (State.returnTest start) _ = u at tested ⊢
  split
  · exact tested
  · split
    · exact tested
    · exact tested.trans (State.substitutionStep_moves _ _ (mem_breakIndices.mp (List.mem_of_find?_eq_some ‹_›)) _)

theorem State.observe_moves (s : State) (start : Time) (p : Packet) (network : Bool) :
    s.Moves (s.observe start p network) := by
  unfold State.observe
  split
  · exact .refl s
  · exact (State.Move.slot s _ _).moves

/-! ### The selector (R42 to R49) -/

/-- A change of the selector that leaves its queue. -/
theorem State.withSel_move (s : State) (x : Selector) (queue : x.queue = s.sel.queue := by simp) :
    s.Move (s.withSel x) :=
  .sel s x (.inr queue)

theorem State.disposeOther_moves (s : State) (f : FeedId) (n : Nat) : s.Moves (s.disposeOther f n) := by
  unfold State.disposeOther
  split
  · exact .refl s
  · exact (State.Move.freeRecord s _).moves.tail (State.withSel_move _ _)

theorem State.switchFeed_moves (s : State) (f : FeedId) : s.Moves (s.switchFeed f) := by
  unfold State.switchFeed
  split
  · exact .refl s
  · exact (State.withSel_move s _).moves.tail (.raise _ _ _ _)

theorem State.readCue_moves (launched : Launched) (s : State) (x : Packet × Nat) : s.Moves (s.readCue launched x) := by
  unfold State.readCue
  split
  · split
    · exact (State.withSel_move s _).moves.trans (State.handCue_moves _ _ _ _)
    · exact (State.withSel_move s _).moves
  · exact .refl s

theorem State.readCues_moves (s : State) (r : GroupRecord) : s.Moves (s.readCues r) :=
  State.Moves.foldl (State.readCue_moves r.launched) _ s

theorem State.admitCopy_moves {s : State} {place : Nat} {r : GroupRecord} (h : s.record place = some r) (cond : AdmitCond)
    (e : Nat) : s.Moves (s.admitCopy cond e place r) := by
  have queued := (State.withRecord_move h { r with phase := .queued } rfl rfl).moves
  have busy : (s.withRecord place (some { r with phase := .queued })).busy :=
    State.busy_of_record (State.record_withRecord _ (State.record_lt h))
  unfold State.admitCopy
  exact (((((queued.tail (.sel _ _ (.inl busy))).trans (State.disposeOther_moves _ _ _)).trans
    (State.switchFeed_moves _ _)).trans (State.readCues_moves _ _)).tail (State.withSel_move _ _)).trans
    (State.headDecision_moves _)

theorem State.freeOutOfReach_moves (s : State) (place : Nat) : s.Moves (s.freeOutOfReach place) :=
  (State.Move.freeRecord s place).moves.tail (State.withSel_move _ _)

theorem State.skip_moves (s : State) (e : Nat) : s.Moves (s.skip e) := by
  have freed := State.Moves.foldl State.freeOutOfReach_moves (s.outOfReach e) s
  unfold State.skip
  dsimp only
  split
  · exact freed
  · exact (freed.tail (State.withSel_move _ _)).tail (.raise _ _ _ _)

/-- The better copy of a number is a record of the table. -/
theorem State.bestCopy_record {s : State} {e place : Nat} {r : GroupRecord} (h : s.bestCopy e = some (place, r)) :
    s.record place = some r := by
  have closed : ∀ f x, s.closedCopy f e = some x → s.record x.1 = some x.2 := by
    intro f x hx
    unfold State.closedCopy at hx
    split at hx
    · rename_i held
      split at hx
      · cases hx
        exact (State.heldCopy_spec held).2.1
      · cases hx
    · cases hx
  unfold State.bestCopy at h
  split at h
  · rename_i first second
    split at h
    · cases h; exact closed _ _ second
    · cases h; exact closed _ _ first
  · rename_i first _
    cases h; exact closed _ _ first
  · exact closed _ _ h

theorem State.selectorTests_moves (fuel : Nat) (s : State) : s.Moves (State.selectorTests fuel s) := by
  induction fuel generalizing s with
  | zero => exact .refl s
  | succ fuel ih =>
    unfold State.selectorTests
    split
    · exact .refl s
    · split
      · exact (State.admitCopy_moves (State.bestCopy_record ‹_›) _ _).trans (ih _)
      · split
        · exact (s.skip_moves _).trans (ih _)
        · exact .refl s

theorem State.testSelector_moves (s : State) : s.Moves s.testSelector := by
  unfold State.testSelector
  split
  · exact State.selectorTests_moves _ s
  · exact .refl s

end Sys2Proof.Machine
end

