-- ==== Sys2Proof/Proofs/MovesOfFeeds.lean ====
section
/-! The operations of the feeds, of the timebase and of the monitor as runs of basic updates. -/

namespace Sys2Proof.Machine

open Sys2Proof

-- One proof after the other: proofs that wait for each other hold a thread each.
set_option Elab.async false

/-! ### Copies (R28 to R32) -/

/-- A change of a feed that leaves its open copy. -/
theorem State.withFeed_move (s : State) (f : FeedId) (x : Feed) (copy : x.openCopy = (s.feed f).openCopy := by rfl) :
    s.Move (s.withFeed f x) :=
  .feed s f x (.inr (.inl copy))

theorem State.count_move (s : State) (f : FeedId) (g : FeedCounters → FeedCounters) : s.Move (s.count f g) :=
  State.withFeed_move s f _

theorem State.shutCopy_moves (s : State) (f : FeedId) : s.Moves (s.shutCopy f) := by
  unfold State.shutCopy
  split
  · exact .refl s
  · split
    · exact .refl s
    · rename_i place _ r record
      have closed := (State.withRecord_move record
        { r with phase := if r.arrivals == r.declared && r.stored == r.arrivals then .complete else .short } rfl rfl).moves
      exact (closed.tail (.feed _ f _ (.inr (.inr (by rfl))))).tail (State.count_move _ _ _)

theorem State.closeCopy_moves (s : State) (f : FeedId) : s.Moves (s.closeCopy f) := by
  unfold State.closeCopy
  split
  · exact .refl s
  · split
    · exact .refl s
    · exact (s.shutCopy_moves f).trans (State.testSelector_moves _)

theorem State.closeIfFull_moves (s : State) (f : FeedId) : s.Moves (s.closeIfFull f) := by
  unfold State.closeIfFull
  split
  · exact .refl s
  · split
    · exact .refl s
    · exact .ite (fun _ => s.closeCopy_moves f) fun _ => .refl s

theorem Store.freePlace_spec {st : Store} {place : Nat} (h : st.freePlace = some place) :
    place < st.table.length ∧ st.table.getD place none = none := by
  obtain ⟨hlt, hnone, -⟩ := List.findIdx?_eq_some_iff_getElem.mp h
  exact ⟨hlt, by simpa [hlt] using hnone⟩

/-- A copy opened at a free place takes one cell (R28). -/
theorem State.openCopy_moves {s : State} {p : Pacing} {place : Nat} (run : s.part = .run) (group : p.group < 65536)
    (free : s.store.freePlace = some place) (cell : s.store.freeCells ≠ 0) (f : FeedId) (packet : Packet) :
    s.Moves (s.openCopy f packet p place) := by
  obtain ⟨hlt, hnone⟩ := Store.freePlace_spec free
  have record : s.record place = none := hnone
  have empty : s.cellsAt place = 0 := by simp [State.cellsAt, record]
  have busy := State.busy_of_run run
  have expects : ∀ u : State, s.Moves u →
      s.Moves (match u.sel.expected with
        | some _ => u
        | none => u.withSel { u.sel with expected := some p.group }) := by
    intro u moves
    split
    · exact moves
    · exact moves.tail (State.withSel_move _ _)
  unfold State.openCopy
  exact expects _ (((State.Move.cells s place _ (s.store.freeCells - 1) busy hlt
    (by simp only [List.length_singleton]; omega) fun _ => by exact group).moves.tail
      (.feed _ f _ (.inl (State.busy_of_run (by exact run))))).tail (State.count_move _ f _))

theorem State.pacingOpen_moves {s : State} {p : Pacing} (run : s.part = .run) (group : p.group < 65536) (f : FeedId)
    (packet : Packet) : s.Moves (s.pacingOpen f packet p) := by
  unfold State.pacingOpen
  refine .ite (fun _ => (State.count_move s _ _).moves) fun _ => .ite (fun _ => (State.count_move s _ _).moves) fun _ => ?_
  have opens : ∀ u : State, s.Moves u → u.part = .run →
      s.Moves (match u.store.freePlace with
        | none => u.count f fun c => { c with tableFull := bump c.tableFull }
        | some place =>
          if u.store.freeCells = 0 then u.count f fun c => { c with overrun := bump c.overrun }
          else u.openCopy f packet p place) := by
    intro u moves run
    split
    · exact moves.tail (State.count_move _ _ _)
    · exact moves.trans (.ite (fun _ => (State.count_move _ _ _).moves) fun cell =>
        State.openCopy_moves run group ‹_› cell f packet)
  refine (opens _ ?_ ?_).trans (State.testSelector_moves _)
  · split
    · exact (State.Move.freeRecord s _).moves
    · exact .refl s
  · split
    · simp [run]
    · exact run

/-! ### The arrival of a pacing packet (R27, R48, R49) -/

theorem State.sequenceRestart_moves (s : State) (f : FeedId) (n : Nat) : s.Moves (s.sequenceRestart f n) := by
  have freed := (s.freeRecords_moves ((s.store.records.filter fun (_, r) => r.held).map (·.1))).trans
    ((State.freeRecords_moves _ s.sel.queue).trans (State.withdrawStart_moves _))
  have queue : ∀ t u : State, t.sel = s.sel → t.Moves u → u.sel.queue = s.sel.queue →
      u.Moves (u.withSel { u.sel with
        queue := [], expected := some n, lastAdmitted := none
        counters := { u.sel.counters with restarts := bump u.sel.counters.restarts } }) := by
    intro t u _ _ hq
    cases hs : u.sel.queue with
    | nil => exact (State.withSel_move _ _ (by simp [hs])).moves
    | cons place rest => exact (State.Move.sel _ _ (.inl (State.busy_of_queue hs))).moves
  unfold State.sequenceRestart
  simp only [State.freeRecords_frame]
  exact ((((freed.trans (queue s _ rfl freed (by simp))).tail (State.withFeed_move _ .a _)).tail
    (State.withFeed_move _ .b _)).tail (.raise _ _ _ _))

theorem State.passStale_moves (s : State) (f : FeedId) : s.Moves (s.passStale f) := by
  have cleared := (State.withFeed_move s f { s.feed f with staleRun := 0 }).moves
  unfold State.passStale
  exact .ite (fun _ => cleared.tail (State.withFeed_move _ _ _)) fun _ => cleared

theorem State.pacingArrival_moves {s : State} {p : Pacing} (run : s.part = .run) (group : p.group < 65536) (f : FeedId)
    (packet : Packet) : s.Moves (s.pacingArrival f packet p) := by
  have closed := s.closeCopy_moves f
  unfold State.pacingArrival
  dsimp only
  refine .ite (fun _ => ?_) fun _ => ?_
  · have stale := closed.tail (State.withFeed_move _ f ((s.closeCopy f).feed f).staleArrival)
    refine .ite (fun _ => ?_) fun _ => stale.tail (State.count_move _ _ _)
    exact (stale.trans (State.sequenceRestart_moves _ f _)).trans (State.pacingOpen_moves (by simp [run]) group f packet)
  · exact (closed.trans (State.passStale_moves _ f)).trans (State.pacingOpen_moves (by simp [run]) group f packet)

/-! ### The other arrivals (R26, R29, R31) -/

theorem State.fillCopy_moves {s : State} {place : Nat} {r : GroupRecord} (record : s.record place = some r) (f : FeedId)
    (packet : Packet) : s.Moves (s.fillCopy f packet place r) := by
  unfold State.fillCopy
  dsimp only
  refine .ite (fun _ => ?_) fun cell => ?_
  · have counted := (State.withRecord_move record { r with arrivals := r.arrivals + 1, overrun := true } rfl rfl).moves.tail
      (State.count_move _ f fun c => { c with overrun := bump c.overrun })
    refine State.Moves.trans ?_ (State.closeIfFull_moves _ f)
    exact .ite (fun _ => counted) fun _ => counted.tail (.raise _ _ _ _)
  · refine State.Moves.trans ?_ (State.closeIfFull_moves _ f)
    have held : s.cellsAt place = r.cells.length := by simp [State.cellsAt, record]
    have stored := (State.Move.cells s place
      { r with
        arrivals := r.arrivals + 1, stored := r.stored + 1, cells := r.cells ++ [packet]
        errored := if transportError packet then r.errored + 1 else r.errored }
      (s.store.freeCells - 1) (State.busy_of_record record) (State.record_lt record)
      (by simp only [List.length_append, List.length_singleton]; omega) fun h => State.numbered_group (r := r) record h).moves
    exact .ite (fun _ => stored.tail (State.count_move _ _ _)) fun _ => stored

theorem State.plainArrival_moves (s : State) (f : FeedId) (packet : Packet) : s.Moves (s.plainArrival f packet) := by
  unfold State.plainArrival
  split
  · exact (State.count_move s _ _).moves
  · split
    · exact .refl s
    · exact State.fillCopy_moves ‹_› f packet

theorem State.invalidPacing_moves (s : State) (f : FeedId) : s.Moves (s.invalidPacing f) := by
  have counted := (State.count_move s f fun c => { c with pacingInvalid := bump c.pacingInvalid }).moves
  unfold State.invalidPacing
  dsimp only
  split
  · exact counted
  · split
    · exact counted
    · exact (counted.tail (State.withRecord_move ‹_› _ (by rfl) (by rfl))).trans (State.closeIfFull_moves _ f)

theorem pacingOf_group_lt {packet : Packet} {p : Pacing} (h : pacingOf packet = some p) : p.group < 65536 := by
  unfold pacingOf at h
  dsimp only at h
  split at h
  · cases h
    exact field_lt _ 1 2
  · cases h

theorem State.arrival_moves (s : State) (f : FeedId) (packet : Packet) : s.Moves (s.arrival f packet) := by
  have counted := (State.count_move s f fun c => { c with accepted := bump c.accepted }).moves
  unfold State.arrival
  dsimp only
  split
  · rename_i running
    refine counted.trans (.ite (fun _ => ?_) fun _ => State.plainArrival_moves _ f packet)
    split
    · exact State.pacingArrival_moves (by simpa [State.running] using running) (pacingOf_group_lt ‹_›) f packet
    · exact State.invalidPacing_moves _ f
  · exact counted

/-! ### Framing (R20 to R24) -/

theorem State.syncLoss_moves (s : State) (f : FeedId) (cause : SyncLoss) : s.Moves (s.syncLoss f cause) :=
  ((((State.withFeed_move s f (s.feed f).toSearch).moves.tail (State.count_move _ _ _)).tail (.raise _ _ _ _)).trans
    (State.shutCopy_moves _ f)).trans (State.testSelector_moves _)

theorem State.searchByte_moves (s : State) (f : FeedId) (b : Byte) : s.Moves (s.searchByte f b) :=
  .ite (fun _ => (State.withFeed_move s f _).moves) fun _ => .refl s

theorem State.verifyByte_moves (s : State) (f : FeedId) (b : Byte) : s.Moves (s.verifyByte f b) := by
  unfold State.verifyByte
  exact .ite
    (fun _ => .ite (fun _ => (State.withFeed_move s f _).moves) fun _ =>
      ((State.withFeed_move s f _).moves.tail (.raise _ _ _ _)).trans (State.testSelector_moves _))
    fun _ => (State.withFeed_move s f (s.feed f).toSearch).moves

theorem State.badSyncByte_moves (s : State) (f : FeedId) : s.Moves (s.badSyncByte f) := by
  have counted := (State.count_move s f fun c => { c with badSync := bump c.badSync }).moves
  unfold State.badSyncByte
  exact .ite (fun _ => counted.tail (State.withFeed_move _ _ _)) fun _ => counted.trans (State.syncLoss_moves _ f _)

theorem State.lockedSync_moves (s : State) (f : FeedId) (b : Byte) : s.Moves (s.lockedSync f b) :=
  .ite (fun _ => (State.withFeed_move s f _).moves) fun _ => s.badSyncByte_moves f

theorem State.lockedLast_moves (s : State) (f : FeedId) (b : Byte) : s.Moves (s.lockedLast f b) := by
  have ended := (State.withFeed_move s f { s.feed f with pos := 0, accepting := false, buffer := [] }).moves
  unfold State.lockedLast
  exact .ite (fun _ => ended.trans (State.arrival_moves _ f _)) fun _ => ended

theorem State.innerByte_moves (s : State) (f : FeedId) (b : Byte) : s.Moves (s.innerByte f b) :=
  (State.withFeed_move s f _).moves

theorem State.takeByte_moves (s : State) (f : FeedId) (b : Byte) : s.Moves (s.takeByte f b) := by
  have heard : s.Moves (s.byteHeard f) := (State.withFeed_move s f _).moves
  unfold State.takeByte
  dsimp only
  refine heard.trans ?_
  split
  · exact State.searchByte_moves _ f b
  · exact .ite (fun _ => State.verifyByte_moves _ f b) fun _ => State.innerByte_moves _ f b
  · exact .ite (fun _ => State.lockedSync_moves _ f b) fun _ =>
      .ite (fun _ => State.lockedLast_moves _ f b) fun _ => State.innerByte_moves _ f b

/-! ### The timebase (R1 to R12, R75) -/

/-- Something that site time has reached names a break of the table, where it names one. -/
def Instantly.inTable : Instantly → Prop
  | .expiry i => i < 32
  | .time i => i < 32
  | _ => True

theorem State.actInstantly_moves (s : State) {x : Instantly} (h : x.inTable) : s.Moves (s.actInstantly x) := by
  cases x with
  | selector => exact s.testSelector_moves
  | windowStart w => exact s.windowStart_moves w
  | windowEnd w => exact s.windowEnd_moves w
  | expiry i => exact s.expire_moves h
  | time i => exact s.fireTime_moves h

theorem mem_insertByRank {α : Type} {draw : Nat} {kind : α → Nat} {a x : α} {l : List α}
    (h : x ∈ insertByRank draw kind a l) : x = a ∨ x ∈ l := by
  induction l with
  | nil => simpa [insertByRank] using h
  | cons b l ih =>
    unfold insertByRank at h
    split at h
    · simpa using h
    · rcases List.mem_cons.mp h with rfl | h
      · exact .inr (by simp)
      · exact (ih h).imp id fun h => by simp [h]

/-- A free order has no things but those of the list. -/
theorem mem_freeOrder {α : Type} {draw : Nat} {kind : α → Nat} {x : α} {l : List α} (h : x ∈ freeOrder draw kind l) :
    x ∈ l := by
  induction l with
  | nil => exact h
  | cons a l ih =>
    rcases mem_insertByRank h with rfl | h
    · simp
    · simp [ih h]

theorem State.reachedNow_inTable {s : State} {x : Instantly} (h : x ∈ s.reachedNow) : x.inTable := by
  cases x with
  | selector => trivial
  | windowStart w => trivial
  | windowEnd w => trivial
  | expiry i =>
    simp only [State.reachedNow, List.mem_append, List.mem_map, List.mem_filter, List.mem_ite_nil_right,
      List.mem_singleton] at h
    simp only [reduceCtorEq, and_false, exists_false, or_false, false_or, Instantly.expiry.injEq] at h
    obtain ⟨j, ⟨hj, -⟩, rfl⟩ := h
    exact mem_breakIndices.mp hj
  | time i =>
    simp only [State.reachedNow, List.mem_append, List.mem_map, List.mem_filter, List.mem_ite_nil_right,
      List.mem_singleton] at h
    simp only [reduceCtorEq, and_false, exists_false, or_false, false_or, Instantly.time.injEq] at h
    obtain ⟨-, j, ⟨hj, -⟩, rfl⟩ := h
    exact mem_breakIndices.mp hj

theorem State.jump_moves (s : State) : s.Moves s.jump :=
  (s.schedulerStep_moves.trans (State.Moves.foldl_mem _
    (fun t _ hx => t.actInstantly_moves (State.reachedNow_inTable (mem_freeOrder hx))) _)).tail (.draw _)

theorem State.changeTb_moves {s : State} {tb : Timebase} (ranges : s.tb.ok = true → tb.ok = true)
    (label : Option (Nat × Nat)) : s.Moves (s.changeTb tb label) := by
  have changed := (State.Move.tb s tb ranges).moves
  have labelled : s.Moves
      (match label with | some (v, base) => (s.withTb tb).raise .labelApplied v base | none => s.withTb tb) := by
    split
    · exact changed.tail (.raise _ _ _ _)
    · exact changed
  unfold State.changeTb
  dsimp only
  refine .ite (fun _ => ?_) fun _ => State.Moves.tail ?_ (.raise _ _ _ _)
  all_goals exact .ite (fun _ => labelled) fun _ => labelled.tail (.raise _ _ _ _)

theorem Launch.takeAdvance_ok {l : Launch} (h : l.ok = true) : l.takeAdvance.ok = true := by
  unfold Launch.takeAdvance
  split
  · rename_i pending
    simp only [Launch.ok, pending, Bool.and_eq_true, decide_eq_true_eq] at h ⊢
    simp_all
  · exact h

theorem State.secondMark_moves {s : State} {tb : Timebase} {base : Nat}
    (ranges : s.tb.ok = true → (tb.mark base).ok = true) (step : Bool) : s.Moves (s.secondMark tb base step) := by
  have kept : ∀ l : Launch, l.takeAdvance.emitting = l.emitting ∧ l.takeAdvance.scheduled = l.scheduled := by
    intro l; simp [Launch.takeAdvance_eq]
  have marked := ((State.changeTb_moves ranges (tb.pendingLabel.map fun v => (v, base))).tail
    (State.withLaunch_move _ _ Launch.takeAdvance_ok (kept _).1 (kept _).2)).tail
    (State.Move.lines _ { (s.changeTb (tb.mark base) (tb.pendingLabel.map fun v => (v, base))).lines with blink := .high }
      rfl (by exact id))
  unfold State.secondMark
  exact .ite (fun _ => marked.trans (State.jump_moves _)) fun _ => marked

/-- The ranges of site time, spelled out. -/
theorem Timebase.ok_iff (tb : Timebase) :
    tb.ok = true ↔
      (tb.tick < 10000000 ∧ tb.second < 4294967296) ∧ (-16 ≤ tb.correction ∧ tb.correction ≤ 16) ∧
      (∀ v, tb.pendingLabel = some v → v < 4294967296) ∧ (tb.good ≤ 4 ∧ tb.stray ≤ 3 ∧ tb.missed ≤ 3) ∧
      1 ≤ tb.holdoverLimit ∧ tb.holdoverLimit ≤ 86400 := by
  simp only [Timebase.ok, Bool.and_eq_true, decide_eq_true_eq]
  cases tb.pendingLabel <;> simp only [decide_eq_true_eq] <;> simp [ticksPerSecond, secondModulus] <;> tauto

theorem Timebase.mark_ok {tb : Timebase} {base : Nat} (h : tb.ok = true) (second : base < 4294967296) :
    (tb.mark base).ok = true := by
  obtain ⟨-, -, label, counts, limit⟩ := (Timebase.ok_iff tb).mp h
  have hsecond : tb.pendingLabel.getD base < 4294967296 := by
    cases pending : tb.pendingLabel with
    | none => exact second
    | some v => exact label v pending
  unfold Timebase.mark
  dsimp only
  split <;> exact (Timebase.ok_iff _).mpr ⟨⟨by simp, hsecond⟩, by simp, by simp, counts, limit⟩

theorem Timebase.nextSecond_lt (tb : Timebase) : tb.nextSecond < 4294967296 := Nat.mod_lt _ (by decide)

theorem Timebase.discipline_ok {tb : Timebase} (h : tb.ok = true) (e : Int) : (tb.discipline_ e).1.ok = true := by
  obtain ⟨time, correction, label, ⟨good, stray, missed⟩, limit⟩ := (Timebase.ok_iff tb).mp h
  have counts : ∀ (d : Discipline) (g r m : Nat), g ≤ 4 → r ≤ 3 → m ≤ 3 →
      ({ tb with discipline := d, good := g, stray := r, missed := m } : Timebase).ok = true :=
    fun d g r m hg hr hm => (Timebase.ok_iff _).mpr ⟨time, correction, label, ⟨hg, hr, hm⟩, limit⟩
  unfold Timebase.discipline_
  dsimp only
  split
  case h_1 => exact counts _ _ _ _ (by omega) (by omega) (by omega)
  case h_2 => exact counts _ _ _ _ (by omega) (by omega) (by omega)
  case h_3 acquiring =>
    split
    · generalize (if e.natAbs ≤ 16 then tb.good + 1 else 0) = n
      split
      · exact counts _ _ _ _ (by omega) (by omega) (by omega)
      · exact counts tb.discipline _ _ _ (by omega) stray missed
    · exact counts tb.discipline _ _ _ (by omega) stray missed
  case h_4 locked =>
    split
    · exact counts tb.discipline tb.good _ _ good (by omega) (by omega)
    · split
      · exact counts _ _ _ _ (by omega) (by omega) (by omega)
      · exact counts tb.discipline tb.good _ tb.missed good (by omega) missed
  case h_5 holdover =>
    split
    · exact counts _ tb.good _ _ good (by omega) (by omega)
    · split
      · exact counts _ _ _ _ (by omega) (by omega) (by omega)
      · exact counts tb.discipline tb.good _ tb.missed good (by omega) missed

theorem clampSlew_range (e : Int) : -16 ≤ clampSlew e ∧ clampSlew e ≤ 16 := by
  unfold clampSlew
  omega

theorem Timebase.withCorrection_ok {tb : Timebase} (h : tb.ok = true) {c : Int} (low : -16 ≤ c) (high : c ≤ 16) :
    ({ tb with correction := c } : Timebase).ok = true := by
  obtain ⟨time, -, rest⟩ := (Timebase.ok_iff tb).mp h
  exact (Timebase.ok_iff _).mpr ⟨time, ⟨low, high⟩, rest⟩

theorem State.pulse_moves (s : State) : s.Moves s.pulse := by
  unfold State.pulse
  dsimp only
  generalize pulseError s.tb.tick = e
  have ok : s.tb.ok = true → (Timebase.discipline_
      { s.tb with lastError := some e, watch := s.tb.watch || decide (e.natAbs ≤ 1000) } e).1.ok = true :=
    fun h => Timebase.discipline_ok (by exact h) e
  generalize Timebase.discipline_ _ e = r at ok ⊢
  obtain ⟨tb, action⟩ := r
  have second : s.tb.ok = true → tb.second < 4294967296 := fun h => ((Timebase.ok_iff tb).mp (ok h)).1.2
  cases action with
  | none => exact State.changeTb_moves ok none
  | slew =>
    refine .ite (fun _ => ?_) fun _ => ?_
    · exact State.secondMark_moves (fun h => Timebase.mark_ok (by exact ok h) tb.nextSecond_lt) false
    · exact State.changeTb_moves (fun h => Timebase.withCorrection_ok (ok h) (clampSlew_range e).1 (clampSlew_range e).2) none
  | step =>
    refine State.secondMark_moves (fun h => Timebase.mark_ok (by exact ok h) ?_) true
    split
    · exact second h
    · exact tb.nextSecond_lt

theorem Timebase.miss_ok {tb : Timebase} (h : tb.ok = true) : tb.miss.ok = true := by
  obtain ⟨time, correction, label, ⟨good, stray, missed⟩, limit⟩ := (Timebase.ok_iff tb).mp h
  unfold Timebase.miss
  split
  · exact (Timebase.ok_iff _).mpr ⟨time, correction, label, ⟨by simp, stray, missed⟩, limit⟩
  · split
    · exact (Timebase.ok_iff _).mpr ⟨time, correction, label, ⟨good, stray, by simp⟩, limit⟩
    · exact (Timebase.ok_iff _).mpr ⟨time, correction, label, ⟨good, stray, by dsimp only; omega⟩, limit⟩
  · exact h

theorem Timebase.checkWatch_ok {tb : Timebase} (h : tb.ok = true) : tb.checkWatch.ok = true := by
  unfold Timebase.checkWatch
  split
  · exact h
  · exact Timebase.miss_ok h

theorem Timebase.period_ok {tb : Timebase} (h : tb.ok = true) : tb.period.ok = true := by
  obtain ⟨time, rest⟩ := (Timebase.ok_iff tb).mp h
  unfold Timebase.period
  split
  · exact h
  · split
    · exact h
    · exact (Timebase.ok_iff _).mpr ⟨⟨by dsimp only; omega, time.2⟩, rest⟩

/-! ### Contact lines -/

/-- A line keeps a frozen level for a lock alone (R156). -/
def Line.sound (l : Line) : Bool := l.locked || l.frozen.isNone

theorem State.line_sound {s : State} (h : s.frozenIsLocked = true) (i : Nat) : (s.line i).sound = true := by
  rcases lt_or_ge i s.lines.records.length with hlt | hge
  · have : s.line i = s.lines.records[i] := by simp [State.line, hlt]
    rw [this]
    exact List.all_eq_true.mp h _ (List.getElem_mem hlt)
  · have : s.line i = .reset .low := by simp [State.line, List.getD_eq_getElem?_getD, List.getElem?_eq_none hge]
    rw [this]
    rfl

theorem State.withLine_move (s : State) (i : Nat) (x : Line) (sound : (s.line i).sound = true → x.sound = true := by exact id) :
    s.Move (s.withLine i x) := by
  refine .lines s _ (by simp) fun h => ?_
  refine List.all_eq_true.mpr fun l hl => ?_
  rcases List.mem_or_eq_of_mem_set hl with old | rfl
  · exact List.all_eq_true.mp h l old
  · exact sound (State.line_sound h i)

/-- Every line changed alike, its lock and its frozen level kept. -/
theorem State.mapLines_move (s : State) (f : Line → Line) (kept : ∀ l, (f l).sound = l.sound) (x : Lines)
    (records : x.records = s.lines.records.map f) : s.Move (s.withLines x) := by
  refine .lines s x (by simp [records]) fun h => ?_
  simp only [State.frozenIsLocked, State.withLines_lines, records, List.all_map, Function.comp_def]
  exact List.all_eq_true.mpr fun l hl => (kept l).trans (List.all_eq_true.mp h l hl)

theorem Line.period_sound (l : Line) : l.period.sound = l.sound := by
  unfold Line.period
  repeat' split
  all_goals rfl

/-! ### One period of the site clock -/

theorem Feed.period_openCopy (f : Feed) : f.period.openCopy = f.openCopy := by
  unfold Feed.period
  split <;> rfl

theorem State.countPeriod_moves (s : State) : s.Moves s.countPeriod := by
  have feeds := (State.withFeed_move s .a s.feedA.period (Feed.period_openCopy _)).moves.tail
    (State.withFeed_move _ .b s.feedB.period (Feed.period_openCopy _))
  have counted := ((feeds.tail (State.withLaunch_move _ { s.launch with outputs := drainOutputs s.launch.outputs })).tail
    (.mon _ { s.mon with elapsed := min (s.mon.elapsed + 1) 2500 } (by exact id) rfl)).tail
    (.chg _ { s.chg with returnTimer := s.chg.returnTimer.map (· - 1) } (by exact id))
  exact counted.tail (State.mapLines_move _ Line.period Line.period_sound
    { s.lines with records := s.lines.records.map Line.period } rfl)

theorem State.period_moves (s : State) : s.Moves s.period := by
  unfold State.period
  exact s.countPeriod_moves.trans (.ite
    (fun _ => State.secondMark_moves (fun h => Timebase.mark_ok h (Timebase.nextSecond_lt _)) false)
    fun _ => (State.Move.tb _ _ Timebase.period_ok).moves)

/-! ### The changeover (R137, R140 to R142) -/

theorem appendHistory_length {history : List Time} (h : history.length ≤ 3) (t : Time) :
    (appendHistory history t).length ≤ 3 := by
  rw [appendHistory_eq t h]
  simp only [List.length_drop, List.length_append, List.length_singleton]
  omega

theorem Changeover.ok_iff (c : Changeover) :
    c.ok = true ↔ c.history.length ≤ 3 ∧ 1 ≤ c.returnDelay ∧ c.returnDelay ≤ 3600 := by
  simp [Changeover.ok, and_assoc]

theorem State.autoChangeover_moves (s : State) (target : Position) : s.Moves (s.autoChangeover target) := by
  have moved := (State.Move.chg s
    { s.chg with position := target, returnTimer := none, history := appendHistory s.chg.history s.now }
    fun h => by
      obtain ⟨history, delay⟩ := (Changeover.ok_iff _).mp h
      exact (Changeover.ok_iff _).mpr ⟨appendHistory_length history _, delay⟩).moves.tail (.raise _ .changeover target.code 0)
  unfold State.autoChangeover
  exact .ite (fun _ => (moved.tail (.chg _ _ (by exact id))).tail (.raise _ _ _ _)) fun _ => moved

theorem Changeover.startTimer_ok {c : Changeover} (h : c.ok = true) : c.startTimer.ok = true := by
  unfold Changeover.startTimer
  split <;> exact h

theorem State.reevaluate_moves (s : State) : s.Moves s.reevaluate := by
  have stopped : s.Moves (s.withChg s.chg.stopTimer) := (State.Move.chg s _ (by exact id)).moves
  unfold State.reevaluate
  refine .ite (fun _ => .refl s) fun _ => ?_
  split
  · exact s.autoChangeover_moves _
  · exact stopped
  · exact s.autoChangeover_moves _
  · exact .ite (fun _ => (State.Move.chg s _ Changeover.startTimer_ok).moves) fun _ => .refl s
  · exact stopped

theorem State.reform_moves (s before : State) : s.Moves (s.reform before) :=
  .ite (fun _ => .refl s) fun _ => s.reevaluate_moves

/-! ### The monitor (R132 to R136) -/

theorem State.withChannel_move (s : State) (i : Nat) (x : Channel) : s.Move (s.withChannel i x) :=
  .mon s _ (by exact id) (by simp)

theorem State.offerCapture_moves (s : State) (i : Nat) : s.Moves (s.offerCapture i) := by
  unfold State.offerCapture
  exact .ite (fun _ => .refl s) fun _ => (State.Move.mon s _ (by exact id) (by rfl)).moves.tail (.raise _ _ _ _)

theorem State.convertChannel_moves (s : State) (i v : Nat) : s.Moves (s.convertChannel i v) := by
  have stored := (State.withChannel_move s i ((s.channel i).convert v).1).moves
  unfold State.convertChannel
  exact .ite (fun _ => ((stored.tail (.raise _ _ _ _)).trans (State.offerCapture_moves _ i)).trans (State.reform_moves _ s))
    fun _ => stored

theorem State.returnNormal_moves (s : State) (i : Nat) : s.Moves (s.returnNormal i) :=
  (State.withChannel_move s i _).moves.trans (State.reform_moves _ s)

theorem Monitor.ok_iff (m : Monitor) :
    m.ok = true ↔
      m.first ≤ m.last ∧ m.last ≤ 7 ∧ m.first ≤ m.converting ∧ m.converting ≤ m.last ∧
      ∀ r, m.pendingRange = some r → r.1 ≤ r.2 ∧ r.2 ≤ 7 := by
  simp only [Monitor.ok, Bool.and_eq_true, decide_eq_true_eq]
  cases m.pendingRange <;> simp <;> tauto

/-- A pending range takes force (R133). -/
theorem State.takeRange_moves {s : State} {first last : Nat} (pending : s.mon.pendingRange = some (first, last)) :
    s.Moves (s.takeRange first last) := by
  have taken := (State.Move.mon s
    { s.mon with first := first, last := last, pendingRange := none, converting := first }
    (fun h => by
      obtain ⟨-, -, -, -, range⟩ := (Monitor.ok_iff _).mp h
      obtain ⟨order, bound⟩ := range _ pending
      exact (Monitor.ok_iff _).mpr ⟨order, bound, le_refl _, order, by simp⟩) rfl).moves
  unfold State.takeRange
  exact (((taken.trans (State.Moves.foldl (fun s i => (State.withChannel_move s i _).moves) _ _)).trans
    (State.Moves.foldl (fun s i => (State.Move.raise s _ _ _).moves) _ _)).trans
    (State.Moves.foldl State.returnNormal_moves _ _)).tail (.draw _)

theorem Monitor.nextChannel_range {m : Monitor} (h : m.ok = true) : m.first ≤ m.nextChannel ∧ m.nextChannel ≤ m.last := by
  obtain ⟨order, -, low, high, -⟩ := (Monitor.ok_iff m).mp h
  unfold Monitor.nextChannel
  split <;> omega

theorem State.completeConversion_moves (s : State) (v : Nat) : s.Moves (s.completeConversion v) := by
  have converted := (s.convertChannel_moves s.mon.converting v).tail
    (.mon _ { (s.convertChannel s.mon.converting v).mon with elapsed := 0 } (by exact id) rfl)
  unfold State.completeConversion
  dsimp only
  split
  · exact converted.trans (State.takeRange_moves ‹_›)
  · refine converted.tail (.mon _ _ (fun h => ?_) rfl)
    obtain ⟨order, bound, -, -, range⟩ := (Monitor.ok_iff _).mp h
    exact (Monitor.ok_iff _).mpr
      ⟨order, bound, (Monitor.nextChannel_range h).1, (Monitor.nextChannel_range h).2, range⟩

theorem State.acceptEdge_moves (s : State) (i : Nat) : s.Moves (s.acceptEdge i) := by
  have accepted := (State.withLine_move s i
    { s.line i with accepted := (s.line i).pin, pendingChange := none, latched := true }).moves
  unfold State.acceptEdge
  dsimp only
  split
  · exact accepted.tail (.raise _ _ _ _)
  · exact accepted.trans (State.fireLine_moves _ _ _)
  · exact accepted.trans (State.reform_moves _ s)
  · exact accepted.trans (State.reform_moves _ s)
  · exact accepted.trans (State.reform_moves _ s)
  · exact accepted

end Sys2Proof.Machine
end

