-- ==== Sys2Proof/Proofs/MovesOfCommands.lean ====
section
/-! Every command of the table, every idle step and so every step as a run of basic updates. -/

namespace Sys2Proof.Machine

open Sys2Proof

-- One proof after the other: proofs that wait for each other hold a thread each.
set_option Elab.async false

/-! ### Frames and responses (R159 to R162) -/

/-- A change of a port that leaves its queues, its mask and its long command. -/
theorem State.withPort_move (s : State) (p : Port) (q : PortState)
    (bounds : (s.port p).ok = true → q.ok = true := by exact id)
    (clip : (s.port p).clipOk = true → q.clipOk = true := by exact id) : s.Move (s.withPort p q) :=
  .port s p q bounds clip

theorem State.respond_move (s : State) (p : Port) (r : Reply) : s.Move (s.respond p r) := State.withPort_move s p _

theorem State.onFrame_moves (s : State) (p : Port) (received : Nat) {act : State → State × Option Reply}
    (h : ∀ s : State, s.Moves (act s).1) : s.Moves (s.onFrame p received act) := by
  unfold State.onFrame
  refine .ite (fun _ => (State.withPort_move s p _).moves) fun _ => ?_
  have acted := (State.withPort_move s p ((s.port p).taken received)).moves.trans (h _)
  split
  · rename_i answered
    rw [answered] at acted
    exact acted.tail (State.respond_move _ p _)
  · rename_i long
    rw [long] at acted
    exact acted

theorem State.onCommand_moves (s : State) (p : Port) (params : List Byte) {fits : Bool} {act : State → State × Option Reply}
    (h : fits = true → ∀ s : State, s.Moves (act s).1) : s.Moves (s.onCommand p params fits act) := by
  refine State.onFrame_moves s p _ fun s => ?_
  split
  · rename_i fitting
    exact h (by simp only [Bool.and_eq_true] at fitting; exact fitting.2) s
  · exact .refl s

/-- A choice in a command's act. -/
theorem State.Moves.act_ite {s : State} {c : Prop} [Decidable c] {a b : State × Option Reply} (yes : c → s.Moves a.1)
    (no : ¬c → s.Moves b.1) : s.Moves (if c then a else b).1 := by
  split
  · exact yes ‹_›
  · exact no ‹_›

theorem refuse_moves (code : ResultCode) (s : State) : s.Moves (refuse code s).1 := .refl s

theorem done_moves {s t : State} (h : s.Moves t) : s.Moves (done t).1 := h

theorem State.complete_moves (s : State) (p : Port) (r : Reply) : s.Moves (s.complete p r) :=
  (State.withPort_move s p { s.port p with inProgress := none } (by exact id) fun _ => rfl).moves.tail
    (State.respond_move _ p r)

/-! ### Settings of the timebase and the scheduler -/

theorem State.setLabel_move (s : State) (ps : List Byte) :
    s.Move (s.withTb { s.tb with pendingLabel := some (field ps 0 4) }) := by
  refine .tb s _ fun h => ?_
  obtain ⟨time, correction, -, rest⟩ := (Timebase.ok_iff _).mp h
  refine (Timebase.ok_iff _).mpr ⟨time, correction, fun v hv => ?_, rest⟩
  cases hv
  exact field_lt ps 0 4

theorem State.setHoldoverLimit_move (s : State) (v : Nat) :
    s.Move (s.withTb { s.tb with holdoverLimit := (clampTo 1 86400 v).1 }) := by
  refine .tb s _ fun h => ?_
  obtain ⟨time, correction, label, counts, -⟩ := (Timebase.ok_iff _).mp h
  obtain ⟨low, high, -⟩ := clampTo_spec 1 86400 v (by decide)
  exact (Timebase.ok_iff _).mpr ⟨time, correction, label, counts, low, high⟩

/-- The ranges of the emission parameters, spelled out. -/
theorem Launch.ok_iff (l : Launch) :
    l.ok = true ↔
      (l.advance ≤ 2000000 ∧ ∀ a, l.pendingAdvance = some a → a ≤ 2000000) ∧
      (l.holdMin ≤ l.holdMax ∧ 1 ≤ l.holdMax ∧ l.holdMax ≤ 20000000) ∧
      (300 ≤ l.periodInt ∧ l.periodInt ≤ 15040 ∧ l.periodFrac < 65536) ∧ l.slipTolerance ≤ 10000 ∧
      l.pacingId ≤ 8190 ∧ l.cueId ≤ 8190 ∧ l.pacingId ≠ l.cueId := by
  simp only [Launch.ok, Bool.and_eq_true, decide_eq_true_eq]
  cases l.pendingAdvance <;> simp <;> tauto

theorem State.setAdvance_move {s : State} {a : Nat} (range : a ≤ 2000000) :
    s.Move (s.withLaunch { s.launch with pendingAdvance := some a }) := by
  refine State.withLaunch_move s _ fun h => ?_
  obtain ⟨⟨advance, -⟩, rest⟩ := (Launch.ok_iff _).mp h
  exact (Launch.ok_iff _).mpr ⟨⟨advance, fun v hv => by cases hv; exact range⟩, rest⟩

theorem State.setPacketPeriod_move {s : State} {whole frac : Nat} (low : 300 ≤ whole) (high : whole ≤ 15040)
    (part : frac < 65536) : s.Move (s.withLaunch { s.launch with periodInt := whole, periodFrac := frac }) := by
  refine State.withLaunch_move s _ fun h => ?_
  obtain ⟨advance, hold, -, rest⟩ := (Launch.ok_iff _).mp h
  exact (Launch.ok_iff _).mpr ⟨advance, hold, ⟨low, high, part⟩, rest⟩

theorem State.setHoldLimits_move {s : State} {lo hi : Nat} (order : lo ≤ hi) (low : 1 ≤ hi) (high : hi ≤ 20000000) :
    s.Move (s.withLaunch { s.launch with holdMin := lo, holdMax := hi }) := by
  refine State.withLaunch_move s _ fun h => ?_
  obtain ⟨advance, -, rest⟩ := (Launch.ok_iff _).mp h
  exact (Launch.ok_iff _).mpr ⟨advance, ⟨order, low, high⟩, rest⟩

theorem State.setSlipTolerance_move (s : State) (v : Nat) :
    s.Move (s.withLaunch { s.launch with slipTolerance := (clampTo 0 10000 v).1 }) := by
  refine State.withLaunch_move s _ fun h => ?_
  obtain ⟨advance, hold, period, -, rest⟩ := (Launch.ok_iff _).mp h
  exact (Launch.ok_iff _).mpr ⟨advance, hold, period, (clampTo_spec 0 10000 v (by decide)).2.1, rest⟩

theorem State.setStreamIds_move {s : State} {pacing cue : Nat} (strip : Bool) (hp : pacing ≤ 8190) (hc : cue ≤ 8190)
    (distinct : pacing ≠ cue) :
    s.Move (s.withLaunch { s.launch with pacingId := pacing, cueId := cue, strip := strip }) := by
  refine State.withLaunch_move s _ fun h => ?_
  obtain ⟨advance, hold, period, slip, -⟩ := (Launch.ok_iff _).mp h
  exact (Launch.ok_iff _).mpr ⟨advance, hold, period, slip, hp, hc, distinct⟩

/-! ### Groups on their way out (R69, R72, R73) -/

theorem State.busy_of_startDue {s : State} (h : s.startDue = true) : s.busy := by
  simp only [State.startDue, Bool.and_eq_true] at h
  exact State.busy_of_running h.1.1

theorem State.beginEmission_moves {s : State} {x : Scheduled} {place : Nat} {r : GroupRecord}
    (record : s.record place = some r) : s.Moves (s.beginEmission x place r) := by
  have busy := State.busy_of_record record
  have taken := (State.Move.sel s { s.sel with queue := s.sel.queue.tail } (.inl busy)).moves.tail
    (State.withRecord_move (r := r) (by exact record) { r with phase := .emitting } rfl rfl)
  unfold State.beginEmission
  refine taken.tail (.launch _ _ (by exact id) (.inl ?_))
  exact State.busy_of_record (place := place) (r := { r with phase := .emitting })
    (State.record_withRecord _ (State.record_lt (r := r) record))

theorem State.startHead_moves (s : State) (x : Scheduled) : s.Moves (s.startHead x) := by
  unfold State.startHead
  refine .ite (fun _ => ?_) fun _ =>
    ((s.dropHead_moves .gateClosed).trans (State.withdrawStart_moves _)).trans (State.headDecision_moves _)
  split
  · exact .refl s
  · split
    · exact .refl s
    · exact State.beginEmission_moves ‹_›

theorem State.releaseCell_moves {s : State} {e : Emission} {r : GroupRecord} (record : s.record e.place = some r)
    (cells : r.cells ≠ []) : s.Moves (s.releaseCell e r) := by
  have held : s.cellsAt e.place = r.cells.length := by simp [State.cellsAt, record]
  have pos : 0 < r.cells.length := List.length_pos_of_ne_nil cells
  have released := (State.Move.cells s e.place { r with cells := r.cells.tail } (s.store.freeCells + 1)
    (State.busy_of_record record) (State.record_lt record) (by simp only [List.length_tail]; omega)
    fun h => State.numbered_group (r := r) record h).moves
  have busy : (s.withStore ⟨s.store.table.set e.place (some { r with cells := r.cells.tail }),
      s.store.freeCells + 1⟩).busy :=
    State.busy_of_record (place := e.place) (r := { r with cells := r.cells.tail })
      (by simp [State.record, State.record_lt record])
  unfold State.releaseCell
  exact .ite (fun _ => ((released.tail (.launch _ _ (by exact id) (.inl busy))).tail (.freeRecord _ _)).trans
      (State.headDecision_moves _))
    fun _ => released.tail (.launch _ _ (by exact id) (.inl busy))

theorem State.splicePacket_record (s : State) (start : Time) (p : Packet) (place : Nat) :
    (s.splicePacket start p).1.record place = s.record place := State.record_congr (by simp) place

theorem Launch.send_frame (l : Launch) (p : Packet) (start : Time) :
    (l.send p start).emitting = l.emitting ∧ (l.send p start).scheduled = l.scheduled ∧
      (l.ok = true → (l.send p start).ok = true) := ⟨rfl, rfl, id⟩

theorem State.outputStage_moves {s : State} {e : Emission} {r : GroupRecord} (record : s.record e.place = some r)
    (cells : r.cells ≠ []) (start : Time) (p : Packet) : s.Moves (s.outputStage e start r p) := by
  unfold State.outputStage
  dsimp only
  have spliced := s.splicePacket_moves start (s.launch.stripped e.next p)
  have kept : (s.splicePacket start (s.launch.stripped e.next p)).1.record e.place = some r := by
    rw [State.splicePacket_record, record]
  generalize s.splicePacket start (s.launch.stripped e.next p) = u at spliced kept ⊢
  refine ((spliced.trans (State.observe_moves _ start _ _)).tail (State.withLaunch_move _ _)).trans
    (State.releaseCell_moves ?_ cells)
  rw [← kept]
  exact State.record_congr (by simp) e.place

theorem State.packetStart_moves (s : State) : s.Moves s.packetStart := by
  unfold State.packetStart
  split
  · exact .refl s
  · split
    · exact .refl s
    · rename_i record
      split
      · exact .refl s
      · rename_i cells
        exact State.outputStage_moves record (by simp [cells]) _ _

/-! ### Clip memory (R84 to R92) -/

theorem State.laneRead_moves {s : State} {i slot : Nat} (service : s.clip.service = some (.lane i slot false)) :
    s.Moves (s.endService.laneRead i slot) := by
  unfold State.laneRead
  exact (State.Move.laneRead s i slot _ _ service).moves.trans (State.settleClipEnd_moves _ i)

theorem ClipCommand.ok_iff (c : ClipCommand) : c.ok = true ↔ c.next < 2097152 ∧ c.first + c.count ≤ 2097152 := by
  simp only [ClipCommand.ok, Bool.and_eq_true, decide_eq_true_eq]
  rfl

theorem PortState.clipOk_of_clip {q : PortState} {c : ClipCommand} (h : q.clipOk = true) (hc : q.clipCommand = some c) :
    c.ok = true := by
  simpa [PortState.clipOk, hc] using h

theorem State.clipAdvance_moves (s : State) (p : Port) (packets : List Packet) (reply : Reply) :
    s.Moves (s.clipAdvance p packets reply) := by
  unfold State.clipAdvance
  split
  · exact .refl s
  · rename_i c command
    refine .ite (fun _ => s.complete_moves p reply) fun more => (State.withPort_move s p _ (by exact id) fun h => ?_).moves
    obtain ⟨-, run⟩ := (ClipCommand.ok_iff c).mp (PortState.clipOk_of_clip h command)
    exact (ClipCommand.ok_iff _).mpr ⟨by dsimp only; omega, run⟩

theorem State.beginClip_moves {s : State} {c : ClipCommand} (h : c.ok = true) (p : Port) : s.Moves (s.beginClip p c).1 :=
  (State.withPort_move s p { s.port p with inProgress := some (.clip c) } (by exact id) fun _ => h).moves.tail (.arbitrate _)

theorem ClipCommand.ok_of_run {first count : Nat} (h : clipRunFits first count = true) (write : Bool)
    (packets : List Packet) : (ClipCommand.mk write first count first packets).ok = true := by
  simp only [clipRunFits, Bool.and_eq_true, decide_eq_true_eq] at h
  obtain ⟨⟨some_, -⟩, run⟩ := h
  have bound : first + count ≤ 2097152 := run
  exact (ClipCommand.ok_iff _).mpr ⟨by dsimp only; omega, bound⟩

/-! ### The part (R165 to R167, R173) -/

theorem State.startDone_moves (s : State) (p : Port) : s.Moves (s.startDone p) :=
  .ite (fun _ => (s.complete_moves p _).tail (.raise _ _ _ _)) fun _ => .refl s

theorem State.startStopped_moves (s : State) (p : Port) : s.Moves (s.startStopped p) :=
  .ite (fun _ => s.complete_moves p _) fun _ => .refl s

theorem State.stopBreak_moves (s : State) {i : Nat} (hi : i < 32) : s.Moves (s.stopBreak i) :=
  .ite (fun _ => (State.Move.endBreak s hi _ _).moves) fun _ => .refl s

theorem State.resetDone_moves (s : State) (p : Port) : s.Moves (s.resetDone p) :=
  .ite (fun _ => s.complete_moves p _) fun _ => .refl s

theorem State.stopPart_moves (s : State) : s.Moves s.stopPart :=
  (((State.Move.forget s .standby).moves.trans (State.startStopped_moves _ .station)).trans
    (State.startStopped_moves _ .network)).trans (State.Moves.foldl_breaks State.stopBreak_moves _)

theorem State.resetPin_memory {s : State} (h : s.clipSound = true) (draw : Nat) :
    Memory.wf (s.clip.resetPin draw).cells = true := by
  simp only [State.clipSound, Bool.and_eq_true] at h
  obtain ⟨⟨⟨memory, service⟩, -⟩, -⟩ := h
  unfold Clip.resetPin
  dsimp only
  split
  · rename_i slot _ _ writing
    have bound : slot < clipSlots := by simpa [Clip.serviceOk, writing] using service
    exact Memory.wf_write _ slot _ memory bound
  · exact memory

theorem Clip.resetPin_service (c : Clip) (draw : Nat) : (c.resetPin draw).service = none := by
  unfold Clip.resetPin
  dsimp only
  split <;> rfl

/-! ### Port commands -/

theorem State.readEvents_move (s : State) (p : Port) :
    s.Move (s.withPort p { s.port p with events := (s.port p).events.drop 16, lostEvents := 0 }) := by
  refine State.withPort_move s p _ fun h => ?_
  simp only [PortState.ok, Bool.and_eq_true, decide_eq_true_eq, List.length_drop] at h ⊢
  omega

theorem State.setEventMask_move (s : State) (p : Port) {mask : List Bool} (h : mask.length = 20) :
    s.Move (s.withPort p { s.port p with mask := mask }) := by
  refine State.withPort_move s p _ fun ok => ?_
  simp only [PortState.ok, Bool.and_eq_true, decide_eq_true_eq] at ok ⊢
  exact ⟨ok.1, h⟩

theorem State.freeByMode_moves (s : State) (place : Nat) : s.Moves (s.freeByMode place) :=
  (State.Move.freeRecord s place).moves.tail (State.withSel_move _ _)

theorem State.setFeedMode_moves (s : State) (mode : FeedMode) (preferred : FeedId) :
    s.Moves (s.setFeedMode mode preferred) := by
  have stored := (State.withSel_move s { s.sel with mode := mode, preferred := preferred }).moves
  unfold State.setFeedMode
  exact .ite (fun _ => (stored.trans (State.Moves.foldl State.freeByMode_moves _ _)).trans (State.testSelector_moves _))
    fun _ => stored

theorem State.takeExpiry_moves (s : State) : s.Moves s.takeExpiry :=
  .ite (fun _ => s.autoChangeover_moves .main) fun _ => .refl s

theorem State.setWindow_moves (s : State) (w : Nat) (mask : BitVec 8) (start stop : Time) :
    s.Moves (s.setWindow w mask start stop) := by
  unfold State.setWindow
  exact (State.Move.window s w _).moves.trans
    (.ite (fun _ => State.windowSetPending_moves _ w) fun _ => State.windowActive_moves _ w)

theorem State.freeBreak_idle {s : State} {i : Nat} (h : s.freeBreak = some i) : (s.brk i).live = false := by
  have := List.find?_some h
  simp only [beq_iff_eq] at this
  simp [BreakRecord.live, this]

/-- The checks of R101 leave the command on a break its own work. -/
theorem State.onBreak_moves {s : State} {act : State → State × Option Reply} (p : Port) (index : Nat) (rule : Ownership)
    (h : index < 32 → s.Moves (act s).1) : s.Moves (s.onBreak p index rule act).1 :=
  .act_ite (fun _ => refuse_moves _ s) fun hi => .act_ite (fun _ => refuse_moves _ s) fun _ =>
    .act_ite (fun _ => refuse_moves _ s) fun _ => h (by omega)

theorem Line.configured_sound (l : Line) (c : LineSettings) : (l.configured c).sound = l.sound := by
  unfold Line.configured
  dsimp only
  split <;> rfl

theorem Line.pinChange_sound (l : Line) (level : Level) : (l.pinChange level).sound = l.sound := by
  unfold Line.pinChange
  repeat' split
  all_goals rfl

theorem Line.unlatched_sound (l : Line) : l.unlatched.sound = l.sound := by
  unfold Line.unlatched
  split <;> rfl

theorem Changeover.setReturn_ok {c : Changeover} (h : c.ok = true) (on : Bool) (v : Nat) :
    (c.setReturn on (clampTo 1 3600 v).1).ok = true := by
  obtain ⟨history, -⟩ := (Changeover.ok_iff c).mp h
  obtain ⟨low, high, -⟩ := clampTo_spec 1 3600 v (by decide)
  exact (Changeover.ok_iff _).mpr ⟨history, low, high⟩

theorem State.releaseHold_moves (s : State) : s.Moves s.releaseHold := by
  have cleared := (State.Move.chg s { s.chg with history := [], hold := false } fun h =>
    (Changeover.ok_iff _).mpr ⟨by simp, ((Changeover.ok_iff _).mp h).2⟩).moves
  unfold State.releaseHold
  exact .ite (fun _ => cleared.tail (.raise _ _ _ _)) fun _ => cleared

theorem State.manualChangeover_moves (s : State) (target : Position) : s.Moves (s.manualChangeover target) := by
  have moved := (State.Move.chg s { s.chg with manual := true, returnTimer := none, position := target } (by exact id)).moves
  unfold State.manualChangeover
  exact .ite (fun _ => moved) fun _ => moved.tail (.raise _ _ _ _)

theorem Changeover.hold_ok {c : Changeover} (h : c.ok = true) (p : Port) (on : Bool) : (c.hold_ p on).ok = true := by
  cases p <;> exact h

/-! ### The meanings of the rows -/

/-- A meaning runs: it answers a next state, which a run of basic updates reaches. -/
def Runs (f : State → Answer) : Prop := ∀ s : State, ∃ t, f s = .next t ∧ s.Moves t

theorem runs_of_moves {g : State → State} (h : ∀ s : State, s.Moves (g s)) : Runs fun s => .next (g s) := fun s => ⟨g s, rfl, h s⟩

theorem runs_of_command {p : Port} {params : List Byte} {fits : Bool} {act : State → State × Option Reply}
    (h : fits = true → ∀ s : State, s.Moves (act s).1) : Runs fun s => .next (s.onCommand p params fits act) :=
  runs_of_moves fun s => s.onCommand_moves p params h

/-- A read changes nothing. -/
theorem runs_of_read {p : Port} {params : List Byte} {fits : Bool} {data : State → List Byte} :
    Runs fun s => .next (s.onCommand p params fits fun s => answer (data s) s) :=
  runs_of_command fun _ s => .refl s

theorem execPowerOn_runs : Runs execPowerOn := fun s =>
  ⟨_, rfl, (State.Move.restart s { Clip.reset with occasion := s.draws } (fun _ => Memory.wf_reset) rfl).moves⟩

theorem execResetPin_runs : Runs execResetPin := fun s =>
  ⟨_, rfl, (State.Move.restart s (s.clip.resetPin s.draws) (fun h => State.resetPin_memory h _)
    (Clip.resetPin_service _ _)).moves⟩

theorem execSecondMark_runs : Runs execSecondMark :=
  runs_of_moves fun s => .ite (fun _ => s.period_moves) fun _ => .refl s

theorem execPulse_runs : Runs execPulse := runs_of_moves State.pulse_moves

theorem execPulseWatchCheck_runs : Runs execPulseWatchCheck :=
  runs_of_moves fun s => .ite (fun _ => State.changeTb_moves Timebase.checkWatch_ok none) fun _ => .refl s

theorem execBlinkFall_runs : Runs execBlinkFall :=
  runs_of_moves fun s => .ite (fun _ => (State.Move.lines s _ (by rfl) (by exact id)).moves) fun _ => .refl s

theorem execTimeLabel_runs (p : Port) (params : List Byte) : Runs (execTimeLabel p params) :=
  runs_of_command fun _ s => .act_ite (fun _ => refuse_moves _ s) fun _ => (State.setLabel_move s params).moves

theorem execSetHoldoverLimit_runs (p : Port) (params : List Byte) : Runs (execSetHoldoverLimit p params) :=
  runs_of_command fun _ s => .act_ite (fun _ => refuse_moves _ s) fun _ => (State.setHoldoverLimit_move s _).moves

theorem execFeedSilence_runs (f : FeedId) : Runs (execFeedSilence f) :=
  runs_of_moves fun s => .ite
    (fun _ => .ite (fun _ => s.syncLoss_moves f _) fun _ => (State.withFeed_move s f (s.feed f).toSearch).moves)
    fun _ => .refl s

theorem execSetFeedMode_runs (p : Port) (params : List Byte) : Runs (execSetFeedMode p params) :=
  runs_of_command fun _ s => .act_ite (fun _ => refuse_moves _ s) fun _ => by
    split
    · exact s.setFeedMode_moves _ _
    · exact refuse_moves _ s

theorem execReadFeed_runs (p : Port) (params : List Byte) : Runs (execReadFeed p params) :=
  runs_of_command fun _ s => by
    split <;> exact .refl s

theorem execScheduledStart_runs : Runs execScheduledStart :=
  runs_of_moves fun s => .ite
    (fun _ => by
      split
      · exact s.startHead_moves _
      · exact .refl s)
    fun _ => .refl s

theorem execNullStart_runs : Runs execNullStart :=
  runs_of_moves fun s => by
    split
    · exact .refl s
    · exact .ite (fun _ => (State.withLaunch_move s _).moves) fun _ => (State.withLaunch_move s _).moves

theorem execNullSlotEnd_runs : Runs execNullSlotEnd :=
  runs_of_moves fun s => .ite (fun _ => (State.withLaunch_move s s.launch.endNull).moves) fun _ => .refl s

theorem execSetAdvance_runs (p : Port) (params : List Byte) : Runs (execSetAdvance p params) :=
  runs_of_command fun _ s => .act_ite (fun _ => refuse_moves _ s) fun _ => .act_ite (fun _ => refuse_moves _ s) fun range =>
    (State.setAdvance_move (by omega)).moves

theorem execSetPacketPeriod_runs (p : Port) (params : List Byte) : Runs (execSetPacketPeriod p params) :=
  runs_of_command fun _ s => .act_ite (fun _ => refuse_moves _ s) fun _ => .act_ite (fun _ => refuse_moves _ s) fun _ =>
    .act_ite (fun _ => refuse_moves _ s) fun range =>
      (State.setPacketPeriod_move (by omega) (by omega) (field_lt params 2 2)).moves

theorem execSetHoldLimits_runs (p : Port) (params : List Byte) : Runs (execSetHoldLimits p params) :=
  runs_of_command fun _ s => .act_ite (fun _ => refuse_moves _ s) fun _ => .act_ite (fun _ => refuse_moves _ s) fun order => by
    obtain ⟨low, high, -⟩ := clampTo_spec 1 20000000 (field params 4 4) (by decide)
    exact (State.setHoldLimits_move (by omega) low high).moves

theorem execSetSlipTolerance_runs (p : Port) (params : List Byte) : Runs (execSetSlipTolerance p params) :=
  runs_of_command fun _ s => .act_ite (fun _ => refuse_moves _ s) fun _ => (State.setSlipTolerance_move s _).moves

theorem execSetStreamIds_runs (p : Port) (params : List Byte) : Runs (execSetStreamIds p params) :=
  runs_of_command fun _ s => .act_ite (fun _ => refuse_moves _ s) fun _ => .act_ite (fun _ => refuse_moves _ s) fun _ => by
    split
    · exact refuse_moves _ s
    · exact .act_ite (fun _ => refuse_moves _ s) fun h => by
        simp only [not_or] at h
        obtain ⟨pacing, cue, distinct, -, -⟩ := h
        exact (State.setStreamIds_move _ (by omega) (by omega) distinct).moves

theorem execLaneReadDone_runs (lane : Fin 4) : Runs (execLaneReadDone lane) :=
  runs_of_moves fun s => by
    split
    · rename_i i slot discarded service
      refine .ite (fun _ => State.Moves.tail ?_ (.arbitrate _)) fun _ => .refl s
      cases discarded with
      | true => exact (State.Move.endService s).moves
      | false => exact State.laneRead_moves service
    · exact .refl s

theorem execClipWriteSlot_runs (p : Port) : Runs (execClipWriteSlot p) :=
  runs_of_moves fun s => by
    split
    · rename_i service
      refine .ite (fun _ => State.Moves.tail ?_ (.arbitrate _)) fun _ => .refl s
      have written := (State.Move.writeSlot s _ _ _ _ service).moves.tail (.endService _)
      exact .ite (fun _ => written) fun _ => written.trans (State.clipAdvance_moves _ p _ _)
    · exact .refl s

theorem execClipReadSlot_runs (p : Port) : Runs (execClipReadSlot p) :=
  runs_of_moves fun s => by
    split
    · refine .ite (fun _ => State.Moves.tail ?_ (.arbitrate _)) fun _ => .refl s
      have ended := (State.Move.endService s).moves
      exact .ite (fun _ => ended) fun _ => ended.trans (State.clipAdvance_moves _ p _ _)
    · exact .refl s

theorem execClipWrite_runs (p : Port) (params : List Byte) : Runs (execClipWrite p params) :=
  runs_of_command fun _ s => .act_ite (fun _ => refuse_moves _ s) fun run => .act_ite (fun _ => refuse_moves _ s) fun _ =>
    .act_ite (fun _ => refuse_moves _ s) fun _ => State.beginClip_moves (ClipCommand.ok_of_run (by simpa using run) _ _) p

theorem execClipRead_runs (p : Port) (params : List Byte) : Runs (execClipRead p params) :=
  runs_of_command fun _ s => .act_ite (fun _ => refuse_moves _ s) fun run =>
    State.beginClip_moves (ClipCommand.ok_of_run (by simpa using run) _ _) p

theorem execPlayListWrite_runs (p : Port) (params : List Byte) : Runs (execPlayListWrite p params) :=
  runs_of_command fun _ s => .act_ite (fun _ => refuse_moves _ s) fun _ => .act_ite (fun _ => refuse_moves _ s) fun _ =>
    (State.Move.playList s _ _).moves

theorem execPlayListClear_runs (p : Port) (params : List Byte) : Runs (execPlayListClear p params) :=
  runs_of_command fun _ s => .act_ite (fun _ => refuse_moves _ s) fun _ => .act_ite (fun _ => refuse_moves _ s) fun _ =>
    (State.Move.playList s _ _).moves

/-- A read of a record by its number is refused or changes nothing. -/
theorem runs_of_recordRead {p : Port} {params : List Byte} {fits : Bool} {c : Prop} [Decidable c]
    {data : State → List Byte} :
    Runs fun s => .next (s.onCommand p params fits fun s => if c then refuse .badValue s else answer (data s) s) :=
  runs_of_command fun _ s => .act_ite (fun _ => refuse_moves _ s) fun _ => .refl s

theorem execDefineSlot_runs (p : Port) (params : List Byte) : Runs (execDefineSlot p params) :=
  runs_of_command fun _ s => .act_ite (fun _ => refuse_moves _ s) fun _ => .act_ite (fun _ => refuse_moves _ s) fun _ => by
    dsimp only
    split
    · exact refuse_moves _ s
    · exact .act_ite (fun _ => refuse_moves _ s) fun _ => .act_ite (fun _ => refuse_moves _ s) fun _ =>
        (State.Move.slot s _ _).moves

theorem execClearSlot_runs (p : Port) (params : List Byte) : Runs (execClearSlot p params) :=
  runs_of_command fun _ s => .act_ite (fun _ => refuse_moves _ s) fun _ => .act_ite (fun _ => refuse_moves _ s) fun _ =>
    .act_ite (fun _ => refuse_moves _ s) fun _ => (State.Move.slot s _ _).moves

theorem execCreateBreak_runs (p : Port) (params : List Byte) : Runs (execCreateBreak p params) :=
  runs_of_command fun _ s => by
    split
    · exact refuse_moves _ s
    · refine .act_ite (fun _ => refuse_moves _ s) fun _ => ?_
      split
      · exact refuse_moves _ s
      · exact (State.Move.brkIdle s _ _ (State.freeBreak_idle ‹_›) rfl (.inr rfl)).moves

theorem execModifyBreak_runs (p : Port) (params : List Byte) : Runs (execModifyBreak p params) :=
  runs_of_command fun _ s => State.onBreak_moves p _ .owner fun hi => .act_ite (fun _ => refuse_moves _ s) fun _ => by
    split
    · exact refuse_moves _ s
    · refine .act_ite (fun _ => refuse_moves _ s) fun h => ?_
      simp only [not_or, not_not] at h
      exact (State.Move.brkIdle s (byteAt params 0) _ (by simp [BreakRecord.live, h.1])
        (by simp [BreakRecord.live, BreakRecord.modified, h.1]) (.inl (by rfl))).moves

theorem execArm_runs (p : Port) (params : List Byte) : Runs (execArm p params) :=
  runs_of_command fun _ s => State.onBreak_moves p _ .owner fun hi => .act_ite (fun _ => refuse_moves _ s) fun loaded => by
    simp only [ne_eq, not_not] at loaded
    exact (State.Move.brkIdle s (byteAt params 0) _ (by simp [BreakRecord.live, loaded]) (by rfl) (.inl (by rfl))).moves.trans
      (State.fireTime_moves _ hi)

theorem execDisarm_runs (p : Port) (params : List Byte) : Runs (execDisarm p params) :=
  runs_of_command fun _ s => State.onBreak_moves p _ .owner fun hi => .act_ite (fun _ => refuse_moves _ s) fun waiting => by
    simp only [ne_eq, not_not] at waiting
    exact (State.Move.brkIdle s (byteAt params 0) _ (BreakRecord.not_live_of_waiting waiting) (by rfl) (.inl (by rfl))).moves

theorem execTrigger_runs (p : Port) (params : List Byte) : Runs (execTrigger p params) :=
  runs_of_command fun _ s => State.onBreak_moves p _ .owner fun hi => .act_ite (fun _ => refuse_moves _ s) fun h => by
    simp only [ne_eq, not_or, not_not] at h
    exact done_moves (State.fire_moves hi h.1 _ _)

theorem execCancel_runs (p : Port) (params : List Byte) : Runs (execCancel p params) :=
  runs_of_command fun _ s => State.onBreak_moves p _ .ownerOrNetwork fun hi => .act_ite (fun _ => refuse_moves _ s) fun _ =>
    s.cancelBreak_moves hi

theorem execClearBreak_runs (p : Port) (params : List Byte) : Runs (execClearBreak p params) :=
  runs_of_command fun _ s => State.onBreak_moves p _ .ownerOrNetwork fun hi => .act_ite (fun _ => refuse_moves _ s) fun ended => by
    simp only [ne_eq, not_not] at ended
    exact (State.Move.brkIdle s (byteAt params 0) _ (by simp [BreakRecord.live, ended]) rfl (.inr rfl)).moves

theorem execSetWindow_runs (p : Port) (params : List Byte) : Runs (execSetWindow p params) :=
  runs_of_command fun _ s => .act_ite (fun _ => refuse_moves _ s) fun _ => .act_ite (fun _ => refuse_moves _ s) fun _ =>
    .act_ite (fun _ => refuse_moves _ s) fun _ => by
      split
      · exact refuse_moves _ s
      · exact s.setWindow_moves _ _ _ _

theorem execRemoveWindow_runs (p : Port) (params : List Byte) : Runs (execRemoveWindow p params) :=
  runs_of_command fun _ s => .act_ite (fun _ => refuse_moves _ s) fun _ => .act_ite (fun _ => refuse_moves _ s) fun _ =>
    .act_ite (fun _ => refuse_moves _ s) fun _ => s.windowFree_moves _ 1

theorem execConversionComplete_runs (value : BitVec 10) : Runs (execConversionComplete value) :=
  runs_of_moves fun s => .ite (fun _ => s.completeConversion_moves _) fun _ => .refl s

theorem execSetScanRange_runs (p : Port) (params : List Byte) : Runs (execSetScanRange p params) :=
  runs_of_command fun _ s => .act_ite (fun _ => refuse_moves _ s) fun range =>
    (State.Move.mon s _ (fun h => by
      obtain ⟨order, bound, low, high, -⟩ := (Monitor.ok_iff _).mp h
      exact (Monitor.ok_iff _).mpr ⟨order, bound, low, high, fun r hr => by cases hr; dsimp only; omega⟩) (by rfl)).moves

theorem execSetChannel_runs (p : Port) (params : List Byte) : Runs (execSetChannel p params) :=
  runs_of_command fun _ s => by
    dsimp only
    split
    · exact refuse_moves _ s
    · exact .act_ite (fun _ => refuse_moves _ s) fun _ =>
        (State.withChannel_move s _ _).moves.trans (State.reform_moves _ s)

theorem execReadCapture_runs (p : Port) (params : List Byte) : Runs (execReadCapture p params) :=
  runs_of_command fun _ s => (State.Move.mon s _ (by exact id) (by rfl)).moves

theorem execChangeover_runs (p : Port) (params : List Byte) : Runs (execChangeover p params) :=
  runs_of_command fun _ s => by
    split
    · exact refuse_moves _ s
    · exact .act_ite (fun _ => refuse_moves _ s) fun _ => s.manualChangeover_moves _

theorem execAuto_runs (p : Port) (params : List Byte) : Runs (execAuto p params) :=
  runs_of_command fun _ s => (State.Move.chg s _ (by exact id)).moves.trans (State.reevaluate_moves _)

theorem execSetReturn_runs (p : Port) (params : List Byte) : Runs (execSetReturn p params) :=
  runs_of_command fun _ s => by
    dsimp only
    split
    · exact refuse_moves _ s
    · exact (State.Move.chg s _ fun h => Changeover.setReturn_ok h _ _).moves.trans (State.reevaluate_moves _)

theorem execReleaseHold_runs (p : Port) (params : List Byte) : Runs (execReleaseHold p params) :=
  runs_of_command fun _ s => s.releaseHold_moves.trans (State.reevaluate_moves _)

theorem execReadChangeover_runs (p : Port) (params : List Byte) : Runs (execReadChangeover p params) :=
  runs_of_command fun _ s => s.takeExpiry_moves

theorem execMute_runs (p : Port) (params : List Byte) : Runs (execMute p params) :=
  runs_of_command fun _ s => (State.Move.chg s _ fun h => Changeover.hold_ok h p true).moves

theorem execUnmute_runs (p : Port) (params : List Byte) : Runs (execUnmute p params) :=
  runs_of_command fun _ s => (State.Move.chg s _ fun h => Changeover.hold_ok h p false).moves

theorem execUnmuteAll_runs (p : Port) (params : List Byte) : Runs (execUnmuteAll p params) :=
  runs_of_command fun _ s => .act_ite (fun _ => refuse_moves _ s) fun _ => (State.Move.chg s _ (by exact id)).moves

theorem execLineEdgeAccepted_runs (line : Fin 12) : Runs (execLineEdgeAccepted line) :=
  runs_of_moves fun s => .ite (fun _ => s.acceptEdge_moves _) fun _ => .refl s

theorem execPinLevelChange_runs (line : Fin 12) (level : Level) : Runs (execPinLevelChange line level) :=
  runs_of_moves fun s => (State.withLine_move s _ _ fun h => (Line.pinChange_sound _ level).trans h).moves

theorem execConfigureLine_runs (p : Port) (params : List Byte) : Runs (execConfigureLine p params) :=
  runs_of_command fun _ s => .act_ite (fun _ => refuse_moves _ s) fun _ => .act_ite (fun _ => refuse_moves _ s) fun _ => by
    split
    · exact refuse_moves _ s
    · exact (State.withLine_move s _ _ fun h => (Line.configured_sound _ _).trans h).moves.trans (State.reform_moves _ s)

theorem execSetLineLevel_runs (p : Port) (params : List Byte) : Runs (execSetLineLevel p params) :=
  runs_of_command fun _ s => by
    dsimp only
    split
    · exact refuse_moves _ s
    · exact .act_ite (fun _ => refuse_moves _ s) fun _ => .act_ite (fun _ => refuse_moves _ s) fun _ =>
        .act_ite (fun _ => refuse_moves _ s) fun _ => (State.withLine_move s _ _).moves

theorem execLockLine_runs (p : Port) (params : List Byte) : Runs (execLockLine p params) :=
  runs_of_command fun _ s => .act_ite (fun _ => refuse_moves _ s) fun _ => .act_ite (fun _ => refuse_moves _ s) fun _ =>
    .act_ite (fun _ => .refl s) fun _ => (State.withLine_move s _ _ fun _ => rfl).moves

theorem execReadLines_runs (p : Port) (params : List Byte) : Runs (execReadLines p params) :=
  runs_of_command fun _ s => (State.mapLines_move s Line.unlatched Line.unlatched_sound _ rfl).moves

theorem execResponseRead_runs (p : Port) (clocked : Nat) : Runs (execResponseRead p clocked) :=
  runs_of_moves fun s => by
    have read : s.Move (s.withPort p ((s.port p).readResponse s.draws clocked)) := by
      unfold PortState.readResponse
      split <;> exact State.withPort_move s p _
    exact read.moves.tail (.draw _)

theorem execFrameOverrun_runs (p : Port) (received : Nat) : Runs (execFrameOverrun p received) :=
  runs_of_moves fun s => .ite (fun _ => (State.withPort_move s p _).moves) fun _ => .refl s

theorem execBadFrameLength_runs (p : Port) (received : Nat) : Runs (execBadFrameLength p received) :=
  runs_of_moves fun s => s.onFrame_moves p received fun s => refuse_moves _ s

theorem execUnknownCommand_runs (p : Port) (code : Byte) (params : List Byte) : Runs (execUnknownCommand p code params) :=
  runs_of_command fun _ s => refuse_moves _ s

theorem State.clearStatistics_moves (s : State) : s.Moves s.clearStatistics :=
  ((((State.withFeed_move s .a { s.feedA with counters := .zero }).moves.tail
    (State.withFeed_move _ .b { s.feedB with counters := .zero })).tail
    (State.withSel_move _ { s.sel with counters := .zero })).tail
    (State.withLaunch_move _ { s.launch with stats := .zero })).tail
    (.cueCounts _ { s.splice with cuesApplied := 0, cuesIgnored := 0, cuesWithoutInstant := 0 })

theorem execClearStatistics_runs (p : Port) (params : List Byte) : Runs (execClearStatistics p params) :=
  runs_of_command fun _ s => s.clearStatistics_moves

theorem execReadEvents_runs (p : Port) (params : List Byte) : Runs (execReadEvents p params) :=
  runs_of_command fun _ s => (State.readEvents_move s p).moves

theorem execSetEventMask_runs (p : Port) (params : List Byte) : Runs (execSetEventMask p params) :=
  runs_of_command fun length s => .act_ite (fun _ => refuse_moves _ s) fun _ =>
    (State.setEventMask_move s p (by simpa using length)).moves

theorem execLockParameters_runs (p : Port) (params : List Byte) : Runs (execLockParameters p params) :=
  runs_of_command fun _ s => .act_ite (fun _ => refuse_moves _ s) fun _ => (State.Move.lock s _).moves

theorem execUnlockParameters_runs (p : Port) (params : List Byte) : Runs (execUnlockParameters p params) :=
  runs_of_command fun _ s => .act_ite (fun _ => refuse_moves _ s) fun _ => (State.Move.lock s _).moves

theorem execStart_runs (p : Port) (params : List Byte) : Runs (execStart p params) :=
  runs_of_command fun _ s => .act_ite (fun _ => refuse_moves _ s) fun _ =>
    (State.Move.forget s .starting).moves.tail (State.withPort_move _ p _ (by exact id) fun _ => rfl)

theorem execStartComplete_runs : Runs execStartComplete :=
  runs_of_moves fun s => .ite
    (fun _ => ((((State.Move.enterRun s).moves.tail (State.withLaunch_move _ _)).trans
      (State.startDone_moves _ .station)).trans (State.startDone_moves _ .network)).trans (State.fireDueTimes_moves _))
    fun _ => .refl s

theorem execStop_runs (p : Port) (params : List Byte) : Runs (execStop p params) :=
  runs_of_command fun _ s => .act_ite (fun _ => refuse_moves _ s) fun _ => done_moves s.stopPart_moves

theorem execReset_runs (p : Port) (params : List Byte) : Runs (execReset p params) :=
  runs_of_command fun _ s => .act_ite (fun _ => refuse_moves _ s) fun _ => by
    have reset := (State.Move.softReset s p).moves.trans (State.reform_moves _ s)
    exact .act_ite (fun _ => reset.tail (State.withPort_move _ p _ (by exact id) fun _ => rfl)) fun _ => reset

theorem execResetComplete_runs : Runs execResetComplete :=
  runs_of_moves fun s => (s.resetDone_moves .station).trans (State.resetDone_moves _ .network)

/-! ### Every row, every step -/

/-- Every row of the table is executed in every state, as a run of basic updates. -/
theorem exec_runs (i : Instr) : Runs (exec i) := by
  cases i with
  | powerOn => exact execPowerOn_runs
  | resetPin => exact execResetPin_runs
  | secondMark => exact execSecondMark_runs
  | pulse => exact execPulse_runs
  | pulseWatchCheck => exact execPulseWatchCheck_runs
  | blinkFall => exact execBlinkFall_runs
  | syncCandidate f => exact runs_of_moves fun s => .ite (fun _ => s.takeByte_moves f _) fun _ => .refl s
  | checkByte f b => exact runs_of_moves fun s => .ite (fun _ => s.takeByte_moves f b) fun _ => .refl s
  | badSyncByte f b => exact runs_of_moves fun s => .ite (fun _ => s.takeByte_moves f b) fun _ => .refl s
  | packetArrival f b => exact runs_of_moves fun s => .ite (fun _ => s.takeByte_moves f b) fun _ => .refl s
  | byteTaken f b => exact runs_of_moves fun s => s.takeByte_moves f b
  | feedSilence f => exact execFeedSilence_runs f
  | deadlineReached => exact runs_of_moves State.testSelector_moves
  | scheduledStart => exact execScheduledStart_runs
  | packetStart => exact runs_of_moves State.packetStart_moves
  | nullStart => exact execNullStart_runs
  | nullSlotEnd => exact execNullSlotEnd_runs
  | groupEndTick => exact runs_of_moves State.endGroup_moves
  | laneReadDone lane => exact execLaneReadDone_runs lane
  | clipWriteSlot p => exact execClipWriteSlot_runs p
  | clipReadSlot p => exact execClipReadSlot_runs p
  | timeTriggerDue index => exact runs_of_moves fun s => s.fireTime_moves index.isLt
  | spliceOutExpiry index => exact runs_of_moves fun s => s.expire_moves index.isLt
  | windowStartReached w => exact runs_of_moves fun s => s.windowStart_moves _
  | windowEndReached w => exact runs_of_moves fun s => s.windowEnd_moves _
  | conversionComplete value => exact execConversionComplete_runs value
  | returnTimerExpiry => exact runs_of_moves State.takeExpiry_moves
  | lineEdgeAccepted line => exact execLineEdgeAccepted_runs line
  | pinLevelChange line level => exact execPinLevelChange_runs line level
  | responseRead p clocked => exact execResponseRead_runs p clocked
  | emptyTransaction p => exact runs_of_moves State.Moves.refl
  | frameOverrun p received => exact execFrameOverrun_runs p received
  | badFrameLength p received => exact execBadFrameLength_runs p received
  | unknownCommand p code params => exact execUnknownCommand_runs p code params
  | identify p params => exact runs_of_read
  | readStatus p params => exact runs_of_read
  | readTime p params => exact runs_of_read
  | readTimebase p params => exact runs_of_read
  | readSelector p params => exact runs_of_read
  | readLaunch p params => exact runs_of_read
  | readMonitor p params => exact runs_of_read
  | readFeed p params => exact execReadFeed_runs p params
  | readPlayList p params => exact runs_of_recordRead
  | readLane p params => exact runs_of_recordRead
  | readSlot p params => exact runs_of_recordRead
  | readBreak p params => exact runs_of_recordRead
  | readWindow p params => exact runs_of_recordRead
  | readCapture p params => exact execReadCapture_runs p params
  | readChangeover p params => exact execReadChangeover_runs p params
  | readLines p params => exact execReadLines_runs p params
  | readEvents p params => exact execReadEvents_runs p params
  | clearStatistics p params => exact execClearStatistics_runs p params
  | start p params => exact execStart_runs p params
  | startComplete => exact execStartComplete_runs
  | stop p params => exact execStop_runs p params
  | reset p params => exact execReset_runs p params
  | resetComplete => exact execResetComplete_runs
  | timeLabel p params => exact execTimeLabel_runs p params
  | setHoldoverLimit p params => exact execSetHoldoverLimit_runs p params
  | setStreamIds p params => exact execSetStreamIds_runs p params
  | setFeedMode p params => exact execSetFeedMode_runs p params
  | setAdvance p params => exact execSetAdvance_runs p params
  | setPacketPeriod p params => exact execSetPacketPeriod_runs p params
  | setHoldLimits p params => exact execSetHoldLimits_runs p params
  | setSlipTolerance p params => exact execSetSlipTolerance_runs p params
  | clipWrite p params => exact execClipWrite_runs p params
  | clipRead p params => exact execClipRead_runs p params
  | playListWrite p params => exact execPlayListWrite_runs p params
  | playListClear p params => exact execPlayListClear_runs p params
  | defineSlot p params => exact execDefineSlot_runs p params
  | clearSlot p params => exact execClearSlot_runs p params
  | createBreak p params => exact execCreateBreak_runs p params
  | modifyBreak p params => exact execModifyBreak_runs p params
  | arm p params => exact execArm_runs p params
  | disarm p params => exact execDisarm_runs p params
  | trigger p params => exact execTrigger_runs p params
  | cancel p params => exact execCancel_runs p params
  | clearBreak p params => exact execClearBreak_runs p params
  | setWindow p params => exact execSetWindow_runs p params
  | removeWindow p params => exact execRemoveWindow_runs p params
  | setScanRange p params => exact execSetScanRange_runs p params
  | setChannel p params => exact execSetChannel_runs p params
  | changeover p params => exact execChangeover_runs p params
  | auto p params => exact execAuto_runs p params
  | setReturn p params => exact execSetReturn_runs p params
  | releaseHold p params => exact execReleaseHold_runs p params
  | mute p params => exact execMute_runs p params
  | unmute p params => exact execUnmute_runs p params
  | unmuteAll p params => exact execUnmuteAll_runs p params
  | configureLine p params => exact execConfigureLine_runs p params
  | setLineLevel p params => exact execSetLineLevel_runs p params
  | lockLine p params => exact execLockLine_runs p params
  | setEventMask p params => exact execSetEventMask_runs p params
  | lockParameters p params => exact execLockParameters_runs p params
  | unlockParameters p params => exact execUnlockParameters_runs p params

theorem exec_moves {i : Instr} {s t : State} (h : exec i s = .next t) : s.Moves t := by
  obtain ⟨u, hu, moves⟩ := exec_runs i s
  rw [h] at hu
  cases hu
  exact moves

/-- A step is a run of basic updates of the state, but that the queue may have lost its front command. -/
theorem step_moves {s t : State} (h : step s = .next t) : ∃ rest, ({ s with pending := rest } : State).Moves t := by
  unfold step at h
  split at h
  · rename_i c rest _
    exact ⟨rest, exec_moves h⟩
  · refine ⟨s.pending, ?_⟩
    unfold State.idle at h
    split at h
    · exact (State.Move.draw s).moves.trans (exec_moves h)
    · cases h
      exact s.period_moves

/-- An invariant that does not look at the queue of commands and that every basic update keeps is kept by every step. -/
theorem step_keeps {P : State → Prop} (queue : ∀ (s : State) rest, P s → P { s with pending := rest })
    (moves : ∀ s t : State, s.Move t → P s → P t) {s t : State} (h : step s = .next t) (hs : P s) : P t := by
  obtain ⟨rest, run⟩ := step_moves h
  exact run.keeps moves (queue s rest hs)

end Sys2Proof.Machine
end

