-- ==== Sys2Proof/Proofs/Invariants.lean ====
section
/-! What every step keeps: each invariant is kept by every basic update, and holds at reset. -/

namespace Sys2Proof.Machine

open Sys2Proof

-- One proof after the other: proofs that wait for each other hold a thread each.
set_option Elab.async false

/-! ### What the compound updates leave -/

@[simp] theorem State.endService_frame (s : State) :
    s.endService.tb = s.tb ∧ s.endService.feedA = s.feedA ∧ s.endService.feedB = s.feedB ∧
    s.endService.store = s.store ∧ s.endService.sel = s.sel ∧ s.endService.launch = s.launch ∧
    s.endService.lanes = s.lanes ∧ s.endService.splice = s.splice ∧ s.endService.windows = s.windows ∧
    s.endService.mon = s.mon ∧ s.endService.chg = s.chg ∧ s.endService.lines = s.lines ∧
    s.endService.station = s.station ∧ s.endService.network = s.network ∧ s.endService.part = s.part ∧
    s.endService.clip = { s.clip with service := none } := by
  simp [State.endService]

@[simp] theorem State.airBreak_frame (s : State) (i : Nat) (x : BreakRecord) :
    (s.airBreak i x).tb = s.tb ∧ (s.airBreak i x).feedA = s.feedA ∧ (s.airBreak i x).feedB = s.feedB ∧
    (s.airBreak i x).store = s.store ∧ (s.airBreak i x).sel = s.sel ∧ (s.airBreak i x).launch = s.launch ∧
    (s.airBreak i x).clip = s.clip ∧ (s.airBreak i x).windows = s.windows ∧ (s.airBreak i x).mon = s.mon ∧
    (s.airBreak i x).chg = s.chg ∧ (s.airBreak i x).lines = s.lines ∧ (s.airBreak i x).station = s.station ∧
    (s.airBreak i x).network = s.network ∧ (s.airBreak i x).part = s.part ∧
    (s.airBreak i x).splice = (s.withBreak i x).splice := by
  unfold State.airBreak
  split <;> simp

@[simp] theorem State.cueBreak_frame (s : State) (i lane : Nat) (x : Time) (y : Option (Time × YSource)) :
    (s.cueBreak i lane x y).tb = s.tb ∧ (s.cueBreak i lane x y).feedA = s.feedA ∧
    (s.cueBreak i lane x y).feedB = s.feedB ∧ (s.cueBreak i lane x y).store = s.store ∧
    (s.cueBreak i lane x y).sel = s.sel ∧ (s.cueBreak i lane x y).launch = s.launch ∧
    (s.cueBreak i lane x y).windows = s.windows ∧ (s.cueBreak i lane x y).mon = s.mon ∧
    (s.cueBreak i lane x y).chg = s.chg ∧ (s.cueBreak i lane x y).lines = s.lines ∧
    (s.cueBreak i lane x y).station = s.station ∧ (s.cueBreak i lane x y).network = s.network ∧
    (s.cueBreak i lane x y).part = s.part ∧
    (s.cueBreak i lane x y).splice =
      (s.withBreak i { s.brk i with state := .cued, x := some x, lane := some lane, y := y }).splice ∧
    (s.cueBreak i lane x y).clip = (s.claimLane lane i (s.brk i).playList).clip ∧
    (s.cueBreak i lane x y).lanes = (s.claimLane lane i (s.brk i).playList).lanes := by
  have brk : (s.claimLane lane i (s.brk i).playList).brk i = s.brk i := State.brk_congr (by simp) i
  simp [State.cueBreak, brk, State.withBreak]

@[simp] theorem State.forgetGroups_frame (s : State) :
    s.forgetGroups.tb = s.tb ∧ s.forgetGroups.feedA = s.feedA.forget ∧ s.forgetGroups.feedB = s.feedB.forget ∧
    s.forgetGroups.store = .empty ∧ s.forgetGroups.sel = s.sel.forget ∧ s.forgetGroups.launch = s.launch.forget ∧
    s.forgetGroups.clip = s.clip ∧ s.forgetGroups.lanes = s.lanes ∧ s.forgetGroups.splice = s.splice ∧
    s.forgetGroups.windows = s.windows ∧ s.forgetGroups.mon = s.mon ∧ s.forgetGroups.chg = s.chg ∧
    s.forgetGroups.lines = s.lines ∧ s.forgetGroups.station = s.station ∧ s.forgetGroups.network = s.network :=
  ⟨rfl, rfl, rfl, rfl, rfl, rfl, rfl, rfl, rfl, rfl, rfl, rfl, rfl, rfl, rfl⟩

@[simp] theorem State.softReset_frame (s : State) (p : Port) :
    (s.softReset p).tb = s.tb ∧ (s.softReset p).feedA = .reset ∧ (s.softReset p).feedB = .reset ∧
    (s.softReset p).store = .empty ∧ (s.softReset p).sel = s.sel.softReset ∧
    (s.softReset p).launch = s.launch.softReset ∧ (s.softReset p).clip = s.clip.softReset p ∧
    (s.softReset p).lanes = List.replicate 4 .reset ∧ (s.softReset p).splice = s.splice.softReset ∧
    (s.softReset p).windows = s.windows ∧ (s.softReset p).mon = s.mon.softReset ∧ (s.softReset p).chg = s.chg ∧
    (s.softReset p).lines = { s.lines with records := s.lines.records.map Line.softReset } ∧
    (s.softReset p).part = .standby ∧ (s.softReset p).paramLock = s.paramLock ∧
    (s.softReset p).pending = s.pending := by
  simp [State.softReset]

theorem State.softReset_port (s : State) (p : Port) :
    (s.softReset p).port p = (s.port p).emptyEvents ∧
      (s.softReset p).port p.other = (s.port p.other).emptyEvents.abandonLong := by
  cases p <;> exact ⟨rfl, rfl⟩

@[simp] theorem State.restarted_frame (s : State) (c : Clip) :
    (s.restarted c).tb = .reset ∧ (s.restarted c).feedA = .reset ∧ (s.restarted c).feedB = .reset ∧
    (s.restarted c).store = .empty ∧ (s.restarted c).sel = .reset ∧ (s.restarted c).launch = s.launch.powerOn ∧
    (s.restarted c).clip = c ∧ (s.restarted c).lanes = List.replicate 4 .reset ∧ (s.restarted c).splice = .reset ∧
    (s.restarted c).windows = List.replicate 8 .empty ∧ (s.restarted c).mon = .reset ∧ (s.restarted c).chg = .reset ∧
    (s.restarted c).lines = s.lines.powerOn ∧ (s.restarted c).station = .reset ∧ (s.restarted c).network = .reset ∧
    (s.restarted c).part = .standby ∧ (s.restarted c).pending = s.pending :=
  ⟨rfl, rfl, rfl, rfl, rfl, rfl, rfl, rfl, rfl, rfl, rfl, rfl, rfl, rfl, rfl, rfl, rfl⟩

@[simp] theorem State.draw_frame (s : State) :
    s.draw.tb = s.tb ∧ s.draw.feedA = s.feedA ∧ s.draw.feedB = s.feedB ∧ s.draw.store = s.store ∧ s.draw.sel = s.sel ∧
    s.draw.launch = s.launch ∧ s.draw.clip = s.clip ∧ s.draw.lanes = s.lanes ∧ s.draw.splice = s.splice ∧
    s.draw.windows = s.windows ∧ s.draw.mon = s.mon ∧ s.draw.chg = s.chg ∧ s.draw.lines = s.lines ∧
    s.draw.station = s.station ∧ s.draw.network = s.network ∧ s.draw.part = s.part ∧ s.draw.paramLock = s.paramLock ∧
    s.draw.pending = s.pending :=
  ⟨rfl, rfl, rfl, rfl, rfl, rfl, rfl, rfl, rfl, rfl, rfl, rfl, rfl, rfl, rfl, rfl, rfl, rfl⟩

/-! ### The queue of commands -/

theorem State.Move.pending {s t : State} (h : s.Move t) : t.pending = s.pending := by
  cases h with
  | air => unfold State.airBreak; split <;> simp
  | cue => simp [State.cueBreak]
  | endService => simp [State.endService]
  | laneRead => simp [State.endService]
  | forget => rfl
  | _ => simp

/-- Settles O2: every row runs, and no basic update touches the queue. -/
theorem everyCommandAnswers : Obligations.EveryCommandAnswers := by
  intro c s
  obtain ⟨t, answers, moves⟩ := exec_runs c s
  exact ⟨t, answers, moves.keeps (P := fun u => u.pending = s.pending) (fun _ _ m h => m.pending.trans h) rfl⟩

theorem freeOrder_eq_nil {α : Type} {draw : Nat} {kind : α → Nat} {l : List α} (h : freeOrder draw kind l = []) : l = [] := by
  cases l with
  | nil => rfl
  | cons a l =>
    exfalso
    simp only [freeOrder, List.foldr_cons] at h
    generalize List.foldr (insertByRank draw kind) [] l = r at h
    cases r with
    | nil => simp [insertByRank] at h
    | cons b r =>
      unfold insertByRank at h
      split at h <;> simp at h

/-- Settles O1: the front command by the definition of `step`; a free order has the events of the list and no other. -/
theorem stepTakesFrontCommand : Obligations.StepTakesFrontCommand := by
  refine ⟨fun c rest s h => ?front, fun s h => ⟨fun none_ => ?period, fun some_ => ?event⟩⟩
  case front => simp only [step, h]
  case period => simp only [step, h, State.idle, none_, freeOrder, List.foldr_nil]
  case event =>
    simp only [step, h, State.idle]
    cases order : freeOrder s.draws (·.1) s.due with
    | nil => exact absurd (freeOrder_eq_nil order) some_
    | cons e rest => exact ⟨e, mem_freeOrder (order ▸ List.mem_cons_self), rfl⟩

/-! ### Ranges (R1, R6, R9 to R13, R60, R61, R76, R77, R142, R145, R169, R171, R172) -/

theorem State.port_congr {s t : State} (station : t.station = s.station) (network : t.network = s.network) (p : Port) :
    t.port p = s.port p := by
  cases p
  · exact station
  · exact network

theorem PortState.ok_iff (q : PortState) :
    q.ok = true ↔ q.events.length ≤ 32 ∧ q.lostEvents ≤ 65535 ∧ q.mask.length = 20 := by
  simp [PortState.ok, and_assoc]

theorem PortState.offer_ok {q : PortState} (h : q.ok = true) (e : Event) : (q.offer e).ok = true := by
  obtain ⟨events, lost, mask⟩ := (PortState.ok_iff q).mp h
  obtain ⟨events', lost'⟩ := q.offer_bounds e events lost
  exact (PortState.ok_iff _).mpr ⟨events', lost', by simpa using mask⟩

theorem PortState.emptyEvents_ok {q : PortState} (h : q.ok = true) : q.emptyEvents.ok = true :=
  (PortState.ok_iff _).mpr ⟨by simp [PortState.emptyEvents], by simp [PortState.emptyEvents], ((PortState.ok_iff q).mp h).2.2⟩

theorem PortState.abandonLong_ok {q : PortState} (h : q.ok = true) : q.abandonLong.ok = true := by
  unfold PortState.abandonLong
  split <;> exact h

theorem State.endBreak_port (s : State) (i : Nat) (cause : EndCause) (at_ : Time) (p : Port) :
    (s.endBreak i cause at_).port p = (s.port p).offer ⟨.breakEnded, i, cause.code, s.now⟩ := by
  unfold State.endBreak
  dsimp only
  split <;> cases p <;> simp [State.port, State.raise, State.now]

/-- Every port's queue and mask in their bounds. -/
def State.portsOk (s : State) : Prop := ∀ p, (s.port p).ok = true

theorem State.Move.portsOk {s t : State} (h : s.Move t) (hs : s.portsOk) : t.portsOk := by
  cases h with
  | raise k a b => exact fun p => by simpa using PortState.offer_ok (hs p) _
  | endBreak index cause at_ => exact fun p => by simpa [State.endBreak_port] using PortState.offer_ok (hs p) _
  | port p q bounds =>
    intro x
    rcases Decidable.em (x = p) with rfl | other
    · simpa using bounds (hs x)
    · have e : (s.withPort p q).port x = s.port x := by cases x <;> cases p <;> first | rfl | exact absurd rfl other
      simpa [e] using hs x
  | softReset p =>
    obtain ⟨own, others⟩ := s.softReset_port p
    intro x
    rcases (by cases x <;> cases p <;> simp [Port.other] : x = p ∨ x = p.other) with rfl | rfl
    · simpa [own] using PortState.emptyEvents_ok (hs x)
    · simpa [others] using PortState.abandonLong_ok (PortState.emptyEvents_ok (hs p.other))
  | restart c => exact fun p => by cases p <;> exact (by decide : PortState.reset.ok = true)
  | _ => exact fun p => by rw [State.port_congr (s := s) (by simp) (by simp)]; exact hs p

theorem State.Move.tb_ok {s t : State} (h : s.Move t) (hs : s.tb.ok = true) : t.tb.ok = true := by
  cases h with
  | tb x ranges => exact ranges hs
  | restart c => exact (by decide : Timebase.reset.ok = true)
  | _ => simpa using hs

theorem Launch.powerOn_ok (l : Launch) : l.powerOn.ok = true := (by decide : Launch.reset.ok = true)

theorem State.Move.launch_ok {s t : State} (h : s.Move t) (hs : s.launch.ok = true) : t.launch.ok = true := by
  cases h with
  | launch x ranges => exact ranges hs
  | forget x => exact hs
  | softReset p => rw [(s.softReset_frame p).2.2.2.2.2.1]; exact hs
  | restart c => exact Launch.powerOn_ok _
  | _ => simpa using hs

theorem Monitor.softReset_ok {m : Monitor} (h : m.ok = true) : m.softReset.ok = true := by
  obtain ⟨order, bound, -, -, range⟩ := (Monitor.ok_iff m).mp h
  cases pending : m.pendingRange with
  | none => simpa [Monitor.ok_iff, Monitor.softReset, pending] using ⟨order, bound, order⟩
  | some r =>
    obtain ⟨order', bound'⟩ := range r pending
    simpa [Monitor.ok_iff, Monitor.softReset, pending] using ⟨order', bound', order'⟩

theorem State.Move.mon_ok {s t : State} (h : s.Move t) (hs : s.mon.ok = true) : t.mon.ok = true := by
  cases h with
  | mon x ranges => exact ranges hs
  | softReset p => simpa using Monitor.softReset_ok hs
  | restart c => exact (by decide : Monitor.reset.ok = true)
  | _ => simpa using hs

theorem State.Move.chg_ok {s t : State} (h : s.Move t) (hs : s.chg.ok = true) : t.chg.ok = true := by
  cases h with
  | chg x ranges => exact ranges hs
  | restart c => exact (by decide : Changeover.reset.ok = true)
  | _ => simpa using hs

/-- Settles O54: each range is kept by every basic update. -/
theorem stepKeepsRanges : Obligations.StepKeepsRanges := by
  intro s t step
  refine ⟨fun station network => ?ports, step_keeps (P := fun s => s.tb.ok = true) (fun _ _ => id) (fun _ _ => State.Move.tb_ok) step,
    step_keeps (P := fun s => s.launch.ok = true) (fun _ _ => id) (fun _ _ => State.Move.launch_ok) step,
    fun mon chg => ⟨step_keeps (P := fun s => s.mon.ok = true) (fun _ _ => id) (fun _ _ => State.Move.mon_ok) step mon,
      step_keeps (P := fun s => s.chg.ok = true) (fun _ _ => id) (fun _ _ => State.Move.chg_ok) step chg⟩⟩
  have ports : t.portsOk := step_keeps (fun _ _ h p => by cases p <;> [exact h .station; exact h .network])
    (fun _ _ => State.Move.portsOk) step (fun p => by cases p <;> assumption)
  exact ⟨ports .station, ports .network⟩

/-! ### Cells (R33, R34) -/

/-- The places and the cells of the store, spelled out. -/
theorem Store.ok_iff (st : Store) : st.ok = true ↔ st.table.length = 128 ∧ st.freeCells + st.cellsHeld = 65536 := by
  simp [Store.ok]

/-- A record put into the table gives back the cells of the one it replaces. -/
theorem State.cellsHeld_set (s : State) (place : Nat) (x : Option GroupRecord) (free : Nat) (h : place < s.store.table.length) :
    Store.cellsHeld ⟨s.store.table.set place x, free⟩ + s.cellsAt place =
      s.store.cellsHeld + (x.elim 0 fun g => g.cells.length) := by
  cases x <;> exact Store.cellsHeld_set_sum s.store.table place _ h

theorem Store.empty_ok : Store.empty.ok = true := by
  rw [Store.ok_iff]
  simp [Store.empty, Store.cellsHeld]

theorem State.freeRecord_store_ok {s : State} (h : s.store.ok = true) (place : Nat) : (s.freeRecord place).store.ok = true := by
  cases record : s.record place with
  | none => rw [State.freeRecord_none record]; exact h
  | some r =>
    obtain ⟨places, cells⟩ := (Store.ok_iff _).mp h
    have sum := s.cellsHeld_set place none (s.store.freeCells + r.cells.length) (State.record_lt record)
    have held : s.cellsAt place = r.cells.length := by simp only [State.cellsAt, record]
    rw [State.freeRecord_some record, Store.ok_iff]
    refine ⟨by simpa using places, ?_⟩
    simp only [Option.elim, held] at sum
    simp only
    omega

theorem State.Move.store_ok {s t : State} (h : s.Move t) (hs : s.store.ok = true) : t.store.ok = true := by
  cases h with
  | freeRecord place => exact State.freeRecord_store_ok hs place
  | cells place r free busy hp kept =>
    obtain ⟨places, cells⟩ := (Store.ok_iff _).mp hs
    have sum := s.cellsHeld_set place (some r) free hp
    refine (Store.ok_iff _).mpr ⟨by simpa using places, ?_⟩
    simp only [Option.elim] at sum
    simp only [State.withStore_store]
    omega
  | forget x => exact Store.empty_ok
  | softReset p => simpa using Store.empty_ok
  | restart c => exact Store.empty_ok
  | endBreak => simpa using hs
  | _ => simpa using hs

/-- Settles O55: each basic update moves cells between the pool and one record, or leaves an empty store. -/
theorem stepKeepsEveryCell : Obligations.StepKeepsEveryCell := fun _ _ hs step =>
  step_keeps (P := fun s => s.store.ok = true) (fun _ _ => id) (fun _ _ => State.Move.store_ok) step hs

/-! ### The tables (R28, R33, R91, R99, R123, R134, R156) -/

/-- The numbers of records of the six tables. -/
def State.sizes (s : State) : List Nat :=
  [s.lanes.length, s.splice.slots.length, s.splice.breaks.length, s.windows.length, s.mon.channels.length,
    s.lines.records.length]

theorem State.shaped_iff (s : State) : s.shaped = true ↔ s.sizes = [4, 8, 32, 8, 8, 12] := by
  simp [State.shaped, State.sizes, and_assoc]

theorem State.releaseLane_lanes (s : State) (i : Nat) :
    (s.releaseLane i).lanes =
      s.lanes.set i
        { s.lane i with
          state := .free, break_ := none, playList := none, position := none, queue := [], clipEnd := false } := rfl

theorem State.endBreak_sizes (s : State) (i : Nat) (cause : EndCause) (at_ : Time) :
    (s.endBreak i cause at_).lanes.length = s.lanes.length ∧
      (s.endBreak i cause at_).splice.slots.length = s.splice.slots.length ∧
      (s.endBreak i cause at_).splice.breaks.length = s.splice.breaks.length := by
  unfold State.endBreak
  dsimp only
  split <;> simp [State.withBreak, State.releaseLane_lanes]

theorem State.claimLane_lanes (s : State) (i b l : Nat) :
    (s.claimLane i b l).lanes = s.lanes.set i ⟨.preroll, some b, some l, some (0, 0), [], 0, 0, 0, false⟩ := by
  simp [State.claimLane, State.withLane]

theorem State.airBreak_lanes (s : State) (i : Nat) (x : BreakRecord) :
    (s.airBreak i x).lanes =
      (match (s.brk i).lane with
        | some l => s.lanes.set l { s.lane l with state := .onAir }
        | none => s.lanes) := by
  unfold State.airBreak
  cases (s.brk i).lane <;> rfl

theorem State.airBreak_sizes (s : State) (i : Nat) (x : BreakRecord) : (s.airBreak i x).lanes.length = s.lanes.length := by
  rw [State.airBreak_lanes]
  split <;> simp

theorem State.Move.shaped {s t : State} (h : s.Move t) (hs : s.shaped = true) : t.shaped = true := by
  rw [State.shaped_iff] at hs ⊢
  cases h with
  | @endBreak i index cause at_ =>
    obtain ⟨lanes, slots, breaks⟩ := s.endBreak_sizes i cause at_
    rw [← hs]
    simp [State.sizes, lanes, slots, breaks]
  | cue i lane x y => simpa [State.sizes, State.claimLane_lanes, State.withBreak] using hs
  | air index x => simpa [State.sizes, State.airBreak_sizes, State.withBreak] using hs
  | cueCounts x slots breaks => simpa [State.sizes, slots, breaks] using hs
  | mon x _ channels => simpa [State.sizes, channels] using hs
  | lines x records => simpa [State.sizes, records] using hs
  | softReset p =>
    simp only [State.sizes, List.cons.injEq] at hs
    simp [State.sizes, Splice.softReset, Splice.reset, Monitor.softReset, hs]
  | restart c =>
    simp only [State.sizes, List.cons.injEq] at hs
    simp [State.sizes, Splice.reset, Monitor.reset, Lines.powerOn, hs]
  | _ => simpa [State.sizes, State.withLane, State.withBreak, State.withSlot, State.withWindow] using hs

theorem State.Move.numbered {s t : State} (h : s.Move t) (hs : s.numbered = true) : t.numbered = true := by
  have emptied : ∀ u : State, u.store = .empty → u.numbered = true := by
    intro u hu
    simp [State.numbered, hu, Store.empty]
  have set : ∀ (place : Nat) (x : Option GroupRecord), (∀ g, x = some g → g.group < 65536) →
      (s.store.table.set place x).all (fun r => match r with | some g => decide (g.group < 65536) | none => true) = true := by
    intro place x hx
    refine List.all_eq_true.mpr fun r hr => ?_
    rcases List.mem_or_eq_of_mem_set hr with old | rfl
    · exact List.all_eq_true.mp hs r old
    · cases r with
      | none => rfl
      | some g => simpa using hx g rfl
  cases h with
  | freeRecord place =>
    cases record : s.record place with
    | none => rw [State.freeRecord_none record]; exact hs
    | some r =>
      unfold State.numbered
      rw [State.freeRecord_some record]
      exact set place none (by simp)
  | cells place r free busy hp kept group => exact set place (some r) (by rintro g ⟨⟩; exact group hs)
  | forget x => exact emptied _ rfl
  | softReset p => exact emptied _ (by simp)
  | restart c => exact emptied _ rfl
  | _ => simpa [State.numbered] using hs

theorem State.Move.frozenIsLocked {s t : State} (h : s.Move t) (hs : s.frozenIsLocked = true) : t.frozenIsLocked = true := by
  cases h with
  | lines x _ frozen => exact frozen hs
  | softReset p =>
    simp only [State.frozenIsLocked, State.softReset_frame, List.all_map]
    exact hs
  | restart c =>
    simp only [State.frozenIsLocked, State.restarted_frame, Lines.powerOn, List.all_map]
    exact List.all_eq_true.mpr fun l _ => rfl
  | _ => simpa [State.frozenIsLocked] using hs

/-- Settles O56: no basic update changes the number of records of a table but to that of a reset, a group opened has a 16-bit
number, and a line is frozen only as it is locked. -/
theorem stepKeepsTables : Obligations.StepKeepsTables := fun _ _ step =>
  ⟨step_keeps (P := fun s => s.shaped = true) (fun _ _ => id) (fun _ _ => State.Move.shaped) step,
    step_keeps (P := fun s => s.numbered = true) (fun _ _ => id) (fun _ _ => State.Move.numbered) step,
    step_keeps (P := fun s => s.frozenIsLocked = true) (fun _ _ => id) (fun _ _ => State.Move.frozenIsLocked) step⟩

end Sys2Proof.Machine
end

