-- ==== Sys2Proof/Proofs/SpliceInvariants.lean ====
section
/-! What every step keeps of clip memory, of the lanes with their breaks, and of the part outside RUN. -/

namespace Sys2Proof.Machine

open Sys2Proof

-- One proof after the other: proofs that wait for each other hold a thread each.
set_option Elab.async false

/-! ### What a basic update does to clip memory and the lanes -/

theorem State.endBreak_clip (s : State) (i : Nat) (cause : EndCause) (at_ : Time) :
    (s.endBreak i cause at_).clip = ((s.brk i).lane.elim s fun l => s.releaseLane l).clip ∧
      (s.endBreak i cause at_).lanes = ((s.brk i).lane.elim s fun l => s.releaseLane l).lanes := by
  cases lane : (s.brk i).lane <;> simp [State.endBreak, lane, State.withBreak]

theorem State.releaseLane_clip (s : State) (i : Nat) :
    (s.releaseLane i).clip = { s.clip with service := s.clip.service.map (·.discardLane i) } := by
  simp [State.releaseLane, State.withLane]

theorem Access.discardLane_write {a : Access} {i slot : Nat} {p : Port} {packet : Packet} {x : Bool}
    (h : a.discardLane i = .write p slot packet x) : a = .write p slot packet x := by
  cases a with
  | lane j a d => simp [Access.discardLane] at h
  | _ => exact h

theorem Access.discardLane_lane {a : Access} {i j slot : Nat} (h : a.discardLane i = .lane j slot false) :
    a = .lane j slot false ∧ j ≠ i := by
  cases a with
  | lane j' slot' d =>
    simp only [Access.discardLane, Access.lane.injEq, Bool.or_eq_false_iff, beq_eq_false_iff_ne] at h ⊢
    obtain ⟨rfl, rfl, rfl, ne⟩ := h
    exact ⟨⟨rfl, rfl, rfl⟩, ne⟩
  | write => simp [Access.discardLane] at h
  | read => simp [Access.discardLane] at h

theorem Access.abandon_write {a : Access} {q p : Port} {slot : Nat} {packet : Packet} {x : Bool}
    (h : a.abandon q = .write p slot packet x) : ∃ y, a = .write p slot packet y := by
  cases a with
  | write p' slot' packet' y =>
    simp only [Access.abandon, Access.write.injEq] at h
    obtain ⟨rfl, rfl, rfl, -⟩ := h
    exact ⟨y, rfl⟩
  | read => simp [Access.abandon] at h
  | lane => simp [Access.abandon] at h

theorem Access.abandon_lane {a : Access} {q : Port} {j slot : Nat} {x : Bool} (h : a.abandon q = .lane j slot x) :
    a = .lane j slot x := by
  cases a with
  | write => simp [Access.abandon] at h
  | read => simp [Access.abandon] at h
  | lane => exact h

/-! ### The access that arbitration chooses (R87) -/

theorem State.waitingLane_waits {s : State} {i a : Nat} (h : s.waitingLane = some (i, a)) : (s.lane i).waits = true := by
  obtain ⟨j, -, chosen⟩ := List.exists_of_findSome?_eq_some h
  split at chosen
  · next waits =>
    obtain ⟨slot, -, rest⟩ := Option.map_eq_some_iff.mp chosen
    cases rest
    exact waits
  · cases chosen

theorem State.portAccess_write {s : State} {p q : Port} {slot : Nat} {packet : Packet} {x : Bool}
    (h : s.portAccess p = some (.write q slot packet x)) : ∃ c, (s.port p).clipCommand = some c ∧ slot = c.next := by
  obtain ⟨c, command, access⟩ := Option.map_eq_some_iff.mp h
  split at access
  · simp only [Access.write.injEq] at access
    exact ⟨c, command, access.2.1.symm⟩
  · cases access

theorem State.portAccess_lane {s : State} {p : Port} {j slot : Nat} {x : Bool} : s.portAccess p ≠ some (.lane j slot x) := by
  intro h
  obtain ⟨c, -, access⟩ := Option.map_eq_some_iff.mp h
  split at access <;> cases access

/-- Arbitration changes nothing of clip memory but the service and the turn; a service that it chooses is a waiting lane's
or that of a port's clip command. -/
theorem State.arbitrate_clip (s : State) :
    s.arbitrate.clip.cells = s.clip.cells ∧
      (s.arbitrate.clip.service = s.clip.service ∨
        (∃ i a, (s.lane i).waits = true ∧ s.arbitrate.clip.service = some (.lane i a false)) ∨
        ∃ p a, s.portAccess p = some a ∧ s.arbitrate.clip.service = some a) := by
  unfold State.arbitrate
  split
  · exact ⟨rfl, .inl rfl⟩
  · split
    · next i a waiting => exact ⟨rfl, .inr (.inl ⟨i, a, State.waitingLane_waits waiting, rfl⟩)⟩
    · split
      · exact ⟨rfl, .inr (.inr ⟨_, _, by assumption, rfl⟩)⟩
      · exact ⟨rfl, .inr (.inr ⟨_, _, by assumption, rfl⟩)⟩
      · exact ⟨rfl, .inl rfl⟩

/-! ### Clip memory (R83 to R86) -/

/-- The slot of a write in service is a slot of clip memory. -/
theorem Clip.serviceOk_iff (c : Clip) :
    c.serviceOk = true ↔ ∀ p slot packet x, c.service = some (.write p slot packet x) → slot < clipSlots := by
  unfold Clip.serviceOk
  split
  · next p slot packet x service =>
    rw [decide_eq_true_eq, service]
    exact ⟨fun h p' slot' packet' x' e => by cases e; exact h, fun h => h p slot packet x rfl⟩
  · next other => exact ⟨fun _ p slot packet x e => absurd e (other p slot packet x), fun _ => rfl⟩

theorem Clip.serviceOk_congr {c d : Clip} (h : d.service = c.service) : d.serviceOk = c.serviceOk := by
  unfold Clip.serviceOk
  rw [h]

theorem State.clipSound_iff (s : State) :
    s.clipSound = true ↔ Memory.wf s.clip.cells = true ∧ s.clip.serviceOk = true ∧ ∀ p, (s.port p).clipOk = true := by
  simp only [State.clipSound, Bool.and_eq_true, and_assoc]
  exact ⟨fun ⟨cells, service, station, network⟩ => ⟨cells, service, fun p => by cases p <;> assumption⟩,
    fun ⟨cells, service, ports⟩ => ⟨cells, service, ports .station, ports .network⟩⟩

/-- The access in service after an update is one that was in service, or none. -/
theorem Clip.serviceOk_of_write {c d : Clip} (h : c.serviceOk = true)
    (kept : ∀ p slot packet x, d.service = some (.write p slot packet x) → ∃ y, c.service = some (.write p slot packet y)) :
    d.serviceOk = true :=
  d.serviceOk_iff.mpr fun p slot packet x service =>
    let ⟨y, before⟩ := kept p slot packet x service
    c.serviceOk_iff.mp h p slot packet y before

theorem PortState.clipOk_congr {q r : PortState} (h : r.inProgress = q.inProgress) : r.clipOk = q.clipOk := by
  simp only [PortState.clipOk, PortState.clipCommand, h]

theorem PortState.clipOk_abandonLong (q : PortState) (h : q.clipOk = true) : q.abandonLong.clipOk = true := by
  unfold PortState.abandonLong
  split
  · exact h
  · rfl

theorem State.Move.ports_clipOk {s t : State} (h : s.Move t) (hs : ∀ p, (s.port p).clipOk = true) (p : Port) :
    (t.port p).clipOk = true := by
  cases h with
  | raise k a b => rw [State.raise_port, PortState.clipOk_congr (q := s.port p) (by simp)]; exact hs p
  | endBreak index cause at_ =>
    rw [State.endBreak_port, PortState.clipOk_congr (q := s.port p) (by simp)]
    exact hs p
  | port x q bounds clip =>
    rcases Decidable.em (p = x) with rfl | other
    · simpa using clip (hs p)
    · have e : (s.withPort x q).port p = s.port p := by cases x <;> cases p <;> first | rfl | exact absurd rfl other
      simpa [e] using hs p
  | softReset x =>
    obtain ⟨own, others⟩ := s.softReset_port x
    rcases (by cases x <;> cases p <;> simp [Port.other] : p = x ∨ p = x.other) with rfl | rfl
    · rw [own]; exact hs p
    · rw [others]; exact PortState.clipOk_abandonLong _ (hs _)
  | restart c => cases p <;> exact (by decide : PortState.reset.clipOk = true)
  | _ => rw [State.port_congr (s := s) (by simp) (by simp)]; exact hs p

theorem State.arbitrate_serviceOk {s : State} (hs : s.clip.serviceOk = true) (ports : ∀ p, (s.port p).clipOk = true) :
    s.arbitrate.clip.serviceOk = true := by
  refine (Clip.serviceOk_iff _).mpr fun p slot packet x service => ?_
  rcases s.arbitrate_clip.2 with same | ⟨i, a, -, lane⟩ | ⟨q, a, access, port⟩
  · exact (Clip.serviceOk_iff _).mp hs p slot packet x (same ▸ service)
  · rw [lane] at service
    cases service
  · rw [port] at service
    cases service
    obtain ⟨c, command, rfl⟩ := State.portAccess_write access
    exact ((ClipCommand.ok_iff c).mp (PortState.clipOk_of_clip (ports q) command)).1

theorem State.releaseLane_serviceOk {s : State} (i : Nat) (hs : s.clip.serviceOk = true) :
    (s.releaseLane i).clip.serviceOk = true := by
  refine Clip.serviceOk_of_write hs fun p slot packet x service => ⟨x, ?_⟩
  rw [State.releaseLane_clip] at service
  obtain ⟨a, before, discarded⟩ := Option.map_eq_some_iff.mp service
  exact before.trans (congrArg some (Access.discardLane_write discarded))

theorem Clip.softReset_serviceOk {c : Clip} (p : Port) (h : c.serviceOk = true) : (c.softReset p).serviceOk = true := by
  refine Clip.serviceOk_of_write h fun q slot packet x service => ?_
  obtain ⟨a, before, discarded⟩ := Option.map_eq_some_iff.mp service
  obtain ⟨y, abandoned⟩ := Access.abandon_write discarded
  exact ⟨y, before.trans (congrArg some (Access.discardLane_write
    (Access.discardLane_write (Access.discardLane_write (Access.discardLane_write abandoned)))))⟩

theorem State.Move.clipSound {s t : State} (h : s.Move t) (hs : s.clipSound = true) : t.clipSound = true := by
  obtain ⟨memory, service, ports⟩ := s.clipSound_iff.mp hs
  refine t.clipSound_iff.mpr ⟨?_, ?_, h.ports_clipOk ports⟩
  case refine_1 =>
    cases h with
    | arbitrate => rw [s.arbitrate_clip.1]; exact memory
    | cue i lane x y => simpa [State.claimLane, State.arbitrate_clip] using memory
    | writeSlot q slot packet abandoned write =>
      exact Memory.wf_write _ _ _ memory ((Clip.serviceOk_iff _).mp service q slot packet abandoned write)
    | @endBreak i index cause at_ =>
      rw [(s.endBreak_clip i cause at_).1]
      cases (s.brk i).lane with
      | none => exact memory
      | some l => simpa [State.releaseLane_clip] using memory
    | restart c wf => exact wf hs
    | softReset p => simpa [Clip.softReset] using memory
    | _ => simpa [State.withPlayList, State.withLane, State.withBreak, State.withSlot, State.withWindow] using memory
  case refine_2 =>
    cases h with
    | arbitrate => exact State.arbitrate_serviceOk service ports
    | cue i lane x y =>
      rw [(s.cueBreak_frame i lane x y).2.2.2.2.2.2.2.2.2.2.2.2.2.2.1]
      exact State.arbitrate_serviceOk (by simpa [State.withLane] using service) (fun p => by
        rw [State.port_congr (s := s) (by simp [State.withLane]) (by simp [State.withLane])]; exact ports p)
    | endService => exact (Clip.serviceOk_iff _).mpr fun p slot packet x none_ => by simp at none_
    | laneRead => exact (Clip.serviceOk_iff _).mpr fun p slot packet x none_ => by simp [State.withLane] at none_
    | @endBreak i index cause at_ =>
      rw [(s.endBreak_clip i cause at_).1]
      cases (s.brk i).lane with
      | none => exact service
      | some l => exact State.releaseLane_serviceOk l service
    | restart c wf none_ => exact (Clip.serviceOk_iff _).mpr fun p slot packet x some_ => by simp [none_] at some_
    | softReset p => simpa using Clip.softReset_serviceOk p service
    | _ =>
      refine (Clip.serviceOk_congr ?_).trans service
      simp [State.withPlayList, State.withLane, State.withBreak, State.withSlot, State.withWindow, Clip.writeSlot]

/-! ### The queues of the lanes (R92) -/

theorem State.queuesBounded_iff (s : State) :
    s.queuesBounded = true ↔
      (∀ l ∈ s.lanes, l.queue.length ≤ 64) ∧
        ∀ i a, s.clip.service = some (.lane i a false) → (s.lane i).queue.length < 64 := by
  unfold State.queuesBounded
  rw [Bool.and_eq_true, List.all_eq_true]
  refine and_congr (by simp) ?_
  split
  · next i a service =>
    rw [decide_eq_true_eq, service]
    exact ⟨fun h j b e => by cases e; exact h, fun h => h i a rfl⟩
  · next other => exact ⟨fun _ i a e => absurd e (other i a), fun _ => rfl⟩

theorem State.queuesBounded_congr {s t : State} (lanes : t.lanes = s.lanes) (service : t.clip.service = s.clip.service) :
    t.queuesBounded = s.queuesBounded := by
  unfold State.queuesBounded State.lane
  rw [lanes, service]

/-- The record of a lane replaced: what it holds there, and what every other lane keeps. -/
theorem State.lane_withLane_cases (s : State) (i j : Nat) (x : Lane) :
    (s.withLane i x).lane j = s.lane j ∨ j = i ∧ (s.withLane i x).lane j = x := by
  rcases Decidable.em (j = i) with rfl | ne
  · rcases Nat.lt_or_ge j s.lanes.length with lt | ge
    · exact .inr ⟨rfl, State.lane_withLane x lt⟩
    · exact .inl (by simp [State.withLane, State.lane, List.set_eq_of_length_le ge])
  · exact .inl (State.lane_withLane_ne x ne)

/-- A lane record replaced by one with no more packets, and no read begun. -/
theorem State.withLane_queuesBounded {s : State} (hs : s.queuesBounded = true) {t : State} {i : Nat} {x : Lane}
    (lanes : t.lanes = (s.withLane i x).lanes) (queue : x.queue.length ≤ (s.lane i).queue.length)
    (service : ∀ j a, t.clip.service = some (.lane j a false) → s.clip.service = some (.lane j a false)) :
    t.queuesBounded = true := by
  obtain ⟨all, reading⟩ := s.queuesBounded_iff.mp hs
  have bound : ∀ j, (s.lane j).queue.length ≤ 64 := by
    intro j
    rcases Nat.lt_or_ge j s.lanes.length with lt | ge
    · simpa [State.lane, lt] using all _ (List.getElem_mem lt)
    · simp [State.lane, List.getElem?_eq_none ge, Lane.reset]
  refine t.queuesBounded_iff.mpr ⟨fun l hl => ?_, fun j a h => ?_⟩
  · rw [lanes] at hl
    rcases List.mem_or_eq_of_mem_set (by simpa [State.withLane] using hl) with old | rfl
    · exact all l old
    · exact queue.trans (bound i)
  · rw [State.lane_congr lanes]
    have before := reading j a (service j a h)
    rcases s.lane_withLane_cases i j x with same | ⟨rfl, new⟩
    · rw [same]; exact before
    · rw [new]; exact queue.trans_lt before

theorem State.arbitrate_queuesBounded {s : State} (hs : s.queuesBounded = true) : s.arbitrate.queuesBounded = true := by
  obtain ⟨all, reading⟩ := s.queuesBounded_iff.mp hs
  refine s.arbitrate.queuesBounded_iff.mpr ⟨by simpa using all, fun i a service => ?_⟩
  rw [State.lane_congr (s := s) (by simp)]
  rcases s.arbitrate_clip.2 with same | ⟨j, b, waits, lane⟩ | ⟨p, b, access, port⟩
  · exact reading i a (same ▸ service)
  · rw [lane] at service
    cases service
    simp only [Lane.waits, Bool.and_eq_true, decide_eq_true_eq] at waits
    exact waits.1.2
  · rw [port] at service
    cases service
    exact absurd access State.portAccess_lane

theorem State.releaseLane_queuesBounded {s : State} (i : Nat) (hs : s.queuesBounded = true) :
    (s.releaseLane i).queuesBounded = true := by
  refine State.withLane_queuesBounded (i := i) hs (State.releaseLane_lanes s i) (by simp) fun j a service => ?_
  rw [State.releaseLane_clip] at service
  obtain ⟨b, before, discarded⟩ := Option.map_eq_some_iff.mp service
  exact before.trans (congrArg some (Access.discardLane_lane discarded).1)

theorem Lane.readDone_queue (l : Lane) (segments : List Segment) (p : Packet) :
    (l.readDone segments p).queue.length ≤ l.queue.length + 1 := by
  unfold Lane.readDone
  dsimp only
  split <;> simp

/-- A read done puts one packet into a queue that had room for it, and no read is in service then. -/
theorem State.laneRead_queuesBounded {s : State} {i slot : Nat} (segments : List Segment) (p : Packet)
    (service : s.clip.service = some (.lane i slot false)) (hs : s.queuesBounded = true) :
    (s.endService.withLane i ((s.lane i).readDone segments p)).queuesBounded = true := by
  obtain ⟨all, reading⟩ := s.queuesBounded_iff.mp hs
  refine (State.queuesBounded_iff _).mpr ⟨fun l hl => ?_, fun j a none_ => by simp [State.withLane] at none_⟩
  rcases List.mem_or_eq_of_mem_set (by simpa [State.withLane] using hl) with old | rfl
  · exact all l old
  · have room := reading i slot service
    have grown := (s.lane i).readDone_queue segments p
    omega

/-- Four lanes without packets. -/
theorem State.queuesBounded_of_reset {t : State} (lanes : t.lanes = List.replicate 4 .reset) : t.queuesBounded = true := by
  refine t.queuesBounded_iff.mpr ⟨fun l hl => ?_, fun i a _ => ?_⟩
  · rw [lanes] at hl
    simp [List.eq_of_mem_replicate hl, Lane.reset]
  · have empty : t.lane i = .reset := by
      simp only [State.lane, lanes, List.getD_eq_getElem?_getD, List.getElem?_replicate]
      split <;> rfl
    simp [empty, Lane.reset]

theorem State.Move.queuesBounded {s t : State} (h : s.Move t) (hs : s.queuesBounded = true) : t.queuesBounded = true := by
  cases h with
  | arbitrate => exact State.arbitrate_queuesBounded hs
  | endService =>
    exact (State.queuesBounded_iff _).mpr
      ⟨by simpa using (s.queuesBounded_iff.mp hs).1, fun i a none_ => by simp at none_⟩
  | laneRead i slot segments p service => exact State.laneRead_queuesBounded segments p service hs
  | lane i x state break_ queue =>
    exact State.withLane_queuesBounded (i := i) (x := x) hs rfl queue fun j a service => by simpa [State.withLane] using service
  | @endBreak i index cause at_ =>
    obtain ⟨clip, lanes⟩ := s.endBreak_clip i cause at_
    rw [State.queuesBounded_congr lanes (congrArg Clip.service clip)]
    cases (s.brk i).lane with
    | none => exact hs
    | some l => exact State.releaseLane_queuesBounded l hs
  | cue i lane x y =>
    rw [State.queuesBounded_congr (s := s.claimLane lane i (s.brk i).playList) (by simp) (by simp)]
    refine State.arbitrate_queuesBounded (State.withLane_queuesBounded (i := lane) hs rfl (by simp) fun j a service => ?_)
    simpa [State.withLane] using service
  | @air i index x before after lane slot =>
    unfold State.airBreak
    cases (s.brk i).lane with
    | none => exact (State.queuesBounded_congr (by simp [State.withBreak]) (by simp [State.withBreak])).trans hs
    | some l =>
      refine State.withLane_queuesBounded (i := l) (x := { s.lane l with state := .onAir }) hs ?_ (le_refl _) fun j a service => ?_
      · simp [State.withLane, State.withBreak, State.lane]
      · simpa [State.withLane, State.withBreak] using service
  | softReset p => exact State.queuesBounded_of_reset (by simp)
  | restart c => exact State.queuesBounded_of_reset (by simp)
  | _ =>
    refine (State.queuesBounded_congr ?_ ?_).trans hs <;>
      simp [State.withBreak, State.withSlot, State.withWindow, State.withPlayList, Clip.writeSlot]

/-- Settles O57: a write in service is within clip memory as its command was, and a lane's read finds the room its queue had
when the read was chosen. -/
theorem stepKeepsClipMemoryAndQueues : Obligations.StepKeepsClipMemoryAndQueues := fun _ _ step =>
  ⟨step_keeps (P := fun s => s.clipSound = true) (fun _ _ => id) (fun _ _ => State.Move.clipSound) step,
    step_keeps (P := fun s => s.queuesBounded = true) (fun _ _ => id) (fun _ _ => State.Move.queuesBounded) step⟩

/-! ### The law of CUED and ON_AIR breaks (R108) -/

theorem State.spliceLaw_iff (s : State) :
    s.spliceLaw = true ↔
      s.lanes.length = 4 ∧ (∀ i < 32, s.bound i = true) ∧ ∀ i < 32, ∀ j < 32, s.apart i j = true := by
  simp only [State.spliceLaw, Bool.and_eq_true, decide_eq_true_eq, List.all_eq_true, mem_breakIndices]
  exact ⟨fun ⟨four, h⟩ => ⟨four, fun i hi => (h i hi).1, fun i hi => (h i hi).2⟩,
    fun ⟨four, own, two⟩ => ⟨four, fun i hi => ⟨own i hi, two i hi⟩⟩⟩

/-- A break and its lane belong together, spelled out. -/
theorem State.bound_iff (s : State) (i : Nat) :
    s.bound i = true ↔
      ((s.brk i).lane = none ∧ (s.brk i).live = false) ∨
        ∃ l < 4, (s.brk i).lane = some l ∧ (s.brk i).live = true ∧ (s.lane l).break_ = some i ∧
          (s.lane l).state = (if (s.brk i).state == .onAir then .onAir else .preroll) := by
  unfold State.bound
  cases lane : (s.brk i).lane with
  | none => simp
  | some l => simp [and_assoc]; tauto

theorem State.apart_iff (s : State) (i j : Nat) :
    s.apart i j = true ↔ ((s.brk i).live = true → (s.brk j).live = true → (s.brk i).slot = (s.brk j).slot → i = j) := by
  simp only [State.apart, Bool.or_eq_true, Bool.not_eq_true', beq_iff_eq, Bool.and_eq_false_iff, beq_eq_false_iff_ne]
  grind

theorem BreakRecord.live_congr {b c : BreakRecord} (h : c.state = b.state) : c.live = b.live := by
  simp [BreakRecord.live, h]

/-- The law speaks of a break's state, lane and slot, and of a lane's break and state. -/
theorem State.spliceLaw_congr {s t : State} (lanes : t.lanes.length = s.lanes.length)
    (breaks : ∀ i, (t.brk i).state = (s.brk i).state ∧ (t.brk i).lane = (s.brk i).lane ∧ (t.brk i).slot = (s.brk i).slot)
    (lane : ∀ i, (t.lane i).break_ = (s.lane i).break_ ∧ (t.lane i).state = (s.lane i).state) :
    t.spliceLaw = s.spliceLaw := by
  have live : ∀ i, (t.brk i).live = (s.brk i).live := fun i => BreakRecord.live_congr (breaks i).1
  have own : ∀ i, t.bound i = s.bound i := fun i => by simp [State.bound, breaks, lane, live]
  have two : ∀ i, t.apart i = s.apart i := fun i => by funext j; simp [State.apart, breaks, live]
  simp [State.spliceLaw, lanes, own, two]

/-- The law after a change of one break and of a lane that no other break holds. -/
theorem State.spliceLaw_of_change {s t : State} (hs : s.spliceLaw = true) (i : Nat) (four : t.lanes.length = s.lanes.length)
    (breaks : ∀ j, j ≠ i → t.brk j = s.brk j)
    (lanes : ∀ j < 32, j ≠ i → ∀ l, (s.brk j).lane = some l → t.lane l = s.lane l)
    (own : i < 32 → t.bound i = true)
    (slots : i < 32 → (t.brk i).live = true → ∀ j < 32, j ≠ i → (s.brk j).live = true → (s.brk j).slot ≠ (t.brk i).slot) :
    t.spliceLaw = true := by
  obtain ⟨length, bound, apart⟩ := s.spliceLaw_iff.mp hs
  refine t.spliceLaw_iff.mpr ⟨four.trans length, fun j hj => ?bound, fun j hj k hk => ?apart⟩
  case bound =>
    rcases Decidable.em (j = i) with rfl | ne
    · exact own hj
    · rw [← bound j hj]
      unfold State.bound
      rw [breaks j ne]
      cases held : (s.brk j).lane with
      | none => rfl
      | some l => simp only [lanes j hj ne l held]
  case apart =>
    refine (t.apart_iff j k).mpr fun live live' slot => ?_
    rcases Decidable.em (j = i) with same | ne <;> rcases Decidable.em (k = i) with same' | ne'
    · exact same.trans same'.symm
    · rw [same] at live slot hj
      rw [breaks k ne'] at live' slot
      exact absurd slot.symm (slots hj live k hk ne' live')
    · rw [same'] at live' slot hk
      rw [breaks j ne] at live slot
      exact absurd slot (slots hk live' j hj ne live)
    · rw [breaks j ne] at live slot
      rw [breaks k ne'] at live' slot
      exact (s.apart_iff j k).mp (apart j hj k hk) live live' slot

/-- Two breaks do not hold one lane. -/
theorem State.lane_ne_of_law {s : State} (hs : s.spliceLaw = true) {i j l k : Nat} (hi : i < 32) (hj : j < 32) (ne : j ≠ i)
    (mine : (s.brk i).lane = some l) (other : (s.brk j).lane = some k) : k ≠ l := by
  obtain ⟨-, bound, -⟩ := s.spliceLaw_iff.mp hs
  rintro rfl
  rcases (s.bound_iff i).mp (bound i hi) with ⟨none_, -⟩ | ⟨l, -, held, -, break_, -⟩
  · simp [mine] at none_
  · rcases (s.bound_iff j).mp (bound j hj) with ⟨none_, -⟩ | ⟨l', -, held', -, break_', -⟩
    · simp [other] at none_
    · rw [mine] at held; rw [other] at held'
      cases held; cases held'
      rw [break_] at break_'
      exact ne (Option.some.inj break_').symm

/-- The record of a break replaced: it holds there, unless the table has no such place. -/
theorem State.brk_withBreak_cases (s : State) (i : Nat) (x : BreakRecord) :
    (s.withBreak i x).brk i = x ∨ (s.withBreak i x).brk i = s.brk i ∧ s.brk i = .empty := by
  rcases Nat.lt_or_ge i s.splice.breaks.length with lt | ge
  · exact .inl (State.brk_withBreak x lt)
  · refine .inr ⟨?_, ?_⟩
    · simp [State.withBreak, State.brk, List.set_eq_of_length_le ge]
    · simp [State.brk, List.getElem?_eq_none ge]

theorem State.endBreak_brk (s : State) (i j : Nat) (cause : EndCause) (at_ : Time) :
    (s.endBreak i cause at_).brk j = (s.withBreak i ((s.brk i).endedWith cause at_)).brk j := by
  refine State.brk_congr ?_ j
  cases lane : (s.brk i).lane <;> simp [State.endBreak, lane, State.withBreak, BreakRecord.endedWith]

theorem State.Move.endBreak_spliceLaw {s : State} {i : Nat} (index : i < 32) (cause : EndCause) (at_ : Time)
    (hs : s.spliceLaw = true) : (s.endBreak i cause at_).spliceLaw = true := by
  have idle : ((s.endBreak i cause at_).brk i).lane = none ∧ ((s.endBreak i cause at_).brk i).live = false := by
    rw [State.endBreak_brk]
    rcases s.brk_withBreak_cases i ((s.brk i).endedWith cause at_) with new | ⟨old, empty⟩
    · rw [new]; exact ⟨rfl, rfl⟩
    · rw [old, empty]; exact ⟨rfl, rfl⟩
  refine State.spliceLaw_of_change hs i (s.endBreak_sizes i cause at_).1 (fun j ne => ?breaks) (fun j hj ne k held => ?lanes)
    (fun _ => (State.bound_iff _ i).mpr (.inl idle)) fun _ live => absurd live (by simp [idle.2])
  case breaks => rw [State.endBreak_brk, State.brk_withBreak_ne _ ne]
  case lanes =>
    refine (State.lane_congr (s.endBreak_clip i cause at_).2 k).trans ?_
    cases mine : (s.brk i).lane with
    | none => rfl
    | some l =>
      have other := State.lane_ne_of_law hs index hj ne mine held
      simp [State.lane, State.releaseLane_lanes, List.getElem?_set_ne other.symm]

theorem State.Move.cue_spliceLaw {s : State} {i lane : Nat} (x : Time) (y : Option (Time × YSource))
    (slot : s.liveBreak (s.brk i).slot = none) (free : s.freeLane = some lane)
    (hs : s.spliceLaw = true) : (s.cueBreak i lane x y).spliceLaw = true := by
  obtain ⟨length, bound, -⟩ := s.spliceLaw_iff.mp hs
  have isFree : (s.lane lane).state = .free := by simpa using List.find?_some free
  have small : lane < 4 := List.mem_range.mp (List.mem_of_find?_eq_some free)
  have brk : ∀ j, (s.cueBreak i lane x y).brk j =
      (s.withBreak i { s.brk i with state := .cued, x := some x, lane := some lane, y := y }).brk j :=
    fun j => State.brk_congr (by simp) j
  have lanes : ∀ k, (s.cueBreak i lane x y).lane k =
      (s.withLane lane ⟨.preroll, some i, some (s.brk i).playList, some (0, 0), [], 0, 0, 0, false⟩).lane k :=
    fun k => State.lane_congr (by simp [State.claimLane_lanes, State.withLane]) k
  refine State.spliceLaw_of_change hs i (by simp [State.claimLane_lanes]) (fun j ne => ?breaks) (fun j hj ne k held => ?lanes)
    (fun hi => ?own) (fun hi live j hj ne live' => ?slots)
  case breaks => rw [brk, State.brk_withBreak_ne _ ne]
  case lanes =>
    have other : k ≠ lane := by
      rintro rfl
      rcases (s.bound_iff j).mp (bound j hj) with ⟨none_, -⟩ | ⟨l, -, mine, -, -, state⟩
      · simp [held] at none_
      · rw [held] at mine
        cases mine
        rw [isFree] at state
        split at state <;> cases state
    rw [lanes, State.lane_withLane_ne _ other]
  case own =>
    rw [State.bound_iff, brk]
    rcases s.brk_withBreak_cases i { s.brk i with state := .cued, x := some x, lane := some lane, y := y } with new | ⟨old, empty⟩
    · have taken := (lanes lane).trans (State.lane_withLane _ (by omega))
      rw [new]
      exact .inr ⟨lane, small, rfl, rfl, by rw [taken], by rw [taken]; rfl⟩
    · rw [old, empty]
      exact .inl ⟨rfl, rfl⟩
  case slots =>
    have mine : ((s.cueBreak i lane x y).brk i).slot = (s.brk i).slot := by
      rw [brk]
      rcases s.brk_withBreak_cases i { s.brk i with state := .cued, x := some x, lane := some lane, y := y } with new | ⟨old, -⟩
      · rw [new]
      · rw [old]
    intro same
    have none_ := List.find?_eq_none.mp slot j (List.mem_range.mpr hj)
    simp [live', same, mine] at none_

theorem State.Move.air_spliceLaw {s : State} {i : Nat} (index : i < 32) (x : BreakRecord) (before : (s.brk i).state = .cued)
    (after : x.state = .onAir) (lane : x.lane = (s.brk i).lane) (slot : x.slot = (s.brk i).slot) (hs : s.spliceLaw = true) :
    (s.airBreak i x).spliceLaw = true := by
  obtain ⟨length, bound, apart⟩ := s.spliceLaw_iff.mp hs
  have live : (s.brk i).live = true := by simp [BreakRecord.live, before]
  rcases (s.bound_iff i).mp (bound i index) with ⟨-, dead⟩ | ⟨l, small, mine, -, break_, -⟩
  · simp [live] at dead
  have brk : ∀ j, (s.airBreak i x).brk j = (s.withBreak i x).brk j := fun j => State.brk_congr (by simp) j
  have lanes : ∀ k, (s.airBreak i x).lane k = (s.withLane l { s.lane l with state := .onAir }).lane k :=
    fun k => State.lane_congr (by simp only [State.airBreak_lanes, mine]; rfl) k
  have own : (s.airBreak i x).brk i = x := by
    rw [brk]
    rcases s.brk_withBreak_cases i x with new | ⟨-, empty⟩
    · exact new
    · rw [empty] at mine
      cases mine
  refine State.spliceLaw_of_change hs i (s.airBreak_sizes i x) (fun j ne => ?breaks) (fun j hj ne k held => ?lanes)
    (fun _ => ?own) (fun _ _ j hj ne live' => ?slots)
  case breaks => rw [brk, State.brk_withBreak_ne _ ne]
  case lanes => rw [lanes, State.lane_withLane_ne _ (State.lane_ne_of_law hs index hj ne mine held)]
  case own =>
    have aired := (lanes l).trans (State.lane_withLane _ (by omega))
    rw [State.bound_iff, own]
    exact .inr ⟨l, small, lane.trans mine, by simp [BreakRecord.live, after], by rw [aired]; exact break_, by simp [aired, after]⟩
  case slots =>
    rw [own, slot]
    exact fun same => ne ((s.apart_iff j i).mp (apart j hj i index) live' live same)

/-- With every break empty and four lanes the law holds. -/
theorem State.spliceLaw_of_empty {t : State} (lanes : t.lanes = List.replicate 4 .reset)
    (breaks : t.splice.breaks = List.replicate 32 .empty) : t.spliceLaw = true := by
  have empty : ∀ i, t.brk i = .empty := fun i => by
    simp only [State.brk, breaks, List.getD_eq_getElem?_getD, List.getElem?_replicate]
    split <;> rfl
  refine t.spliceLaw_iff.mpr ⟨by simp [lanes], fun i _ => (t.bound_iff i).mpr (.inl ?_), fun i _ j _ => (t.apart_iff i j).mpr ?_⟩
  · rw [empty]; exact ⟨rfl, rfl⟩
  · rw [empty]; exact fun live => nomatch live

theorem Lane.readDone_frame (l : Lane) (segments : List Segment) (p : Packet) :
    (l.readDone segments p).break_ = l.break_ ∧ (l.readDone segments p).state = l.state := by
  unfold Lane.readDone
  dsimp only
  split <;> exact ⟨rfl, rfl⟩

theorem State.withLane_spliceLaw {s t : State} {i : Nat} {x : Lane} (lanes : t.lanes = (s.withLane i x).lanes)
    (splice : t.splice = s.splice) (break_ : x.break_ = (s.lane i).break_) (state : x.state = (s.lane i).state) :
    t.spliceLaw = s.spliceLaw := by
  refine State.spliceLaw_congr (by simp [lanes, State.withLane]) (fun j => by simp [State.brk_congr splice]) fun j => ?_
  rw [State.lane_congr lanes]
  rcases s.lane_withLane_cases i j x with same | ⟨rfl, new⟩
  · simp [same]
  · simp [new, break_, state]

theorem State.Move.spliceLaw {s t : State} (h : s.Move t) (hs : s.spliceLaw = true) : t.spliceLaw = true := by
  cases h with
  | endBreak index cause at_ => exact State.Move.endBreak_spliceLaw index cause at_ hs
  | cue i lane x y before slot free => exact State.Move.cue_spliceLaw x y slot free hs
  | air index x before after lane slot => exact State.Move.air_spliceLaw index x before after lane slot hs
  | brk i x state lane slot =>
    refine (State.spliceLaw_congr (by simp [State.withBreak]) (fun j => ?_) fun j => ?_).trans hs
    · rcases Decidable.em (j = i) with rfl | ne
      · rcases s.brk_withBreak_cases j x with new | ⟨old, -⟩
        · rw [new]; exact ⟨state, lane, slot⟩
        · rw [old]; exact ⟨rfl, rfl, rfl⟩
      · simp [State.brk_withBreak_ne x ne]
    · simp [State.lane, State.withBreak]
  | brkIdle i x before after lane =>
    have kept : ∀ j, (s.withBreak i x).lane j = s.lane j := fun j => State.lane_congr (by simp [State.withBreak]) j
    have idle : ((s.withBreak i x).brk i).live = false := by
      rcases s.brk_withBreak_cases i x with new | ⟨old, -⟩
      · rw [new]; exact after
      · rw [old]; exact before
    refine State.spliceLaw_of_change hs i (by simp [State.withBreak]) (fun j ne => State.brk_withBreak_ne x ne)
      (fun j _ _ k _ => kept k) (fun hi => (State.bound_iff _ i).mpr (.inl ⟨?_, idle⟩)) fun _ live => absurd live (by simp [idle])
    have none_ : (s.brk i).lane = none := by
      obtain ⟨-, bound, -⟩ := s.spliceLaw_iff.mp hs
      rcases (s.bound_iff i).mp (bound i hi) with ⟨none_, -⟩ | ⟨l, -, -, live, -⟩
      · exact none_
      · simp [before] at live
    rcases s.brk_withBreak_cases i x with new | ⟨old, -⟩
    · rw [new]; exact lane.elim (·.trans none_) id
    · rw [old]; exact none_
  | laneRead i slot segments p service =>
    obtain ⟨break_, state⟩ := (s.lane i).readDone_frame segments p
    exact (State.withLane_spliceLaw (i := i) (by simp [State.withLane]) (by simp [State.withLane]) break_ state).trans hs
  | lane i x state break_ queue =>
    exact (State.withLane_spliceLaw (i := i) rfl (by simp [State.withLane]) break_ state).trans hs
  | softReset p => exact State.spliceLaw_of_empty (by simp) (by simp [Splice.softReset, Splice.reset])
  | restart c => exact State.spliceLaw_of_empty (by simp) (by simp [Splice.reset])
  | cueCounts x slots breaks =>
    refine (State.spliceLaw_congr (by simp) (fun j => ?_) fun j => ?_).trans hs
    · simp [State.brk, breaks]
    · simp [State.lane]
  | slot i x =>
    refine (State.spliceLaw_congr (by simp [State.withSlot]) (fun j => ?_) fun j => ?_).trans hs
    · simp [State.brk, State.withSlot]
    · simp [State.lane, State.withSlot]
  | _ =>
    refine (State.spliceLaw_congr (by simp [State.withWindow, State.withPlayList]) (fun j => ?_) fun j => ?_).trans hs
    · simp [State.brk, State.withWindow, State.withPlayList]
    · simp [State.lane, State.withWindow, State.withPlayList]

/-- Settles O58: a break becomes live with a FREE lane on a slot without a live break, and gives its lane back as it ends. -/
theorem stepKeepsSpliceLaw : Obligations.StepKeepsSpliceLaw := fun _ _ hs step =>
  step_keeps (P := fun s => s.spliceLaw = true) (fun _ _ => id) (fun _ _ => State.Move.spliceLaw) step hs

/-! ### The part outside RUN (R25, R37, R55, R81) -/

/-- No copy stands, nothing waits for launch and nothing is being launched. -/
def State.groupless (s : State) : Prop :=
  s.store = .empty ∧ s.feedA.openCopy = none ∧ s.feedB.openCopy = none ∧ s.sel.queue = [] ∧ s.launch.emitting = none ∧
    s.launch.scheduled = none

theorem State.idleOutsideRun_iff (s : State) : s.idleOutsideRun = true ↔ s.part = .run ∨ s.groupless := by
  simp [State.idleOutsideRun, State.running, State.groupless, and_assoc]

/-- An update that keeps the part state and all that the law speaks of, or is made in RUN alone. -/
theorem State.idle_of_kept {s t : State} (hs : s.idleOutsideRun = true) (part : t.part = s.part)
    (kept : s.groupless → s.part = .run ∨ t.groupless) : t.idleOutsideRun = true := by
  refine t.idleOutsideRun_iff.mpr ?_
  rcases s.idleOutsideRun_iff.mp hs with run | none_
  · exact .inl (part.trans run)
  · exact (kept none_).imp_left part.trans

theorem State.freeRecord_groupless {s : State} (place : Nat) (h : s.groupless) : (s.freeRecord place).groupless := by
  rw [State.freeRecord_none (State.record_empty h.1 place)]
  exact h

theorem State.Move.idleOutsideRun {s t : State} (h : s.Move t) (hs : s.idleOutsideRun = true) : t.idleOutsideRun = true := by
  cases h with
  | feed f x copy =>
    refine State.idle_of_kept hs (by simp) fun none_ => ?_
    refine copy.imp (· hs) fun copy => ?_
    obtain ⟨store, copyA, copyB, rest⟩ := none_
    have closed : x.openCopy = none := copy.elim (fun same => same.trans (by cases f <;> assumption)) id
    cases f
    · exact ⟨store, closed, copyB, rest⟩
    · exact ⟨store, copyA, closed, rest⟩
  | freeRecord place => exact State.idle_of_kept hs (by simp) fun none_ => .inr (State.freeRecord_groupless place none_)
  | cells place r free busy => exact State.idleOutsideRun_iff _ |>.mpr (.inl (by simpa using busy hs))
  | sel x queue =>
    refine State.idle_of_kept hs (by simp) fun none_ => queue.imp (· hs) fun same => ?_
    simpa [State.groupless, same] using none_
  | launch x _ group =>
    refine State.idle_of_kept hs (by simp) fun none_ => group.imp (· hs) fun ⟨emitting, scheduled⟩ => ?_
    simpa [State.groupless, emitting, scheduled] using none_
  | forget x => exact (State.idleOutsideRun_iff _).mpr (.inr ⟨rfl, rfl, rfl, rfl, rfl, rfl⟩)
  | enterRun => exact (State.idleOutsideRun_iff _).mpr (.inl (by simp))
  | softReset p =>
    refine (State.idleOutsideRun_iff _).mpr (.inr ?_)
    simp only [State.groupless, State.softReset_frame]
    exact ⟨trivial, rfl, rfl, rfl, rfl, rfl⟩
  | restart c => exact (State.idleOutsideRun_iff _).mpr (.inr ⟨rfl, rfl, rfl, rfl, rfl, rfl⟩)
  | _ =>
    refine State.idle_of_kept hs (by simp [State.withLane, State.withBreak, State.withSlot, State.withWindow, State.withPlayList])
      fun none_ => .inr ?_
    simpa [State.groupless, State.withLane, State.withBreak, State.withSlot, State.withWindow, State.withPlayList] using none_

/-- Settles O59: what makes a copy, a queued group or an emission is done in RUN, and every way out of RUN leaves none. -/
theorem stepKeepsStandbyEmpty : Obligations.StepKeepsStandbyEmpty := fun _ _ hs step =>
  step_keeps (P := fun s => s.idleOutsideRun = true) (fun _ _ => id) (fun _ _ => State.Move.idleOutsideRun) step hs

/-- Settles O60: the empty tables of the reset state. -/
theorem resetMeetsTheInvariants : Obligations.ResetMeetsTheInvariants := by
  have law : State.reset.spliceLaw = true := State.spliceLaw_of_empty rfl rfl
  have idle : State.reset.idleOutsideRun = true := (State.idleOutsideRun_iff _).mpr (.inr ⟨rfl, rfl, rfl, rfl, rfl, rfl⟩)
  have queues : State.reset.queuesBounded = true := State.queuesBounded_of_reset rfl
  refine ⟨by decide, by decide, by decide, by decide, by decide, by decide, Store.empty_ok, by decide, queues, law, idle,
    (State.shaped_iff _).mpr rfl, ?_, by decide⟩
  simp [State.numbered, State.reset, Store.empty]

end Sys2Proof.Machine
end

