-- ==== Sys2Proof/Proofs/Frames.lean ====
section
/-! Command frames: how they are written and read back, and what every command of the catalogue has in common: it discards
a frame while its port is busy, refuses a wrong length, and changes nothing where it refuses. -/

namespace Sys2Proof.Machine

open Sys2Proof

-- One proof after the other: proofs that wait for each other hold a thread each.
set_option Elab.async false

/-! ### The encoding (R159, R175) -/

theorem frameParts_commandOf {i : Instr} {p : Port} {code : Byte} {params : List Byte}
    (h : frameParts i = some (p, code, params)) : commandOf p code params = some i := by
  cases i <;> cases h <;> rfl

theorem frameParts_code_ne {i : Instr} {p : Port} {code : Byte} {params : List Byte}
    (h : frameParts i = some (p, code, params)) : code ≠ responseReadCode := by
  cases i <;> cases h <;> decide

theorem frameParts_wf {i : Instr} {p : Port} {code : Byte} {params : List Byte}
    (h : frameParts i = some (p, code, params)) (wf : i.wf = true) : params.length ≤ 3072 := by
  cases i <;> cases h <;> exact of_decide_eq_true wf

/-- The two length bytes of a frame tell its length. -/
theorem length_bytes {n : Nat} (h : n ≤ 3072) : (BitVec.ofNat 8 (n / 256)).toNat * 256 + (BitVec.ofNat 8 n).toNat = n := by
  simp only [BitVec.toNat_ofNat]
  omega

theorem decodeTransaction_frame (p : Port) {code : Byte} (hi lo : Byte) (params : List Byte) (other : code ≠ responseReadCode) :
    decodeTransaction p (code :: hi :: lo :: params) =
      if 3072 < hi.toNat * 256 + lo.toNat ∨ params.length ≠ hi.toNat * 256 + lo.toNat then
        .badFrameLength p (params.length + 3)
      else (commandOf p code params).getD (.unknownCommand p code params) := by
  simp only [decodeTransaction, if_neg other, maxParams, List.length_cons, Nat.add_assoc, Nat.reduceAdd]

/-- Settles O3: the code of a command names it, and the length bytes tell the length of its parameters. -/
theorem framesReadBack : Obligations.FramesReadBack := by
  intro i p code params parts wf
  have length := length_bytes (frameParts_wf parts wf)
  refine ⟨code :: BitVec.ofNat 8 (params.length / 256) :: BitVec.ofNat 8 params.length :: params, ?_, by simp, ?_⟩
  · simp only [encodeFrame, parts]
  · rw [decodeTransaction_frame p _ _ _ (frameParts_code_ne parts), length, if_neg (by have := frameParts_wf parts wf; omega),
      frameParts_commandOf parts]
    rfl

theorem commandOf_range (p : Port) (code : Byte) (params : List Byte) :
    (commandOf p code params).isSome = true ↔ 1 ≤ code.toNat ∧ code.toNat ≤ 59 := by
  unfold commandOf
  split
  case h_60 => simp only [imp_false] at *; simp; omega
  all_goals simp; omega

theorem commandOf_frameParts {p : Port} {code : Byte} {params : List Byte} {i : Instr}
    (h : commandOf p code params = some i) : frameParts i = some (p, code, params) := by
  have named : ∀ n : Nat, code.toNat = n → code = BitVec.ofNat 8 n := fun n e => by rw [← e]; simp
  unfold commandOf at h
  split at h
  case h_60 => cases h
  all_goals
    rename_i e
    rw [named _ e, ← Option.some.inj h]
    rfl

/-- Settles O4: the table of codes row by row, and the checks in the order of the decoder. -/
theorem codesAndFrameChecks : Obligations.CodesAndFrameChecks := by
  refine ⟨fun p code params => ⟨commandOf_range p code params, fun i => commandOf_frameParts⟩, fun p code other => ?_⟩
  refine ⟨by simp [decodeTransaction, other], fun hi => by simp [decodeTransaction, other], fun hi lo params => ?_⟩
  rw [decodeTransaction_frame p hi lo params other]
  refine ⟨fun bad => if_pos bad, fun small length unknown => ?_⟩
  have noCommand : commandOf p code params = none := by
    rw [← Option.not_isSome_iff_eq_none, commandOf_range]
    simpa [isCommandCode] using unknown
  rw [if_neg (by omega), noCommand]
  rfl

/-! ### What every command of the catalogue has in common (R159, R161) -/

/-- What a command makes of the state in which its frame has been taken: a refusal changes nothing and carries no data, and a
long command has no response yet. -/
def Settled (p : Port) (s : State) (x : State × Option Reply) : Prop :=
  (∀ r, x.2 = some r → r.code ≠ .ok → x.1 = s ∧ r.data = []) ∧
    (x.2 = none → (s.port p).response = none → (x.1.port p).response = none)

theorem Settled.refuse {p : Port} {s : State} {code : ResultCode} : Settled p s (refuse code s) :=
  ⟨fun _ e _ => by cases e; exact ⟨rfl, rfl⟩, nofun⟩

theorem Settled.ok {p : Port} {s t : State} {clamped : Bool} {data : List Byte} : Settled p s (t, some ⟨.ok, clamped, data⟩) :=
  ⟨fun _ e bad => by cases e; exact absurd rfl bad, nofun⟩

theorem Settled.long {p : Port} {s t : State} (response : (t.port p).response = (s.port p).response) :
    Settled p s (t, none) :=
  ⟨nofun, fun _ none_ => response.trans none_⟩

theorem Settled.ite {p : Port} {s : State} {c : Prop} [Decidable c] {a b : State × Option Reply} (yes : Settled p s a)
    (no : Settled p s b) : Settled p s (if c then a else b) := by
  split
  · exact yes
  · exact no

/-- A command on port `p` with these parameters: a frame it takes by its own length check and deals with by an act. -/
def CommandOn (i : Instr) (p : Port) (params : List Byte) : Prop :=
  ∃ (fits : Bool) (act : State → State × Option Reply), (∀ s, exec i s = .next (s.onCommand p params fits act)) ∧
    (∀ n, i.plainLength = some n → params.length ≠ n → fits = false) ∧ ∀ s, Settled p s (act s)

theorem CommandOn.ofLength {i : Instr} {p : Port} {params : List Byte} {n : Nat} {act : State → State × Option Reply}
    (exec_eq : ∀ s, exec i s = .next (s.onCommand p params (params.length == n) act)) (length : i.plainLength = some n)
    (settled : ∀ s, Settled p s (act s)) : CommandOn i p params :=
  ⟨_, act, exec_eq, fun m hm ne => by rw [length] at hm; cases hm; simpa using ne, settled⟩

theorem CommandOn.ofEmpty {i : Instr} {p : Port} {params : List Byte} {act : State → State × Option Reply}
    (exec_eq : ∀ s, exec i s = .next (s.onCommand p params params.isEmpty act)) (length : i.plainLength = some 0)
    (settled : ∀ s, Settled p s (act s)) : CommandOn i p params :=
  ⟨_, act, exec_eq, fun m hm ne => by rw [length] at hm; cases hm; simpa using ne, settled⟩

theorem CommandOn.ofFits {i : Instr} {p : Port} {params : List Byte} {fits : Bool} {act : State → State × Option Reply}
    (exec_eq : ∀ s, exec i s = .next (s.onCommand p params fits act)) (length : i.plainLength = none)
    (settled : ∀ s, Settled p s (act s)) : CommandOn i p params :=
  ⟨fits, act, exec_eq, fun _ hm _ => absurd (length.symm.trans hm) nofun, settled⟩

theorem Settled.onBreak {p q : Port} {s : State} {index : Nat} {rule : Ownership} {act : State → State × Option Reply}
    (h : Settled p s (act s)) : Settled p s (s.onBreak q index rule act) :=
  .ite .refuse (.ite .refuse (.ite .refuse h))

theorem Settled.beginClip (p : Port) (s : State) (c : ClipCommand) : Settled p s (s.beginClip p c) :=
  .long (by cases p <;> simp [State.port, State.withPort])

theorem execStart_commandOn (p : Port) (params : List Byte) : CommandOn (.start p params) p params :=
  .ofEmpty (fun _ => rfl) rfl fun s => .ite .refuse (.long (by cases p <;> rfl))

/-- A re-evaluation touches a port by events alone. -/
theorem State.reevaluate_port (s : State) (p : Port) :
    (s.reevaluate.port p).response = (s.port p).response ∧ (s.reevaluate.port p).inProgress = (s.port p).inProgress ∧
      (s.reevaluate.port p).mask = (s.port p).mask := by
  have auto : ∀ target, ((s.autoChangeover target).port p).response = (s.port p).response ∧
      ((s.autoChangeover target).port p).inProgress = (s.port p).inProgress ∧
      ((s.autoChangeover target).port p).mask = (s.port p).mask := by
    intro target
    unfold State.autoChangeover
    dsimp only
    split <;> cases p <;> simp [State.port, State.raise]
  have kept : ∀ x, (s.withChg x).port p = s.port p := fun x => by cases p <;> rfl
  unfold State.reevaluate
  repeat' split
  all_goals simp only [auto, kept, and_self]

theorem State.reform_port (s before : State) (p : Port) :
    ((s.reform before).port p).response = (s.port p).response ∧
      ((s.reform before).port p).inProgress = (s.port p).inProgress ∧
      ((s.reform before).port p).mask = (s.port p).mask := by
  unfold State.reform
  split
  · exact ⟨rfl, rfl, rfl⟩
  · exact s.reevaluate_port p

theorem execReset_commandOn (p : Port) (params : List Byte) : CommandOn (.reset p params) p params :=
  have reset : ∀ s : State, (((s.softReset p).reform s).port p).response = (s.port p).response := fun s =>
    ((s.softReset p).reform_port s p).1.trans (by rw [(s.softReset_port p).1]; rfl)
  .ofEmpty (fun _ => rfl) rfl fun s =>
    .ite .refuse (.ite (.long (by rw [State.port_withPort]; exact reset s)) .ok)

theorem commandOn_of_frameParts {i : Instr} {p : Port} {code : Byte} {params : List Byte}
    (h : frameParts i = some (p, code, params)) : CommandOn i p params := by
  cases i with
  | identify => cases h; exact .ofEmpty (fun _ => rfl) rfl fun _ => .ok
  | readStatus => cases h; exact .ofEmpty (fun _ => rfl) rfl fun _ => .ok
  | clearStatistics => cases h; exact .ofEmpty (fun _ => rfl) rfl fun _ => .ok
  | start => cases h; exact execStart_commandOn p params
  | stop => cases h; exact .ofEmpty (fun _ => rfl) rfl fun _ => .ite .refuse .ok
  | reset => cases h; exact execReset_commandOn p params
  | timeLabel => cases h; exact .ofLength (fun _ => rfl) rfl fun _ => .ite .refuse .ok
  | readTime => cases h; exact .ofEmpty (fun _ => rfl) rfl fun _ => .ok
  | readTimebase => cases h; exact .ofEmpty (fun _ => rfl) rfl fun _ => .ok
  | setHoldoverLimit => cases h; exact .ofLength (fun _ => rfl) rfl fun _ => .ite .refuse .ok
  | setStreamIds =>
    cases h
    refine .ofLength (fun _ => rfl) rfl fun s => .ite .refuse (.ite .refuse ?_)
    dsimp only
    split
    · exact .refuse
    · exact .ite .refuse .ok
  | setFeedMode =>
    cases h
    refine .ofLength (fun _ => rfl) rfl fun s => .ite .refuse ?_
    split
    · exact .ok
    · exact .refuse
  | readFeed =>
    cases h
    refine .ofLength (fun _ => rfl) rfl fun s => ?_
    split
    · exact .ok
    · exact .refuse
  | readSelector => cases h; exact .ofEmpty (fun _ => rfl) rfl fun _ => .ok
  | setAdvance => cases h; exact .ofLength (fun _ => rfl) rfl fun _ => .ite .refuse (.ite .refuse .ok)
  | setPacketPeriod =>
    cases h; exact .ofLength (fun _ => rfl) rfl fun _ => .ite .refuse (.ite .refuse (.ite .refuse .ok))
  | setHoldLimits => cases h; exact .ofLength (fun _ => rfl) rfl fun _ => .ite .refuse (.ite .refuse .ok)
  | setSlipTolerance => cases h; exact .ofLength (fun _ => rfl) rfl fun _ => .ite .refuse .ok
  | readLaunch => cases h; exact .ofEmpty (fun _ => rfl) rfl fun _ => .ok
  | clipWrite =>
    cases h
    exact .ofFits (fun _ => rfl) rfl fun s => .ite .refuse (.ite .refuse (.ite .refuse (.beginClip p s _)))
  | clipRead => cases h; exact .ofLength (fun _ => rfl) rfl fun s => .ite .refuse (.beginClip p s _)
  | playListWrite => cases h; exact .ofFits (fun _ => rfl) rfl fun _ => .ite .refuse (.ite .refuse .ok)
  | playListClear => cases h; exact .ofLength (fun _ => rfl) rfl fun _ => .ite .refuse (.ite .refuse .ok)
  | readPlayList => cases h; exact .ofLength (fun _ => rfl) rfl fun _ => .ite .refuse .ok
  | readLane => cases h; exact .ofLength (fun _ => rfl) rfl fun _ => .ite .refuse .ok
  | defineSlot =>
    cases h
    refine .ofFits (fun _ => rfl) rfl fun s => .ite .refuse (.ite .refuse ?_)
    dsimp only
    split
    · exact .refuse
    · exact .ite .refuse (.ite .refuse .ok)
  | clearSlot =>
    cases h; exact .ofLength (fun _ => rfl) rfl fun _ => .ite .refuse (.ite .refuse (.ite .refuse .ok))
  | readSlot => cases h; exact .ofLength (fun _ => rfl) rfl fun _ => .ite .refuse .ok
  | createBreak =>
    cases h
    refine .ofFits (fun _ => rfl) rfl fun s => ?_
    split
    · exact .refuse
    · refine .ite .refuse ?_
      split
      · exact .refuse
      · exact .ok
  | modifyBreak =>
    cases h
    refine .ofFits (fun _ => rfl) rfl fun s => .onBreak (.ite .refuse ?_)
    split
    · exact .refuse
    · exact .ite .refuse .ok
  | arm => cases h; exact .ofLength (fun _ => rfl) rfl fun _ => .onBreak (.ite .refuse .ok)
  | disarm => cases h; exact .ofLength (fun _ => rfl) rfl fun _ => .onBreak (.ite .refuse .ok)
  | trigger => cases h; exact .ofLength (fun _ => rfl) rfl fun _ => .onBreak (.ite .refuse .ok)
  | cancel => cases h; exact .ofLength (fun _ => rfl) rfl fun _ => .onBreak (.ite .refuse .ok)
  | clearBreak => cases h; exact .ofLength (fun _ => rfl) rfl fun _ => .onBreak (.ite .refuse .ok)
  | readBreak => cases h; exact .ofLength (fun _ => rfl) rfl fun _ => .ite .refuse .ok
  | setWindow =>
    cases h
    refine .ofFits (fun _ => rfl) rfl fun s => .ite .refuse (.ite .refuse (.ite .refuse ?_))
    split
    · exact .refuse
    · exact .ok
  | removeWindow =>
    cases h; exact .ofLength (fun _ => rfl) rfl fun _ => .ite .refuse (.ite .refuse (.ite .refuse .ok))
  | readWindow => cases h; exact .ofLength (fun _ => rfl) rfl fun _ => .ite .refuse .ok
  | setScanRange => cases h; exact .ofLength (fun _ => rfl) rfl fun _ => .ite .refuse .ok
  | setChannel =>
    cases h
    refine .ofLength (fun _ => rfl) rfl fun s => ?_
    dsimp only
    split
    · exact .refuse
    · exact .ite .refuse .ok
  | readMonitor => cases h; exact .ofEmpty (fun _ => rfl) rfl fun _ => .ok
  | readCapture => cases h; exact .ofEmpty (fun _ => rfl) rfl fun _ => .ok
  | changeover =>
    cases h
    refine .ofLength (fun _ => rfl) rfl fun s => ?_
    split
    · exact .refuse
    · exact .ite .refuse .ok
  | auto => cases h; exact .ofEmpty (fun _ => rfl) rfl fun _ => .ok
  | setReturn =>
    cases h
    refine .ofLength (fun _ => rfl) rfl fun s => ?_
    dsimp only
    split
    · exact .refuse
    · exact .ok
  | releaseHold => cases h; exact .ofEmpty (fun _ => rfl) rfl fun _ => .ok
  | readChangeover => cases h; exact .ofEmpty (fun _ => rfl) rfl fun _ => .ok
  | mute => cases h; exact .ofEmpty (fun _ => rfl) rfl fun _ => .ok
  | unmute => cases h; exact .ofEmpty (fun _ => rfl) rfl fun _ => .ok
  | unmuteAll => cases h; exact .ofEmpty (fun _ => rfl) rfl fun _ => .ite .refuse .ok
  | configureLine =>
    cases h
    refine .ofLength (fun _ => rfl) rfl fun s => .ite .refuse (.ite .refuse ?_)
    split
    · exact .refuse
    · exact .ok
  | setLineLevel =>
    cases h
    refine .ofLength (fun _ => rfl) rfl fun s => ?_
    dsimp only
    split
    · exact .refuse
    · exact .ite .refuse (.ite .refuse (.ite .refuse .ok))
  | lockLine =>
    cases h
    exact .ofLength (fun _ => rfl) rfl fun _ => .ite .refuse (.ite .refuse (.ite .ok .ok))
  | readLines => cases h; exact .ofEmpty (fun _ => rfl) rfl fun _ => .ok
  | readEvents => cases h; exact .ofEmpty (fun _ => rfl) rfl fun _ => .ok
  | setEventMask => cases h; exact .ofLength (fun _ => rfl) rfl fun _ => .ite .refuse .ok
  | lockParameters => cases h; exact .ofEmpty (fun _ => rfl) rfl fun _ => .ite .refuse .ok
  | unlockParameters => cases h; exact .ofEmpty (fun _ => rfl) rfl fun _ => .ite .refuse .ok
  | _ => cases h

/-! ### Frames on a busy port, refusals and wrong lengths (R159, R161, R162) -/

theorem State.onCommand_overrun {s : State} {p : Port} (busy : (s.port p).inProgress.isSome = true) (params : List Byte)
    (fits : Bool) (act : State → State × Option Reply) :
    s.onCommand p params fits act = s.withPort p ((s.port p).overran (params.length + 3)) :=
  State.onFrame_overrun s p _ _ busy

/-- Settles O5: the busy port is looked at before the command. -/
theorem overrunDiscardsFrames : Obligations.OverrunDiscardsFrames := by
  refine ⟨fun s p long => ?_, fun q n => rfl⟩
  have busy : (s.port p).inProgress.isSome = true := Option.isSome_iff_ne_none.mpr long
  refine ⟨fun i code params parts => ?command, fun n => ?overrun, fun n => ?length, fun code params => ?unknown⟩
  case command =>
    obtain ⟨fits, act, exec_eq, -⟩ := commandOn_of_frameParts parts
    rw [exec_eq, State.onCommand_overrun busy]
  case overrun => exact congrArg Host.Outcome.next (if_pos busy)
  case length => exact congrArg Host.Outcome.next (State.onFrame_overrun s p n _ busy)
  case unknown => exact congrArg Host.Outcome.next (State.onCommand_overrun busy params _ _)

/-- What a taken frame leads to: its act's outcome on the state that has taken it, where the length fits. -/
theorem State.onCommand_open {s : State} {p : Port} (h : s.open_ p) (params : List Byte) (fits : Bool)
    (act : State → State × Option Reply) :
    s.onCommand p params fits act =
      match (if params.length ≤ maxParams && fits then act (s.takes p params) else refuse .badLength (s.takes p params)) with
      | (t, some r) => t.respond p r
      | (t, none) => t := by
  simp only [State.onCommand, State.onFrame, h, Option.isSome_none, Bool.false_eq_true, ↓reduceIte]
  rfl

/-- Settles O6: a refusal leaves the state that has taken the frame. -/
theorem refusalsChangeNothing : Obligations.RefusalsChangeNothing := by
  intro i p code params s t r parts free run response bad
  obtain ⟨fits, act, exec_eq, -, settled⟩ := commandOn_of_frameParts parts
  have outcome : Settled p (s.takes p params)
      (if params.length ≤ maxParams && fits then act (s.takes p params) else refuse .badLength (s.takes p params)) :=
    .ite (settled _) .refuse
  rw [exec_eq, State.onCommand_open free] at run
  obtain ⟨refused, long⟩ := outcome
  generalize (if params.length ≤ maxParams && fits then act (s.takes p params) else _) = x at run refused long
  obtain ⟨u, reply⟩ := x
  cases run
  cases reply with
  | none =>
    have none_ : (u.port p).response = none := long rfl (by simp)
    exact absurd (none_.symm.trans response) nofun
  | some q =>
    simp only [State.respond, State.port_withPort, PortState.respond, Option.some.injEq] at response
    subst response
    obtain ⟨same, data⟩ := refused q rfl bad
    simp only at same
    subst same
    refine ⟨((s.port p).taken (frameBytes params)).respond q, ?_, by simp, by simp, by simp, by simpa using free, data⟩
    cases p <;> rfl

/-- Settles O7: the taking of a frame carries the flags into the next response. -/
theorem refusedFramesAnswer : Obligations.RefusedFramesAnswer := by
  refine ⟨fun s p code params free length => ⟨s.answers p params (.no .unknown), ?_, ?_, ?_⟩, fun s p => ⟨fun n free => ?_, rfl⟩⟩
  · exact congrArg Host.Outcome.next (State.onCommand_answered free length rfl rfl)
  · cases p <;> rfl
  · cases p <;> exact ⟨rfl, rfl, rfl, rfl⟩
  · exact congrArg Host.Outcome.next (State.onFrame_answered free rfl)

/-- Settles O8: the length check of every command comes first. -/
theorem wrongLengthIsRefused : Obligations.WrongLengthIsRefused := by
  intro i p code params n s parts length wrong free
  obtain ⟨fits, act, exec_eq, plain, -⟩ := commandOn_of_frameParts parts
  rw [exec_eq, State.onCommand_badLength free (plain n length wrong)]
  rfl

theorem readOut_length (draw : Nat) (bytes : List Byte) (n : Nat) : (readOut draw bytes n).length = n := by
  simp only [readOut, List.length_append, List.length_take, List.length_map, List.length_range]
  omega

theorem readOut_take (draw : Nat) (bytes : List Byte) (n : Nat) : (readOut draw bytes n).take bytes.length = bytes.take n := by
  rw [readOut]
  rcases Nat.le_total n bytes.length with le | ge
  · simp [Nat.sub_eq_zero_of_le le, List.take_take, le]
  · rw [List.take_of_length_le ge, List.take_left]

/-- Settles O9: what goes out is the response from its first byte, and it is read when the clocks cover it. -/
theorem responseReadTakesTheResponse : Obligations.ResponseReadTakesTheResponse := by
  intro s p n
  refine ⟨fun r pending => ⟨readOut s.draws r.bytes n, ?_, readOut_length _ _ _, readOut_take _ _ _⟩, fun none_ => ?_⟩
  · show Host.Outcome.next (s.withPort p ((s.port p).readResponse s.draws n)).draw = _
    simp only [PortState.readResponse, pending]
  · show Host.Outcome.next (s.withPort p ((s.port p).readResponse s.draws n)).draw = _
    simp only [PortState.readResponse, none_]

end Sys2Proof.Machine
end

