-- ==== Sys2Proof/Proofs/PortCommands.lean ====
section
/-! The reads, the event queue, the parameter lock and the launch settings. -/

namespace Sys2Proof.Machine

open Sys2Proof

-- One proof after the other: proofs that wait for each other hold a thread each.
set_option Elab.async false

/-! ### Commands that answer at once -/

/-- A command answered at once, as an outcome. -/
theorem next_answered {s t : State} {p : Port} {params : List Byte} {fits : Bool} {act : State → State × Option Reply}
    {r : Reply} (h : s.open_ p) (hl : params.length ≤ 3072) (hf : fits = true) (ha : act (s.takes p params) = (t, some r)) :
    (Host.Outcome.next (s.onCommand p params fits act) : Answer) = .next (t.respond p r) :=
  congrArg Host.Outcome.next (State.onCommand_answered h hl hf ha)

/-- A command without parameters, answered at once. -/
theorem next_answered_nil {s t : State} {p : Port} {act : State → State × Option Reply} {r : Reply} (h : s.open_ p)
    (ha : act (s.takes p []) = (t, some r)) : (Host.Outcome.next (s.onCommand p [] true act) : Answer) = .next (t.respond p r) :=
  next_answered h (Nat.zero_le _) rfl ha

/-- A read by index: its data, or BAD_VALUE for an index out of range. -/
theorem indexed_read (s t : State) (n : Nat) (b : Byte) (data : State → Nat → List Byte) (same : data t b.toNat = data s b.toNat) :
    (if n ≤ byteAt [b] 0 then refuse .badValue t else answer (data t (byteAt [b] 0)) t) =
      (t, some (if b.toNat < n then .ok (data s b.toNat) else .no .badValue)) := by
  have byte : byteAt [b] 0 = b.toNat := rfl
  rw [byte, same]
  by_cases small : b.toNat < n
  · rw [if_neg (by omega), if_pos small, answer]
  · rw [if_pos (by omega), if_neg small, refuse]

/-! ### Reads (R170 and the reads of each chapter) -/

theorem exec_readChangeover {s : State} {p : Port} (h : s.open_ p) :
    exec (.readChangeover p []) s =
      .next ((s.takes p []).takeExpiry.respond p (.ok (s.takes p []).takeExpiry.changeoverData)) :=
  next_answered_nil h rfl

theorem exec_readFeed {s : State} {p : Port} (h : s.open_ p) (b : Byte) :
    exec (.readFeed p [b]) s =
      .next (s.answers p [b] (if b.toNat = 0 then .ok (s.feedData .a) else if b.toNat = 1 then .ok (s.feedData .b)
        else .no .badValue)) := by
  have data : ∀ f, (s.takes p [b]).feedData f = s.feedData f := fun f => by cases p <;> cases f <;> rfl
  refine next_answered h (by simp) rfl ?_
  have byte : byteAt [b] 0 = b.toNat := rfl
  simp only [byte, data]
  match feed : b.toNat with
  | 0 => rfl
  | 1 => rfl
  | n + 2 => rfl

/-- Settles O10: each read's answer is laid out from the state that has taken the frame, which it does not look into beyond
the port's queue. -/
theorem readsAnswer : Obligations.ReadsAnswer := by
  intro s p h
  refine ⟨next_answered_nil h rfl, next_answered_nil h ?status, next_answered_nil h ?time, next_answered_nil h ?timebase,
    next_answered_nil h ?selector, next_answered_nil h ?launch, next_answered_nil h ?monitor, fun running => ?changeover,
    fun expired => ?expiry, next_answered_nil h ?capture, next_answered_nil h ?lines, fun b => ⟨exec_readFeed h b, ?_⟩⟩
  case status => cases p <;> rfl
  case time => cases p <;> rfl
  case timebase => cases p <;> rfl
  case selector => cases p <;> rfl
  case launch => cases p <;> rfl
  case monitor => cases p <;> rfl
  case changeover =>
    rw [exec_readChangeover h, State.takeExpiry, if_neg (by simpa [Changeover.timerDue] using running)]
    cases p <;> rfl
  case expiry => rw [exec_readChangeover h, State.takeExpiry, if_pos (by simpa [Changeover.timerDue] using expired)]
  case capture => cases p <;> rfl
  case lines => cases p <;> rfl
  exact ⟨next_answered h (by simp) rfl (indexed_read s _ 32 b State.playListData (by cases p <;> rfl)),
    next_answered h (by simp) rfl (indexed_read s _ 4 b State.laneData (by cases p <;> rfl)),
    next_answered h (by simp) rfl (indexed_read s _ 8 b State.slotData (by cases p <;> rfl)),
    next_answered h (by simp) rfl (indexed_read s _ 32 b State.breakData (by cases p <;> rfl)),
    next_answered h (by simp) rfl (indexed_read s _ 8 b State.windowData (by cases p <;> rfl))⟩

/-! ### Events (R171, R172) -/

/-- Settles O12: the three cases of an offer, on each port by itself. -/
theorem eventsReachBothPorts : Obligations.EventsReachBothPorts := by
  intro s kind subject detail p
  simp only [State.raise_port]
  refine ⟨fun masked => ?_, fun enabled room => ?_, fun enabled full => ?_, ?_⟩
  · exact if_neg (by simpa using masked)
  · exact (if_pos enabled).trans (if_pos room)
  · exact (if_pos enabled).trans (if_neg (by omega))
  · cases p <;> rfl

theorem exec_setEventMask {s : State} {p : Port} (h : s.open_ p) {params : List Byte} (length : params.length = 20) :
    exec (.setEventMask p params) s =
      .next (if params.any fun b => 1 < b.toNat then s.answers p params (.no .badValue)
        else ((s.takes p params).withPort p
          { (s.port p).taken 23 with mask := params.map (· != 0) }).respond p (.ok [])) := by
  have small : params.length ≤ 3072 := by omega
  split
  · next bad => exact next_answered h small (by simp [length]) (if_pos bad)
  · next good =>
    refine next_answered h small (by simp [length]) ((if_neg good).trans ?_)
    simp only [State.takes_frame, frameBytes, length, Nat.reduceAdd]
    rfl

theorem exec_readEvents {s : State} {p : Port} (h : s.open_ p) :
    exec (.readEvents p []) s =
      .next (s.withPort p
        (PortState.respond { (s.port p).taken 3 with events := (s.port p).events.drop 16, lostEvents := 0 }
          (.ok (s.port p).eventsData))) := by
  refine (next_answered_nil h rfl).trans ?_
  cases p <;> rfl

theorem State.softReset_mask (s : State) (p q : Port) : ((s.softReset p).port q).mask = (s.port q).mask := by
  have abandon : ∀ x : PortState, x.abandonLong.mask = x.mask := fun x => by unfold PortState.abandonLong; split <;> rfl
  obtain ⟨own, others⟩ := s.softReset_port p
  rcases (by cases p <;> cases q <;> simp [Port.other] : q = p ∨ q = p.other) with rfl | rfl
  · rw [own]; rfl
  · rw [others, abandon]; rfl

/-- RESET on an open port: refused under the lock, else the software RESET with the re-evaluation that follows, answered at
once or left in progress. -/
theorem exec_reset_cases {s : State} {p : Port} (h : s.open_ p) :
    ((s.paramLock && p == .station) = true ∧ exec (.reset p []) s = .next (s.answers p [] (.no .locked))) ∨
      ((s.paramLock && p == .station) = false ∧
        let t := ((s.takes p []).softReset p).reform (s.takes p [])
        (((s.port p.other).clipCommand.isSome && t.clip.finishing p.other) = true ∧
            exec (.reset p []) s = .next (t.withPort p { t.port p with inProgress := some .reset }) ∨
          ((s.port p.other).clipCommand.isSome && t.clip.finishing p.other) = false ∧
            exec (.reset p []) s = .next (t.respond p (.ok [])))) := by
  have locked : (s.takes p []).lockedOut p = (s.paramLock && p == .station) := by simp
  have other : (s.takes p []).port p.other = s.port p.other := by simp
  cases lock : s.paramLock && p == .station with
  | true => exact .inl ⟨rfl, next_answered_nil h (if_pos (locked.trans lock))⟩
  | false =>
    refine .inr ⟨rfl, ?_⟩
    rw [← other]
    dsimp only
    have act : ¬ (s.takes p []).lockedOut p = true := by rw [locked, lock]; exact Bool.false_ne_true
    cases waits : ((s.takes p []).port p.other).clipCommand.isSome &&
        (((s.takes p []).softReset p).reform (s.takes p [])).clip.finishing p.other with
    | true => exact .inl ⟨rfl, congrArg Host.Outcome.next (State.onCommand_long h (Nat.zero_le _) rfl ((if_neg act).trans (if_pos waits)))⟩
    | false => exact .inr ⟨rfl, next_answered_nil h ((if_neg act).trans (if_neg (by rw [waits]; exact Bool.false_ne_true)))⟩

theorem exec_reset_mask {s t : State} {p : Port} (h : s.open_ p) (run : exec (.reset p []) s = .next t) (q : Port) :
    (t.port q).mask = (s.port q).mask := by
  have taken : ((s.takes p []).port q).mask = (s.port q).mask := by cases p <;> cases q <;> rfl
  have formed : ((((s.takes p []).softReset p).reform (s.takes p [])).port q).mask = (s.port q).mask := by
    rw [(State.reform_port _ _ q).2.2, State.softReset_mask, taken]
  have kept : ∀ (u : State) (x : PortState), x.mask = (u.port p).mask → ((u.withPort p x).port q).mask = (u.port q).mask := by
    intro u x hx
    cases p <;> cases q <;> first | exact hx | rfl
  rcases exec_reset_cases h with ⟨-, refused⟩ | ⟨-, ⟨-, waits⟩ | ⟨-, done⟩⟩
  · cases refused.symm.trans run
    exact (kept _ _ (by simp)).trans taken
  · cases waits.symm.trans run
    exact (kept _ _ (by rfl)).trans formed
  · cases done.symm.trans run
    exact (kept _ _ (by simp)).trans formed

/-- Settles O11: the two commands of the event queue, and the mask over the resets. -/
theorem eventQueueCommands : Obligations.EventQueueCommands := by
  intro s p h
  refine ⟨⟨_, exec_readEvents h, ?read⟩, fun params length => ⟨fun flags => ?set, fun ⟨b, mem, big⟩ => ?refused⟩,
    fun t powered => ?power, fun t run => ⟨exec_reset_mask h run .station, exec_reset_mask h run .network⟩⟩
  case read =>
    cases p <;> exact ⟨rfl, rfl, rfl, rfl, _, rfl, rfl, rfl, rfl⟩
  case set =>
    rw [exec_setEventMask h length, if_neg]
    simpa using flags
  case refused =>
    rw [exec_setEventMask h length, if_pos]
    exact List.any_eq_true.mpr ⟨b, mem, by simpa using big⟩
  case power =>
    rcases powered with on | pin
    · cases on; exact ⟨rfl, rfl⟩
    · cases pin; exact ⟨rfl, rfl⟩

/-! ### The parameter lock (R167, R168) -/

/-- Settles O13: the lock and the port are looked at before the values. -/
theorem lockHoldsTheStationOut : Obligations.LockHoldsTheStationOut := by
  refine ⟨fun s params lock h small => ?locked, fun s params h small => ?network⟩
  case locked =>
    have out : ∀ ps, (s.takes .station ps).lockedOut .station = true := fun ps => by simp [lock]
    have fits : ∀ {n : Nat}, params.length = n → (params.length == n) = true := fun e => by simpa using e
    refine ⟨fun e => next_answered h small (fits e) (if_pos (out _)),
      fun e => ⟨next_answered h small (fits e) (if_pos (out _)), next_answered h small (fits e) (if_pos (out _))⟩,
      fun e => next_answered h small (fits e) (if_pos (out _)),
      fun e => ⟨next_answered h small (fits e) (if_pos (out _)), next_answered h small (fits e) (if_pos (out _))⟩,
      fun e => next_answered h small (fits e) (if_pos (out _)), fun e => next_answered h small (fits e) (if_pos (out _)),
      next_answered h small rfl (if_pos (out _)), fun e => next_answered h small (fits e) (if_pos (out _)),
      next_answered_nil h (if_pos (out _))⟩
  case network =>
    exact ⟨next_answered h small rfl (if_pos rfl),
      fun e => ⟨next_answered h small (by simpa using e) (if_pos rfl), next_answered h small (by simpa using e) (if_pos rfl)⟩,
      next_answered_nil h (if_pos rfl), next_answered_nil h (if_pos rfl), next_answered_nil h (if_pos rfl)⟩

/-- Settles O14: the three commands as updates of the state that has taken the frame. -/
theorem lockAndStatistics : Obligations.LockAndStatistics := by
  refine fun s => ⟨fun h => ⟨next_answered_nil h rfl, next_answered_nil h rfl⟩, fun p h => next_answered_nil h ?_⟩
  cases p <;> rfl

/-! ### The launch settings (R3, R13, R60, R61, R76, R77, R169) -/

theorem field_all {params : List Byte} {n : Nat} (h : params.length = n) : field params 0 n = number params := by
  rw [field, List.drop_zero, List.take_of_length_le (by omega)]

/-- A value clamped, and whether it was (R164). -/
theorem clampTo_eq {lo hi : Nat} (v : Nat) (h : lo ≤ hi) : clampTo lo hi v = (max lo (min hi v), decide (v < lo ∨ hi < v)) := by
  unfold clampTo
  split
  · next low => exact Prod.ext (by simp only; omega) (by simp [low])
  · split
    · next high => exact Prod.ext (by simp only; omega) (by simp [high])
    · exact Prod.ext (by simp only; omega) (by simp only [Bool.false_eq, decide_eq_false_iff_not]; omega)

theorem flagOf_small {n : Nat} (h : n ≤ 1) : flagOf n = some (n == 1) := by
  match n, h with
  | 0, _ => rfl
  | 1, _ => rfl

theorem flagOf_large {n : Nat} (h : 1 < n) : flagOf n = none := by
  match n, h with
  | n + 2, _ => rfl

/-- The settings of the timebase: pending label and holdover limit. -/
theorem exec_timebaseSettings {s : State} {p : Port} {params : List Byte} (h : s.open_ p)
    (out : ¬ (s.takes p params).lockedOut p = true) :
    (params.length = 4 →
      exec (.timeLabel p params) s =
        .next (((s.takes p params).withTb { s.tb with pendingLabel := some (number params) }).respond p (.ok []))) ∧
    (params.length = 3 →
      exec (.setHoldoverLimit p params) s =
        .next (((s.takes p params).withTb { s.tb with holdoverLimit := max 1 (min 86400 (number params)) }).respond p
          ⟨.ok, decide (number params < 1 ∨ 86400 < number params), []⟩)) := by
  refine ⟨fun length => next_answered h (by omega) (by simpa using length) ((if_neg out).trans ?_),
    fun length => next_answered h (by omega) (by simpa using length) ((if_neg out).trans ?_)⟩
  · simp only [field_all length, done, State.takes_frame]
  · simp only [field_all length, clampTo_eq (number params) (show 1 ≤ 86400 by decide), State.takes_frame]

theorem exec_setAdvance {s : State} {p : Port} {params : List Byte} (h : s.open_ p)
    (out : ¬ (s.takes p params).lockedOut p = true) (length : params.length = 3) :
    exec (.setAdvance p params) s =
      .next (if 2000000 < number params then s.answers p params (.no .badValue)
        else ((s.takes p params).withLaunch { s.launch with pendingAdvance := some (number params) }).respond p (.ok [])) := by
  split
  · next large =>
    exact next_answered h (by omega) (by simpa using length) ((if_neg out).trans (if_pos (by rwa [field_all length])))
  · next small =>
    refine next_answered h (by omega) (by simpa using length) ((if_neg out).trans ((if_neg (by rwa [field_all length])).trans ?_))
    simp only [field_all length, done, State.takes_frame]

theorem exec_setPacketPeriod {s : State} {p : Port} {params : List Byte} (h : s.open_ p)
    (out : ¬ (s.takes p params).lockedOut p = true) (length : params.length = 4) :
    exec (.setPacketPeriod p params) s =
      .next (if s.part ≠ .standby then s.answers p params (.no .wrongState)
        else if field params 0 2 < 300 ∨ 15040 < field params 0 2 then s.answers p params (.no .badValue)
        else ((s.takes p params).withLaunch
          { s.launch with periodInt := field params 0 2, periodFrac := field params 2 2 }).respond p (.ok [])) := by
  have part : (s.takes p params).part = s.part := by simp
  split
  · next busy => exact next_answered h (by omega) (by simpa using length) ((if_neg out).trans (if_pos (by rwa [part])))
  · next idle =>
    have idle' : ¬ (s.takes p params).part ≠ .standby := by rwa [part]
    split
    · next bad => exact next_answered h (by omega) (by simpa using length) ((if_neg out).trans ((if_neg idle').trans (if_pos bad)))
    · next good =>
      refine next_answered h (by omega) (by simpa using length)
        ((if_neg out).trans ((if_neg idle').trans ((if_neg good).trans ?_)))
      simp only [done, State.takes_frame]

theorem exec_setHoldLimits {s : State} {p : Port} {params : List Byte} (h : s.open_ p)
    (out : ¬ (s.takes p params).lockedOut p = true) (length : params.length = 8) :
    exec (.setHoldLimits p params) s =
      .next (if max 1 (min 20000000 (field params 4 4)) < min 20000000 (field params 0 4) then
          s.answers p params (.no .badValue)
        else ((s.takes p params).withLaunch
          { s.launch with
            holdMin := min 20000000 (field params 0 4), holdMax := max 1 (min 20000000 (field params 4 4)) }).respond p
          ⟨.ok, decide (20000000 < field params 0 4 ∨ field params 4 4 < 1 ∨ 20000000 < field params 4 4), []⟩) := by
  have lo := clampTo_eq (lo := 0) (hi := 20000000) (field params 0 4) (by decide)
  have hi := clampTo_eq (lo := 1) (hi := 20000000) (field params 4 4) (by decide)
  simp only [Nat.not_lt_zero, false_or, Nat.zero_max] at lo
  split
  · next bad =>
    exact next_answered h (by omega) (by simpa using length) ((if_neg out).trans (if_pos (by simpa only [lo, hi] using bad)))
  · next good =>
    refine next_answered h (by omega) (by simpa using length)
      ((if_neg out).trans ((if_neg (by simpa only [lo, hi] using good)).trans ?_))
    simp only [lo, hi, State.takes_frame, Bool.decide_or]

theorem exec_setSlipTolerance {s : State} {p : Port} {params : List Byte} (h : s.open_ p)
    (out : ¬ (s.takes p params).lockedOut p = true) (length : params.length = 2) :
    exec (.setSlipTolerance p params) s =
      .next (((s.takes p params).withLaunch { s.launch with slipTolerance := min 10000 (number params) }).respond p
        ⟨.ok, decide (10000 < number params), []⟩) := by
  have value := clampTo_eq (lo := 0) (hi := 10000) (number params) (by decide)
  simp only [Nat.not_lt_zero, false_or, Nat.zero_max] at value
  refine next_answered h (by omega) (by simpa using length) ((if_neg out).trans ?_)
  simp only [field_all length, value, State.takes_frame]

theorem exec_setStreamIds {s : State} {p : Port} {params : List Byte} (h : s.open_ p)
    (out : ¬ (s.takes p params).lockedOut p = true) (length : params.length = 5) :
    exec (.setStreamIds p params) s =
      .next (if s.part ≠ .standby then s.answers p params (.no .wrongState)
        else if 8190 < field params 0 2 ∨ 8190 < field params 2 2 ∨ field params 0 2 = field params 2 2 ∨
            s.networkEntry (field params 0 2) ≠ none ∨ s.networkEntry (field params 2 2) ≠ none ∨ 1 < byteAt params 4 then
          s.answers p params (.no .badValue)
        else ((s.takes p params).withLaunch
          { s.launch with
            pacingId := field params 0 2, cueId := field params 2 2, strip := byteAt params 4 == 1 }).respond p (.ok [])) := by
  have part : (s.takes p params).part = s.part := by simp
  have network : ∀ id, (s.takes p params).isNetworkId id = true ↔ s.networkEntry id ≠ none := fun id => by
    simp [State.isNetworkId, Option.isSome_iff_ne_none]
  split
  · next busy => exact next_answered h (by omega) (by simpa using length) ((if_neg out).trans (if_pos (by rwa [part])))
  · next idle =>
    have idle' : ¬ (s.takes p params).part ≠ .standby := by rwa [part]
    rcases Nat.lt_or_ge 1 (byteAt params 4) with large | small
    · rw [if_pos (by simp [large])]
      refine next_answered h (by omega) (by simpa using length) ((if_neg out).trans ((if_neg idle').trans ?_))
      simp only [flagOf_large large]
      rfl
    · split
      · next bad =>
        refine next_answered h (by omega) (by simpa using length) ((if_neg out).trans ((if_neg idle').trans ?_))
        simp only [flagOf_small small]
        exact if_pos (by simpa [network, Nat.not_lt.mpr small] using bad)
      · next good =>
        refine next_answered h (by omega) (by simpa using length) ((if_neg out).trans ((if_neg idle').trans ?_))
        simp only [flagOf_small small]
        refine (if_neg (by simpa [network, Nat.not_lt.mpr small] using good)).trans ?_
        simp only [done, State.takes_frame]

/-- Settles O19: each setting's equation, with its refusals in their order. -/
theorem settingsAreStored : Obligations.SettingsAreStored := by
  intro s p params h permit
  have out : ¬ (s.takes p params).lockedOut p = true := by simp [State.permitted permit]
  obtain ⟨label, holdover⟩ := exec_timebaseSettings h out
  refine ⟨label, holdover, fun length small => ?_, fun length idle low high => ?_, fun length order => ?_,
    exec_setSlipTolerance h out, fun length idle pacing cue distinct noPacing noCue flag => ?_, fun length large => ?_,
    fun length order => ?_, fun length busy => ?_, fun length idle bad => ?_, fun length busy => ?_, fun length idle bad => ?_⟩
  · rw [exec_setAdvance h out length, if_neg (by omega)]
  · rw [exec_setPacketPeriod h out length, if_neg (by simpa using idle), if_neg (by omega)]
  · rw [exec_setHoldLimits h out length, if_neg (by omega)]
  · rw [exec_setStreamIds h out length, if_neg (by simpa using idle),
      if_neg (by simp [noPacing, noCue]; omega)]
  · rw [exec_setAdvance h out length, if_pos large]
  · rw [exec_setHoldLimits h out length, if_pos order]
  · rw [exec_setPacketPeriod h out length, if_pos busy]
  · rw [exec_setPacketPeriod h out length, if_neg (by simpa using idle), if_pos bad]
  · rw [exec_setStreamIds h out length, if_pos busy]
  · rw [exec_setStreamIds h out length, if_neg (by simpa using idle), if_pos bad]

end Sys2Proof.Machine
end

