-- ==== Sys2Proof/Proofs/SecondMarks.lean ====
section
/-! Second marks, pulses, steps of the timebase and what they bring about in the scheduler, and the pulse watch. -/

namespace Sys2Proof.Machine

open Sys2Proof

-- One proof after the other: proofs that wait for each other hold a thread each.
set_option Elab.async false

/-! ### What head decisions leave of the scheduler (R70, R71) -/

/-- What head decisions can change: the scheduled start, and the statistics but those of truncation and stepping. -/
def Launch.DecidedTo (l m : Launch) : Prop :=
  m = { l with scheduled := m.scheduled, stats := m.stats } ∧ m.stats.truncated = l.stats.truncated ∧
    m.stats.stepped = l.stats.stepped

theorem Launch.DecidedTo.refl (l : Launch) : l.DecidedTo l := ⟨rfl, rfl, rfl⟩

theorem Launch.DecidedTo.of_eq {l m : Launch} (h : m = l) : l.DecidedTo m := h ▸ .refl l

theorem Launch.DecidedTo.trans {l m n : Launch} (h : l.DecidedTo m) (k : m.DecidedTo n) : l.DecidedTo n := by
  obtain ⟨first, truncated, stepped⟩ := h
  obtain ⟨second, truncated', stepped'⟩ := k
  refine ⟨?_, truncated'.trans truncated, stepped'.trans stepped⟩
  rw [second, first]

theorem State.dropGroup_launch (s : State) (place : Nat) (why : DropReason) :
    (s.dropGroup place why).launch = { s.launch with stats := s.launch.stats.drop why } := by
  simp [State.dropGroup]

theorem State.dropHead_launch (s : State) (why : DropReason) :
    (s.dropHead why).launch =
      if s.sel.queue = [] then s.launch else { s.launch with stats := s.launch.stats.drop why } := by
  unfold State.dropHead
  split
  · next empty => rw [if_pos empty]
  · next queued => rw [if_neg (by simp [queued]), State.dropGroup_launch]; rfl

/-- A head decision drops a group for its gate, its reject reason or its lateness. -/
theorem headOutcome_drop {gate : Bool} {launched : Launched} {q : Time} {tolerance : Nat} {why : DropReason}
    (h : headOutcome gate launched q tolerance = .inl why) : why ≠ .truncated ∧ why ≠ .stepped := by
  unfold headOutcome at h
  split at h
  · cases h; exact ⟨nofun, nofun⟩
  · split at h
    · next reason => cases h; cases reason <;> exact ⟨nofun, nofun⟩
    · split at h
      · cases h
      · dsimp only at h
        split at h
        · cases h
        · cases h; exact ⟨nofun, nofun⟩

theorem LaunchStats.drop_other {why : DropReason} (truncated : why ≠ .truncated) (stepped : why ≠ .stepped) (t : LaunchStats) :
    (t.drop why).truncated = t.truncated ∧ (t.drop why).stepped = t.stepped := by
  cases why
  case truncated => exact absurd rfl truncated
  case stepped => exact absurd rfl stepped
  all_goals exact ⟨rfl, rfl⟩

theorem State.decideHead_launch (q : Time) (fuel : Nat) (s : State) : s.launch.DecidedTo (State.decideHead q fuel s).launch := by
  induction fuel generalizing s with
  | zero => exact .refl _
  | succ fuel ih =>
    unfold State.decideHead
    repeat' split
    · exact .refl _
    · exact .refl _
    · next why outcome =>
      obtain ⟨truncated, stepped⟩ := headOutcome_drop outcome
      refine .trans ?_ (ih _)
      rw [State.dropHead_launch]
      split
      · exact .refl _
      · exact ⟨rfl, LaunchStats.drop_other truncated stepped _⟩
    · exact ⟨by simp, by simp, by simp⟩

theorem State.headDecision_launch (s : State) : s.launch.DecidedTo s.headDecision.launch := by
  unfold State.headDecision
  split
  · exact State.decideHead_launch _ _ s
  · exact .refl _

theorem State.admitCopy_launch (s : State) (k : AdmitCond) (e place : Nat) (r : GroupRecord) :
    s.launch.DecidedTo (s.admitCopy k e place r).launch := by
  refine .trans (.of_eq ?_) (State.headDecision_launch _)
  simp [State.withRecord]

theorem State.selectorTests_launch (fuel : Nat) (s : State) : s.launch.DecidedTo (State.selectorTests fuel s).launch := by
  induction fuel generalizing s with
  | zero => exact .refl _
  | succ fuel ih =>
    unfold State.selectorTests
    repeat' split
    · exact .refl _
    · exact (s.admitCopy_launch _ _ _ _).trans (ih _)
    · exact (Launch.DecidedTo.of_eq (by simp)).trans (ih _)
    · exact .refl _

theorem State.testSelector_launch (s : State) : s.launch.DecidedTo s.testSelector.launch := by
  unfold State.testSelector
  split
  · exact State.selectorTests_launch _ s
  · exact .refl _

theorem State.actInstantly_launch (s : State) (x : Instantly) : s.launch.DecidedTo (s.actInstantly x).launch := by
  cases x with
  | selector => exact s.testSelector_launch
  | _ => exact .of_eq (by simp [State.actInstantly])

/-- Outside RUN nothing that site time reaches touches the store, the selector or the scheduler. -/
theorem State.actInstantly_idle {s : State} (h : s.part ≠ .run) (x : Instantly) :
    (s.actInstantly x).launch = s.launch ∧ (s.actInstantly x).store = s.store ∧ (s.actInstantly x).sel = s.sel := by
  cases x with
  | selector => simp [State.actInstantly, State.testSelector, State.running, h]
  | _ => simp [State.actInstantly]

theorem State.actInstantly_foldl_launch (l : List Instantly) (s : State) :
    s.launch.DecidedTo (l.foldl State.actInstantly s).launch ∧
      (s.part ≠ .run → (l.foldl State.actInstantly s).launch = s.launch ∧ (l.foldl State.actInstantly s).store = s.store ∧
        (l.foldl State.actInstantly s).sel = s.sel) := by
  induction l generalizing s with
  | nil => exact ⟨.refl _, fun _ => ⟨rfl, rfl, rfl⟩⟩
  | cons x l ih =>
    obtain ⟨decided, idle⟩ := ih (s.actInstantly x)
    refine ⟨(s.actInstantly_launch x).trans decided, fun h => ?_⟩
    obtain ⟨launch, store, sel⟩ := s.actInstantly_idle h x
    obtain ⟨launch', store', sel'⟩ := idle (by simpa using h)
    exact ⟨launch'.trans launch, store'.trans store, sel'.trans sel⟩

/-! ### A step of the timebase (R75) -/

/-- The scheduler after the three steps of R75 and before the head decision. -/
def State.steppedLaunch (s : State) : Launch :=
  { s.launch with
    emitting := none, scheduled := none, nullEnd := none, nullsStopped := false
    lastEnd := some (tadd s.now (s.launch.periodInt + 1)), gap := some (tadd s.now (s.launch.periodInt + 1), 0)
    stats :=
      { s.launch.stats with
        truncated := if s.launch.emitting = none then s.launch.stats.truncated else bump s.launch.stats.truncated
        stepped := if s.launch.scheduled = none ∨ s.sel.queue = [] then s.launch.stats.stepped
          else bump s.launch.stats.stepped } }

theorem State.stepScheduler_launch (s : State) :
    s.truncateEmitting.dropScheduled.setGuard.launch = s.steppedLaunch := by
  have truncated : s.truncateEmitting.launch = { s.launch with
      emitting := none
      stats := { s.launch.stats with
        truncated := if s.launch.emitting = none then s.launch.stats.truncated else bump s.launch.stats.truncated } } := by
    unfold State.truncateEmitting
    cases emitting : s.launch.emitting with
    | none => cases launch : s.launch; simp_all
    | some e => simp [State.dropGroup_launch, LaunchStats.drop]
  have queue : s.truncateEmitting.sel = s.sel := by simp
  have dropped : s.truncateEmitting.dropScheduled.launch = { s.truncateEmitting.launch with
      scheduled := none
      stats := { s.truncateEmitting.launch.stats with
        stepped := if s.launch.scheduled = none ∨ s.sel.queue = [] then s.launch.stats.stepped
          else bump s.launch.stats.stepped } } := by
    unfold State.dropScheduled
    rw [truncated]
    dsimp only
    cases scheduled : s.launch.scheduled with
    | none => simp [scheduled, truncated]
    | some x =>
      simp only [State.dropHead_launch, State.withLaunch_sel, State.withLaunch_launch, queue]
      split
      · next empty => simp [empty]
      · next queued => simp [queued, LaunchStats.drop]
  have now : s.truncateEmitting.dropScheduled.now = s.now := by simp [State.now]
  unfold State.setGuard
  simp only [State.withLaunch_launch, dropped, truncated, now, Launch.openGap]
  rfl

theorem State.jump_launch (s : State) :
    (s.part = .run → s.steppedLaunch.DecidedTo s.jump.launch) ∧
      (s.part ≠ .run → s.jump.launch = s.launch ∧ s.jump.store = s.store ∧ s.jump.sel = s.sel) := by
  have jumped : ∀ u : State, u.jump =
      ((freeOrder u.schedulerStep.draws Instantly.kind u.schedulerStep.reachedNow).foldl State.actInstantly u.schedulerStep).draw :=
    fun _ => rfl
  obtain ⟨decided, idle⟩ := State.actInstantly_foldl_launch
    (freeOrder s.schedulerStep.draws Instantly.kind s.schedulerStep.reachedNow) s.schedulerStep
  rw [jumped]
  simp only [State.draw_frame]
  constructor
  · intro run
    refine .trans ?_ decided
    rw [State.schedulerStep, if_pos (by simp [State.running, run])]
    refine .trans (.of_eq ?_) (State.headDecision_launch _)
    exact s.stepScheduler_launch
  · intro run
    have still : s.schedulerStep = s := if_neg (by simp [State.running, run])
    rw [still] at idle ⊢
    exact idle run

/-- What a jump leaves of the scheduler, by what it finds (R75, R76). -/
theorem State.schedulerStepped_of_jumped {s t : State} {first : List Event} (h : s.jumped t first) : s.schedulerStepped t := by
  obtain ⟨u, rfl, tb, launch, -, store, sel, -, -, -, -, part, -⟩ := h
  obtain ⟨run, idle⟩ := u.jump_launch
  have now : u.now = u.jump.now := by simp [State.now]
  have advance : u.jump.launch.advance = u.launch.advance ∧ u.jump.launch.pendingAdvance = u.launch.pendingAdvance := by
    rcases Decidable.em (u.part = .run) with hr | hr
    · obtain ⟨kept, -⟩ := run hr
      exact ⟨by rw [kept]; rfl, by rw [kept]; rfl⟩
    · rw [(idle hr).1]; exact ⟨rfl, rfl⟩
  refine ⟨?_, ?_, fun hr => ?_, fun hr => ?_⟩
  · rw [advance.1, launch]
  · rw [advance.2, launch]
  · obtain ⟨kept, truncated, stepped⟩ := run (part.trans hr)
    have period : u.launch.periodInt = s.launch.periodInt := by rw [launch]
    have emitting : u.launch.emitting = s.launch.emitting := by rw [launch]
    have scheduled : u.launch.scheduled = s.launch.scheduled := by rw [launch]
    have stats : u.launch.stats = s.launch.stats := by rw [launch]
    refine ⟨by rw [kept]; rfl, ?_, ?_, by rw [kept]; rfl, ?_, ?_⟩
    · rw [kept, ← now, ← period]; rfl
    · rw [kept, ← now, ← period]; rfl
    · rw [truncated, State.steppedLaunch, emitting, stats]
    · rw [stepped, State.steppedLaunch, scheduled, stats, sel]
  · obtain ⟨launch', store', sel'⟩ := idle (part ▸ hr)
    refine ⟨?_, store'.trans store, sel'.trans sel⟩
    rw [launch', launch]

end Sys2Proof.Machine
end

