-- ==== Sys2Proof/Proofs/Pulses.lean ====
section
/-! Second marks, pulses in each discipline state, the pulse watch and BLINK. -/

namespace Sys2Proof.Machine

open Sys2Proof

-- One proof after the other: proofs that wait for each other hold a thread each.
set_option Elab.async false

/-! ### The timebase after a mark (R2, R11) -/

@[simp] theorem Timebase.mark_frame (tb : Timebase) (base : Nat) :
    (tb.mark base).tick = 0 ∧ (tb.mark base).second = tb.pendingLabel.getD base ∧ (tb.mark base).correction = 0 ∧
      (tb.mark base).pendingLabel = none ∧ (tb.mark base).labelled = (tb.labelled || tb.pendingLabel.isSome) ∧
      (tb.mark base).good = tb.good ∧ (tb.mark base).stray = tb.stray ∧ (tb.mark base).missed = tb.missed ∧
      (tb.mark base).watch = tb.watch ∧ (tb.mark base).lastError = tb.lastError ∧
      (tb.mark base).holdoverLimit = tb.holdoverLimit := by
  unfold Timebase.mark
  dsimp only
  split <;> exact ⟨rfl, rfl, rfl, rfl, rfl, rfl, rfl, rfl, rfl, rfl, rfl⟩

theorem Timebase.mark_discipline {tb : Timebase} (h : tb.discipline ≠ .holdover) (base : Nat) :
    (tb.mark base).discipline = tb.discipline ∧ (tb.mark base).holdoverSeconds = tb.holdoverSeconds := by
  unfold Timebase.mark
  dsimp only
  rw [if_neg h]
  exact ⟨rfl, rfl⟩

theorem Timebase.mark_holdover {tb : Timebase} (h : tb.discipline = .holdover) (base : Nat) :
    (tb.mark base).holdoverSeconds = tb.holdoverSeconds + 1 ∧
      (tb.mark base).discipline = if tb.holdoverLimit ≤ tb.holdoverSeconds + 1 then .expired else .holdover := by
  unfold Timebase.mark
  dsimp only
  rw [if_pos h]
  exact ⟨rfl, rfl⟩

/-- A second mark before the jump that may follow it. -/
def State.marked (s : State) (tb : Timebase) (base : Nat) : State :=
  let u := s.changeTb (tb.mark base) (tb.pendingLabel.map fun v => (v, base))
  let u := u.withLaunch u.launch.takeAdvance
  u.withLines { u.lines with blink := .high }

theorem State.marked_frame (s : State) (tb : Timebase) (base : Nat) :
    (s.marked tb base).tb = tb.mark base ∧ (s.marked tb base).feedA = s.feedA ∧ (s.marked tb base).feedB = s.feedB ∧
      (s.marked tb base).store = s.store ∧ (s.marked tb base).sel = s.sel ∧ s.spliceKept (s.marked tb base) ∧
      (s.marked tb base).lines = { s.lines with blink := .high } ∧
      (s.marked tb base).launch =
        { s.launch with advance := s.launch.pendingAdvance.getD s.launch.advance, pendingAdvance := none } := by
  simp [State.marked, State.spliceKept, Launch.takeAdvance_eq]

/-- A mark that replaces the second by a different one, or is a step, is followed by a jump (R75). -/
theorem State.secondMark_eq (s : State) (tb : Timebase) (base : Nat) (step : Bool) :
    s.secondMark tb base step =
      if step = true ∨ tb.pendingLabel.getD base ≠ base then (s.marked tb base).jump else s.marked tb base := by
  refine if_congr ?_ rfl rfl
  cases tb.pendingLabel <;> cases step <;> simp

theorem State.secondMark_tb (s : State) (tb : Timebase) (base : Nat) (step : Bool) :
    (s.secondMark tb base step).tb = tb.mark base ∧ (s.secondMark tb base step).lines = { s.lines with blink := .high } := by
  obtain ⟨tb_, -, -, -, -, -, lines, -⟩ := s.marked_frame tb base
  rw [State.secondMark_eq]
  split <;> simp [tb_, lines]

/-- A mark without a jump touches the timebase, the advance, BLINK and the event queues alone. -/
theorem State.secondMark_natural {s : State} {tb : Timebase} {base : Nat} (label : tb.pendingLabel = none) :
    s.secondMark tb base false = s.marked tb base := by
  rw [State.secondMark_eq, if_neg]
  simp [label]

theorem State.secondMark_outputs (s : State) (tb : Timebase) (base : Nat) (step : Bool) :
    (s.secondMark tb base step).launch.outputs = s.launch.outputs := by
  obtain ⟨-, -, -, -, -, -, -, launch⟩ := s.marked_frame tb base
  rw [State.secondMark_eq]
  split
  · obtain ⟨run, idle⟩ := (s.marked tb base).jump_launch
    rcases Decidable.em ((s.marked tb base).part = .run) with hr | hr
    · rw [(run hr).1, State.steppedLaunch, launch]
    · rw [(idle hr).1, launch]
  · rw [launch]

/-! ### Natural second marks (R1, R2) -/

@[simp] theorem State.countPeriod_eq (s : State) :
    s.countPeriod.tb = s.tb ∧ s.countPeriod.feedA = s.feedA.period ∧ s.countPeriod.feedB = s.feedB.period ∧
      s.countPeriod.launch = { s.launch with outputs := drainOutputs s.launch.outputs } ∧
      s.countPeriod.mon = { s.mon with elapsed := min (s.mon.elapsed + 1) 2500 } ∧
      s.countPeriod.chg = { s.chg with returnTimer := s.chg.returnTimer.map (· - 1) } ∧
      s.countPeriod.lines = { s.lines with records := s.lines.records.map Line.period } ∧
      (∀ p, s.countPeriod.port p = s.port p) :=
  ⟨rfl, rfl, rfl, rfl, rfl, rfl, rfl, fun p => by cases p <;> rfl⟩

theorem Feed.period_eq (f : Feed) : ∃ n, f.period = { f with silence := n } := by
  unfold Feed.period
  split
  · exact ⟨f.silence, rfl⟩
  · exact ⟨_, rfl⟩

/-- A jump after a period has been counted, said of the state before that period. -/
theorem State.jumped_of_countPeriod {s t : State} {first : List Event} (h : s.countPeriod.jumped t first) : s.jumped t first := by
  obtain ⟨u, jump, tb, launch, feed, store, sel, splice, mon, chg, blink, part, lock, draws, pending, port⟩ := h
  obtain ⟨-, feedA, feedB, outputs, elapsed, timer, -, ports⟩ := s.countPeriod_eq
  refine ⟨u, jump, tb, ?_, fun f => ?_, store, sel, splice, ?_, ?_, blink, part, lock, draws, pending, fun p => ?_⟩
  · rw [launch, outputs]
  · obtain ⟨n, silence⟩ : ∃ n, s.countPeriod.feed f = { s.feed f with silence := n } := by
      cases f
      · exact s.feedA.period_eq
      · exact s.feedB.period_eq
    rw [feed, silence]
  · rw [mon, elapsed]
  · rw [chg, timer]
  · rw [port, ports]

/-- Settles O15: the period at the end of a second is a mark of the next second, with a label or without. -/
theorem secondMarkMakesTheNextSecond : Obligations.SecondMarkMakesTheNextSecond := by
  intro s ends
  have run : exec .secondMark s = .next (s.countPeriod.secondMark s.tb s.tb.nextSecond false) := by
    show Host.Outcome.next (if s.tb.atSecondEnd then s.period else s) = _
    rw [if_pos ends]
    exact congrArg Host.Outcome.next (if_pos ends)
  obtain ⟨quiet, jumps⟩ := s.countPeriod.secondMark_spec s.tb s.tb.nextSecond false
  obtain ⟨tb, lines⟩ := s.countPeriod.secondMark_tb s.tb s.tb.nextSecond false
  obtain ⟨tick, second, correction, label, labelled, good, stray, missed, watch, error, limit⟩ :=
    s.tb.mark_frame s.tb.nextSecond
  have blink : (s.countPeriod.secondMark s.tb s.tb.nextSecond false).lines.blink = .high := by rw [lines]
  refine ⟨_, run, ?_⟩
  rw [tb] at quiet jumps ⊢
  refine ⟨tick, second, correction, label, labelled, fun other => Timebase.mark_discipline other _,
    fun held => Timebase.mark_holdover held _, good, stray, missed, watch, error, limit, blink, fun none_ => ?_, by simp,
    by simp, ?_⟩
  · obtain ⟨-, feedA, feedB, store, sel, splice, -, launch⟩ := s.countPeriod.marked_frame s.tb s.tb.nextSecond
    have natural := State.secondMark_natural (s := s.countPeriod) (base := s.tb.nextSecond) none_
    refine ⟨?_, ?_, ?_, ?_, ?_, ?_, ?_, by simp, by simp, by simp [lines]⟩ <;> rw [natural]
    · rw [launch]; rfl
    · rw [launch]
    · exact store
    · exact sel
    · exact splice
    · exact feedA
    · exact feedB
  · refine ⟨fun same => quiet rfl same, fun other => ?_⟩
    have jumped := State.jumped_of_countPeriod (jumps (.inr other))
    exact ⟨State.schedulerStepped_of_jumped jumped, jumped⟩

/-! ### Pulses (R4, R6 to R12) -/

/-- The timebase with the pulse measured (R4, R5). -/
def Timebase.measured (tb : Timebase) : Timebase :=
  { tb with lastError := some (pulseError tb.tick), watch := tb.watch || decide ((pulseError tb.tick).natAbs ≤ 1000) }

/-- What a pulse does to the count, by the action of its discipline. -/
theorem State.pulse_cases (s : State) :
    let m := s.tb.measured.discipline_ (pulseError s.tb.tick)
    (m.2 = .none → s.pulse = s.changeTb m.1 none) ∧
    (m.2 = .slew → m.1.slewEnds (clampSlew (pulseError s.tb.tick)) = true →
      s.pulse = s.secondMark { m.1 with markHold := true } m.1.nextSecond false) ∧
    (m.2 = .slew → m.1.slewEnds (clampSlew (pulseError s.tb.tick)) = false →
      s.pulse = s.changeTb { m.1 with correction := clampSlew (pulseError s.tb.tick) } none) ∧
    (m.2 = .step →
      s.pulse = s.secondMark { m.1 with watch := true, markHold := false }
        (if 0 ≤ pulseError s.tb.tick then m.1.second else m.1.nextSecond) true) := by
  generalize h : s.tb.measured.discipline_ (pulseError s.tb.tick) = m
  obtain ⟨tb, action⟩ := m
  simp only [Timebase.measured] at h
  refine ⟨?_, ?_, ?_, ?_⟩
  · rintro ⟨⟩
    simp only [State.pulse, h]
  · rintro ⟨⟩ ends
    simp only [State.pulse, h]
    exact if_pos ends
  · rintro ⟨⟩ goes
    simp only [State.pulse, h]
    exact if_neg (by simp [goes])
  · rintro ⟨⟩
    simp only [State.pulse, h]

/-- What a pulse leaves of the timebase whatever its discipline: second, tick, label and holdover limit, and the measured
error and watch flag. -/
theorem Timebase.discipline_frame (tb : Timebase) (e : Int) :
    (tb.discipline_ e).1.second = tb.second ∧ (tb.discipline_ e).1.tick = tb.tick ∧
      (tb.discipline_ e).1.correction = tb.correction ∧ (tb.discipline_ e).1.pendingLabel = tb.pendingLabel ∧
      (tb.discipline_ e).1.labelled = tb.labelled ∧ (tb.discipline_ e).1.watch = tb.watch ∧
      (tb.discipline_ e).1.lastError = tb.lastError ∧ (tb.discipline_ e).1.holdoverLimit = tb.holdoverLimit := by
  unfold Timebase.discipline_
  dsimp only
  repeat' split
  all_goals exact ⟨rfl, rfl, rfl, rfl, rfl, rfl, rfl, rfl⟩

/-- The first four pulses of the table of 1.3 that step: in FREE and EXPIRED, and at the third stray. -/
theorem Timebase.discipline_restart {tb : Timebase} {e : Int}
    (h : tb.discipline = .free ∨ tb.discipline = .expired ∨
      1000 < e.natAbs ∧ (tb.discipline = .locked ∨ tb.discipline = .holdover) ∧ 2 ≤ tb.stray) :
    tb.discipline_ e = ({ tb with discipline := .acquiring, good := 0, stray := 0, missed := 0 }, .step) := by
  unfold Timebase.discipline_
  rcases h with free | expired | ⟨out, locked | held, third⟩
  · simp only [free]
  · simp only [expired]
  · simp [locked, Nat.not_le.mpr out, third]
  · simp [held, Nat.not_le.mpr out, third]

/-- A pulse out of the window in ACQUIRING. -/
theorem Timebase.discipline_far {tb : Timebase} {e : Int} (h : tb.discipline = .acquiring) (out : 1000 < e.natAbs) :
    tb.discipline_ e = ({ tb with good := 0 }, .step) := by
  simp [Timebase.discipline_, h, Nat.not_le.mpr out]

/-- A pulse in the window in ACQUIRING: a close one counts, and the fourth locks. -/
theorem Timebase.discipline_near {tb : Timebase} {e : Int} (h : tb.discipline = .acquiring) (near : e.natAbs ≤ 1000) :
    tb.discipline_ e =
      (if e.natAbs ≤ 16 ∧ 3 ≤ tb.good then { tb with discipline := .locked, good := 4, stray := 0, missed := 0 }
        else { tb with good := if e.natAbs ≤ 16 then tb.good + 1 else 0 }, .slew) := by
  unfold Timebase.discipline_
  simp only [h, near, decide_true, ↓reduceIte]
  by_cases close : e.natAbs ≤ 16 <;> by_cases third : 3 ≤ tb.good <;> simp [close, third]

/-- A pulse in the window in LOCKED and HOLDOVER. -/
theorem Timebase.discipline_hit {tb : Timebase} {e : Int} (h : tb.discipline = .locked ∨ tb.discipline = .holdover)
    (near : e.natAbs ≤ 1000) :
    tb.discipline_ e = ({ tb with discipline := .locked, stray := 0, missed := 0 }, .slew) := by
  unfold Timebase.discipline_
  rcases h with locked | held
  · simp only [locked, near, decide_true, ↓reduceIte]
  · simp only [held, near, decide_true, ↓reduceIte]

/-- A first or second stray in LOCKED and HOLDOVER. -/
theorem Timebase.discipline_stray {tb : Timebase} {e : Int} (h : tb.discipline = .locked ∨ tb.discipline = .holdover)
    (out : 1000 < e.natAbs) (few : ¬ 2 ≤ tb.stray) :
    tb.discipline_ e = ({ tb with stray := tb.stray + 1 }, .none) := by
  unfold Timebase.discipline_
  rcases h with locked | held
  · simp [locked, Nat.not_le.mpr out, few]
  · simp [held, Nat.not_le.mpr out, few]

/-- The timebase after a pulse that only counts, after a slew, and after a step. -/
theorem State.pulse_tb (s : State) :
    let m := s.tb.measured.discipline_ (pulseError s.tb.tick)
    (m.2 = .none → s.pulse.tb = m.1) ∧
    (m.2 = .slew →
      s.pulse.tb = { m.1 with correction := clampSlew (pulseError s.tb.tick) } ∨
        s.pulse.tb = Timebase.mark { m.1 with markHold := true } m.1.nextSecond) ∧
    (m.2 = .step →
      s.pulse.tb = Timebase.mark { m.1 with watch := true, markHold := false }
        (if 0 ≤ pulseError s.tb.tick then m.1.second else m.1.nextSecond)) := by
  obtain ⟨count, ends, goes, step⟩ := s.pulse_cases
  refine ⟨fun h => ?_, fun h => ?_, fun h => ?_⟩
  · rw [count h, State.changeTb_tb]
  · cases slew : (s.tb.measured.discipline_ (pulseError s.tb.tick)).1.slewEnds (clampSlew (pulseError s.tb.tick)) with
    | false => exact .inl (by rw [goes h slew, State.changeTb_tb])
    | true => exact .inr (by rw [ends h slew, (State.secondMark_tb _ _ _ _).1])
  · rw [step h, (State.secondMark_tb _ _ _ _).1]

/-- What every pulse leaves: the measured error, the holdover limit and the records of the lines. -/
theorem State.pulse_keeps (s : State) :
    s.pulse.tb.lastError = some (pulseError s.tb.tick) ∧ s.pulse.tb.holdoverLimit = s.tb.holdoverLimit ∧
      s.pulse.lines.records = s.lines.records := by
  obtain ⟨-, -, -, -, -, -, error, limit⟩ := s.tb.measured.discipline_frame (pulseError s.tb.tick)
  have measured : s.tb.measured.lastError = some (pulseError s.tb.tick) ∧ s.tb.measured.holdoverLimit = s.tb.holdoverLimit :=
    ⟨rfl, rfl⟩
  obtain ⟨count, ends, goes, step⟩ := s.pulse_cases
  cases action : (s.tb.measured.discipline_ (pulseError s.tb.tick)).2 with
  | none => rw [count action]; simp [error, limit, measured]
  | slew =>
    cases slew : (s.tb.measured.discipline_ (pulseError s.tb.tick)).1.slewEnds (clampSlew (pulseError s.tb.tick)) with
    | false => rw [goes action slew]; simp [error, limit, measured]
    | true => rw [ends action slew, (State.secondMark_tb _ _ _ _).1, (State.secondMark_tb _ _ _ _).2]; simp [error, limit, measured]
  | step => rw [step action, (State.secondMark_tb _ _ _ _).1, (State.secondMark_tb _ _ _ _).2]; simp [error, limit, measured]

/-- A stray that is not the third changes its count alone, and raises nothing. -/
theorem State.pulse_stray {s : State} (h : s.tb.discipline = .locked ∨ s.tb.discipline = .holdover)
    (out : 1000 < (pulseError s.tb.tick).natAbs) (few : ¬ 2 ≤ s.tb.stray) :
    s.pulse = s.withTb { s.tb.measured with stray := s.tb.stray + 1 } := by
  obtain ⟨count, -⟩ := s.pulse_cases
  have stray := Timebase.discipline_stray (tb := s.tb.measured) h out few
  rw [count (by rw [stray]), stray]
  unfold State.changeTb
  dsimp only
  rw [if_pos (by rfl), if_pos (by rfl)]
  rfl

/-- Settles O16: the table of 1.3, discipline by discipline. -/
theorem pulseDisciplines : Obligations.PulseDisciplines := by
  intro s
  obtain ⟨error, limit, records⟩ := s.pulse_keeps
  obtain ⟨-, slewed, stepped⟩ := s.pulse_tb
  refine ⟨s.pulse, rfl, error, limit, by simp, by simp, records, by simp, by simp, fun h => ?restart, fun h close => ?close,
    fun h out => ?far, fun h near => ?hit, fun h out => ?stray⟩
  case restart =>
    have action := Timebase.discipline_restart (tb := s.tb.measured) (e := pulseError s.tb.tick) (h.imp_right .inl)
    rw [action] at stepped
    rw [stepped rfl]
    simp [Timebase.mark_discipline]
  case close =>
    have action := Timebase.discipline_near (tb := s.tb.measured) (e := pulseError s.tb.tick) h (by omega)
    rw [action] at slewed
    split
    · next third =>
      rw [if_pos ⟨close, third⟩] at slewed
      rcases slewed rfl with goes | ends
      · rw [goes]; simp
      · rw [ends]; simp [Timebase.mark_discipline]
    · next few =>
      rw [if_neg (fun both => few both.2), if_pos close] at slewed
      rcases slewed rfl with goes | ends
      · rw [goes]; exact ⟨h, rfl⟩
      · rw [ends, (Timebase.mark_discipline (by simp [Timebase.measured, h]) _).1]; exact ⟨h, by simp [Timebase.measured]⟩
  case far =>
    rcases Nat.lt_or_ge 1000 (pulseError s.tb.tick).natAbs with outside | inside
    · rw [Timebase.discipline_far (tb := s.tb.measured) h outside] at stepped
      rw [stepped rfl, (Timebase.mark_discipline (by simp [Timebase.measured, h]) _).1]
      exact ⟨h, by simp, by simp⟩
    · have action := Timebase.discipline_near (tb := s.tb.measured) (e := pulseError s.tb.tick) h inside
      rw [action, if_neg (by omega), if_neg (by omega)] at slewed
      refine ⟨?_, ?_, by omega⟩ <;> rcases slewed rfl with goes | ends
      · rw [goes]; exact h
      · rw [ends, (Timebase.mark_discipline (by simp [Timebase.measured, h]) _).1]; exact h
      · rw [goes]
      · rw [ends]; simp
  case hit =>
    rw [Timebase.discipline_hit (tb := s.tb.measured) h near] at slewed
    have watch : s.tb.measured.watch = true := by simp [Timebase.measured, near]
    rcases slewed rfl with goes | ends
    · rw [goes]; exact ⟨rfl, rfl, rfl, watch⟩
    · rw [ends]; simp [Timebase.mark_discipline, watch]
  case stray =>
    split
    · next third =>
      rw [Timebase.discipline_restart (tb := s.tb.measured) (.inr (.inr ⟨out, h, third⟩))] at stepped
      rw [stepped rfl]
      simp [Timebase.mark_discipline]
    · next few =>
      rw [State.pulse_stray h out few]
      exact ⟨rfl, rfl, rfl, rfl, rfl, rfl, rfl, rfl⟩

/-- In ACQUIRING, LOCKED and HOLDOVER a pulse in the window slews. -/
theorem Timebase.discipline_slews {tb : Timebase} {e : Int}
    (h : tb.discipline = .acquiring ∨ tb.discipline = .locked ∨ tb.discipline = .holdover) (near : e.natAbs ≤ 1000) :
    (tb.discipline_ e).2 = .slew := by
  rcases h with acquiring | tracking
  · rw [Timebase.discipline_near acquiring near]
  · rw [Timebase.discipline_hit tracking near]

/-- A slew at tick 9,999,984 or later ends the second, and at no other tick (R6). -/
theorem Timebase.slewEnds_iff {tb : Timebase} {phi : Nat} (at_ : tb.tick = phi) (small : phi < 10000000) :
    tb.slewEnds (clampSlew (pulseError phi)) = decide (9999984 ≤ phi) := by
  rw [Bool.eq_iff_iff]
  simp only [Timebase.slewEnds, Bool.and_eq_true, decide_eq_true_eq, at_]
  unfold clampSlew
  unfold pulseError
  by_cases first : phi < 5000000
  · simp only [if_pos first]
    omega
  · simp only [if_neg first]
    rcases Nat.lt_or_ge phi 9999984 with early | late
    · rw [max_eq_left (by omega)]
      simp only [Int.reduceNeg, Int.natAbs_neg]
      omega
    · have back : (phi : Int) - 10000000 = -((10000000 - phi : Nat) : Int) := by omega
      rw [min_eq_right (by omega), max_eq_right (by omega), back, Int.natAbs_neg, Int.natAbs_natCast]
      omega

theorem pulseError_nonneg {tick : Nat} (h : tick < 10000000) : 0 ≤ pulseError tick ↔ tick < 5000000 := by
  unfold pulseError
  split <;> omega

/-- A change of the timebase that keeps second and tick raises its events at the present site time. -/
theorem State.changeTb_events {s : State} {tb : Timebase} (second : tb.second = s.tb.second) (tick : tb.tick = s.tb.tick)
    (p : Port) : (s.changeTb tb none).port p = (s.port p).offers (s.tb.changeEvents tb none s.now) := by
  rw [State.changeTb_port]
  have now : (s.withTb tb).now = s.now := by simp [State.now, second, tick]
  rw [now]

/-- The mark of a slew: its fields and events, and the jump of a label that differs from the second it replaces. -/
theorem State.slewMark_spec {s : State} {tb : Timebase} {base : Nat} (label : tb.pendingLabel = s.tb.pendingLabel)
    (labelled : tb.labelled = s.tb.labelled) :
    let t := s.secondMark tb base false
    t.tb.tick = 0 ∧ t.tb.second = s.tb.pendingLabel.getD base ∧ t.tb.correction = 0 ∧ t.tb.pendingLabel = none ∧
      t.tb.labelled = (s.tb.labelled || s.tb.pendingLabel.isSome) ∧
      let events := s.tb.changeEvents t.tb (s.tb.pendingLabel.map fun v => (v, base)) t.now
      (s.tb.pendingLabel.getD base = base → ∀ p, t.port p = (s.port p).offers events) ∧
      (s.tb.pendingLabel.getD base ≠ base → s.schedulerStepped t ∧ s.jumped t events) := by
  obtain ⟨natural, jumps⟩ := s.secondMark_spec tb base false
  obtain ⟨tick, second, correction, none_, labels, -⟩ := tb.mark_frame base
  rw [label] at natural jumps
  have marked := (s.secondMark_tb tb base false).1
  refine ⟨by rw [marked]; exact tick, by rw [marked, second, label], by rw [marked]; exact correction,
    by rw [marked]; exact none_, by rw [marked, labels, label, labelled], natural rfl, fun other => ?_⟩
  have jumped := jumps (.inr other)
  exact ⟨State.schedulerStepped_of_jumped jumped, jumped⟩

/-- The mark of a step: its fields, and the jump. -/
theorem State.stepMark_spec {s : State} {tb : Timebase} {base : Nat} (label : tb.pendingLabel = s.tb.pendingLabel)
    (labelled : tb.labelled = s.tb.labelled) :
    let t := s.secondMark tb base true
    t.tb.tick = 0 ∧ t.tb.correction = 0 ∧ t.tb.pendingLabel = none ∧
      t.tb.labelled = (s.tb.labelled || s.tb.pendingLabel.isSome) ∧ t.tb.second = s.tb.pendingLabel.getD base ∧
      s.schedulerStepped t ∧ t.launch.outputs = s.launch.outputs ∧
      s.jumped t (s.tb.changeEvents t.tb (s.tb.pendingLabel.map fun v => (v, base)) t.now) := by
  obtain ⟨-, jumps⟩ := s.secondMark_spec tb base true
  obtain ⟨tick, second, correction, none_, labels, -⟩ := tb.mark_frame base
  rw [label] at jumps
  have marked := (s.secondMark_tb tb base true).1
  have jumped := jumps (.inl rfl)
  exact ⟨by rw [marked]; exact tick, by rw [marked]; exact correction, by rw [marked]; exact none_,
    by rw [marked, labels, label, labelled], by rw [marked, second, label], State.schedulerStepped_of_jumped jumped,
    s.secondMark_outputs tb base true, jumped⟩

/-- Settles O17: a slew by the tick at which it comes, and the steps. -/
theorem pulseCorrectsTheSecond : Obligations.PulseCorrectsTheSecond := by
  intro s small next
  obtain ⟨second, tick, -, label, labelled, -⟩ := s.tb.measured.discipline_frame (pulseError s.tb.tick)
  have nextSecond : (s.tb.measured.discipline_ (pulseError s.tb.tick)).1.nextSecond = next := by
    rw [Timebase.nextSecond, second]; rfl
  obtain ⟨-, ends, goes, step⟩ := s.pulse_cases
  refine ⟨fun h near => ⟨s.pulse, rfl, fun early => ?early, fun late => ?late, fun quiet => ?quiet⟩, fun h => ?step⟩
  case early =>
    have slew := Timebase.slewEnds_iff tick small
    rw [show s.tb.measured.tick = s.tb.tick from rfl, decide_eq_false (by omega)] at slew
    rw [goes (Timebase.discipline_slews h near) slew]
    refine ⟨by simp [clampSlew], ?_, ?_, ?_, ?_, ?_⟩
    · rw [State.changeTb_tb]; exact tick
    · rw [State.changeTb_tb]; exact second
    · rw [State.changeTb_tb]; exact label
    · rw [State.changeTb_tb]; exact labelled
    · rw [State.changeTb_tb]; exact State.changeTb_events second tick
  case late =>
    have slew := Timebase.slewEnds_iff tick small
    rw [show s.tb.measured.tick = s.tb.tick from rfl, decide_eq_true late] at slew
    rw [ends (Timebase.discipline_slews h near) slew]
    have mark := State.slewMark_spec (s := s) (base := next)
      (tb := { (s.tb.measured.discipline_ (pulseError s.tb.tick)).1 with markHold := true }) label labelled
    rw [nextSecond]
    exact mark
  case quiet =>
    have slews := Timebase.discipline_slews (tb := s.tb.measured) h near
    cases slew : (s.tb.measured.discipline_ (pulseError s.tb.tick)).1.slewEnds (clampSlew (pulseError s.tb.tick)) with
    | false => rw [goes slews slew]; simp [State.spliceKept]
    | true =>
      have late : 9999984 ≤ s.tb.tick := by
        exact of_decide_eq_true ((Timebase.slewEnds_iff tick small).symm.trans slew)
      have none_ : s.tb.pendingLabel = none := quiet.resolve_left (by omega)
      rw [ends slews slew, State.secondMark_natural (by rw [← none_]; exact label)]
      obtain ⟨-, feedA, feedB, store, sel, splice, -⟩ := s.marked_frame
        { (s.tb.measured.discipline_ (pulseError s.tb.tick)).1 with markHold := true }
        (s.tb.measured.discipline_ (pulseError s.tb.tick)).1.nextSecond
      exact ⟨feedA, feedB, store, sel, splice⟩
  case step =>
    intro base
    have steps : (s.tb.measured.discipline_ (pulseError s.tb.tick)).2 = .step := by
      rcases h with free | expired | ⟨out, acquiring | ⟨tracking, third⟩⟩
      · rw [Timebase.discipline_restart (tb := s.tb.measured) (.inl free)]
      · rw [Timebase.discipline_restart (tb := s.tb.measured) (.inr (.inl expired))]
      · rw [Timebase.discipline_far (tb := s.tb.measured) acquiring out]
      · rw [Timebase.discipline_restart (tb := s.tb.measured) (.inr (.inr ⟨out, tracking, third⟩))]
    have given : (if 0 ≤ pulseError s.tb.tick then (s.tb.measured.discipline_ (pulseError s.tb.tick)).1.second
        else (s.tb.measured.discipline_ (pulseError s.tb.tick)).1.nextSecond) = base := by
      rw [nextSecond, second]
      exact if_congr (pulseError_nonneg small) rfl rfl
    obtain ⟨tb, pulsed, label, labelled⟩ : ∃ tb : Timebase, s.pulse = s.secondMark tb base true ∧
        tb.pendingLabel = s.tb.pendingLabel ∧ tb.labelled = s.tb.labelled :=
      ⟨_, (step steps).trans (congrArg (s.secondMark _ · true) given), label, labelled⟩
    refine ⟨s.pulse, rfl, ?_⟩
    rw [pulsed]
    exact State.stepMark_spec label labelled

/-! ### The pulse watch and BLINK (R5, R154) -/

/-- A missed pulse by the discipline it finds (R9 to R12). -/
theorem Timebase.miss_cases (tb : Timebase) :
    (tb.discipline = .free ∨ tb.discipline = .holdover ∨ tb.discipline = .expired → tb.miss = tb) ∧
    (tb.discipline = .acquiring → tb.miss = { tb with good := 0 }) ∧
    (tb.discipline = .locked →
      tb.miss =
        if 2 ≤ tb.missed then { tb with missed := 3, discipline := .holdover, holdoverSeconds := 0 }
        else { tb with missed := tb.missed + 1 }) := by
  unfold Timebase.miss
  refine ⟨?_, fun h => by simp only [h], fun h => ?_⟩
  · rintro (h | h | h) <;> simp only [h]
  · simp only [h]
    exact if_congr (by omega) rfl rfl

theorem Timebase.miss_frame (tb : Timebase) :
    tb.miss.tick = tb.tick ∧ tb.miss.second = tb.second ∧ tb.miss.stray = tb.stray := by
  unfold Timebase.miss
  repeat' split
  all_goals exact ⟨rfl, rfl, rfl⟩

theorem Timebase.checkWatch_frame (tb : Timebase) :
    tb.checkWatch.watch = false ∧ tb.checkWatch.tick = tb.tick ∧ tb.checkWatch.second = tb.second ∧
      tb.checkWatch.stray = tb.stray := by
  unfold Timebase.checkWatch
  refine ⟨rfl, ?_⟩
  split
  · exact ⟨rfl, rfl, rfl⟩
  · exact tb.miss_frame

/-- Settles O18: a check with a clear flag is a missed pulse. -/
theorem watchAndBlink : Obligations.WatchAndBlink := by
  intro s
  refine ⟨fun open_ due => ?_, fun high due => congrArg Host.Outcome.next (if_pos (by simp [State.blinkDue, high, due]))⟩
  obtain ⟨watch, tick, second, stray⟩ := s.tb.checkWatch_frame
  obtain ⟨still, acquiring, locked⟩ := s.tb.miss_cases
  have checked : s.tb.checkWatch = { (if s.tb.watch then s.tb else s.tb.miss) with watch := false, watchOpen := false } := rfl
  refine ⟨s.changeTb s.tb.checkWatch none, congrArg Host.Outcome.next (if_pos (by simp [Timebase.watchDue, open_, due])), ?_⟩
  simp only [State.changeTb_tb]
  refine ⟨watch, by simp [State.intakeKept], by simp [State.spliceKept], by simp [State.siteKept], by simp, by simp, tick,
    second, stray, State.changeTb_events second tick, fun h => ?_, fun clear h => ?_, fun clear h => ?_⟩
  · rw [checked]
    rcases h with flag | others
    · rw [if_pos flag]; exact ⟨rfl, rfl, rfl⟩
    · rw [still others, ite_self]; exact ⟨rfl, rfl, rfl⟩
  · have off : ¬ s.tb.watch = true := by simp [clear]
    rw [checked, if_neg off, acquiring h]
    exact ⟨h, rfl⟩
  · have off : ¬ s.tb.watch = true := by simp [clear]
    rw [checked, if_neg off, locked h]
    by_cases third : 2 ≤ s.tb.missed
    · simp only [if_pos third, and_self]
    · simp only [if_neg third, h, and_self]

end Sys2Proof.Machine
end

