-- ==== Sys2Proof/Proofs/HoldsAndStamps.lean ====
section
/-! The hold checks, packet offsets and clock stamps of chapter 4. -/

namespace Sys2Proof.Machine

open Sys2Proof

-- One proof after the other: proofs that wait for each other hold a thread each.
set_option Elab.async false

/-! ### The hold (R59) -/

/-- The difference of an instant and one so many ticks before it. -/
theorem tdiff_of_add {arrival r h : Nat} (hh : h < 21474836480000000)
    (e : r = (arrival + h) % 42949672960000000) : tdiff r arrival = h := by
  unfold tdiff timeModulus halfModulus
  dsimp only
  have d : (r + (42949672960000000 - arrival % 42949672960000000)) % 42949672960000000 = h := by omega
  rw [d, if_pos hh]

theorem tdiff_of_sub {arrival r h : Nat} (hr : r < 42949672960000000) (pos : 1 ≤ h) (hh : h < 21474836480000000)
    (e : arrival = (r + h) % 42949672960000000) : tdiff r arrival = -(h : Int) := by
  unfold tdiff timeModulus halfModulus
  dsimp only
  have d : (r + (42949672960000000 - arrival % 42949672960000000)) % 42949672960000000 = 42949672960000000 - h := by
    have small : arrival < 42949672960000000 := e ▸ Nat.mod_lt _ (by decide)
    rw [Nat.mod_eq_of_lt small]
    rcases Nat.lt_or_ge (r + h) 42949672960000000 with within | beyond
    · rw [Nat.mod_eq_of_lt within] at e
      rw [show r + (42949672960000000 - arrival) = 42949672960000000 - h by omega]
      exact Nat.mod_eq_of_lt (by omega)
    · rw [Nat.mod_eq_sub_mod beyond, Nat.mod_eq_of_lt (by omega)] at e
      rw [show r + (42949672960000000 - arrival) = 42949672960000000 - h + 42949672960000000 by omega, Nat.add_mod_right]
      exact Nat.mod_eq_of_lt (by omega)
  rw [d, if_neg (show ¬ 42949672960000000 - h < 21474836480000000 by omega), Nat.cast_sub (by omega)]
  omega

/-- Settles O21: the hold is the difference that the model takes, on either side of the arrival. -/
theorem holdChecks : Obligations.HoldChecks := by
  intro labelled arrival r hmin hmax _ hr _ hlimit
  refine ⟨fun none_ => by simp [launchResult, none_], fun h small after some_ => ?_, fun h pos small before some_ => ?_⟩
  · have hold := tdiff_of_add (show h < 21474836480000000 by omega) after
    simp only [launchResult, hold, some_, Bool.not_true, Bool.false_eq_true, ↓reduceIte, Int.ofNat_lt]
  · have hold := tdiff_of_sub hr pos (show h < 21474836480000000 by omega) before
    simp only [launchResult, hold, some_, Bool.not_true, Bool.false_eq_true, ↓reduceIte]
    exact if_pos (by omega)

/-! ### Offsets (R62) -/

theorem offset_succ (pi pf i : Nat) (h : pf < 65536) :
    offset (periodQ pi pf) (i + 1) = offset (periodQ pi pf) i + pi ∨
      offset (periodQ pi pf) (i + 1) = offset (periodQ pi pf) i + pi + 1 := by
  have next : (i + 1) * (pi * 65536 + pf) = i * (pi * 65536 + pf) + (pi * 65536 + pf) := Nat.succ_mul _ _
  simp only [offset, periodQ, next]
  generalize i * (pi * 65536 + pf) = x
  omega

/-! ### Stamps (R66, R67, R174) -/

/-- The bytes that a stamp rewrites. -/
theorem withStamp_eq (b0 b1 b2 b3 b4 b5 b6 b7 b8 b9 b10 b11 : Byte) (rest : List Byte) (v : Nat) :
    withStamp (b0 :: b1 :: b2 :: b3 :: b4 :: b5 :: b6 :: b7 :: b8 :: b9 :: b10 :: b11 :: rest) v =
      b0 :: b1 :: b2 :: b3 :: b4 :: b5 :: BitVec.ofNat 8 (v / 300 / 33554432) :: BitVec.ofNat 8 (v / 300 / 131072) ::
        BitVec.ofNat 8 (v / 300 / 512) :: BitVec.ofNat 8 (v / 300 / 2) ::
        BitVec.ofNat 8 (v / 300 % 2 * 128 + b10.toNat / 2 % 64 * 2 + v % 300 / 256) :: BitVec.ofNat 8 (v % 300) :: rest := rfl

theorem exists_of_twelve {p : Packet} (h : 12 ≤ p.length) :
    ∃ b0 b1 b2 b3 b4 b5 b6 b7 b8 b9 b10 b11 rest,
      p = b0 :: b1 :: b2 :: b3 :: b4 :: b5 :: b6 :: b7 :: b8 :: b9 :: b10 :: b11 :: rest := by
  match p, h with
  | b0 :: b1 :: b2 :: b3 :: b4 :: b5 :: b6 :: b7 :: b8 :: b9 :: b10 :: b11 :: rest, _ =>
    exact ⟨b0, b1, b2, b3, b4, b5, b6, b7, b8, b9, b10, b11, rest, rfl⟩

/-- The value that the six stamp bytes spell. -/
theorem stampValue_eq (b0 b1 b2 b3 b4 b5 b6 b7 b8 b9 b10 b11 : Byte) (rest : List Byte) :
    stampValue (b0 :: b1 :: b2 :: b3 :: b4 :: b5 :: b6 :: b7 :: b8 :: b9 :: b10 :: b11 :: rest) =
      ((((((0 * 256 + b6.toNat) * 256 + b7.toNat) * 256 + b8.toNat) * 256 + b9.toNat) * 2 + b10.toNat / 128) * 300
        + (b10.toNat % 2 * 256 + b11.toNat)) % 2576980377600 := rfl

theorem stampValue_withStamp {p : Packet} {v : Nat} (h : 12 ≤ p.length) (hv : v < 2576980377600) :
    stampValue (withStamp p v) = v := by
  obtain ⟨b0, b1, b2, b3, b4, b5, b6, b7, b8, b9, b10, b11, rest, rfl⟩ := exists_of_twelve h
  rw [withStamp_eq, stampValue_eq]
  simp only [BitVec.toNat_ofNat, Nat.zero_mul, Nat.zero_add, Nat.reducePow]
  have base : v / 300 < 8589934592 := by omega
  have parts : v = v / 300 * 300 + v % 300 := by omega
  have ext : v % 300 < 300 := Nat.mod_lt _ (by decide)
  generalize v / 300 = q at *
  generalize v % 300 = r at *
  have reserved : b10.toNat / 2 % 64 < 64 := Nat.mod_lt _ (by decide)
  generalize b10.toNat / 2 % 64 = k at *
  have whole : ((q / 33554432 % 256 * 256 + q / 131072 % 256) * 256 + q / 512 % 256) * 256 + q / 2 % 256 = q / 2 := by omega
  have last : (q % 2 * 128 + k * 2 + r / 256) % 256 = q % 2 * 128 + k * 2 + r / 256 := by omega
  have top : (q % 2 * 128 + k * 2 + r / 256) / 128 = q % 2 := by omega
  have low : (q % 2 * 128 + k * 2 + r / 256) % 2 = r / 256 := by omega
  rw [whole, last, top, low, parts]
  omega

theorem withStamp_other (p : Packet) (v : Nat) {i : Nat} (hi : i < 6 ∨ 11 < i) :
    (withStamp p v).getD i 0 = p.getD i 0 := by
  simp only [withStamp, List.getD_eq_getElem?_getD]
  rw [List.getElem?_set_ne (by omega), List.getElem?_set_ne (by omega), List.getElem?_set_ne (by omega),
    List.getElem?_set_ne (by omega), List.getElem?_set_ne (by omega), List.getElem?_set_ne (by omega)]

/-- Settles O22: the offsets' difference, the stamp's bytes and the arithmetic of the rebase. -/
theorem offsetsAndStamps : Obligations.OffsetsAndStamps := by
  refine ⟨fun pi pf i h => ⟨by simp [offset], offset_succ pi pf i h⟩,
    fun p v h hv => ⟨stampValue_withStamp h hv, by simp [withStamp], fun i hi => withStamp_other p v hi⟩,
    fun base c0 c hb => ?_⟩
  unfold rebased stampModulus
  refine ⟨Nat.mod_lt _ (by decide), ?_, ?_⟩
  · have back : (c0 + (2576980377600 - c0 % 2576980377600)) % 2576980377600 = 0 := by omega
    rw [back]
    omega
  · omega

end Sys2Proof.Machine
end

