-- ==== Sys2Proof/Proofs/FeedFraming.lean ====
section
/-! The framing of a feed byte by byte, sync losses, and the count of arrivals. -/

namespace Sys2Proof.Machine

open Sys2Proof

-- One proof after the other: proofs that wait for each other hold a thread each.
set_option Elab.async false

/-! ### A byte taken, by sync state and position (R20 to R23) -/

@[simp] theorem State.withFeed_withFeed (s : State) (f : FeedId) (x y : Feed) :
    (s.withFeed f x).withFeed f y = s.withFeed f y := by
  cases f <;> rfl

theorem State.count_withFeed (s : State) (f : FeedId) (x : Feed) (g : FeedCounters → FeedCounters) :
    (s.withFeed f x).count f g = s.withFeed f { x with counters := g x.counters } := by
  simp [State.count]

theorem State.takeByte_search {s : State} {f : FeedId} (h : (s.feed f).sync = .search) (b : Byte) :
    s.takeByte f b =
      s.withFeed f (if b = 0x47 then { s.feed f with sync := .verify, confirm := 0, pos := 1, silence := 0 }
        else { s.feed f with silence := 0 }) := by
  simp only [State.takeByte, State.byteHeard, State.feed_withFeed, h, State.searchByte, State.withFeed_withFeed, syncByte]
  split <;> rfl

theorem State.takeByte_check {s : State} {f : FeedId} (h : (s.feed f).sync = .verify) (first : (s.feed f).pos = 0) (b : Byte) :
    s.takeByte f b = (s.withFeed f { s.feed f with silence := 0 }).verifyByte f b := by
  simp only [State.takeByte, State.byteHeard, State.feed_withFeed, h, first, if_true]

theorem State.takeByte_sync {s : State} {f : FeedId} (h : (s.feed f).sync = .locked) (first : (s.feed f).pos = 0) (b : Byte) :
    s.takeByte f b = (s.withFeed f { s.feed f with silence := 0 }).lockedSync f b := by
  simp only [State.takeByte, State.byteHeard, State.feed_withFeed, h, first, if_true]

theorem State.takeByte_last {s : State} {f : FeedId} (h : (s.feed f).sync = .locked) (last : (s.feed f).pos = 187) (b : Byte) :
    s.takeByte f b = (s.withFeed f { s.feed f with silence := 0 }).lockedLast f b := by
  simp [State.takeByte, State.byteHeard, h, last, packetLength]

theorem State.takeByte_inner {s : State} {f : FeedId} (inside : (s.feed f).pos ≠ 0) (b : Byte)
    (h : (s.feed f).sync = .verify ∨ ((s.feed f).sync = .locked ∧ (s.feed f).pos ≠ 187)) :
    s.takeByte f b =
      s.withFeed f
        { s.feed f with
          pos := ((s.feed f).pos + 1) % 188, silence := 0
          buffer := if (s.feed f).accepting then (s.feed f).buffer ++ [b] else [] } := by
  rcases h with verify | ⟨locked, notLast⟩
  · simp [State.takeByte, State.byteHeard, verify, inside, State.innerByte, packetLength]
  · simp [State.takeByte, State.byteHeard, locked, inside, notLast, State.innerByte, packetLength]

/-! ### The loss of sync (R24) -/

/-- A feed as a sync loss leaves it, but for its open copy (R24). -/
def Feed.lost (x : Feed) : Feed :=
  { x.toSearch with counters := { x.counters with syncLosses := bump x.counters.syncLosses } }

/-- What a sync loss leaves before the selector tests, `x` being the feed with sync (R24). -/
def State.lose (s : State) (f : FeedId) (x : Feed) (cause : SyncLoss) : State :=
  ((s.withFeed f x.lost).raise .feedSync (feedCode f) cause.detail).shutCopy f

theorem State.syncLoss_eq (s : State) (f : FeedId) (x : Feed) (cause : SyncLoss) :
    (s.withFeed f x).syncLoss f cause = (s.lose f x cause).testSelector := by
  simp only [State.syncLoss, State.count_withFeed, State.feed_withFeed, State.withFeed_withFeed]
  rfl

theorem State.raise_feed (s : State) (k : EventKind) (a b : Nat) (f : FeedId) : (s.raise k a b).feed f = s.feed f := by
  cases f <;> rfl

theorem State.shutCopy_feed (s : State) (f : FeedId) :
    ∃ o full short, (s.shutCopy f).feed f =
      { s.feed f with
        openCopy := o, counters := { (s.feed f).counters with complete := full, short := short } } := by
  unfold State.shutCopy
  split
  · exact ⟨_, _, _, rfl⟩
  · split
    · exact ⟨_, _, _, rfl⟩
    · next r record =>
      dsimp only
      rw [State.count_withFeed, State.feed_withFeed]
      cases f <;> cases r.arrivals == r.declared && r.stored == r.arrivals <;> exact ⟨_, _, _, rfl⟩

theorem State.withFeed_port (s : State) (f : FeedId) (x : Feed) (p : Port) : (s.withFeed f x).port p = s.port p := by
  cases p <;> simp [State.port]

theorem State.shutCopy_port (s : State) (f : FeedId) (p : Port) : (s.shutCopy f).port p = s.port p := by
  cases p <;> simp [State.port]

theorem State.lose_spec (s : State) (f : FeedId) (x : Feed) (cause : SyncLoss) :
    (s.lose f x cause).feed f.other = s.feed f.other ∧ (s.lose f x cause).sel = s.sel ∧
      (s.lose f x cause).launch = s.launch ∧ s.spliceKept (s.lose f x cause) ∧ s.siteKept (s.lose f x cause) ∧
      s.rulesKept (s.lose f x cause) ∧
      ∀ p, (s.lose f x cause).port p = (s.port p).offer ⟨.feedSync, feedCode f, cause.detail, s.now⟩ := by
  refine ⟨?_, by simp [State.lose], by simp [State.lose], by simp [State.lose, State.spliceKept],
    by simp [State.lose, State.siteKept], by simp [State.lose, State.rulesKept], fun p => ?_⟩
  · rw [State.lose, State.shutCopy_feed_other, State.raise_feed, State.feed_withFeed_other]
  · rw [State.lose, State.shutCopy_port, State.raise_port, State.withFeed_port]
    simp [State.now]

theorem State.lose_none {s : State} {f : FeedId} {x : Feed} (cause : SyncLoss) (h : x.openCopy = none) :
    (s.lose f x cause).store = s.store ∧ (s.lose f x cause).feed f = x.lost := by
  rw [State.lose, State.shutCopy_none (by rw [State.raise_feed, State.feed_withFeed]; exact h)]
  exact ⟨by simp, by rw [State.raise_feed, State.feed_withFeed]⟩

theorem State.lose_short {s : State} {f : FeedId} {x : Feed} {place : Nat} {r : GroupRecord} (cause : SyncLoss)
    (open_ : x.openCopy = some place) (record : s.record place = some r) (short : r.arrivals ≠ r.declared) :
    (s.lose f x cause).store = { s.store with table := s.store.table.set place (some { r with phase := .short }) } ∧
      (s.lose f x cause).feed f =
        { x.lost with
          openCopy := none, counters := { x.lost.counters with short := bump x.lost.counters.short } } := by
  have feed : ((s.withFeed f x.lost).raise .feedSync (feedCode f) cause.detail).feed f = x.lost := by
    rw [State.raise_feed, State.feed_withFeed]
  have kept : ((s.withFeed f x.lost).raise .feedSync (feedCode f) cause.detail).record place = some r := by
    rw [State.record_congr (s := s) (by simp), record]
  rw [State.lose, State.shutCopy_short (by rw [feed]; exact open_) kept short, State.feed_withFeed, feed]
  exact ⟨by simp [State.withRecord], by rfl⟩

/-- What the selector's tests leave of a feed that has lost sync. -/
theorem State.lose_tested (s : State) (f : FeedId) (x : Feed) (cause : SyncLoss) :
    let t := (s.lose f x cause).testSelector
    (t.feed f).sync = .search ∧ (t.feed f).badRun = 0 ∧ (t.feed f).silence = 0 ∧
      (t.feed f).counters.badSync = x.counters.badSync ∧
      (t.feed f).counters.syncLosses = bump x.counters.syncLosses ∧ s.siteKept t ∧ s.rulesKept t := by
  intro t
  obtain ⟨-, -, -, -, site, rules, -⟩ := s.lose_spec f x cause
  obtain ⟨o, tested⟩ := (s.lose f x cause).testSelector_feeds f
  obtain ⟨o', full, short, shut⟩ := ((s.withFeed f x.lost).raise .feedSync (feedCode f) cause.detail).shutCopy_feed f
  have lost : t.feed f = { x.lost with
      openCopy := o, counters := { x.lost.counters with complete := full, short := short } } := by
    rw [tested, State.lose, shut, State.raise_feed, State.feed_withFeed]
  rw [lost]
  exact ⟨rfl, rfl, rfl, rfl, rfl, by simpa [t, State.siteKept] using site, by simpa [t, State.rulesKept] using rules⟩

/-! ### The sync bytes of a feed (R22, R23) -/

theorem State.verifyByte_confirmed (s : State) {f : FeedId} {x : Feed} (h : x.confirm = 2) :
    (s.withFeed f x).verifyByte f 0x47 =
      ((s.withFeed f
        { x with sync := .locked, confirm := 3, badRun := 0, pos := 1, accepting := true, buffer := [0x47] }).raise
          .feedSync (feedCode f) 0).testSelector := by
  simp [State.verifyByte, syncByte, h]

theorem State.lockedSync_bad (s : State) {f : FeedId} {x : Feed} {b : Byte} (wrong : b ≠ 0x47) :
    (s.withFeed f x).lockedSync f b =
      if x.badRun < 2 then
        s.withFeed f
          { x with
            badRun := x.badRun + 1, pos := 1, accepting := false, buffer := []
            counters := { x.counters with badSync := bump x.counters.badSync } }
      else (s.lose f { x with counters := { x.counters with badSync := bump x.counters.badSync } } .badSync).testSelector := by
  simp only [State.lockedSync, syncByte, if_neg wrong, State.badSyncByte, State.count_withFeed, State.feed_withFeed,
    State.withFeed_withFeed, State.syncLoss_eq]
  exact if_congr (by omega) rfl rfl

theorem State.exec_badSyncByte {s : State} {f : FeedId} {b : Byte} (locked : (s.feed f).sync = .locked)
    (first : (s.feed f).pos = 0) (wrong : b ≠ 0x47) (third : 2 ≤ (s.feed f).badRun) :
    exec (.badSyncByte f b) s =
      .next (s.lose f
        { s.feed f with
          silence := 0
          counters := { (s.feed f).counters with badSync := bump (s.feed f).counters.badSync } } .badSync).testSelector := by
  refine congrArg Host.Outcome.next ((if_pos ⟨locked, first, wrong⟩).trans ?_)
  rw [State.takeByte_sync locked first, State.lockedSync_bad _ wrong, if_neg (by dsimp only; omega)]

theorem State.exec_feedSilence {s : State} {f : FeedId} (locked : (s.feed f).sync = .locked)
    (silent : 500000 ≤ (s.feed f).silence) :
    exec (.feedSilence f) s = .next (s.lose f (s.feed f) .silence).testSelector := by
  refine congrArg Host.Outcome.next ((if_pos (by simp [Feed.silent, locked, silent])).trans ((if_pos locked).trans ?_))
  rw [← State.syncLoss_eq]
  cases f <;> rfl

/-- Settles O23: each byte by the sync state and the position it meets, and a sync loss as what it leaves before the selector
tests. -/
theorem framingSteps : Obligations.FramingSteps := by
  unfold Obligations.FramingSteps
  intro s f b
  refine ⟨fun search => ⟨?_, fun other => ?_⟩, fun verify first => ⟨fun other => ?_, fun more => ?_⟩,
    fun locked first wrong run => ?_, fun locked first => ?_, fun verify silent => ?_, fun verify first second => ?_,
    fun locked first wrong third => ?_, fun locked silent => ?_, fun inside notFirst => ?_, fun verify first second => ?_,
    ?_, fun idle => ?_⟩
  · refine congrArg Host.Outcome.next ((if_pos search).trans ?_)
    rw [State.takeByte_search search, if_pos (by rfl)]
  · refine congrArg Host.Outcome.next ?_
    rw [State.takeByte_search search, if_neg other]
  · refine congrArg Host.Outcome.next ((if_pos ⟨verify, first⟩).trans ?_)
    rw [State.takeByte_check verify first]
    simp only [State.verifyByte, syncByte, if_neg other, State.withFeed_withFeed, State.feed_withFeed]
    rfl
  · refine congrArg Host.Outcome.next ((if_pos ⟨verify, first⟩).trans ?_)
    rw [State.takeByte_check verify first]
    simp [State.verifyByte, syncByte, show (s.feed f).confirm + 1 < 3 by omega]
  · refine congrArg Host.Outcome.next ((if_pos ⟨locked, first, wrong⟩).trans ?_)
    rw [State.takeByte_sync locked first, State.lockedSync_bad _ wrong, if_pos run]
  · refine congrArg Host.Outcome.next ?_
    rw [State.takeByte_sync locked first]
    simp [State.lockedSync, syncByte]
  · refine congrArg Host.Outcome.next ((if_pos (by simp [Feed.silent, verify, silent])).trans (if_neg ?_))
    rw [verify]; exact nofun
  · refine ⟨_, congrArg Host.Outcome.next (if_pos ⟨verify, first⟩), ?_⟩
    rw [State.takeByte_check verify first, State.verifyByte_confirmed s (by exact second)]
    obtain ⟨o, tested⟩ := State.testSelector_feeds ((s.withFeed f
      { s.feed f with
        sync := .locked, confirm := 3, badRun := 0, pos := 1, accepting := true, buffer := [0x47], silence := 0 }).raise
          .feedSync (feedCode f) 0) f
    rw [tested, State.raise_feed, State.feed_withFeed]
    exact ⟨rfl, rfl, rfl, rfl, rfl, by simp [State.siteKept], by simp [State.rulesKept]⟩
  · obtain ⟨sync, run, -, bad, losses, site, rules⟩ := s.lose_tested f
      { s.feed f with
        silence := 0
        counters := { (s.feed f).counters with badSync := bump (s.feed f).counters.badSync } } .badSync
    exact ⟨_, State.exec_badSyncByte locked first wrong third, sync, run, bad, losses, site, rules⟩
  · obtain ⟨sync, -, silence, -, losses, site, rules⟩ := s.lose_tested f (s.feed f) .silence
    exact ⟨_, State.exec_feedSilence locked silent, sync, silence, losses, site, rules⟩
  · exact congrArg Host.Outcome.next (State.takeByte_inner notFirst b inside)
  · refine congrArg Host.Outcome.next ((if_pos ⟨verify, first⟩).trans ?_)
    rw [State.takeByte_check verify first, State.verifyByte_confirmed s (by exact second)]
  · intro c mem locked bad silent lost
    rcases List.mem_cons.mp mem with rfl | mem
    · obtain ⟨first, wrong, third⟩ := bad rfl
      obtain ⟨other, sel, launch, splice, site, rules, ports⟩ := s.lose_spec f
        { s.feed f with
          silence := 0
          counters := { (s.feed f).counters with badSync := bump (s.feed f).counters.badSync } } .badSync
      exact ⟨_, State.exec_badSyncByte locked first wrong third, other, sel, launch, splice, site, rules, ports,
        fun none => State.lose_none .badSync none,
        fun _ _ open_ record short => State.lose_short .badSync open_ record short⟩
    · obtain rfl := List.mem_singleton.mp mem
      obtain ⟨other, sel, launch, splice, site, rules, ports⟩ := s.lose_spec f (s.feed f) .silence
      exact ⟨_, State.exec_feedSilence locked (silent rfl), other, sel, launch, splice, site, rules, ports,
        fun none => State.lose_none .silence none,
        fun _ _ open_ record short => State.lose_short .silence open_ record short⟩
  · unfold State.testSelector
    rcases idle with stopped | absent
    · exact if_neg (by simp [State.running, stopped])
    · split
      · rw [State.selectorTests, absent]
      · rfl

/-! ### The count of arrivals (R23, R25) -/

/-- Two states whose feeds agree in sync state, position and count of accepted packets. -/
def State.framed (s t : State) : Prop :=
  ∀ f, (t.feed f).sync = (s.feed f).sync ∧ (t.feed f).pos = (s.feed f).pos ∧
    (t.feed f).counters.accepted = (s.feed f).counters.accepted

theorem feed_eq_or_other (f g : FeedId) : g = f ∨ g = f.other := by cases f <;> cases g <;> decide

theorem State.framed.refl (s : State) : s.framed s := fun _ => ⟨rfl, rfl, rfl⟩

theorem State.framed.trans {s t u : State} (h : s.framed t) (k : t.framed u) : s.framed u := fun f =>
  have ⟨a, b, c⟩ := h f
  have ⟨a', b', c'⟩ := k f
  ⟨a'.trans a, b'.trans b, c'.trans c⟩

theorem State.framed.ite {s t u : State} {c : Prop} [Decidable c] (yes : s.framed t) (no : s.framed u) :
    s.framed (if c then t else u) := by
  split
  · exact yes
  · exact no

theorem State.framed_of_feedsBut {s t : State} (h : s.feedsBut t) : s.framed t := fun f => by
  obtain ⟨o, feed⟩ := h f
  rw [feed]; exact ⟨rfl, rfl, rfl⟩

theorem State.framed_of_feeds {s t : State} (a : t.feedA = s.feedA) (b : t.feedB = s.feedB) : s.framed t :=
  State.framed_of_feedsBut (State.feedsBut_of_eq a b)

theorem State.framed.of_feeds {s t u : State} (h : s.framed t) (a : u.feedA = t.feedA) (b : u.feedB = t.feedB) :
    s.framed u := h.trans (State.framed_of_feeds a b)

theorem State.framed_withFeed {s : State} {f : FeedId} {x : Feed} (sync : x.sync = (s.feed f).sync)
    (pos : x.pos = (s.feed f).pos) (accepted : x.counters.accepted = (s.feed f).counters.accepted) :
    s.framed (s.withFeed f x) := by
  intro g
  rcases feed_eq_or_other f g with same | other
  · rw [same, State.feed_withFeed]; exact ⟨sync, pos, accepted⟩
  · rw [other, State.feed_withFeed_other]; exact ⟨rfl, rfl, rfl⟩

theorem State.count_framed (s : State) (f : FeedId) {g : FeedCounters → FeedCounters} (h : ∀ c, (g c).accepted = c.accepted) :
    s.framed (s.count f g) := State.framed_withFeed rfl rfl (h _)

theorem State.shutCopy_framed (s : State) (f : FeedId) : s.framed (s.shutCopy f) := by
  intro g
  rcases feed_eq_or_other f g with same | other
  · obtain ⟨o, full, short, shut⟩ := s.shutCopy_feed f
    rw [same, shut]; exact ⟨rfl, rfl, rfl⟩
  · rw [other, State.shutCopy_feed_other]; exact ⟨rfl, rfl, rfl⟩

theorem State.testSelector_framed (s : State) : s.framed s.testSelector := State.framed_of_feedsBut s.testSelector_feeds

theorem State.closeCopy_framed (s : State) (f : FeedId) : s.framed (s.closeCopy f) := by
  unfold State.closeCopy
  repeat' split
  · exact .refl s
  · exact .refl s
  · exact (s.shutCopy_framed f).trans (State.testSelector_framed _)

theorem State.closeIfFull_framed (s : State) (f : FeedId) : s.framed (s.closeIfFull f) := by
  unfold State.closeIfFull
  repeat' split
  · exact .refl s
  · exact .refl s
  · exact s.closeCopy_framed f
  · exact .refl s

theorem State.freeRecords_framed (s : State) (places : List Nat) : s.framed (s.freeRecords places) :=
  State.framed_of_feedsBut (State.feedsBut_foldl _ State.freeRecord_feeds places s)

/-- The record of a copy as a pacing packet opens it (R28). -/
def State.opened (s : State) (f : FeedId) (packet : Packet) (p : Pacing) : GroupRecord :=
  { feed := f, group := p.group, declared := p.declared, arrivals := 1, stored := 1
    errored := if transportError packet then 1 else 0
    overrun := false, phase := .opened, arrivalTick := s.now
    launched := launchResult s.tb.labelled s.now (releaseTick s.tb.second p.second8 p.tick s.launch.advance)
      s.launch.holdMin s.launch.holdMax
    cells := [packet] }

/-- A feed as the opening of a copy leaves it (R28). -/
def Feed.opens (x : Feed) (packet : Packet) (p : Pacing) (place : Nat) : Feed :=
  { x with
    openCopy := some place, lastOpened := some p.group, current := true
    counters :=
      { x.counters with
        opened := bump x.counters.opened
        errored := if transportError packet then bump x.counters.errored else x.counters.errored } }

theorem State.withStore_feed (s : State) (st : Store) (f : FeedId) : (s.withStore st).feed f = s.feed f := by
  cases f <;> rfl

theorem State.openCopy_eq (s : State) (f : FeedId) (packet : Packet) (p : Pacing) (place : Nat) :
    s.openCopy f packet p place =
      ((s.withStore ⟨s.store.table.set place (some (s.opened f packet p)), s.store.freeCells - 1⟩).withFeed f
        ((s.feed f).opens packet p place)).withSel
          { s.sel with expected := some (s.sel.expected.getD p.group) } := by
  have withSel : ∀ u : State, u.sel = s.sel →
      (match u.sel.expected with | some _ => u | none => u.withSel { u.sel with expected := some p.group }) =
        u.withSel { s.sel with expected := some (s.sel.expected.getD p.group) } := by
    intro u same
    rw [← same]
    cases expected : u.sel.expected with
    | none => rfl
    | some e =>
      have self : ({ u.sel with expected := some e } : Selector) = u.sel := by rw [← expected]
      exact (congrArg u.withSel self).symm
  rw [State.openCopy]
  simp only [State.count_withFeed, State.withStore_feed]
  exact withSel _ (by simp)

theorem State.openCopy_framed (s : State) (f : FeedId) (packet : Packet) (p : Pacing) (place : Nat) :
    s.framed (s.openCopy f packet p place) := by
  rw [State.openCopy_eq]
  have stored := s.framed_of_feeds (t := s.withStore ⟨s.store.table.set place (some (s.opened f packet p)),
    s.store.freeCells - 1⟩) (by rfl) (by rfl)
  refine (stored.trans (State.framed_withFeed (f := f) (x := (s.feed f).opens packet p place) ?_ ?_ ?_)).of_feeds
    (State.withSel_feedA ..) (State.withSel_feedB ..)
  all_goals rw [State.withStore_feed]; rfl

/-- The closed copy of a number on a feed handed back, if there is one (R27, step 4). -/
def State.freeClosed (s : State) (f : FeedId) (n : Nat) : State :=
  match s.closedCopy f n with
  | some (i, _) => s.freeRecord i
  | none => s

/-- A copy opened where the table and the pool have room (R27, steps 5 and 6). -/
def State.tryOpen (s : State) (f : FeedId) (packet : Packet) (p : Pacing) : State :=
  match s.store.freePlace with
  | none => s.count f fun c => { c with tableFull := bump c.tableFull }
  | some place =>
    if s.store.freeCells = 0 then s.count f fun c => { c with overrun := bump c.overrun }
    else s.openCopy f packet p place

theorem State.pacingOpen_eq (s : State) (f : FeedId) (packet : Packet) (p : Pacing) :
    s.pacingOpen f packet p =
      if s.sel.mode.excludes f then s.count f fun c => { c with excluded := bump c.excluded }
      else if s.emittingGroup = some p.group then s.count f fun c => { c with stale := bump c.stale }
      else ((s.freeClosed f p.group).tryOpen f packet p).testSelector := rfl

theorem State.freeClosed_framed (s : State) (f : FeedId) (n : Nat) : s.framed (s.freeClosed f n) := by
  unfold State.freeClosed
  split
  · exact State.framed_of_feedsBut (s.freeRecord_feeds _)
  · exact .refl s

theorem State.tryOpen_framed (s : State) (f : FeedId) (packet : Packet) (p : Pacing) : s.framed (s.tryOpen f packet p) := by
  unfold State.tryOpen
  split
  · exact s.count_framed f fun _ => rfl
  · exact .ite (s.count_framed f fun _ => rfl) (s.openCopy_framed f packet p _)

theorem State.pacingOpen_framed (s : State) (f : FeedId) (packet : Packet) (p : Pacing) :
    s.framed (s.pacingOpen f packet p) := by
  rw [State.pacingOpen_eq]
  refine .ite (s.count_framed f fun _ => rfl) (.ite (s.count_framed f fun _ => rfl) ?_)
  exact (s.freeClosed_framed f p.group).trans (.trans (State.tryOpen_framed _ f packet p) (State.testSelector_framed _))

theorem State.passStale_framed (s : State) (f : FeedId) : s.framed (s.passStale f) := by
  unfold State.passStale
  dsimp only
  split
  · refine .trans (State.framed_withFeed (by rfl) (by rfl) (by rfl)) (State.framed_withFeed ?_ ?_ ?_) <;> cases f <;> rfl
  · exact State.framed_withFeed rfl rfl rfl

/-- No copy is held and none waits for launch (R49, steps 1 and 2). -/
def State.emptied (s : State) : State :=
  (let u := s.freeRecords ((s.store.records.filter fun (_, r) => r.held).map (·.1))
  u.freeRecords u.sel.queue).withdrawStart

/-- Both feeds' flags and runs as a restart leaves them (R49, step 3). -/
def State.feedsRestarted (s : State) : State := (s.withFeed .a s.feedA.restarted).withFeed .b s.feedB.restarted

theorem State.sequenceRestart_eq (s : State) (f : FeedId) (n : Nat) :
    s.sequenceRestart f n =
      ((s.emptied.withSel
        { s.emptied.sel with
          queue := [], expected := some n, lastAdmitted := none
          counters := { s.emptied.sel.counters with restarts := bump s.emptied.sel.counters.restarts } }).feedsRestarted.raise
            .sequenceRestart n (feedCode f)) := rfl

theorem State.sequenceRestart_framed (s : State) (f : FeedId) (n : Nat) : s.framed (s.sequenceRestart f n) := by
  have emptied : s.framed s.emptied :=
    ((s.freeRecords_framed _).trans (State.freeRecords_framed _ _)).of_feeds (State.withdrawStart_frame _).2.1
      (State.withdrawStart_frame _).2.2.1
  have restarted : ∀ u : State, u.framed u.feedsRestarted := fun u =>
    .trans (State.framed_withFeed (f := .a) (by rfl) (by rfl) (by rfl)) (State.framed_withFeed (by rfl) (by rfl) (by rfl))
  rw [State.sequenceRestart_eq]
  exact ((emptied.of_feeds (State.withSel_feedA ..) (State.withSel_feedB ..)).trans (restarted _)).of_feeds
    (State.raise_feedA ..) (State.raise_feedB ..)

theorem State.pacingArrival_framed (s : State) (f : FeedId) (packet : Packet) (p : Pacing) :
    s.framed (s.pacingArrival f packet p) := by
  have run : ∀ u : State, u.framed (u.withFeed f (u.feed f).staleArrival) := fun u => State.framed_withFeed rfl rfl rfl
  unfold State.pacingArrival
  refine .trans (s.closeCopy_framed f) ?_
  generalize s.closeCopy f = u
  dsimp only
  refine .ite (.ite ?_ ?_) ?_
  · exact .trans (run u) (.trans (State.sequenceRestart_framed _ f _) (State.pacingOpen_framed _ f packet p))
  · exact .trans (run u) (State.count_framed _ f fun _ => rfl)
  · exact .trans (u.passStale_framed f) (State.pacingOpen_framed _ f packet p)

theorem State.fillCopy_framed (s : State) (f : FeedId) (packet : Packet) (place : Nat) (r : GroupRecord) :
    s.framed (s.fillCopy f packet place r) := by
  unfold State.fillCopy
  dsimp only
  split
  · refine .trans ?_ (State.closeIfFull_framed _ f)
    refine .trans (t := (s.withRecord place (some { r with arrivals := r.arrivals + 1, overrun := true })).count f
      fun c => { c with overrun := bump c.overrun }) ?_ ?_
    · exact .trans (State.framed_of_feeds (by simp) (by simp)) (State.count_framed _ f fun _ => rfl)
    · split
      · exact .refl _
      · exact State.framed_of_feeds (by simp) (by simp)
  · refine .trans ?_ (State.closeIfFull_framed _ f)
    exact .ite (.trans (State.framed_of_feeds (by rfl) (by rfl)) (State.count_framed _ f fun _ => rfl))
      (State.framed_of_feeds (by rfl) (by rfl))

theorem State.plainArrival_framed (s : State) (f : FeedId) (packet : Packet) : s.framed (s.plainArrival f packet) := by
  unfold State.plainArrival
  repeat' split
  · exact s.count_framed f fun _ => rfl
  · exact .refl s
  · exact s.fillCopy_framed f packet _ _

theorem State.invalidPacing_framed (s : State) (f : FeedId) : s.framed (s.invalidPacing f) := by
  unfold State.invalidPacing
  refine .trans (s.count_framed f (g := fun c => { c with pacingInvalid := bump c.pacingInvalid }) fun _ => rfl) ?_
  dsimp only
  repeat' split
  · exact .refl _
  · exact .refl _
  · exact .trans (State.framed_of_feeds (by simp) (by simp)) (State.closeIfFull_framed _ f)

/-- An arrival beyond its count keeps the framing of both feeds. -/
theorem State.arrival_framed (s : State) (f : FeedId) (packet : Packet) :
    (s.count f fun c => { c with accepted := bump c.accepted }).framed (s.arrival f packet) := by
  unfold State.arrival
  dsimp only
  repeat' split
  · exact State.pacingArrival_framed _ f packet _
  · exact State.invalidPacing_framed _ f
  · exact State.plainArrival_framed _ f packet
  · exact .refl _

/-- The packet whose last byte arrives, and the feed it leaves. -/
theorem State.exec_packetArrival {s : State} {f : FeedId} (locked : (s.feed f).sync = .locked) (last : (s.feed f).pos = 187)
    (accepting : (s.feed f).accepting = true) (b : Byte) :
    exec (.packetArrival f b) s =
      .next ((s.withFeed f { s.feed f with pos := 0, accepting := false, buffer := [], silence := 0 }).arrival f
        ((s.feed f).buffer ++ [b])) := by
  refine congrArg Host.Outcome.next ((if_pos ⟨locked, last, accepting⟩).trans ?_)
  rw [State.takeByte_last locked last]
  simp [State.lockedLast, accepting]

/-- Settles O24: an arrival counts, and everything it does in RUN keeps the framing. -/
theorem arrivalsAreCounted : Obligations.ArrivalsAreCounted := by
  unfold Obligations.ArrivalsAreCounted
  intro s f b locked last accepting
  refine ⟨fun stopped => ?_, _, State.exec_packetArrival locked last accepting b, ?_⟩
  · rw [State.exec_packetArrival locked last accepting]
    simp [State.arrival, State.running, State.count, stopped]
  · obtain ⟨sync, pos, accepted⟩ := State.arrival_framed
      (s.withFeed f { s.feed f with pos := 0, accepting := false, buffer := [], silence := 0 }) f ((s.feed f).buffer ++ [b]) f
    rw [State.count_withFeed, State.feed_withFeed] at sync pos accepted
    exact ⟨sync.trans locked, pos, accepted, by simp [State.siteKept], by simp [State.rulesKept]⟩

end Sys2Proof.Machine
end

