-- ==== Sys2Proof/Proofs/FeedCopies.lean ====
section
/-! What an arrival does to the copies of its feed: opening, filling, closing, stale packets and the sequence restart. -/

namespace Sys2Proof.Machine

open Sys2Proof

-- One proof after the other: proofs that wait for each other hold a thread each.
set_option Elab.async false

/-! ### An arrival in RUN (R25) -/

/-- A feed as the count of an arrival leaves it (R23). -/
def Feed.arrived (x : Feed) : Feed :=
  { x with
    pos := 0, accepting := false, buffer := [], silence := 0
    counters := { x.counters with accepted := bump x.counters.accepted } }

/-- The last byte of an accepted packet arrives on a feed in RUN. -/
structure State.ArrivalDue (s : State) (f : FeedId) : Prop where
  run : s.part = .run
  locked : (s.feed f).sync = .locked
  last : (s.feed f).pos = 187
  accepting : (s.feed f).accepting = true

section
variable {s : State} {f : FeedId} {b : Byte} (h : s.ArrivalDue f)
include h

theorem State.ArrivalDue.exec_eq : exec (.packetArrival f b) s =
    .next (
      if identifier ((s.feed f).buffer ++ [b]) = s.launch.pacingId then
        match pacingOf ((s.feed f).buffer ++ [b]) with
        | some p => (s.withFeed f (s.feed f).arrived).pacingArrival f ((s.feed f).buffer ++ [b]) p
        | none => (s.withFeed f (s.feed f).arrived).invalidPacing f
      else (s.withFeed f (s.feed f).arrived).plainArrival f ((s.feed f).buffer ++ [b])) := by
  rw [State.exec_packetArrival h.locked h.last h.accepting, State.arrival, State.count_withFeed]
  refine congrArg Host.Outcome.next ((if_pos (by simp [State.running, h.run])).trans ?_)
  simp only [State.withFeed_launch, beq_iff_eq]
  rfl

theorem State.ArrivalDue.exec_plain (other : identifier ((s.feed f).buffer ++ [b]) ≠ s.launch.pacingId) :
    exec (.packetArrival f b) s =
      .next ((s.withFeed f (s.feed f).arrived).plainArrival f ((s.feed f).buffer ++ [b])) := by
  rw [h.exec_eq, if_neg other]

theorem State.ArrivalDue.exec_invalid (pacing : identifier ((s.feed f).buffer ++ [b]) = s.launch.pacingId)
    (invalid : pacingOf ((s.feed f).buffer ++ [b]) = none) :
    exec (.packetArrival f b) s = .next ((s.withFeed f (s.feed f).arrived).invalidPacing f) := by
  rw [h.exec_eq, if_pos pacing]
  simp only [invalid]

theorem State.ArrivalDue.exec_pacing {p : Pacing} (pacing : identifier ((s.feed f).buffer ++ [b]) = s.launch.pacingId)
    (valid : pacingOf ((s.feed f).buffer ++ [b]) = some p) :
    exec (.packetArrival f b) s =
      .next ((s.withFeed f (s.feed f).arrived).pacingArrival f ((s.feed f).buffer ++ [b]) p) := by
  rw [h.exec_eq, if_pos pacing]
  simp only [valid]
end

/-! ### The closing of a copy (R30) -/

/-- A record as its closing leaves it (R30). -/
def GroupRecord.closing (r : GroupRecord) : GroupRecord :=
  { r with phase := if r.arrivals = r.declared ∧ r.stored = r.arrivals then .complete else .short }

/-- A feed as the closing of its open copy `r` leaves it (R30). -/
def Feed.closing (x : Feed) (r : GroupRecord) : Feed :=
  { x with
    openCopy := none
    counters :=
      { x.counters with
        complete := if r.arrivals = r.declared ∧ r.stored = r.arrivals then bump x.counters.complete else x.counters.complete
        short := if r.arrivals = r.declared ∧ r.stored = r.arrivals then x.counters.short else bump x.counters.short } }

theorem State.withRecord_feed (s : State) (place : Nat) (r : Option GroupRecord) (f : FeedId) :
    (s.withRecord place r).feed f = s.feed f := by
  cases f <;> rfl

theorem State.shutCopy_some {s : State} {f : FeedId} {place : Nat} {r : GroupRecord}
    (open_ : (s.feed f).openCopy = some place) (record : s.record place = some r) :
    s.shutCopy f = (s.withRecord place (some r.closing)).withFeed f ((s.feed f).closing r) := by
  simp only [State.shutCopy, open_, record, State.count_withFeed, State.withRecord_feed]
  by_cases whole : r.arrivals = r.declared ∧ r.stored = r.arrivals
  · rw [show (r.arrivals == r.declared && r.stored == r.arrivals) = true by simp [whole]]
    simp [GroupRecord.closing, Feed.closing, whole]
  · rw [show (r.arrivals == r.declared && r.stored == r.arrivals) = false by simpa using whole]
    simp [GroupRecord.closing, Feed.closing, whole]

/-- An arrival counted on the open copy closes it when the declared count is reached (R29, R30). -/
theorem State.closeIfFull_withRecord {s : State} {f : FeedId} {x : Feed} {place : Nat} (r : GroupRecord)
    (open_ : x.openCopy = some place) (lt : place < s.store.table.length) :
    ((s.withRecord place (some r)).withFeed f x).closeIfFull f =
      if r.declared ≤ r.arrivals then
        ((s.withRecord place (some r.closing)).withFeed f (x.closing r)).testSelector
      else (s.withRecord place (some r)).withFeed f x := by
  have held : (((s.withRecord place (some r)).withFeed f x).feed f).openCopy = some place := by
    rw [State.feed_withFeed]; exact open_
  have record : ((s.withRecord place (some r)).withFeed f x).record place = some r :=
    (State.record_congr (by simp) place).trans (State.record_withRecord _ lt)
  have shut : ((s.withRecord place (some r)).withFeed f x).shutCopy f =
      (s.withRecord place (some r.closing)).withFeed f (x.closing r) := by
    rw [State.shutCopy_some held record, State.feed_withFeed]
    cases f <;> simp [State.withRecord, State.withStore, State.withFeed]
  simp only [State.closeIfFull, State.closeCopy, held, record, shut]

/-! ### The filling of a copy (R29) -/

/-- The open copy after a packet that is stored. -/
def GroupRecord.filled (r : GroupRecord) (packet : Packet) : GroupRecord :=
  { r with
    arrivals := r.arrivals + 1, stored := r.stored + 1, cells := r.cells ++ [packet]
    errored := if transportError packet then r.errored + 1 else r.errored }

/-- The feed after a packet that is stored. -/
def Feed.filled (x : Feed) (packet : Packet) : Feed :=
  { x with
    counters :=
      { x.counters with errored := if transportError packet then bump x.counters.errored else x.counters.errored } }

/-- The pool with one cell less. -/
def State.takeCell (s : State) : State := s.withStore { s.store with freeCells := s.store.freeCells - 1 }

theorem State.fillCopy_stored {s : State} {f : FeedId} {place : Nat} (packet : Packet) (r : GroupRecord)
    (free : s.store.freeCells ≠ 0) :
    s.fillCopy f packet place r =
      ((s.takeCell.withRecord place (some (r.filled packet))).withFeed f ((s.feed f).filled packet)).closeIfFull f := by
  rw [State.fillCopy, if_neg free]
  unfold GroupRecord.filled Feed.filled
  dsimp only
  split
  · cases f <;> rfl
  · cases f <;> rfl

/-- POOL_OVERRUN, raised by the first packet of a copy that is not stored (R29). -/
def State.raiseOverrun (s : State) (f : FeedId) (r : GroupRecord) : State :=
  if r.overrun then s else s.raise .poolOverrun (feedCode f) r.group

/-- The feed after a packet without a free cell. -/
def Feed.overran (x : Feed) : Feed :=
  { x with counters := { x.counters with overrun := bump x.counters.overrun } }

theorem State.fillCopy_overrun {s : State} {f : FeedId} {place : Nat} (packet : Packet) (r : GroupRecord)
    (full : s.store.freeCells = 0) :
    s.fillCopy f packet place r =
      (((s.raiseOverrun f r).withRecord place (some { r with arrivals := r.arrivals + 1, overrun := true })).withFeed f
        (s.feed f).overran).closeIfFull f := by
  rw [State.fillCopy, if_pos full]
  unfold State.raiseOverrun Feed.overran
  dsimp only
  split
  · cases f <;> rfl
  · cases f <;> rfl

theorem State.raiseOverrun_keeps (s : State) (f : FeedId) (r : GroupRecord) :
    (s.raiseOverrun f r).store = s.store ∧ (s.raiseOverrun f r).sel = s.sel ∧ (s.raiseOverrun f r).launch = s.launch ∧
      (∀ g, (s.raiseOverrun f r).feed g = s.feed g) ∧ s.spliceKept (s.raiseOverrun f r) ∧
      s.siteKept (s.raiseOverrun f r) ∧ s.rulesKept (s.raiseOverrun f r) ∧
      ∀ p, (s.raiseOverrun f r).port p =
        if r.overrun then s.port p else (s.port p).offer ⟨.poolOverrun, feedCode f, r.group, s.now⟩ := by
  unfold State.raiseOverrun
  cases r.overrun with
  | true => exact ⟨rfl, rfl, rfl, fun _ => rfl, ⟨rfl, rfl, rfl, rfl⟩, ⟨rfl, rfl, rfl⟩, ⟨rfl, rfl, rfl, rfl⟩, fun _ => rfl⟩
  | false =>
    exact ⟨rfl, rfl, rfl, State.raise_feed s _ _ _, ⟨rfl, rfl, rfl, rfl⟩, ⟨rfl, rfl, rfl⟩, ⟨rfl, rfl, rfl, rfl⟩,
      s.raise_port _ _ _⟩

theorem State.plainArrival_some {s : State} {f : FeedId} {place : Nat} {r : GroupRecord} (packet : Packet)
    (open_ : (s.feed f).openCopy = some place) (record : s.record place = some r) :
    s.plainArrival f packet = s.fillCopy f packet place r := by
  simp only [State.plainArrival, open_, record]

theorem State.invalidPacing_some {s : State} {f : FeedId} {x : Feed} {place : Nat} {r : GroupRecord}
    (open_ : x.openCopy = some place) (record : s.record place = some r) :
    (s.withFeed f x).invalidPacing f =
      ((s.withRecord place (some { r with arrivals := r.arrivals + 1 })).withFeed f
        { x with counters := { x.counters with pacingInvalid := bump x.counters.pacingInvalid } }).closeIfFull f := by
  have same : ∀ y : Feed, (s.withFeed f y).record place = some r := fun y =>
    (State.record_congr (by simp) place).trans record
  simp only [State.invalidPacing, State.count_withFeed, State.feed_withFeed, open_, same]
  cases f <;> rfl

theorem State.invalidPacing_none {s : State} {f : FeedId} {x : Feed} (closed : x.openCopy = none) :
    (s.withFeed f x).invalidPacing f =
      s.withFeed f { x with counters := { x.counters with pacingInvalid := bump x.counters.pacingInvalid } } := by
  simp only [State.invalidPacing, State.count_withFeed]
  split
  · rfl
  · next place open_ => rw [State.feed_withFeed] at open_; exact absurd (closed.symm.trans open_) nofun

/-- What a state of a feed with its record leaves of everything else. -/
theorem State.withRecord_withFeed_keeps (s : State) (place : Nat) (r : Option GroupRecord) (f : FeedId) (x : Feed) :
    let t := (s.withRecord place r).withFeed f x
    t.store = { s.store with table := s.store.table.set place r } ∧ t.feed f = x ∧ t.feed f.other = s.feed f.other ∧
      t.sel = s.sel ∧ t.launch = s.launch ∧ t.station = s.station ∧ t.network = s.network ∧ s.spliceKept t ∧
      s.siteKept t ∧ s.rulesKept t ∧ ∀ p, t.port p = s.port p := by
  cases f <;> exact ⟨rfl, rfl, rfl, rfl, rfl, rfl, rfl, ⟨rfl, rfl, rfl, rfl⟩, ⟨rfl, rfl, rfl⟩, ⟨rfl, rfl, rfl, rfl⟩,
    fun p => by cases p <;> rfl⟩

theorem State.takeCell_withFeed (s : State) (f : FeedId) (x y : Feed) (place : Nat) (r : Option GroupRecord) :
    ((s.withFeed f x).takeCell.withRecord place r).withFeed f y = (s.takeCell.withRecord place r).withFeed f y := by
  cases f <;> rfl

theorem State.raiseOverrun_withFeed (s : State) (f : FeedId) (q : GroupRecord) (x y : Feed) (place : Nat)
    (r : Option GroupRecord) :
    (((s.withFeed f x).raiseOverrun f q).withRecord place r).withFeed f y =
      ((s.raiseOverrun f q).withRecord place r).withFeed f y := by
  unfold State.raiseOverrun
  split
  · cases f <;> rfl
  · cases f <;> rfl

section
variable {s : State} {f : FeedId} {b : Byte} {place : Nat} {r : GroupRecord} (h : s.ArrivalDue f)
  (open_ : (s.feed f).openCopy = some place) (record : s.record place = some r)
include h open_ record

/-- A packet that is stored in the open copy (R29, R30). -/
theorem State.ArrivalDue.exec_stored (other : identifier ((s.feed f).buffer ++ [b]) ≠ s.launch.pacingId)
    (free : s.store.freeCells ≠ 0) :
    let packet := (s.feed f).buffer ++ [b]
    exec (.packetArrival f b) s =
      .next (if r.declared ≤ r.arrivals + 1 then
          ((s.takeCell.withRecord place (some (r.filled packet).closing)).withFeed f
            (((s.feed f).arrived.filled packet).closing (r.filled packet))).testSelector
        else (s.takeCell.withRecord place (some (r.filled packet))).withFeed f ((s.feed f).arrived.filled packet)) := by
  have same : (s.withFeed f (s.feed f).arrived).record place = some r :=
    (State.record_congr (by simp) place).trans record
  have lt := State.record_lt record
  rw [h.exec_plain other, State.plainArrival_some _ (by rw [State.feed_withFeed]; exact open_) same,
    State.fillCopy_stored _ r (by simpa using free), State.feed_withFeed,
    State.closeIfFull_withRecord _ (by exact open_) (by simpa [State.takeCell] using lt), State.takeCell_withFeed,
    State.takeCell_withFeed]
  rfl

/-- A packet for which there is no free cell (R29, R30). -/
theorem State.ArrivalDue.exec_overrun (other : identifier ((s.feed f).buffer ++ [b]) ≠ s.launch.pacingId)
    (full : s.store.freeCells = 0) :
    let spilled : GroupRecord := { r with arrivals := r.arrivals + 1, overrun := true }
    exec (.packetArrival f b) s =
      .next (if r.declared ≤ r.arrivals + 1 then
          (((s.raiseOverrun f r).withRecord place (some spilled.closing)).withFeed f
            ((s.feed f).arrived.overran.closing spilled)).testSelector
        else ((s.raiseOverrun f r).withRecord place (some spilled)).withFeed f (s.feed f).arrived.overran) := by
  have same : (s.withFeed f (s.feed f).arrived).record place = some r :=
    (State.record_congr (by simp) place).trans record
  have lt := State.record_lt record
  obtain ⟨store, -⟩ := (s.withFeed f (s.feed f).arrived).raiseOverrun_keeps f r
  rw [h.exec_plain other, State.plainArrival_some _ (by rw [State.feed_withFeed]; exact open_) same,
    State.fillCopy_overrun _ r (by simpa using full), State.feed_withFeed,
    State.closeIfFull_withRecord _ (by exact open_) (by simpa [store] using lt), State.raiseOverrun_withFeed,
    State.raiseOverrun_withFeed]

/-- An invalid pacing packet with a copy open (R26). -/
theorem State.ArrivalDue.exec_invalid_open (pacing : identifier ((s.feed f).buffer ++ [b]) = s.launch.pacingId)
    (invalid : pacingOf ((s.feed f).buffer ++ [b]) = none) :
    let missed : GroupRecord := { r with arrivals := r.arrivals + 1 }
    let counted : Feed :=
      { (s.feed f).arrived with
        counters :=
          { (s.feed f).arrived.counters with pacingInvalid := bump (s.feed f).counters.pacingInvalid } }
    exec (.packetArrival f b) s =
      .next (if r.declared ≤ r.arrivals + 1 then
          ((s.withRecord place (some missed.closing)).withFeed f (counted.closing missed)).testSelector
        else (s.withRecord place (some missed)).withFeed f counted) := by
  have lt := State.record_lt record
  rw [h.exec_invalid pacing invalid, State.invalidPacing_some (by exact open_) record,
    State.closeIfFull_withRecord _ (by exact open_) lt]
  rfl
end

theorem GroupRecord.closing_short {r : GroupRecord} (missing : r.stored ≠ r.arrivals) :
    r.closing = { r with phase := .short } := by
  simp [GroupRecord.closing, missing]

theorem Feed.closing_short {r : GroupRecord} (missing : r.stored ≠ r.arrivals) (x : Feed) :
    x.closing r = { x with openCopy := none, counters := { x.counters with short := bump x.counters.short } } := by
  simp [Feed.closing, missing]

/-- Settles O26: by the class of the packet, the open copy and the pool. -/
theorem packetsFillTheOpenCopy : Obligations.PacketsFillTheOpenCopy := by
  unfold Obligations.PacketsFillTheOpenCopy
  refine ⟨fun s f b run locked last accepting other => ?_, fun s f b run locked last accepting pacing invalid => ?_⟩
  · have due : s.ArrivalDue f := ⟨run, locked, last, accepting⟩
    refine ⟨fun place r open_ record free => ⟨fun more => ?_, fun full => ?_⟩, fun place r open_ record empty more => ?_,
      fun place r open_ record empty full stored => ?_, fun closed => ?_⟩
    · refine ⟨_, (due.exec_stored open_ record other free).trans
        (congrArg Host.Outcome.next (if_neg (show ¬ r.declared ≤ r.arrivals + 1 by omega))), ?_⟩
      obtain ⟨store, feed, otherFeed, sel, launch, station, network, splice, site, rules, -⟩ :=
        s.takeCell.withRecord_withFeed_keeps place (some (r.filled ((s.feed f).buffer ++ [b]))) f
          ((s.feed f).arrived.filled ((s.feed f).buffer ++ [b]))
      exact ⟨store, sel, launch, station, network, by rw [feed]; exact open_, by rw [feed]; rfl, otherFeed, splice, site,
        rules⟩
    · refine ⟨_, (due.exec_stored open_ record other free).trans (congrArg Host.Outcome.next (if_pos full)), ?_⟩
      obtain ⟨store, feed, otherFeed, sel, launch, station, network, splice, site, rules, -⟩ :=
        s.takeCell.withRecord_withFeed_keeps place (some (r.filled ((s.feed f).buffer ++ [b])).closing) f
          (((s.feed f).arrived.filled ((s.feed f).buffer ++ [b])).closing (r.filled ((s.feed f).buffer ++ [b])))
      have whole : ((r.filled ((s.feed f).buffer ++ [b])).arrivals = (r.filled ((s.feed f).buffer ++ [b])).declared ∧
          (r.filled ((s.feed f).buffer ++ [b])).stored = (r.filled ((s.feed f).buffer ++ [b])).arrivals) ↔
          (r.arrivals + 1 = r.declared ∧ r.stored = r.arrivals) :=
        and_congr Iff.rfl (show r.stored + 1 = r.arrivals + 1 ↔ _ by omega)
      refine ⟨store.trans ?_, by rw [feed]; rfl, ?_, ?_, otherFeed, sel, launch, station, network, splice, site, rules⟩
      · simp only [GroupRecord.closing, whole]
        rfl
      · rw [feed]
        simp only [Feed.closing, whole]
        rfl
      · rw [feed]
        simp only [Feed.closing, whole]
        rfl
    · refine ⟨_, (due.exec_overrun open_ record other empty).trans
        (congrArg Host.Outcome.next (if_neg (show ¬ r.declared ≤ r.arrivals + 1 by omega))), ?_⟩
      obtain ⟨store, feed, otherFeed, sel, launch, -, -, splice, site, rules, port⟩ :=
        (s.raiseOverrun f r).withRecord_withFeed_keeps place (some { r with arrivals := r.arrivals + 1, overrun := true }) f
          (s.feed f).arrived.overran
      obtain ⟨store', sel', launch', feed', splice', site', rules', port'⟩ := s.raiseOverrun_keeps f r
      simp only [State.spliceKept, State.siteKept, State.rulesKept] at splice site rules splice' site' rules' ⊢
      simp_all
      rfl
    · refine ⟨_, (due.exec_overrun open_ record other empty).trans (congrArg Host.Outcome.next (if_pos full)), ?_⟩
      rw [GroupRecord.closing_short (show r.stored ≠ r.arrivals + 1 by omega),
        Feed.closing_short (show r.stored ≠ r.arrivals + 1 by omega)]
      obtain ⟨store, feed, otherFeed, sel, launch, -, -, splice, site, rules, port⟩ :=
        (s.raiseOverrun f r).withRecord_withFeed_keeps place
          (some { r with arrivals := r.arrivals + 1, overrun := true, phase := .short }) f
          { (s.feed f).arrived.overran with
            openCopy := none
            counters :=
              { (s.feed f).arrived.overran.counters with short := bump (s.feed f).arrived.overran.counters.short } }
      obtain ⟨store', sel', launch', feed', splice', site', rules', port'⟩ := s.raiseOverrun_keeps f r
      simp only [State.spliceKept, State.siteKept, State.rulesKept] at splice site rules splice' site' rules' ⊢
      simp_all
      exact ⟨rfl, rfl⟩
    · refine ⟨_, due.exec_plain other, ?_⟩
      simp only [State.plainArrival, State.feed_withFeed, show (s.feed f).arrived.openCopy = none from closed,
        State.count_withFeed]
      cases f <;> exact ⟨rfl, rfl, rfl, rfl, rfl, ⟨rfl, rfl, rfl, rfl⟩, ⟨rfl, rfl, rfl⟩, ⟨rfl, rfl, rfl, rfl⟩⟩
  · have due : s.ArrivalDue f := ⟨run, locked, last, accepting⟩
    refine ⟨fun closed => ?_, fun place r open_ record => ⟨fun more => ?_, fun full stored => ?_⟩⟩
    · rw [due.exec_invalid pacing invalid, State.invalidPacing_none (by exact closed)]
      rfl
    · refine (due.exec_invalid_open open_ record pacing invalid).trans (congrArg Host.Outcome.next
        ((if_neg (show ¬ r.declared ≤ r.arrivals + 1 by omega)).trans ?_))
      cases f <;> rfl
    · refine (due.exec_invalid_open open_ record pacing invalid).trans (congrArg Host.Outcome.next ((if_pos full).trans ?_))
      rw [GroupRecord.closing_short (show r.stored ≠ r.arrivals + 1 by omega),
        Feed.closing_short (show r.stored ≠ r.arrivals + 1 by omega)]
      rfl

end Sys2Proof.Machine
end

