-- ==== Sys2Proof/Proofs/FeedOpenings.lean ====
section
/-! Pacing packets: the copies they open, stale packets and the sequence restart, and when the selector's tests do nothing. -/

namespace Sys2Proof.Machine

open Sys2Proof

-- One proof after the other: proofs that wait for each other hold a thread each.
set_option Elab.async false

/-! ### The records of the group table -/

theorem Store.mem_records {st : Store} {i : Nat} {r : GroupRecord} : (i, r) ∈ st.records ↔ st.table[i]? = some (some r) := by
  simp only [Store.records, List.mem_filterMap, Option.map_eq_some_iff]
  constructor
  · rintro ⟨⟨x, j⟩, mem, g, rfl, same⟩
    obtain ⟨rfl, rfl⟩ := Prod.mk.inj same
    exact List.mem_zipIdx_iff_getElem?.mp mem
  · exact fun h => ⟨(some r, i), List.mem_zipIdx_iff_getElem?.mpr h, r, rfl, rfl⟩

theorem State.mem_records {s : State} {i : Nat} {r : GroupRecord} : (i, r) ∈ s.store.records ↔ s.record i = some r := by
  rw [Store.mem_records, State.record, List.getD_eq_getElem?_getD]
  cases s.store.table[i]? <;> simp

theorem State.heldCopy_none {s : State} {f : FeedId} {n : Nat}
    (h : ∀ i r, s.record i = some r → r.held = true → r.feed = f → r.group ≠ n) : s.heldCopy f n = none := by
  refine List.find?_eq_none.mpr fun x mem => ?_
  obtain ⟨i, r⟩ := x
  have := h i r (State.mem_records.mp mem)
  simp only [Bool.and_eq_true, beq_iff_eq]
  exact fun ⟨⟨held, feed⟩, group⟩ => this held feed group

theorem State.closedCopy_eq (s : State) (f : FeedId) (n : Nat) : s.closedCopy f n = (s.heldCopy f n).filter (·.2.closed) := by
  unfold State.closedCopy
  cases s.heldCopy f n with
  | none => rfl
  | some x => rfl

theorem State.closedCopy_none {s : State} {f : FeedId} {n : Nat} (h : ∀ i r, s.heldCopy f n = some (i, r) → r.closed = false) :
    s.closedCopy f n = none := by
  rw [State.closedCopy_eq]
  cases held : s.heldCopy f n with
  | none => rfl
  | some x => simp [Option.filter, h x.1 x.2 held]

/-! ### When the selector's tests do nothing (R42, R46) -/

theorem State.testSelector_notDue {s : State} (h : s.selectorDue = false) : s.testSelector = s := by
  unfold State.testSelector
  split
  · next run =>
    simp only [State.selectorDue, run, Bool.true_and] at h
    rw [State.selectorTests]
    cases expected : s.sel.expected with
    | none => rfl
    | some e =>
      simp only [expected, Bool.or_eq_false_iff, Option.isSome_eq_false_iff, Option.isNone_iff_eq_none] at h
      simp only [h.1, h.2]
      rfl
  · rfl

theorem State.admitCond_none {s : State} {e : Nat} (h : ∀ f, s.closedCopy f e = none) : s.admitCond e = none := by
  simp [State.admitCond, h]

theorem seqLater_self (n : Nat) : seqLater n n = false := by
  simp only [seqLater, Bool.and_eq_false_imp, decide_eq_true_eq, decide_eq_false_iff_not]
  omega

/-- Nothing is due while every held copy is an open copy of E. -/
theorem State.testSelector_idle {s : State}
    (h : ∀ i r, s.record i = some r → r.held = true → r.closed = false ∧ ∀ e, s.sel.expected = some e → r.group = e) :
    s.testSelector = s := by
  refine State.testSelector_notDue ?_
  unfold State.selectorDue
  cases expected : s.sel.expected with
  | none => simp
  | some e =>
    have open_ : s.admitCond e = none := State.admitCond_none fun f => State.closedCopy_none fun i r held =>
      have ⟨_, record, isHeld, _⟩ := State.heldCopy_spec held
      (h i r record isHeld).1
    have none : s.laterCopies e = [] := by
      refine List.filter_eq_nil_iff.mpr fun x mem => ?_
      obtain ⟨i, r⟩ := x
      simp only [Bool.and_eq_true, not_and]
      intro held
      rw [(h i r (State.mem_records.mp mem) held).2 e expected, seqLater_self]
      exact nofun
    simp [open_, State.skipDue, none]

/-- The selector looks at the store, the selector, the part state, site time and what each feed can still deliver. -/
theorem State.selectorDue_congr {s t : State} (store : t.store = s.store) (sel : t.sel = s.sel) (part : t.part = s.part)
    (tb : t.tb = s.tb) (feeds : ∀ f, (t.feed f).sync = (s.feed f).sync ∧ (t.feed f).current = (s.feed f).current ∧
      (t.feed f).lastOpened = (s.feed f).lastOpened) : t.selectorDue = s.selectorDue := by
  have held : ∀ f n, t.heldCopy f n = s.heldCopy f n := fun f n => by simp only [State.heldCopy, store]
  have closed : ∀ f n, t.closedCopy f n = s.closedCopy f n := fun f n => by
    rw [State.closedCopy_eq, State.closedCopy_eq, held]
  have later : ∀ n, t.laterCopies n = s.laterCopies n := fun n => by simp only [State.laterCopies, store]
  have now : t.now = s.now := by simp only [State.now, tb]
  have passed : ∀ f e, (t.feed f).passed e = (s.feed f).passed e := fun f e => by
    obtain ⟨-, current, last⟩ := feeds f
    simp only [Feed.passed, current, last]
  have cannot : ∀ f e, t.cannotDeliver f e = s.cannotDeliver f e := fun f e => by
    simp only [State.cannotDeliver, (feeds f).1, sel, passed]
  have past : ∀ f e, t.feedPast f e = s.feedPast f e := cannot
  have syncA : t.feedA.sync = s.feedA.sync := (feeds .a).1
  have syncB : t.feedB.sync = s.feedB.sync := (feeds .b).1
  have due : ∀ e, t.laterDue e = s.laterDue e := fun e => by simp only [State.laterDue, later, now]
  have admits : ∀ e, t.admitCond e = s.admitCond e := fun e => by
    simp only [State.admitCond, closed, cannot, due, now]
  have skip : ∀ e, t.skipDue e = s.skipDue e := fun e => by
    simp only [State.skipDue, held, later, past, syncA, syncB, due]
  simp only [State.selectorDue, State.running, part, sel, admits, skip]

/-! ### The opening of a copy (R27, R28) -/

theorem State.closeCopy_none {s : State} {f : FeedId} (closed : (s.feed f).openCopy = none) : s.closeCopy f = s := by
  simp only [State.closeCopy, closed]

theorem State.tryOpen_full {s : State} (f : FeedId) (packet : Packet) (p : Pacing) (full : s.store.freePlace = none) :
    s.tryOpen f packet p = s.count f fun c => { c with tableFull := bump c.tableFull } := by
  simp only [State.tryOpen, full]

theorem State.tryOpen_empty {s : State} (f : FeedId) (packet : Packet) (p : Pacing) (place : s.store.freePlace ≠ none)
    (empty : s.store.freeCells = 0) :
    s.tryOpen f packet p = s.count f fun c => { c with overrun := bump c.overrun } := by
  unfold State.tryOpen
  split
  · next none => exact absurd none place
  · exact if_pos empty

theorem State.tryOpen_opens {s : State} (f : FeedId) (packet : Packet) (p : Pacing) {place : Nat}
    (free : s.store.freePlace = some place) (cell : s.store.freeCells ≠ 0) :
    s.tryOpen f packet p =
      ((s.withStore ⟨s.store.table.set place (some (s.opened f packet p)), s.store.freeCells - 1⟩).withFeed f
        ((s.feed f).opens packet p place)).withSel
          { s.sel with expected := some (s.sel.expected.getD p.group) } := by
  simp only [State.tryOpen, free, if_neg cell, State.openCopy_eq]

/-- What the opening leaves, whether or not there was room. -/
theorem State.tryOpen_keeps (s : State) (f : FeedId) (packet : Packet) (p : Pacing) :
    (s.tryOpen f packet p).launch = s.launch ∧ (∀ q, (s.tryOpen f packet p).port q = s.port q) ∧
      (s.tryOpen f packet p).feed f.other = s.feed f.other ∧
      ((s.tryOpen f packet p).feed f).staleRun = (s.feed f).staleRun ∧
      (∀ e, s.sel.expected = some e → (s.tryOpen f packet p).sel = s.sel) ∧
      ∀ i r, (s.tryOpen f packet p).record i = some r → s.record i = some r ∨ r = s.opened f packet p := by
  have counted : ∀ g : FeedCounters → FeedCounters,
      (s.count f g).launch = s.launch ∧ (∀ q, (s.count f g).port q = s.port q) ∧
        (s.count f g).feed f.other = s.feed f.other ∧ ((s.count f g).feed f).staleRun = (s.feed f).staleRun ∧
        (∀ e, s.sel.expected = some e → (s.count f g).sel = s.sel) ∧
        ∀ i r, (s.count f g).record i = some r → s.record i = some r ∨ r = s.opened f packet p := fun g =>
    ⟨by simp [State.count], fun q => State.withFeed_port s f _ q, by simp [State.count], by simp [State.count],
      fun _ _ => by simp [State.count], fun i r h => .inl ((State.record_congr (by simp [State.count]) i).symm.trans h)⟩
  cases free : s.store.freePlace with
  | none => rw [State.tryOpen_full f packet p free]; exact counted _
  | some place =>
    by_cases empty : s.store.freeCells = 0
    · rw [State.tryOpen_empty f packet p (by simp [free]) empty]; exact counted _
    · rw [State.tryOpen_opens f packet p free empty]
      refine ⟨by simp, fun q => by cases q <;> cases f <;> rfl, by cases f <;> rfl, by cases f <;> rfl,
        fun e expected => ?_, fun i r record => ?_⟩
      · have self : ({ s.sel with expected := some (s.sel.expected.getD p.group) } : Selector) = s.sel := by
          rw [expected]; exact (congrArg (fun x => ({ s.sel with expected := x } : Selector)) expected).symm
        exact self
      · have table : (s.store.table.set place (some (s.opened f packet p))).getD i none = some r := by
          simpa [State.record] using record
        rw [List.getD_eq_getElem?_getD, List.getElem?_set] at table
        split at table
        · split at table
          · exact .inr (Option.some.inj table).symm
          · simp at table
        · exact .inl (by simpa [State.record, List.getD_eq_getElem?_getD] using table)

theorem State.freeClosed_none {s : State} {f : FeedId} {n : Nat} (h : s.closedCopy f n = none) : s.freeClosed f n = s := by
  simp only [State.freeClosed, h]

/-- A closed copy of the number is handed back before the opening, and no feed holds it as its open copy. -/
theorem State.freeClosed_some {s : State} {f : FeedId} {n i : Nat} {r : GroupRecord} (h : s.closedCopy f n = some (i, r))
    (notOpen : ∀ g, (s.feed g).openCopy ≠ some i) :
    s.freeClosed f n = s.withStore ⟨s.store.table.set i none, s.store.freeCells + r.cells.length⟩ := by
  have held : s.heldCopy f n = some (i, r) := by
    rw [State.closedCopy_eq] at h
    exact (Option.filter_eq_some_iff.mp h).1
  obtain ⟨-, record, -⟩ := State.heldCopy_spec held
  have a : s.feedA.release i = s.feedA := if_neg (notOpen .a)
  have b : s.feedB.release i = s.feedB := if_neg (notOpen .b)
  simp only [State.freeClosed, h, State.freeRecord, record, a, b]
  rfl

/-! ### A pacing packet that is not stale (R27, R48) -/

/-- The other feed told that feed `f` is current, when its stale run is going (R48). -/
def State.told (s : State) (f : FeedId) : State :=
  s.withFeed f.other
    { s.feed f.other with
      otherCurrent := (s.feed f.other).otherCurrent || decide (1 ≤ (s.feed f.other).staleRun) }

theorem State.passStale_excluded {s : State} {f : FeedId} {x : Feed} (excluded : s.sel.mode.excludes f = true) :
    (s.withFeed f x).passStale f = s.withFeed f { x with staleRun := 0 } := by
  simp [State.passStale, excluded]

theorem State.passStale_told {s : State} {f : FeedId} {x : Feed} (included : s.sel.mode.excludes f = false) :
    (s.withFeed f x).passStale f = (s.told f).withFeed f { x with staleRun := 0 } := by
  by_cases going : 1 ≤ (s.feed f.other).staleRun
  · simp only [State.passStale, State.withFeed_sel, included, State.feed_withFeed, State.feed_withFeed_other, going,
      State.told]
    cases f <;> simp [State.withFeed, State.feed, FeedId.other]
  · simp only [State.passStale, State.withFeed_sel, included, State.feed_withFeed, State.feed_withFeed_other, going,
      State.told]
    cases f <;> simp [State.withFeed, State.feed, FeedId.other]

theorem State.pacingArrival_current {s : State} {f : FeedId} (packet : Packet) {p : Pacing}
    (closed : (s.feed f).openCopy = none) (current : ∀ e, s.sel.expected = some e → seqEarlier p.group e = false) :
    s.pacingArrival f packet p = (s.passStale f).pacingOpen f packet p := by
  rw [State.pacingArrival, State.closeCopy_none closed]
  refine if_neg ?_
  split
  · next e expected => rw [current e expected]; exact nofun
  · exact nofun

/-! ### A stale pacing packet (R48, R49) -/

theorem State.pacingArrival_stale {s : State} {f : FeedId} (packet : Packet) {p : Pacing} {e : Nat}
    (closed : (s.feed f).openCopy = none) (expected : s.sel.expected = some e) (stale : seqEarlier p.group e = true) :
    s.pacingArrival f packet p =
      if (s.feed f).staleArrival.staleRun = 4 ∧ s.sel.mode.excludes f = false ∧
          (s.feed f).staleArrival.otherCurrent = false then
        ((s.withFeed f (s.feed f).staleArrival).sequenceRestart f p.group).pacingOpen f packet p
      else (s.withFeed f (s.feed f).staleArrival).count f fun c => { c with stale := bump c.stale } := by
  rw [State.pacingArrival, State.closeCopy_none closed]
  dsimp only
  rw [if_pos (by rw [expected]; exact stale)]
  simp only [State.feed_withFeed, State.withFeed_sel, Bool.and_eq_true, beq_iff_eq, Bool.not_eq_true', and_assoc]

theorem State.freeRecord_record (s : State) (place i : Nat) :
    (s.freeRecord place).record i = if i = place then none else s.record i := by
  cases record : s.record place with
  | none =>
    rw [State.freeRecord_none record]
    split
    · next same => rw [same, record]
    · rfl
  | some r =>
    simp only [State.record, State.freeRecord_some record, List.getD_eq_getElem?_getD, List.getElem?_set]
    by_cases same : i = place
    · subst same; simp; split <;> rfl
    · simp [same, Ne.symm same]

theorem State.freeRecords_record (s : State) (places : List Nat) (i : Nat) :
    (s.freeRecords places).record i = if i ∈ places then none else s.record i := by
  unfold State.freeRecords
  induction places generalizing s with
  | nil => simp
  | cons place places ih =>
    rw [List.foldl_cons, ih, State.freeRecord_record]
    by_cases mem : i ∈ places <;> by_cases same : i = place <;> simp [mem, same]

theorem State.withdrawStart_launch (s : State) :
    s.withdrawStart.launch.emitting = s.launch.emitting ∧ s.withdrawStart.launch.scheduled = none := by
  unfold State.withdrawStart
  split
  · next none => exact ⟨rfl, none⟩
  · simp

theorem State.emptied_record {s : State} {i : Nat} {r : GroupRecord} (h : s.emptied.record i = some r) :
    s.record i = some r ∧ r.held = false ∧ i ∉ s.sel.queue := by
  have kept : ∀ u : State, u.withdrawStart.record i = u.record i := fun u => State.record_congr (by simp) i
  simp only [State.emptied, kept, State.freeRecords_record] at h
  split at h
  · exact absurd h nofun
  next waits =>
    split at h
    · exact absurd h nofun
    next held =>
      refine ⟨h, ?_, by simpa using waits⟩
      by_contra isHeld
      exact held (List.mem_map.mpr
        ⟨(i, r), List.mem_filter.mpr ⟨State.mem_records.mpr h, by simpa using isHeld⟩, rfl⟩)

theorem State.emptied_feeds (s : State) : s.feedsBut s.emptied :=
  State.feedsBut_trans (State.feedsBut_foldl _ State.freeRecord_feeds _ s) (State.feedsBut_trans
    (State.feedsBut_foldl _ State.freeRecord_feeds _ _)
    (State.feedsBut_of_eq (State.withdrawStart_frame _).2.1 (State.withdrawStart_frame _).2.2.1))

theorem State.feedsRestarted_keeps (s : State) :
    s.feedsRestarted.store = s.store ∧ s.feedsRestarted.sel = s.sel ∧ s.feedsRestarted.launch = s.launch ∧
      (∀ g, s.feedsRestarted.feed g = (s.feed g).restarted) ∧ s.feedsRestarted.now = s.now ∧
      ∀ q, s.feedsRestarted.port q = s.port q :=
  ⟨rfl, rfl, rfl, fun g => by cases g <;> rfl, rfl, fun q => by cases q <;> rfl⟩

theorem State.emptied_keeps (s : State) :
    s.emptied.sel = s.sel ∧ s.emptied.launch.emitting = s.launch.emitting ∧ s.emptied.launch.scheduled = none ∧
      s.emptied.now = s.now ∧ ∀ q, s.emptied.port q = s.port q := by
  refine ⟨by simp [State.emptied], ?_, (State.withdrawStart_launch _).2, by simp [State.emptied, State.now], fun q => ?_⟩
  · refine (State.withdrawStart_launch _).1.trans ?_
    simp
  · cases q <;> simp [State.emptied, State.port]

/-- What a sequence restart leaves (R49, R81). -/
theorem State.sequenceRestart_spec (s : State) (f : FeedId) (n : Nat) :
    let v := s.sequenceRestart f n
    v.sel =
        { s.sel with
          queue := [], expected := some n, lastAdmitted := none
          counters := { s.sel.counters with restarts := bump s.sel.counters.restarts } } ∧
      v.launch.emitting = s.launch.emitting ∧ v.launch.scheduled = none ∧
      (∀ i r, v.record i = some r → r.held = false) ∧
      (∀ g, ∃ o, v.feed g =
        { s.feed g with openCopy := o, current := false, otherCurrent := false, staleRun := 0 }) ∧
      ∀ q, v.port q = (s.port q).offer ⟨.sequenceRestart, n, feedCode f, s.now⟩ := by
  obtain ⟨sel, emitting, scheduled, now, port⟩ := s.emptied_keeps
  rw [State.sequenceRestart_eq]
  generalize selector : ({ s.emptied.sel with
    queue := [], expected := some n, lastAdmitted := none
    counters := { s.emptied.sel.counters with restarts := bump s.emptied.sel.counters.restarts } } : Selector) = x
  obtain ⟨store', sel', launch', feed', now', port'⟩ := (s.emptied.withSel x).feedsRestarted_keeps
  refine ⟨?_, ?_, ?_, fun i r record => ?_, fun g => ?_, fun q => ?_⟩
  · rw [State.raise_sel, sel', State.withSel_sel, ← selector, sel]
  · rw [State.raise_launch, launch']; exact emitting
  · rw [State.raise_launch, launch']; exact scheduled
  · refine (State.emptied_record (s := s) (i := i) ?_).2.1
    exact (State.record_congr (s := s.emptied) (by rw [State.raise_store, store', State.withSel_store]) i).symm.trans record
  · obtain ⟨o, feed⟩ := s.emptied_feeds g
    have same : (s.emptied.withSel x).feed g = s.emptied.feed g := by cases g <;> rfl
    exact ⟨o, by rw [State.raise_feed, feed', same, feed]; rfl⟩
  · have same : (s.emptied.withSel x).port q = s.emptied.port q := by cases q <;> rfl
    have clock : (s.emptied.withSel x).now = s.emptied.now := rfl
    rw [State.raise_port, port', now', same, clock, port, now]

/-- A pacing packet after a restart at its number: the only copy held is one that it opens. -/
theorem State.pacingOpen_restarted {v : State} {f : FeedId} (packet : Packet) (p : Pacing)
    (included : v.sel.mode.excludes f = false) (expected : v.sel.expected = some p.group)
    (empty : ∀ i r, v.record i = some r → r.held = false) :
    let t := v.pacingOpen f packet p
    t.sel = v.sel ∧ t.launch = v.launch ∧ (t.feed f).staleRun = (v.feed f).staleRun ∧ t.feed f.other = v.feed f.other ∧
      (∀ i r, t.record i = some r → r.held = true → r.feed = f ∧ r.group = p.group ∧ r.arrivals = 1) ∧
      ∀ q, t.port q = v.port q := by
  have closed : v.closedCopy f p.group = none := State.closedCopy_none fun i r held =>
    have ⟨_, record, isHeld, _⟩ := State.heldCopy_spec held
    absurd isHeld (by rw [empty i r record]; exact nofun)
  rw [State.pacingOpen_eq, if_neg (by rw [included]; exact nofun)]
  by_cases emitting : v.emittingGroup = some p.group
  · rw [if_pos emitting]
    exact ⟨rfl.trans (by simp [State.count]), by simp [State.count], by simp [State.count], by simp [State.count],
      fun i r record held => absurd held (by
        rw [empty i r ((State.record_congr (by simp [State.count]) i).symm.trans record)]; exact nofun),
      State.withFeed_port v f _⟩
  · rw [if_neg emitting, State.freeClosed_none closed]
    obtain ⟨launch, port, otherFeed, run, sel, records⟩ := v.tryOpen_keeps f packet p
    have opened : ∀ i r, (v.tryOpen f packet p).record i = some r → r.held = true → r = v.opened f packet p := by
      intro i r record held
      rcases records i r record with old | new
      · exact absurd held (by rw [empty i r old]; exact nofun)
      · exact new
    have idle : (v.tryOpen f packet p).testSelector = v.tryOpen f packet p := by
      refine State.testSelector_idle fun i r record held => ?_
      rw [opened i r record held, sel _ expected]
      exact ⟨rfl, fun e same => Option.some.inj (expected.symm.trans same)⟩
    rw [idle]
    exact ⟨sel _ expected, launch, run, otherFeed,
      fun i r record held => by rw [opened i r record held]; exact ⟨rfl, rfl, rfl⟩, port⟩

/-! ### The statement -/

theorem State.emittingGroup_congr {s t : State} (launch : t.launch = s.launch) (store : t.store = s.store) :
    t.emittingGroup = s.emittingGroup := by
  simp only [State.emittingGroup, launch, State.record_congr store]

/-- A valid pacing packet that is not stale, on a feed without an open copy that is not excluded. -/
theorem State.ArrivalDue.exec_current {s : State} {f : FeedId} {b : Byte} {p : Pacing} (h : s.ArrivalDue f)
    (pacing : identifier ((s.feed f).buffer ++ [b]) = s.launch.pacingId)
    (valid : pacingOf ((s.feed f).buffer ++ [b]) = some p) (closed : (s.feed f).openCopy = none)
    (current : ∀ e, s.sel.expected = some e → seqEarlier p.group e = false) (included : s.sel.mode.excludes f = false) :
    let u := (s.told f).withFeed f { (s.feed f).arrived with staleRun := 0 }
    exec (.packetArrival f b) s =
      .next (if s.emittingGroup = some p.group then u.count f fun c => { c with stale := bump c.stale }
        else ((u.freeClosed f p.group).tryOpen f ((s.feed f).buffer ++ [b]) p).testSelector) := by
  intro u
  have emitting : u.emittingGroup = s.emittingGroup :=
    State.emittingGroup_congr (by simp [u, State.told]) (by simp [u, State.told])
  rw [h.exec_pacing pacing valid, State.pacingArrival_current _ (by rw [State.feed_withFeed]; exact closed)
    (by simpa using current), State.passStale_told included, State.pacingOpen_eq, if_neg (by simp [State.told, included])]
  exact congrArg Host.Outcome.next (if_congr (by rw [← emitting]) rfl rfl)

/-- The state in which a pacing packet has opened a copy at a place of the table of `st`, before the selector tests. -/
def State.opensIn (s : State) (f : FeedId) (packet : Packet) (p : Pacing) (st : Store) (place : Nat) : State :=
  (((s.told f).withStore ⟨st.table.set place (some (s.opened f packet p)), st.freeCells - 1⟩).withFeed f
    ({ (s.feed f).arrived with staleRun := 0 }.opens packet p place)).withSel
      { s.sel with expected := some (s.sel.expected.getD p.group) }

theorem State.opensIn_keeps (s : State) (f : FeedId) (packet : Packet) (p : Pacing) (st : Store) (place : Nat) :
    let u := s.opensIn f packet p st place
    u.store = ⟨st.table.set place (some (s.opened f packet p)), st.freeCells - 1⟩ ∧
      u.sel = { s.sel with expected := some (s.sel.expected.getD p.group) } ∧
      u.feed f = { (s.feed f).arrived with staleRun := 0 }.opens packet p place ∧
      u.feed f.other =
        { s.feed f.other with
          otherCurrent := (s.feed f.other).otherCurrent || decide (1 ≤ (s.feed f.other).staleRun) } ∧
      u.launch = s.launch ∧ s.spliceKept u ∧ s.siteKept u ∧ s.rulesKept u ∧ u.station = s.station ∧
      u.network = s.network := by
  cases f <;> exact ⟨rfl, rfl, rfl, rfl, rfl, ⟨rfl, rfl, rfl, rfl⟩, ⟨rfl, rfl, rfl⟩, ⟨rfl, rfl, rfl, rfl⟩, rfl, rfl⟩

theorem State.ArrivalDue.exec_opens {s : State} {f : FeedId} {b : Byte} {p : Pacing} {st : Store} {place : Nat}
    (h : s.ArrivalDue f) (pacing : identifier ((s.feed f).buffer ++ [b]) = s.launch.pacingId)
    (valid : pacingOf ((s.feed f).buffer ++ [b]) = some p) (closed : (s.feed f).openCopy = none)
    (current : ∀ e, s.sel.expected = some e → seqEarlier p.group e = false) (included : s.sel.mode.excludes f = false)
    (emitting : s.emittingGroup ≠ some p.group)
    (freed : ((s.told f).withFeed f { (s.feed f).arrived with staleRun := 0 }).freeClosed f p.group =
      ((s.told f).withFeed f { (s.feed f).arrived with staleRun := 0 }).withStore st)
    (free : st.freePlace = some place) (cell : st.freeCells ≠ 0) :
    exec (.packetArrival f b) s = .next (s.opensIn f ((s.feed f).buffer ++ [b]) p st place).testSelector := by
  rw [h.exec_current pacing valid closed current included, if_neg emitting, freed,
    State.tryOpen_opens f _ p (by exact free) (by exact cell)]
  cases f <;> rfl

/-- The closing of a copy at an arrival leaves nothing to test: the packet finds its feed without an open copy. -/
theorem State.pacingArrival_closed {s u : State} {f : FeedId} (packet : Packet) (p : Pacing) (h : s.closeCopy f = u)
    (closed : (u.feed f).openCopy = none) : s.pacingArrival f packet p = u.pacingArrival f packet p := by
  rw [State.pacingArrival, State.pacingArrival, h, State.closeCopy_none closed]

/-- Settles O25: the arrival by the stale test, the excluded feed, the group in emission, and the room in the table and the
pool. -/
theorem firstPacketOpensACopy : Obligations.FirstPacketOpensACopy := by
  unfold Obligations.FirstPacketOpensACopy
  refine ⟨?_, ?_, ?_, ?_⟩
  · intro s f b p run locked last accepting pacing valid store expected included emitting closed otherRun small
    have due : s.ArrivalDue f := ⟨run, locked, last, accepting⟩
    have records : ∀ i, s.record i = none := fun i => by
      rw [State.record, store, Store.empty, List.getD_eq_getElem?_getD, List.getElem?_replicate]; split <;> rfl
    have noCopy : ((s.told f).withFeed f { (s.feed f).arrived with staleRun := 0 }).closedCopy f p.group = none := by
      refine State.closedCopy_none fun i r held => ?_
      have ⟨_, record, _⟩ := State.heldCopy_spec held
      rw [State.record_congr (s := s) (by simp [State.told]), records] at record
      exact absurd record nofun
    have group : s.emittingGroup = none := by simp only [State.emittingGroup, emitting]
    have opens := due.exec_opens (b := b) (st := .empty) (place := 0) pacing valid closed (by simp [expected]) included
      (by simp [group]) ((State.freeClosed_none noCopy).trans (by rw [← store]; cases f <;> rfl)) (by decide) (by decide)
    obtain ⟨store', sel, feed, otherFeed, launch, splice, site, rules, station, network⟩ :=
      s.opensIn_keeps f ((s.feed f).buffer ++ [b]) p .empty 0
    have at0 : (s.opensIn f ((s.feed f).buffer ++ [b]) p .empty 0).record 0 =
        some (s.opened f ((s.feed f).buffer ++ [b]) p) := by
      rw [State.record, store']; rfl
    have other : ∀ i, i ≠ 0 → (s.opensIn f ((s.feed f).buffer ++ [b]) p .empty 0).record i = none := by
      intro i h
      rw [← records i, State.record, State.record, store', store]
      simp [List.getD_eq_getElem?_getD, Ne.symm h]
    refine ⟨_, opens, ?_⟩
    rw [State.testSelector_idle fun i r record held => ?_]
    · refine ⟨at0, other, by rw [store']; rfl, by rw [sel, expected]; rfl, by rw [feed]; rfl, by rw [feed]; rfl,
        by rw [feed]; rfl, by rw [feed]; rfl, by rw [feed]; rfl, launch, ?_, splice, site, rules, station, network⟩
      rw [otherFeed, otherRun]
      simp
    · by_cases first : i = 0
      · rw [first, at0] at record
        obtain rfl := Option.some.inj record
        exact ⟨rfl, fun e same => by rw [sel, expected] at same; exact Option.some.inj same⟩
      · rw [other i first] at record
        exact absurd record nofun
  · intro s f b p place run locked last accepting packet pacing valid closed current included emitting notOpen store free cell
    have due : s.ArrivalDue f := ⟨run, locked, last, accepting⟩
    have copies : ((s.told f).withFeed f { (s.feed f).arrived with staleRun := 0 }).closedCopy f p.group =
        s.closedCopy f p.group := by
      rw [State.closedCopy_eq, State.closedCopy_eq]
      cases f <;> rfl
    have freed : ((s.told f).withFeed f { (s.feed f).arrived with staleRun := 0 }).freeClosed f p.group =
        ((s.told f).withFeed f { (s.feed f).arrived with staleRun := 0 }).withStore store := by
      cases copy : s.closedCopy f p.group with
      | none =>
        rw [State.freeClosed_none (copies.trans copy)]
        simp only [store, copy]
        cases f <;> rfl
      | some x =>
        obtain ⟨i, r⟩ := x
        rw [State.freeClosed_some (copies.trans copy) fun g => ?_]
        · simp only [store, copy]
          cases f <;> rfl
        · rcases feed_eq_or_other f g with same | other
          · rw [same, State.feed_withFeed]
            exact fun h => absurd (closed.symm.trans h) nofun
          · rw [other, State.feed_withFeed_other, State.told, State.feed_withFeed]
            exact notOpen i r copy
    obtain ⟨store', sel, feed, otherFeed, launch, splice, site, rules, station, network⟩ :=
      s.opensIn_keeps f packet p store place
    exact ⟨_, due.exec_opens pacing valid closed current included emitting freed free cell, store', sel, feed, otherFeed,
      launch, splice, site, rules, station, network⟩
  · intro s f b p place r run locked last accepting pacing valid open_ record more closed notDue
    have due : s.ArrivalDue f := ⟨run, locked, last, accepting⟩
    have feed : closed.feed f =
        { s.feed f with
          openCopy := none
          counters := { (s.feed f).counters with short := bump (s.feed f).counters.short } } := State.feed_withFeed ..
    have due' : closed.ArrivalDue f := ⟨by simpa [closed] using run, by rw [feed]; exact locked, by rw [feed]; exact last,
      by rw [feed]; exact accepting⟩
    have buffer : (closed.feed f).buffer = (s.feed f).buffer := by rw [feed]
    have record' : (s.withFeed f (s.feed f).arrived).record place = some r :=
      (State.record_congr (by simp) place).trans record
    have shut : (s.withFeed f (s.feed f).arrived).closeCopy f = closed.withFeed f (closed.feed f).arrived := by
      have shut : (s.withFeed f (s.feed f).arrived).shutCopy f = closed.withFeed f (closed.feed f).arrived := by
        rw [State.shutCopy_short (by rw [State.feed_withFeed]; exact open_) record' more, State.feed_withFeed, feed]
        cases f <;> rfl
      have still : (closed.withFeed f (closed.feed f).arrived).testSelector = closed.withFeed f (closed.feed f).arrived := by
        refine State.testSelector_notDue ((State.selectorDue_congr (by simp) (by simp) (by simp) (by simp) fun g => ?_).trans
          notDue)
        rcases feed_eq_or_other f g with same | other
        · rw [same, State.feed_withFeed]; exact ⟨rfl, rfl, rfl⟩
        · rw [other, State.feed_withFeed_other]; exact ⟨rfl, rfl, rfl⟩
      simp only [State.closeCopy, State.feed_withFeed, show (s.feed f).arrived.openCopy = some place from open_, record', shut,
        still]
    rw [due.exec_pacing pacing valid, due'.exec_pacing (by simpa [buffer, closed] using pacing) (by rw [buffer]; exact valid),
      State.pacingArrival_closed _ p shut (by rw [State.feed_withFeed, feed]; rfl), buffer]
  · intro s f b p run locked last accepting pacing valid closed taken counted
    have due : s.ArrivalDue f := ⟨run, locked, last, accepting⟩
    have arrives := due.exec_pacing pacing valid
    refine ⟨fun e expected stale => ?_, fun current => ⟨fun excluded => ?_, fun included emitting => ?_,
      fun included emitting noCopy => ?_⟩⟩
    · rw [arrives, State.pacingArrival_stale _ (by rw [State.feed_withFeed]; exact closed) (by simpa using expected) stale,
        State.feed_withFeed, State.withFeed_withFeed, State.withFeed_sel]
      refine ⟨fun goesOn => congrArg Host.Outcome.next ((if_neg ?_).trans ?_), fun third included notCurrent small => ?_⟩
      · rintro ⟨fourth, included, notCurrent⟩
        have fourth : min ((s.feed f).staleRun + 1) 4 = 4 := fourth
        have notCurrent : (if (s.feed f).staleRun = 0 then false else (s.feed f).otherCurrent) = false := notCurrent
        rcases goesOn with few | excluded | ⟨current, going⟩
        · omega
        · rw [excluded] at included; exact absurd included nofun
        · rw [if_neg (by omega), current] at notCurrent; exact absurd notCurrent nofun
      · rw [State.count_withFeed]; rfl
      · have fourth : (s.feed f).arrived.staleArrival.staleRun = 4 ∧ s.sel.mode.excludes f = false ∧
            (s.feed f).arrived.staleArrival.otherCurrent = false := by
          refine ⟨show min ((s.feed f).staleRun + 1) 4 = 4 by omega, included, ?_⟩
          exact (if_neg (show ¬ (s.feed f).staleRun = 0 by omega)).trans notCurrent
        rw [if_pos fourth]
        obtain ⟨sel, emitting, scheduled, empty, feed, port⟩ :=
          (s.withFeed f (s.feed f).arrived.staleArrival).sequenceRestart_spec f p.group
        generalize (s.withFeed f (s.feed f).arrived.staleArrival).sequenceRestart f p.group = v at *
        obtain ⟨sel', launch', staleRun', other', held', port'⟩ := State.pacingOpen_restarted ((s.feed f).buffer ++ [b]) p
          (by rw [sel]; simpa using included) (by rw [sel]) empty
        obtain ⟨o, own⟩ := feed f
        obtain ⟨o', other⟩ := feed f.other
        refine ⟨_, rfl, by rw [sel', sel], by rw [sel', sel], by rw [sel', sel], by rw [sel', sel]; simp,
          by rw [launch', emitting]; simp, by rw [launch', scheduled], by rw [staleRun', own], ?_, held', fun q => ?_⟩
        · rw [other', other, State.feed_withFeed_other]
        · rw [port', port, State.withFeed_port]; simp [State.now]
    · rw [arrives, State.pacingArrival_current _ (by rw [State.feed_withFeed]; exact closed) (by simpa using current),
        State.passStale_excluded excluded, State.pacingOpen_eq, if_pos (by simpa using excluded), State.count_withFeed]
      rfl
    · rw [due.exec_current pacing valid closed current included, if_pos emitting, State.count_withFeed]
      rfl
    · have none : ((s.told f).withFeed f { (s.feed f).arrived with staleRun := 0 }).closedCopy f p.group = none := by
        rw [← noCopy, State.closedCopy_eq, State.closedCopy_eq]
        cases f <;> rfl
      rw [due.exec_current pacing valid closed current included, if_neg emitting, State.freeClosed_none none]
      refine ⟨fun full => ?_, fun place empty => ?_⟩
      · rw [State.tryOpen_full f _ p (by simpa [State.told] using full), State.count_withFeed]
        rfl
      · rw [State.tryOpen_empty f _ p (by simpa [State.told] using place) (by simpa [State.told] using empty),
          State.count_withFeed]
        rfl

end Sys2Proof.Machine
end

