-- ==== Sys2Proof/Proofs/LaunchScheduling.lean ====
section
/-! The launch scheduler: head decisions, scheduled starts, null fill; and the feed mode with the copies it frees. -/

namespace Sys2Proof.Machine

open Sys2Proof

-- One proof after the other: proofs that wait for each other hold a thread each.
set_option Elab.async false

/-! ### Head decisions (R71) -/

/-- Settles O29: each outcome from the branch of the decision that gives it, and a start from the two that schedule. -/
theorem headDecisionOrder : Obligations.HeadDecisionOrder := by
  intro gate launched q tolerance
  refine ⟨?_, ?_, ?_, ?_, ?_⟩
  · rintro rfl; rfl
  · rintro rfl why rfl; rfl
  · rintro rfl r rfl onTime
    exact if_pos onTime
  · rintro rfl r rfl behind
    exact if_neg (show ¬ reached r q = true by rw [behind]; exact nofun)
  · intro x outcome
    unfold headOutcome at outcome
    split at outcome
    · exact absurd outcome nofun
    split at outcome
    · exact absurd outcome nofun
    split at outcome
    · next r onTime =>
      obtain rfl := Sum.inr.inj outcome
      exact ⟨onTime, Nat.zero_le _⟩
    · dsimp only at outcome
      split at outcome
      · next within =>
        obtain rfl := Sum.inr.inj outcome
        exact ⟨reached_self q, within⟩
      · exact absurd outcome nofun

theorem headOutcome_closed (launched : Launched) (q : Time) (tolerance : Nat) :
    headOutcome false launched q tolerance = .inl .gateClosed := rfl

theorem State.dropHead_nil {s : State} (why : DropReason) (h : s.sel.queue = []) : s.dropHead why = s := by
  simp only [State.dropHead, h]

/-- A drop frees the record of the head and no other. -/
theorem State.dropHead_record {s : State} {place : Nat} {rest : List Nat} (why : DropReason)
    (h : s.sel.queue = place :: rest) (i : Nat) :
    (s.dropHead why).record i = if i = place then none else s.record i := by
  simp only [State.dropHead, h, State.dropGroup]
  exact (State.record_congr (s := (s.withSel { s.sel with queue := rest }).freeRecord place) (by simp) i).trans
    (State.freeRecord_record _ place i)

theorem State.dropHead_queue {s : State} {place : Nat} {rest : List Nat} (why : DropReason)
    (h : s.sel.queue = place :: rest) : (s.dropHead why).sel = { s.sel with queue := rest } := by
  simp only [State.dropHead, h, State.dropGroup]
  simp

/-- Head decisions only take groups from the head of the queue and free their records. -/
theorem State.decideHead_drops (q : Time) (fuel : Nat) (s : State) :
    (∃ dropped, s.sel.queue = dropped ++ (State.decideHead q fuel s).sel.queue) ∧
      (∃ queue, (State.decideHead q fuel s).sel = { s.sel with queue := queue }) ∧
      ∀ i, (State.decideHead q fuel s).record i = s.record i ∨ (State.decideHead q fuel s).record i = none := by
  induction fuel generalizing s with
  | zero => exact ⟨⟨[], rfl⟩, ⟨_, rfl⟩, fun _ => .inl rfl⟩
  | succ fuel ih =>
    unfold State.decideHead
    cases queue : s.sel.queue with
    | nil => exact ⟨⟨[], by simp [queue]⟩, ⟨_, rfl⟩, fun _ => .inl rfl⟩
    | cons place rest =>
      dsimp only
      split
      · exact ⟨⟨[], by simp [queue]⟩, ⟨_, rfl⟩, fun _ => .inl rfl⟩
      split
      · next why _ =>
        obtain ⟨⟨dropped, suffix⟩, ⟨queue', sel⟩, records⟩ := ih (s.dropHead why)
        have front := State.dropHead_queue why queue
        refine ⟨⟨place :: dropped, ?_⟩, ⟨queue', by rw [sel, front]⟩, fun i => ?_⟩
        · rw [front] at suffix
          rw [List.cons_append, ← suffix]
        · rcases records i with kept | gone
          · rw [kept, State.dropHead_record why queue]
            split
            · exact .inr rfl
            · exact .inl rfl
          · exact .inr gone
      · exact ⟨⟨[], by simp [queue]⟩, ⟨_, rfl⟩, fun _ => .inl rfl⟩

theorem State.headDecision_drops (s : State) :
    (∃ dropped, s.sel.queue = dropped ++ s.headDecision.sel.queue) ∧
      (∃ queue, s.headDecision.sel = { s.sel with queue := queue }) ∧
      ∀ i, s.headDecision.record i = s.record i ∨ s.headDecision.record i = none := by
  unfold State.headDecision
  split
  · exact State.decideHead_drops _ _ s
  · exact ⟨⟨[], rfl⟩, ⟨_, rfl⟩, fun _ => .inl rfl⟩

/-- With the gate closed no start is scheduled, and every group of the queue is dropped GATE_CLOSED. -/
theorem State.decideHead_closed {q : Time} {fuel : Nat} {s : State} (closed : s.tb.gateOpen = false) :
    (State.decideHead q fuel s).launch.scheduled = s.launch.scheduled ∧
      (s.sel.queue.length ≤ fuel → s.sel.queue.Nodup → (∀ i ∈ s.sel.queue, s.record i ≠ none) →
        (State.decideHead q fuel s).sel.queue = [] ∧ (∀ i ∈ s.sel.queue, (State.decideHead q fuel s).record i = none) ∧
        (State.decideHead q fuel s).launch.stats =
          { s.launch.stats with gateClosed := s.sel.queue.foldl (fun n _ => bump n) s.launch.stats.gateClosed }) := by
  induction fuel generalizing s with
  | zero =>
    refine ⟨rfl, fun short _ _ => ?_⟩
    have empty : s.sel.queue = [] := List.length_eq_zero_iff.mp (Nat.le_zero.mp short)
    exact ⟨empty, by simp [empty], by rw [empty]; rfl⟩
  | succ fuel ih =>
    unfold State.decideHead
    cases queue : s.sel.queue with
    | nil => exact ⟨rfl, fun _ _ _ => ⟨queue, by simp, rfl⟩⟩
    | cons place rest =>
      dsimp only
      cases record : s.record place with
      | none => exact ⟨rfl, fun _ _ present => absurd record (present place (by simp))⟩
      | some r =>
        simp only [closed, headOutcome_closed]
        obtain ⟨sel, -, launch, -⟩ := State.dropHead_spec .gateClosed queue record
        obtain ⟨scheduled, drops⟩ := ih (s := s.dropHead .gateClosed) (by simpa using closed)
        refine ⟨scheduled.trans (by rw [launch]), fun short nodup present => ?_⟩
        obtain ⟨notIn, nodup'⟩ := List.nodup_cons.mp nodup
        obtain ⟨empty, gone, stats⟩ := drops (by rw [sel]; simpa using short) (by rw [sel]; exact nodup')
          (by
            rw [sel]
            intro i mem
            rw [State.dropHead_record _ queue, if_neg (show ¬ i = place from fun same => notIn (same ▸ mem))]
            exact present i (List.mem_cons_of_mem _ mem))
        refine ⟨empty, fun i mem => ?_, ?_⟩
        · rcases List.mem_cons.mp mem with rfl | mem
          · obtain ⟨-, -, records⟩ := State.decideHead_drops q fuel (s.dropHead .gateClosed)
            rcases records i with kept | gone'
            · rw [kept, State.dropHead_record _ queue, if_pos rfl]
            · exact gone'
          · exact gone i (by rw [sel]; exact mem)
        · rw [stats, sel, launch]
          rfl

/-! ### A scheduled start (R72) -/

theorem State.exec_scheduledStart {s : State} {x : Scheduled} (run : s.part = .run) (noNull : s.launch.nullEnd = none)
    (scheduled : s.launch.scheduled = some x) (due : reached s.now x.start = true) :
    exec .scheduledStart s = .next (s.startHead x) := by
  refine congrArg Host.Outcome.next ((if_pos ?_).trans ?_)
  · simp [State.startDue, State.running, run, noNull, scheduled, due]
  · simp only [scheduled]

theorem LaunchStats.start_eq (t : LaunchStats) (x : Scheduled) :
    t.start x = if x.slipped then { t with slipped := bump t.slipped, largestSlip := max t.largestSlip x.slip }
      else { t with onTime := bump t.onTime } := rfl

/-- The least index whose packet starts at or after `k` ticks (R62, R69). -/
theorem resumeIndex_spec {pq : Nat} (positive : 0 < pq) (j k : Nat) :
    j ≤ resumeIndex pq j k ∧ k ≤ offset pq (resumeIndex pq j k) ∧
      ∀ i, j ≤ i → i < resumeIndex pq j k → offset pq i < k := by
  have least : ∀ i, k ≤ offset pq i ↔ (k * 65536 + (pq - 1)) / pq ≤ i := by
    intro i
    rw [offset, Nat.le_div_iff_mul_le (by decide), Nat.div_le_iff_le_mul_add_pred positive, Nat.mul_comm pq i]
    omega
  refine ⟨Nat.le_max_left _ _, (least _).mpr (Nat.le_max_right _ _), fun i from_ below => ?_⟩
  by_contra reached
  have := (least i).mp (by omega)
  unfold resumeIndex at below
  omega

/-- A withdrawn start leaves the null fill in its gap, or as it stood with no gap open (R69). -/
theorem State.withdrawStart_gap {s : State} {x : Scheduled} (scheduled : s.launch.scheduled = some x)
    (noNull : s.launch.nullEnd = none) :
    s.withdrawStart.launch.nullsStopped = (s.launch.nullsStopped && s.withdrawStart.launch.gap.isNone) ∧
      ∀ g j, s.launch.gap = some (g, j) →
        s.withdrawStart.launch.gap = some (g, resumeIndex s.launch.pq j (tdiff s.now g).toNat) := by
  have withdrawn : s.withdrawStart = (s.withLaunch { s.launch with scheduled := none }).resumeNulls := by
    simp only [State.withdrawStart, scheduled]
  have resumes : ∀ u : State, u.launch.nullEnd = none →
      u.resumeNulls.launch.nullsStopped = (u.launch.nullsStopped && u.resumeNulls.launch.gap.isNone) ∧
        ∀ g j, u.launch.gap = some (g, j) →
          u.resumeNulls.launch.gap = some (g, resumeIndex u.launch.pq j (tdiff u.now g).toNat) := by
    intro u noNull
    obtain ⟨-, -, -, nullEnd, -, -, pq⟩ := u.endGroup_launch
    have notDue : u.endGroup.nullEndDue = false := by simp only [State.nullEndDue, nullEnd, noNull]
    have now : u.endGroup.now = u.now := by simp [State.now]
    have still : ∀ g j, u.launch.gap = some (g, j) → u.endGroup = u := by
      intro g j gap
      unfold State.endGroup State.groupEndDue
      cases u.launch.lastEnd with
      | none => rfl
      | some e => simp [gap]
    have idle : u.endGroup.launch.gap = none → u.endGroup.launch.nullsStopped = u.launch.nullsStopped := by
      intro none
      unfold State.endGroup at none ⊢
      split
      · next e due => simp only [due] at none; exact absurd none nofun
      · rfl
    unfold State.resumeNulls
    simp only [notDue, Bool.false_eq_true, if_false]
    cases gap : u.endGroup.launch.gap with
    | none =>
      simp only [gap]
      refine ⟨by rw [idle gap]; simp, fun g j open_ => ?_⟩
      rw [still g j open_, open_] at gap
      exact absurd gap nofun
    | some x =>
      obtain ⟨g', j'⟩ := x
      dsimp only
      refine ⟨by simp, fun g j open_ => ?_⟩
      have same := still g j open_
      rw [same, open_] at gap
      obtain ⟨rfl, rfl⟩ := Prod.mk.inj (Option.some.inj gap)
      rw [same, noNull]
      rfl
  rw [withdrawn]
  exact resumes _ noNull

theorem State.withdrawStart_keeps (s : State) :
    s.withdrawStart.launch.lastEnd = s.launch.lastEnd ∧ s.withdrawStart.launch.stats = s.launch.stats := by
  unfold State.withdrawStart
  split
  · exact ⟨rfl, rfl⟩
  · simp

theorem State.headDecision_nil {s : State} (h : s.sel.queue = []) : s.headDecision = s := by
  unfold State.headDecision
  rw [h]
  split
  · rfl
  · rfl

/-- With the gate closed a head decision schedules nothing, and drops every group that waits (R71). -/
theorem State.headDecision_closed {s : State} (closed : s.tb.gateOpen = false) (noStart : s.launch.scheduled = none) :
    s.headDecision.launch.scheduled = none ∧
      (s.launch.emitting = none → s.sel.queue.Nodup → (∀ i ∈ s.sel.queue, s.record i ≠ none) →
        s.headDecision.sel.queue = [] ∧ (∀ i ∈ s.sel.queue, s.headDecision.record i = none) ∧
        s.headDecision.launch.stats =
          { s.launch.stats with gateClosed := s.sel.queue.foldl (fun n _ => bump n) s.launch.stats.gateClosed }) := by
  obtain ⟨scheduled, drops⟩ := State.decideHead_closed (q := s.earliestStart) (fuel := s.sel.queue.length) closed
  refine ⟨?_, fun emitting nodup present => ?_⟩
  · unfold State.headDecision
    split
    · exact scheduled.trans noStart
    · exact noStart
  · rw [State.headDecision, if_pos (by simp [emitting, noStart])]
    exact drops (Nat.le_refl _) nodup present

/-- Settles O30: the start with the gate open, and with the gate closed the drop, the withdrawal and the head decision. -/
theorem scheduledStartStartsOrDrops : Obligations.ScheduledStartStartsOrDrops := by
  intro s x place rest r run noNull scheduled due queue record
  rw [State.exec_scheduledStart run noNull scheduled due]
  refine ⟨fun open_ => ⟨_, rfl, ?_⟩, fun closed => ⟨_, rfl, ?_⟩⟩
  · have starts : s.startHead x = s.beginEmission x place r := by
      simp only [State.startHead, open_, if_true, queue, record]
    have lt := State.record_lt record
    rw [starts]
    refine ⟨by simp [State.beginEmission, queue], ?_, by simp [State.beginEmission, State.withRecord], ?_,
      by simp [State.beginEmission], by simp [State.beginEmission], by simp [State.beginEmission, State.spliceKept],
      by simp [State.beginEmission, State.siteKept], by simp [State.beginEmission, State.rulesKept],
      by simp [State.beginEmission], by simp [State.beginEmission]⟩
    · exact State.record_withRecord (s := s.withSel { s.sel with queue := s.sel.queue.tail }) _ lt
    · simp only [State.beginEmission, LaunchStats.start_eq]
      rfl
  · have starts : s.startHead x = (s.dropHead .gateClosed).withdrawStart.headDecision := by
      rw [State.startHead, if_neg (by rw [closed]; exact nofun)]
    rw [starts]
    obtain ⟨sel, store, launch, port⟩ := State.dropHead_spec .gateClosed queue record
    have freed := State.dropHead_record .gateClosed queue
    have frame := s.dropHead_frame .gateClosed
    generalize s.dropHead .gateClosed = u at *
    obtain ⟨tb, clip, lanes, splice, windows, mon, chg, lines, part, lock, draws, pending⟩ := frame
    have now : u.now = s.now := by simp only [State.now, tb]
    have scheduled' : u.launch.scheduled = some x := by rw [launch]; exact scheduled
    obtain ⟨stopped, gap⟩ := State.withdrawStart_gap scheduled' (by rw [launch]; exact noNull)
    obtain ⟨emitting, withdrawn⟩ := u.withdrawStart_launch
    obtain ⟨lastEnd, stats⟩ := u.withdrawStart_keeps
    have selV : u.withdrawStart.sel = { s.sel with queue := rest } := by simp [sel]
    have recordV : ∀ i, u.withdrawStart.record i = if i = place then none else s.record i := fun i =>
      (State.record_congr (by simp) i).trans (freed i)
    have portV : ∀ p, u.withdrawStart.port p = u.port p := fun p => by cases p <;> simp [State.port]
    have frameV := u.withdrawStart_frame
    generalize u.withdrawStart = v at *
    obtain ⟨decided, -⟩ := v.headDecision_launch
    obtain ⟨noStart, drops⟩ := State.headDecision_closed (s := v) (by simpa [frameV, tb] using closed) withdrawn
    obtain ⟨⟨dropped, suffix⟩, -, records⟩ := v.headDecision_drops
    rw [launch] at emitting lastEnd stats stopped gap
    refine ⟨by rw [decided]; exact emitting, noStart, ?_, by rw [decided]; exact lastEnd, by rw [decided]; exact stopped,
      fun g j open_ positive => ?_, ⟨dropped, by rw [selV] at suffix; exact suffix⟩, fun last => ?_,
      fun noEmission nodup present => ?_, ?_, ?_, ?_⟩
    · rcases records place with kept | gone
      · rw [kept, recordV, if_pos rfl]
      · exact gone
    · obtain ⟨least, enough, minimal⟩ := resumeIndex_spec positive j (tdiff s.now g).toNat
      refine ⟨resumeIndex s.launch.pq j (tdiff s.now g).toNat, ?_, least, enough, minimal⟩
      rw [decided, ← now]
      exact gap g j open_
    · rw [State.headDecision_nil (by rw [selV]; exact last)]
      refine ⟨by rw [selV, last], by simp [frameV, store], by rw [stats]; rfl, fun p => ?_⟩
      rw [portV, port]; rfl
    · obtain ⟨notIn, nodup'⟩ := List.nodup_cons.mp nodup
      obtain ⟨empty, gone, stats'⟩ := drops (emitting.trans noEmission) (by rw [selV]; exact nodup') (by
        rw [selV]
        intro i mem
        rw [recordV, if_neg (show ¬ i = place from fun same => notIn (same ▸ mem))]
        exact present i mem)
      rw [selV] at gone stats'
      exact ⟨empty, gone, by rw [stats', stats]; rfl⟩
    · simp [State.spliceKept, frameV, clip, lanes, splice, windows]
    · simp [State.siteKept, frameV, mon, chg, lines]
    · simp [State.rulesKept, frameV, tb, part, lock, pending]

/-! ### Null fill (R69) -/

/-- Settles O32: each event of the null fill by its condition. -/
theorem nullFill : Obligations.NullFill := by
  intro s g j run idle
  refine ⟨fun gap noNull going due => ?_, fun stop null ended gap => ?_, fun lastEnd gap ended => ?_⟩
  · have nullDue : s.nullDue = some (g, j) := by
      simp [State.nullDue, gap, State.running, run, idle, noNull, going, due]
    refine ⟨fun fits => ?_, fun x scheduled late => ?_⟩
    · have fits : s.launch.nullFits (tadd g (offset s.launch.pq (j + 1))) = true := by
        unfold Launch.nullFits
        split
        · rfl
        · next x scheduled => rw [fits x scheduled]; rfl
      refine congrArg Host.Outcome.next ?_
      simp only [nullDue, fits, if_true]
    · have fits : s.launch.nullFits (tadd g (offset s.launch.pq (j + 1))) = false := by
        simp only [Launch.nullFits, scheduled, late, Bool.not_true]
      refine congrArg Host.Outcome.next ?_
      simp only [nullDue, fits, Bool.false_eq_true, if_false]
  · refine congrArg Host.Outcome.next ((if_pos ?_).trans ?_)
    · simp only [State.nullEndDue, null, ended]
    · simp only [Launch.endNull, gap]
      rfl
  · have due : s.groupEndDue = some g := by
      simp [State.groupEndDue, lastEnd, State.running, run, idle, gap, ended]
    refine congrArg Host.Outcome.next ?_
    simp only [State.endGroup, due]
    rfl

/-! ### The feed mode (R50) -/

/-- What the selector's tests keep: a copy held afterwards was held before, and the mode and the preferred feed stay. -/
def State.sifted (s t : State) : Prop :=
  (∀ i r, t.record i = some r → r.held = true → s.record i = some r) ∧ t.sel.mode = s.sel.mode ∧
    t.sel.preferred = s.sel.preferred

theorem State.sifted.refl (s : State) : s.sifted s := ⟨fun _ _ record _ => record, rfl, rfl⟩

theorem State.sifted.trans {s t u : State} (h : s.sifted t) (k : t.sifted u) : s.sifted u := by
  obtain ⟨held, mode, preferred⟩ := h
  obtain ⟨held', mode', preferred'⟩ := k
  exact ⟨fun i r record isHeld => held i r (held' i r record isHeld) isHeld, mode'.trans mode, preferred'.trans preferred⟩

theorem State.sifted_of_store {s t : State} (store : t.store = s.store) (mode : t.sel.mode = s.sel.mode)
    (preferred : t.sel.preferred = s.sel.preferred) : s.sifted t :=
  ⟨fun i _ record _ => (State.record_congr store i).symm.trans record, mode, preferred⟩

theorem State.sifted.withSel {s u : State} (h : s.sifted u) {x : Selector} (mode : x.mode = u.sel.mode)
    (preferred : x.preferred = u.sel.preferred) : s.sifted (u.withSel x) :=
  h.trans (State.sifted_of_store rfl mode preferred)

theorem State.freeRecord_sifted (s : State) (place : Nat) : s.sifted (s.freeRecord place) := by
  refine ⟨fun i r record _ => ?_, by simp, by simp⟩
  rw [State.freeRecord_record] at record
  split at record
  · exact absurd record nofun
  · exact record

theorem State.headDecision_sifted (s : State) : s.sifted s.headDecision := by
  obtain ⟨-, ⟨queue, sel⟩, records⟩ := s.headDecision_drops
  refine ⟨fun i r record _ => ?_, by rw [sel], by rw [sel]⟩
  rcases records i with kept | gone
  · exact kept.symm.trans record
  · exact absurd (gone.symm.trans record) nofun

theorem State.foldl_sifted {α : Type} {g : State → α → State} (h : ∀ (u : State) a, u.sifted (g u a)) (l : List α) (s : State) :
    s.sifted (l.foldl g s) := by
  induction l generalizing s with
  | nil => exact .refl s
  | cons a l ih => exact (h s a).trans (ih (g s a))

theorem State.withRecord_sifted (s : State) (place : Nat) {r : GroupRecord} (notHeld : r.held = false) :
    s.sifted (s.withRecord place (some r)) := by
  refine ⟨fun i q record held => ?_, rfl, rfl⟩
  by_cases same : i = place
  · by_cases lt : place < s.store.table.length
    · rw [same, State.record_withRecord _ lt] at record
      obtain rfl := Option.some.inj record
      rw [notHeld] at held
      exact absurd held nofun
    · have still : s.withRecord place (some r) = s := by
        simp only [State.withRecord, List.set_eq_of_length_le (Nat.le_of_not_lt lt)]; rfl
      exact still ▸ record
  · rwa [State.record_withRecord_ne _ same] at record

theorem State.disposeOther_sifted (s : State) (f : FeedId) (n : Nat) : s.sifted (s.disposeOther f n) := by
  unfold State.disposeOther
  split
  · exact .refl s
  · exact (s.freeRecord_sifted _).withSel (by simp) (by simp)

theorem State.switchFeed_sifted (s : State) (f : FeedId) : s.sifted (s.switchFeed f) := by
  obtain ⟨sel, -⟩ := s.switchFeed_spec f
  exact State.sifted_of_store (by simp) (by rw [sel]) (by rw [sel])

theorem State.readCues_sifted (s : State) (r : GroupRecord) : s.sifted (s.readCues r) := by
  have sel : (s.readCues r).sel = _ := State.readCue_foldl_sel r.launched r.cells.zipIdx s
  exact State.sifted_of_store (by simp) (by rw [sel]) (by rw [sel])

theorem State.admitCopy_sifted (s : State) (k : AdmitCond) (e place : Nat) (r : GroupRecord) :
    s.sifted (s.admitCopy k e place r) := by
  have queued := (s.withRecord_sifted place (r := { r with phase := .queued }) rfl).withSel
    (x := { s.sel with queue := s.sel.queue ++ [place], counters := s.sel.counters.admitted k r.feed }) rfl rfl
  have handed := (queued.trans (State.disposeOther_sifted _ r.feed e)).trans
    ((State.switchFeed_sifted _ r.feed).trans (State.readCues_sifted _ r))
  exact (handed.withSel (by rfl) (by rfl)).trans (State.headDecision_sifted _)

theorem State.skip_sifted (s : State) (e : Nat) : s.sifted (s.skip e) := by
  have freed : ∀ (u : State) place, u.sifted (u.freeOutOfReach place) := fun u place =>
    (u.freeRecord_sifted place).withSel (by simp) (by simp)
  unfold State.skip
  refine (State.foldl_sifted freed (s.outOfReach e) s).trans ?_
  generalize (s.outOfReach e).foldl State.freeOutOfReach s = u
  dsimp only
  split
  · exact .refl u
  · exact State.sifted_of_store rfl rfl rfl

theorem State.testSelector_sifted (s : State) : s.sifted s.testSelector := by
  have tests : ∀ fuel (u : State), u.sifted (State.selectorTests fuel u) := by
    intro fuel
    induction fuel with
    | zero => exact fun u => .refl u
    | succ fuel ih =>
      intro u
      unfold State.selectorTests
      repeat' split
      · exact .refl u
      · exact (u.admitCopy_sifted _ _ _ _).trans (ih _)
      · exact (u.skip_sifted _).trans (ih _)
      · exact .refl u
  unfold State.testSelector
  split
  · exact tests _ s
  · exact .refl s

theorem State.freeByMode_foldl (places : List Nat) (s : State) :
    (∀ i, (places.foldl State.freeByMode s).record i = if i ∈ places then none else s.record i) ∧
      s.siteKept (places.foldl State.freeByMode s) ∧ s.rulesKept (places.foldl State.freeByMode s) := by
  induction places generalizing s with
  | nil => simp [State.siteKept, State.rulesKept]
  | cons place places ih =>
    obtain ⟨records, site, rules⟩ := ih (s.freeByMode place)
    rw [List.foldl_cons]
    refine ⟨fun i => ?_, by simpa [State.siteKept, State.freeByMode] using site,
      by simpa [State.rulesKept, State.freeByMode] using rules⟩
    have freed : (s.freeByMode place).record i = if i = place then none else s.record i := s.freeRecord_record place i
    rw [records, freed]
    by_cases mem : i ∈ places <;> by_cases same : i = place <;> simp [mem, same]

theorem State.freeByMode_sifted (s : State) (place : Nat) : s.sifted (s.freeByMode place) :=
  (s.freeRecord_sifted place).withSel (by simp) (by simp)

/-- A change of mode in RUN leaves no held copy on a newly excluded feed (R50). -/
theorem State.setFeedMode_spec (s : State) (mode : FeedMode) (preferred : FeedId) :
    let t := s.setFeedMode mode preferred
    t.sel.mode = mode ∧ t.sel.preferred = preferred ∧ s.siteKept t ∧ s.rulesKept t ∧
      (s.part = .run → ∀ i r, t.record i = some r → r.held = true → newlyExcluded s.sel.mode mode r.feed = false) := by
  unfold State.setFeedMode
  generalize stored : s.withSel { s.sel with mode := mode, preferred := preferred } = v
  have store : v.store = s.store := by rw [← stored]; rfl
  have sel : v.sel = { s.sel with mode := mode, preferred := preferred } := by rw [← stored]; rfl
  have part : v.part = s.part := by rw [← stored]; rfl
  have site : s.siteKept v := by rw [← stored]; exact ⟨rfl, rfl, rfl⟩
  have rules : s.rulesKept v := by rw [← stored]; exact ⟨rfl, rfl, rfl, rfl⟩
  dsimp only
  by_cases change : v.running = true ∧ mode ≠ s.sel.mode
  · rw [if_pos change]
    generalize places : (v.store.records.filter fun (_, r) => r.held && newlyExcluded s.sel.mode mode r.feed).map (·.1) = out
    obtain ⟨records, site', rules'⟩ := State.freeByMode_foldl out v
    obtain ⟨-, mode', preferred'⟩ := State.foldl_sifted State.freeByMode_sifted out v
    generalize out.foldl State.freeByMode v = u at *
    obtain ⟨held, mode'', preferred''⟩ := u.testSelector_sifted
    refine ⟨by rw [mode'', mode', sel], by rw [preferred'', preferred', sel], ?_, ?_, fun _ i r record isHeld => ?_⟩
    · simp only [State.siteKept] at site site' ⊢; simp [site, site']
    · simp only [State.rulesKept] at rules rules' ⊢; simp [rules, rules']
    · have freed := held i r record isHeld
      rw [records] at freed
      split at freed
      · exact absurd freed nofun
      · next kept =>
        by_contra excluded
        refine kept (places ▸ List.mem_map.mpr ⟨(i, r), List.mem_filter.mpr ⟨State.mem_records.mpr freed, ?_⟩, rfl⟩)
        simp only [isHeld, Bool.true_and]
        simpa using excluded
  · rw [if_neg change]
    refine ⟨by rw [sel], by rw [sel], site, rules, fun run i r _ _ => ?_⟩
    have same : mode = s.sel.mode := by
      by_contra other
      exact change ⟨by simp [State.running, part, run], other⟩
    simp [newlyExcluded, same]

theorem State.setFeedMode_stored {s : State} {mode : FeedMode} (preferred : FeedId)
    (h : s.part ≠ .run ∨ mode = s.sel.mode) :
    s.setFeedMode mode preferred = s.withSel { s.sel with mode := mode, preferred := preferred } := by
  unfold State.setFeedMode
  refine if_neg fun ⟨run, change⟩ => ?_
  rcases h with stopped | same
  · exact stopped (by simpa [State.running] using run)
  · exact change same

theorem feedModeOf_none {n : Nat} (h : 3 ≤ n) : feedModeOf n = none := by
  obtain ⟨k, rfl⟩ := Nat.exists_eq_add_of_le' h; rfl

theorem feedOf_none {n : Nat} (h : 2 ≤ n) : feedOf n = none := by
  obtain ⟨k, rfl⟩ := Nat.exists_eq_add_of_le' h; rfl

/-- Settles O28: the mode stored, and the copies of a newly excluded feed freed before the selector tests. -/
theorem feedModeIsStored : Obligations.FeedModeIsStored := by
  intro s p a b open_ permitted
  have free : (s.takes p [a, b]).lockedOut p = false := by simpa using State.permitted permitted
  have first : byteAt [a, b] 0 = a.toNat := rfl
  have second : byteAt [a, b] 1 = b.toNat := rfl
  refine ⟨fun mode preferred isMode isFeed => ?_, fun out => ?_⟩
  · have answered : exec (.setFeedMode p [a, b]) s =
        .next (((s.takes p [a, b]).setFeedMode mode preferred).respond p (.ok [])) := by
      refine next_answered open_ (by simp) rfl ?_
      simp only [free, Bool.false_eq_true, if_false, first, second, isMode, isFeed]
      rfl
    rw [answered]
    refine ⟨fun still => ?_, _, rfl, ?_⟩
    · rw [State.setFeedMode_stored preferred (by simpa using still)]
      simp
    · obtain ⟨mode', preferred', site, rules, excluded⟩ := (s.takes p [a, b]).setFeedMode_spec mode preferred
      refine ⟨by simpa using mode', by simpa using preferred', by simpa [State.siteKept] using site,
        by simpa [State.rulesKept] using rules, fun run i r record held => ?_⟩
      have := excluded (by simpa using run) i r ((State.record_congr (by simp) i).symm.trans record) held
      simpa using this
  · refine next_answered open_ (by simp) rfl ?_
    simp only [free, Bool.false_eq_true, if_false, first, second]
    rcases out with mode | feed
    · simp only [feedModeOf_none mode]
      rfl
    · simp only [feedOf_none feed]
      split <;> simp_all [refuse]

end Sys2Proof.Machine
end

