-- ==== Sys2Proof/Proofs/ClipCommands.lean ====
section
/-! Clip memory: the clip commands, the slots served for them, the reads of the lanes, play lists and slots. -/

namespace Sys2Proof.Machine

open Sys2Proof

-- One proof after the other: proofs that wait for each other hold a thread each.
set_option Elab.async false

/-! ### The clip commands (R84, R86) -/

theorem next_refused {s : State} {p : Port} {params : List Byte} {fits : Bool} {act : State → State × Option Reply}
    {why : ResultCode} (h : s.open_ p) (hl : params.length ≤ 3072) (hf : fits = true)
    (ha : act (s.takes p params) = refuse why (s.takes p params)) :
    (Host.Outcome.next (s.onCommand p params fits act) : Answer) = .next (s.answers p params (.no why)) :=
  next_answered h hl hf ha

theorem next_badLength {s : State} {p : Port} {params : List Byte} {fits : Bool} {act : State → State × Option Reply}
    (h : s.open_ p) (hf : 3072 < params.length ∨ fits = false) :
    (Host.Outcome.next (s.onCommand p params fits act) : Answer) = .next (s.answers p params (.no .badLength)) := by
  refine congrArg Host.Outcome.next ?_
  unfold State.onCommand
  refine State.onFrame_answered h (if_neg ?_)
  rcases hf with long | wrong
  · rw [decide_eq_false (show ¬ params.length ≤ maxParams by unfold maxParams; omega)]; exact nofun
  · rw [wrong, Bool.and_false]; exact nofun

theorem next_long {s t : State} {p : Port} {params : List Byte} {fits : Bool} {act : State → State × Option Reply}
    (h : s.open_ p) (hl : params.length ≤ 3072) (hf : fits = true) (ha : act (s.takes p params) = (t, none)) :
    (Host.Outcome.next (s.onCommand p params fits act) : Answer) = .next t :=
  congrArg Host.Outcome.next (State.onCommand_long h hl hf ha)

theorem clipRunFits_iff (first count : Nat) :
    clipRunFits first count = true ↔ 1 ≤ count ∧ count ≤ 16 ∧ first + count ≤ 2097152 := by
  rw [clipRunFits, Bool.and_eq_true, Bool.and_eq_true, decide_eq_true_eq, decide_eq_true_eq, decide_eq_true_eq, and_assoc]
  rfl

theorem clipRunFits_false {first count : Nat} (h : count = 0 ∨ 16 < count ∨ 2097152 < first + count) :
    clipRunFits first count = false := by
  rw [Bool.eq_false_iff, Ne, clipRunFits_iff]
  omega

theorem clipRunFits_true {first count : Nat} (low : 1 ≤ count) (high : count ≤ 16) (end_ : first + count ≤ 2097152) :
    ¬ (!clipRunFits first count) = true := by
  rw [(clipRunFits_iff _ _).mpr ⟨low, high, end_⟩]
  exact nofun

theorem synced_of {params : List Byte} (h : ∀ q ∈ packetsOf params, q.head? = some 0x47) :
    ¬ ((packetsOf params).any fun q => q.head? != some syncByte) = true := by
  rw [List.any_eq_true]
  rintro ⟨q, mem, other⟩
  rw [h q mem] at other
  exact absurd other (by decide)

theorem packetsFit_of {params : List Byte} (h : params.length = 4 + 188 * byteAt params 3) : packetsFit params = true := by
  rw [packetsFit, h, beq_self_eq_true, Bool.and_true]
  exact decide_eq_true (Nat.le_add_right _ _)

/-- Settles O33: the checks of both commands in their order. -/
theorem clipCommandsAreTaken : Obligations.ClipCommandsAreTaken := by
  intro s p open_
  refine ⟨fun params => ⟨fun other => ?_, fun length => ⟨fun out => ?_, fun low high end_ => ?_⟩⟩,
    fun params => ⟨fun other => ?_, fun length short => ⟨fun out => ?_, fun low high end_ => ⟨fun wrong => ?_,
      fun right => ⟨fun clear => ?_, fun meets => ?_⟩⟩⟩⟩⟩
  · exact next_badLength open_ (.inr (by simpa using other))
  · exact next_refused open_ (by omega) (by simpa using length) (if_pos (by rw [clipRunFits_false out]; rfl))
  · exact next_long open_ (by omega) (by simpa using length)
      (if_neg (by rw [(clipRunFits_iff _ _).mpr ⟨low, high, end_⟩]; exact nofun))
  · exact next_badLength open_ (other.symm.imp id fun wrong => by simp [packetsFit, wrong])
  all_goals have fits := packetsFit_of length
  · exact next_refused open_ short fits (if_pos (by rw [clipRunFits_false out]; rfl))
  · refine next_refused open_ short fits ((if_neg (clipRunFits_true low high end_)).trans (if_pos ?_))
    obtain ⟨q, mem, other⟩ := wrong
    exact List.any_eq_true.mpr ⟨q, mem, by simpa [syncByte] using other⟩
  · exact next_long open_ short fits ((if_neg (clipRunFits_true low high end_)).trans ((if_neg (synced_of right)).trans
      (if_neg (by simpa using clear))))
  · exact next_refused open_ short fits ((if_neg (clipRunFits_true low high end_)).trans ((if_neg (synced_of right)).trans
      (if_pos (by simpa using meets))))

/-! ### One slot served (R85, R86) -/

theorem State.clipAdvance_last {s : State} {p : Port} {c : ClipCommand} (packets : List Packet) (reply : Reply)
    (command : (s.port p).inProgress = some (.clip c)) (last : c.first + c.count ≤ c.next + 1) :
    s.clipAdvance p packets reply = s.complete p reply := by
  simp only [State.clipAdvance, PortState.clipCommand, command, if_pos last]

theorem State.clipAdvance_more {s : State} {p : Port} {c : ClipCommand} (packets : List Packet) (reply : Reply)
    (command : (s.port p).inProgress = some (.clip c)) (more : c.next + 1 < c.first + c.count) :
    s.clipAdvance p packets reply =
      s.withPort p { s.port p with inProgress := some (.clip { c with next := c.next + 1, packets := packets }) } := by
  simp only [State.clipAdvance, PortState.clipCommand, command, if_neg (show ¬ c.first + c.count ≤ c.next + 1 by omega)]

/-- The service of a slot moves the port's command and nothing else of the part. -/
theorem State.clipAdvance_keeps (s : State) (p : Port) (packets : List Packet) (reply : Reply) :
    let t := s.clipAdvance p packets reply
    t.clip = s.clip ∧ t.lanes = s.lanes ∧ t.port p.other = s.port p.other ∧ t.splice = s.splice ∧
      t.windows = s.windows ∧ s.intakeKept t ∧ s.siteKept t ∧ s.rulesKept t := by
  have withPort : ∀ x, let t := s.withPort p x
      t.clip = s.clip ∧ t.lanes = s.lanes ∧ t.port p.other = s.port p.other ∧ t.splice = s.splice ∧
        t.windows = s.windows ∧ s.intakeKept t ∧ s.siteKept t ∧ s.rulesKept t := fun x => by
    cases p <;> exact ⟨rfl, rfl, rfl, rfl, rfl, ⟨rfl, rfl, rfl, rfl, rfl⟩, ⟨rfl, rfl, rfl⟩, rfl, rfl, rfl, rfl⟩
  intro t
  have either : ∃ x, t = s.withPort p x := by
    show ∃ x, s.clipAdvance p packets reply = s.withPort p x
    unfold State.clipAdvance
    split
    · exact ⟨s.port p, by cases p <;> rfl⟩
    split
    · exact ⟨_, by rw [State.complete, State.respond, State.withPort_withPort]⟩
    · exact ⟨_, rfl⟩
  obtain ⟨x, same⟩ := either
  rw [same]
  exact withPort x

theorem State.arbitrate_memory (s : State) :
    (∀ a, s.arbitrate.clip.readSlot a = s.clip.readSlot a) ∧ s.arbitrate.clip.playLists = s.clip.playLists := by
  unfold State.arbitrate
  repeat' split
  all_goals exact ⟨fun _ => rfl, rfl⟩

theorem State.arbitrate_port (s : State) (p : Port) : s.arbitrate.port p = s.port p := by
  cases p <;> simp [State.port]

theorem State.complete_port (s : State) (p : Port) (r : Reply) :
    (s.complete p r).port p = { (s.port p).respond r with inProgress := none } := by
  cases p <;> rfl

/-- What is common to both kinds of slot: `u` is the state when the slot has been served. -/
theorem State.advanced_keeps {s u : State} (p : Port) (packets : List Packet) (reply : Reply) (c : Clip)
    (served : u = s.withClip c) :
    let t := (u.clipAdvance p packets reply).arbitrate
    (∀ a, t.clip.readSlot a = c.readSlot a) ∧ t.clip.playLists = c.playLists ∧
      t.port p = (u.clipAdvance p packets reply).port p ∧ t.lanes = s.lanes ∧ t.port p.other = s.port p.other ∧
      t.splice = s.splice ∧ t.windows = s.windows ∧ s.intakeKept t ∧ s.siteKept t ∧ s.rulesKept t := by
  subst served
  obtain ⟨clip, lanes, other, splice, windows, intake, site, rules⟩ := (s.withClip c).clipAdvance_keeps p packets reply
  obtain ⟨slots, lists⟩ := ((s.withClip c).clipAdvance p packets reply).arbitrate_memory
  generalize (s.withClip c).clipAdvance p packets reply = v at *
  refine ⟨fun a => by rw [slots, clip]; rfl, by rw [lists, clip]; rfl, v.arbitrate_port p, by simpa using lanes,
    (v.arbitrate_port p.other).trans (other.trans (by cases p <;> rfl)), by simpa using splice, by simpa using windows,
    by simpa [State.intakeKept] using intake, by simpa [State.siteKept] using site, by simpa [State.rulesKept] using rules⟩

theorem State.exec_clipWriteSlot {s : State} {p : Port} {slot : Nat} {packet : Packet} {c : ClipCommand}
    (service : s.clip.service = some (.write p slot packet false)) (command : (s.port p).inProgress = some (.clip c)) :
    exec (.clipWriteSlot p) s =
      .next (((s.withClip { s.clip.writeSlot slot packet with service := none }).clipAdvance p c.packets.tail
        (.ok [])).arbitrate) := by
  have rest : ((((s.withClip (s.clip.writeSlot slot packet)).endService.port p).clipCommand).map (·.packets.tail)).getD [] =
      c.packets.tail := by
    have same : (s.withClip (s.clip.writeSlot slot packet)).endService.port p = s.port p := by cases p <;> rfl
    rw [same, PortState.clipCommand, command]
    rfl
  refine congrArg Host.Outcome.next ?_
  simp only [service, if_true, rest]
  rfl

theorem State.exec_clipReadSlot {s : State} {p : Port} {slot : Nat} {c : ClipCommand}
    (service : s.clip.service = some (.read p slot false)) (command : (s.port p).inProgress = some (.clip c)) :
    let got := c.packets ++ [s.clip.readSlot slot]
    exec (.clipReadSlot p) s =
      .next (((s.withClip { s.clip with service := none }).clipAdvance p got
        (.ok (be 1 got.length ++ got.flatten))).arbitrate) := by
  have before : (((s.endService.port p).clipCommand).map (·.packets)).getD [] = c.packets := by
    have same : s.endService.port p = s.port p := by cases p <;> rfl
    rw [same, PortState.clipCommand, command]
    rfl
  refine congrArg Host.Outcome.next ?_
  simp only [service, if_true, before]
  rfl

/-- Settles O34: the slot served, then the command moved on or completed. -/
theorem clipSlotsAreServed : Obligations.ClipSlotsAreServed := by
  have same : ∀ (s : State) (p : Port) (x : Clip), (s.withClip x).port p = s.port p := fun s p x => by cases p <;> rfl
  refine ⟨fun s p slot packet c service command => ⟨_, State.exec_clipWriteSlot service command, ?_⟩,
    fun s p slot c service command => ⟨_, State.exec_clipReadSlot service command, ?_⟩⟩
  · obtain ⟨slots, lists, port, lanes, other, splice, windows, intake, site, rules⟩ :=
      State.advanced_keeps (s := s) p c.packets.tail (.ok []) { s.clip.writeSlot slot packet with service := none } rfl
    have command' := command
    rw [← same s p { s.clip.writeSlot slot packet with service := none }] at command'
    refine ⟨(slots slot).trans (Clip.readSlot_writeSlot s.clip slot packet), fun a h =>
      (slots a).trans (Clip.readSlot_writeSlot_other s.clip packet h), lists, fun last => ?_, fun more => ?_, lanes, other,
      splice, windows, intake, site, rules⟩
    · rw [port, State.clipAdvance_last _ _ command' last, State.complete_port, same]
      exact ⟨rfl, _, rfl, rfl, rfl, rfl⟩
    · rw [port, State.clipAdvance_more _ _ command' more, State.port_withPort, same]
      exact ⟨rfl, rfl⟩
  · obtain ⟨slots, lists, port, lanes, other, splice, windows, intake, site, rules⟩ :=
      State.advanced_keeps (s := s) p (c.packets ++ [s.clip.readSlot slot])
        (.ok (be 1 (c.packets ++ [s.clip.readSlot slot]).length ++ (c.packets ++ [s.clip.readSlot slot]).flatten))
        { s.clip with service := none } rfl
    have command' := command
    rw [← same s p { s.clip with service := none }] at command'
    refine ⟨slots, lists, fun last => ?_, fun more => ?_, lanes, other, splice, windows, intake, site, rules⟩
    · rw [port, State.clipAdvance_last _ _ command' last, State.complete_port]
      refine ⟨rfl, _, rfl, rfl, ?_⟩
      exact congrArg (be 1 · ++ (c.packets ++ [s.clip.readSlot slot]).flatten) (List.length_append ..)
    · rw [port, State.clipAdvance_more _ _ command' more, State.port_withPort]

/-! ### Lanes (R92, R93) -/

/-- Clip end at a lane, and EXHAUSTED at its break, when reading is finished and the queue is empty (R93, R106). -/
theorem State.settleClipEnd_spec {v : State} {i b : Nat} (lt : i < v.lanes.length) (bound : (v.lane i).state ≠ .free)
    (break_ : (v.lane i).break_ = some b) (index : b < v.splice.breaks.length) :
    let t := v.settleClipEnd i
    let ended := decide ((v.lane i).position = none ∧ (v.lane i).queue = [])
    t.lane i = { v.lane i with clipEnd := (v.lane i).clipEnd || ended } ∧
      t.brk b = { v.brk b with exhausted := (v.brk b).exhausted || (ended && !(v.lane i).clipEnd) } ∧
      (∀ j, j ≠ b → t.brk j = v.brk j) ∧ ∀ l, l ≠ i → t.lane l = v.lane l := by
  intro t ended
  by_cases now : ended = true ∧ (v.lane i).clipEnd = false
  · obtain ⟨isEnded, first⟩ := now
    obtain ⟨position, queue⟩ := of_decide_eq_true isEnded
    have settles : t = (v.withLane i { v.lane i with clipEnd := true }).withBreak b { v.brk b with exhausted := true } := by
      show v.settleClipEnd i = _
      simp only [State.settleClipEnd, position, queue, first, break_]
      simp [bound, State.brk]
    rw [settles, isEnded, first]
    refine ⟨?_, ?_, fun j other => ?_, fun l other => ?_⟩
    · exact (State.lane_withLane (s := v) { v.lane i with clipEnd := true } lt).trans (by simp)
    · exact (State.brk_withBreak _ (by simpa using index)).trans (by simp)
    · exact (State.brk_withBreak_ne _ other).trans (State.brk_congr (by simp) j)
    · exact State.lane_withLane_ne (s := v) { v.lane i with clipEnd := true } other
  · have still : t = v := by
      show v.settleClipEnd i = v
      refine if_neg fun settles => now ?_
      simp only [Bool.and_eq_true, bne_iff_ne, Option.isNone_iff_eq_none, List.isEmpty_iff, Bool.not_eq_true'] at settles
      obtain ⟨⟨⟨-, position⟩, queue⟩, first⟩ := settles
      exact ⟨decide_eq_true ⟨position, queue⟩, first⟩
    rw [still]
    cases isEnded : ended with
    | false => simp
    | true =>
      have past : (v.lane i).clipEnd = true := by
        by_contra first
        exact now ⟨isEnded, by simpa using first⟩
      simp [← past]

theorem State.settleClipEnd_lanes (v : State) {i : Nat} (lt : i < v.lanes.length) :
    (∃ ends, (v.settleClipEnd i).lane i = { v.lane i with clipEnd := ends }) ∧
      ∀ l, l ≠ i → (v.settleClipEnd i).lane l = v.lane l := by
  have set : ∀ u : State, u.lanes = (v.withLane i { v.lane i with clipEnd := true }).lanes →
      (∃ ends, u.lane i = { v.lane i with clipEnd := ends }) ∧ ∀ l, l ≠ i → u.lane l = v.lane l := fun u same =>
    ⟨⟨true, (State.lane_congr same i).trans (State.lane_withLane _ lt)⟩,
      fun l other => (State.lane_congr same l).trans (State.lane_withLane_ne _ other)⟩
  unfold State.settleClipEnd
  dsimp only
  split
  · split
    · exact set _ rfl
    · exact set _ rfl
  · exact ⟨⟨_, rfl⟩, fun _ _ => rfl⟩

theorem State.takePacket_spec {s : State} {lane i : Nat} (lt : lane < s.lanes.length) (bound : (s.lane lane).state ≠ .free)
    (break_ : (s.lane lane).break_ = some i) (index : i < s.splice.breaks.length) :
    let t := s.takePacket lane
    let ended := decide ((s.lane lane).position = none ∧ (s.lane lane).queue.tail = [])
    t.lane lane =
      { s.lane lane with
        queue := (s.lane lane).queue.tail, packetsTaken := (s.lane lane).packetsTaken + 1
        clipEnd := (s.lane lane).clipEnd || ended } ∧
    t.brk i = { s.brk i with exhausted := (s.brk i).exhausted || (ended && !(s.lane lane).clipEnd) } ∧
    (∀ j, j ≠ i → t.brk j = s.brk j) ∧ ∀ l, l ≠ lane → t.lane l = s.lane l := by
  have taken := State.lane_withLane (s := s) { s.lane lane with
    queue := (s.lane lane).queue.tail, packetsTaken := (s.lane lane).packetsTaken + 1 } lt
  have spec := State.settleClipEnd_spec (v := s.withLane lane { s.lane lane with
    queue := (s.lane lane).queue.tail, packetsTaken := (s.lane lane).packetsTaken + 1 }) (i := lane) (b := i)
    (by simpa [State.withLane] using lt) (by rw [taken]; exact bound) (by rw [taken]; exact break_) index
  rw [taken] at spec
  obtain ⟨own, brk, others, lanes⟩ := spec
  exact ⟨own, brk, others, fun l other => (lanes l other).trans (State.lane_withLane_ne _ other)⟩

/-- The segments a lane reads (R92). -/
def State.segments (s : State) (i : Nat) : List Segment :=
  match (s.lane i).playList with
  | some list => s.playList list
  | none => []

/-- What a read leaves of the lane's counts, queue and position (R92). -/
theorem Lane.readDone_spec (l : Lane) (segments : List Segment) (p : Packet) :
    let r := l.readDone segments p
    r.packetsRead = l.packetsRead + 1 ∧
      (p.head? = some 0x47 → r.queue = l.queue ++ [p] ∧ r.badSlots = l.badSlots) ∧
      (p.head? ≠ some 0x47 → r.queue = l.queue ∧ r.badSlots = l.badSlots + 1) ∧
      r.packetsTaken = l.packetsTaken ∧ r.state = l.state ∧ r.break_ = l.break_ ∧ r.clipEnd = l.clipEnd ∧
      ∀ seg pkt g, l.position = some (seg, pkt) → segments[seg]? = some g →
        r.position =
          if pkt + 1 < g.count then some (seg, pkt + 1)
          else if seg + 1 < segments.length then some (seg + 1, 0) else none := by
  intro r
  have moved : ∀ seg pkt g, l.position = some (seg, pkt) → segments[seg]? = some g →
      (match l.position with | some (seg, pkt) => nextPosition segments seg pkt | none => none) =
        if pkt + 1 < g.count then some (seg, pkt + 1)
        else if seg + 1 < segments.length then some (seg + 1, 0) else none := by
    intro seg pkt g position segment
    simp only [position, nextPosition, segment]
  by_cases sync : p.head? = some 0x47
  · have reads : r = _ := if_pos sync
    rw [reads]
    exact ⟨rfl, fun _ => ⟨rfl, rfl⟩, fun other => absurd sync other, rfl, rfl, rfl, rfl, moved⟩
  · have reads : r = _ := if_neg sync
    rw [reads]
    exact ⟨rfl, fun same => absurd same sync, fun _ => ⟨rfl, rfl⟩, rfl, rfl, rfl, rfl, moved⟩

/-- What a lane's read leaves of the part. -/
theorem State.laneRead_keeps (s : State) (x : Lane) (i : Nat) :
    let t := ((s.endService.withLane i x).settleClipEnd i).arbitrate
    (∀ a, t.clip.readSlot a = s.clip.readSlot a) ∧ t.clip.playLists = s.clip.playLists ∧ t.station = s.station ∧
      t.network = s.network ∧ t.windows = s.windows ∧ s.intakeKept t ∧ s.siteKept t ∧ s.rulesKept t := by
  obtain ⟨slots, lists⟩ := ((s.endService.withLane i x).settleClipEnd i).arbitrate_memory
  have clip : ((s.endService.withLane i x).settleClipEnd i).clip = { s.clip with service := none } := by
    simp [State.withLane]
  refine ⟨fun a => ?_, ?_, ?_⟩
  · rw [slots, clip]; rfl
  · rw [lists, clip]
  · simp [State.withLane, State.intakeKept, State.siteKept, State.rulesKept, State.endService]

/-- Settles O35: the read of a lane, one whose lane has been released, and the removal of a packet. -/
theorem laneReads : Obligations.LaneReads := by
  refine ⟨fun s lane slot lt => ⟨fun service => ?_, fun service => ?_⟩, fun s lane i lt bound break_ index =>
    State.takePacket_spec lt bound break_ index⟩
  · obtain ⟨read, good, bad, taken, state, break_, clipEnd, position⟩ :=
      (s.lane lane.val).readDone_spec (s.segments lane.val) (s.clip.readSlot slot)
    obtain ⟨slots, lists, station, network, windows, intake, site, rules⟩ :=
      s.laneRead_keeps ((s.lane lane.val).readDone (s.segments lane.val) (s.clip.readSlot slot)) lane.val
    have served : exec (.laneReadDone lane) s =
        .next (((s.endService.withLane lane.val ((s.lane lane.val).readDone (s.segments lane.val)
          (s.clip.readSlot slot))).settleClipEnd lane.val).arbitrate) := by
      refine congrArg Host.Outcome.next ?_
      simp only [service, if_true]
      rfl
    generalize (s.lane lane.val).readDone (s.segments lane.val) (s.clip.readSlot slot) = x at *
    have lt' : lane.val < (s.endService.withLane lane.val x).lanes.length := by simpa [State.withLane] using lt
    have put : (s.endService.withLane lane.val x).lane lane.val = x := State.lane_withLane x (by simpa using lt)
    obtain ⟨⟨ends, own⟩, others⟩ := (s.endService.withLane lane.val x).settleClipEnd_lanes lt'
    rw [put] at own
    have lanes : ∀ u : State, u.arbitrate.lane = u.lane := fun u => funext (State.lane_congr (by simp))
    refine ⟨_, served, ?_⟩
    rw [lanes, own]
    refine ⟨read, good, bad, taken, fun seg pkt list g at_ bound segment => ?_, fun i bound brk index => ?_,
      fun j other => (others j other).trans (State.lane_withLane_ne (s := s) x other), slots, lists, station, network, windows, intake, site,
      rules⟩
    · have segments : s.segments lane.val = s.playList list := by simp only [State.segments, bound]
      rw [segments] at position
      exact position seg pkt g at_ segment
    · obtain ⟨own', brk', rest, -⟩ := State.settleClipEnd_spec lt' (by rw [put, state]; exact bound)
        (by rw [put, break_]; exact brk) (by simpa [State.withLane] using index)
      rw [put, clipEnd] at brk'
      rw [put] at own'
      have same : ({ x with clipEnd := ends } : Lane) = _ := own.symm.trans own'
      rw [show ends = _ from congrArg Lane.clipEnd same, clipEnd]
      exact ⟨rfl, (State.brk_congr (by simp) i).trans brk', fun j other => (State.brk_congr (by simp) j).trans (rest j other)⟩
  · refine ⟨s.endService.arbitrate, ?_, by simp, by simp, by simp, by simp [State.intakeKept], by simp [State.siteKept],
      by simp [State.rulesKept, State.endService]⟩
    refine congrArg Host.Outcome.next ?_
    simp only [service, if_true]

end Sys2Proof.Machine
end

