-- ==== Sys2Proof/Proofs/SpliceCommands.lean ====
section
/-! The commands on play lists, slots and breaks: what they store and what they refuse. -/

namespace Sys2Proof.Machine

open Sys2Proof

-- One proof after the other: proofs that wait for each other hold a thread each.
set_option Elab.async false

/-! ### Play lists (R89, R90) -/

theorem segmentsFit_of {params : List Byte} (h : params.length = 2 + 5 * byteAt params 1) :
    segmentsFit params = true ∧ params.length ≤ 3072 := by
  have := byteAt_lt params 1
  refine ⟨?_, by omega⟩
  rw [segmentsFit, h, beq_self_eq_true, Bool.and_true]
  exact decide_eq_true (Nat.le_add_right _ _)

theorem segmentsOf_length (params : List Byte) : (segmentsOf params).length = byteAt params 1 := by simp [segmentsOf]

theorem Segment.valid_iff (g : Segment) :
    g.valid = true ↔ 1 ≤ g.count ∧ g.count ≤ 65535 ∧ g.first + g.count ≤ 2097152 := by
  simp only [Segment.valid, Bool.and_eq_true, decide_eq_true_eq, and_assoc]

/-- The values that PLAY LIST WRITE refuses (R89). -/
theorem listRefused_iff (params : List Byte) :
    (32 ≤ byteAt params 0 ∨ (segmentsOf params).length < 1 ∨ 16 < (segmentsOf params).length ∨
        ((segmentsOf params).all Segment.valid) = false) ↔
      (32 ≤ byteAt params 0 ∨ byteAt params 1 < 1 ∨ 16 < byteAt params 1 ∨
        ∃ g ∈ segmentsOf params, ¬ (1 ≤ g.count ∧ g.count ≤ 65535 ∧ g.first + g.count ≤ 2097152)) := by
  rw [segmentsOf_length, List.all_eq_false]
  simp only [Segment.valid_iff]

theorem playList_commands {s : State} {p : Port} (open_ : s.open_ p) :
    (∀ params : List Byte, params.length = 2 + 5 * byteAt params 1 → byteAt params 0 < 32 → 1 ≤ byteAt params 1 →
      byteAt params 1 ≤ 16 →
      (∀ g ∈ segmentsOf params, 1 ≤ g.count ∧ g.count ≤ 65535 ∧ g.first + g.count ≤ 2097152) →
      (s.listUser (byteAt params 0) = none →
        exec (.playListWrite p params) s =
          .next (((s.takes p params).withPlayList (byteAt params 0) (segmentsOf params)).respond p (.ok []))) ∧
      (s.listUser (byteAt params 0) ≠ none →
        exec (.playListWrite p params) s = .next (s.answers p params (.no .inUse)))) ∧
    (∀ params : List Byte, params.length = 2 + 5 * byteAt params 1 →
      (32 ≤ byteAt params 0 ∨ byteAt params 1 < 1 ∨ 16 < byteAt params 1 ∨
        ∃ g ∈ segmentsOf params, g.count < 1 ∨ 2097152 < g.first + g.count) →
      exec (.playListWrite p params) s = .next (s.answers p params (.no .badValue))) ∧
    (∀ b : Byte, 32 ≤ b.toNat → exec (.playListClear p [b]) s = .next (s.answers p [b] (.no .badValue))) ∧
    (∀ b : Byte, b.toNat < 32 →
      (s.listUser b.toNat = none →
        exec (.playListClear p [b]) s = .next (((s.takes p [b]).withPlayList b.toNat []).respond p (.ok []))) ∧
      (s.listUser b.toNat ≠ none →
        exec (.playListClear p [b]) s = .next (s.answers p [b] (.no .inUse)))) := by
  have user : ∀ params i, (s.takes p params).listUser i = s.listUser i := fun params i => by simp
  have byte : ∀ b : Byte, byteAt [b] 0 = b.toNat := fun _ => rfl
  refine ⟨fun params length list low high valid => ?_, fun params length out => ?_, fun b out => ?_, fun b small => ?_⟩
  · obtain ⟨fits, short⟩ := segmentsFit_of length
    have passes : ¬ (32 ≤ byteAt params 0 ∨ (segmentsOf params).length < 1 ∨ 16 < (segmentsOf params).length ∨
        ((segmentsOf params).all Segment.valid) = false) := by
      rw [listRefused_iff]
      rintro (h | h | h | ⟨g, mem, wrong⟩)
      · omega
      · omega
      · omega
      · exact wrong (valid g mem)
    refine ⟨fun free => next_answered open_ short fits ((if_neg passes).trans (if_neg ?_)),
      fun used => next_refused open_ short fits ((if_neg passes).trans (if_pos ?_))⟩
    · rw [user, free]; exact nofun
    · rw [user]; exact Option.isSome_iff_ne_none.mpr used
  · obtain ⟨fits, short⟩ := segmentsFit_of length
    refine next_refused open_ short fits (if_pos ((listRefused_iff params).mpr ?_))
    exact out.imp_right (.imp_right (.imp_right fun ⟨g, mem, wrong⟩ => ⟨g, mem, by omega⟩))
  · exact next_refused open_ (by simp) rfl (if_pos (by rw [byte]; exact out))
  · have index : ¬ 32 ≤ byteAt [b] 0 := by rw [byte]; omega
    refine ⟨fun free => next_answered open_ (by simp) rfl ((if_neg index).trans (if_neg ?_)),
      fun used => next_refused open_ (by simp) rfl ((if_neg index).trans (if_pos ?_))⟩
    · rw [user, byte, free]; exact nofun
    · rw [user, byte]; exact Option.isSome_iff_ne_none.mpr used

/-! ### Slots (R97, R98) -/

theorem slotPairs_length (params : List Byte) : (slotPairs params).length = byteAt params 1 := by simp [slotPairs]

theorem slotFits_of {params : List Byte} (h : params.length = 6 + 4 * byteAt params 1) :
    slotFits params = true ∧ params.length ≤ 3072 := by
  have := byteAt_lt params 1
  refine ⟨?_, by omega⟩
  rw [slotFits, h, beq_self_eq_true, Bool.and_true]
  exact decide_eq_true (by omega)

theorem noRepeats_iff (l : List Nat) : noRepeats l = true ↔ l.Nodup := by
  induction l with
  | nil => simp [noRepeats]
  | cons a l ih => simp [noRepeats, ih]

theorem Slot.entryOfNetwork_isSome (sl : Slot) (id : Nat) :
    (sl.entryOfNetwork id).isSome = true ↔ ∃ x ∈ sl.entries, x.network = id := by
  simp [Slot.entryOfNetwork]

theorem State.takenElsewhere_iff (s : State) (slot id : Nat) :
    s.takenElsewhere slot id = true ↔
      ∃ i, i < 8 ∧ i ≠ slot ∧ (s.slot i).defined = true ∧ ∃ x ∈ (s.slot i).entries, x.network = id := by
  simp only [State.takenElsewhere, List.any_eq_true, List.mem_range, Bool.and_eq_true, bne_iff_ne, ne_eq,
    Slot.entryOfNetwork_isSome, and_assoc]

theorem State.badSlot_iff (s : State) (slot : Nat) (pairs : List (Nat × Nat)) (clock : Option Nat) :
    s.badSlot slot pairs clock = true ↔
      8 ≤ slot ∨ pairs.length < 1 ∨ 4 < pairs.length ∨
        (∃ e ∈ pairs, 8190 < e.1 ∨ 8190 < e.2 ∨ e.1 = s.launch.pacingId ∨ e.1 = s.launch.cueId ∨
          s.takenElsewhere slot e.1 = true) ∨
        ¬ (pairs.map (·.1)).Nodup ∨ ¬ (pairs.map (·.2)).Nodup ∨ ∃ k, clock = some k ∧ pairs.length ≤ k := by
  rw [← noRepeats_iff, ← noRepeats_iff]
  cases clock with
  | none => simp [State.badSlot, or_assoc]
  | some k => simp [State.badSlot, or_assoc]

theorem field_one (bs : List Byte) (i : Nat) : field bs i 1 = byteAt bs i := by
  unfold field number byteAt
  rw [List.getD_eq_getElem?_getD]
  cases at_ : bs[i]? with
  | none =>
    have := List.getElem?_eq_none_iff.mp at_
    rw [List.drop_eq_nil_of_le this]
    rfl
  | some b =>
    obtain ⟨lt, value⟩ := List.getElem?_eq_some_iff.mp at_
    rw [List.drop_eq_getElem_cons lt, value]
    simp

theorem slot_commands {s : State} {p : Port} (open_ : s.open_ p) (permitted : s.paramLock = false ∨ p = .network) :
    (∀ (params : List Byte) (clock : Option Nat), params.length = 6 + 4 * byteAt params 1 → params.length ≤ 3072 →
      optionalOf params (2 + 4 * byteAt params 1) 1 = some clock →
      s.badSlot (byteAt params 0) (slotPairs params) clock = false →
      (s.slotInUse (byteAt params 0) = false →
        exec (.defineSlot p params) s =
          .next (((s.takes p params).withSlot (byteAt params 0)
            { defined := true
              entries := (slotPairs params).map fun (n, c) => ⟨n, c, (s.slot (byteAt params 0)).carryOf n⟩
              clock := clock
              guard := max 1 (min 3600 (field params (4 + 4 * byteAt params 1) 2))
              observation := { (s.slot (byteAt params 0)).observation with valid := false } }).respond p
            ⟨.ok, decide (field params (4 + 4 * byteAt params 1) 2 < 1 ∨
              3600 < field params (4 + 4 * byteAt params 1) 2), []⟩)) ∧
      (s.slotInUse (byteAt params 0) = true →
        exec (.defineSlot p params) s = .next (s.answers p params (.no .inUse)))) ∧
    (∀ params : List Byte, params.length = 6 + 4 * byteAt params 1 →
      (∀ clock, optionalOf params (2 + 4 * byteAt params 1) 1 = some clock →
        s.badSlot (byteAt params 0) (slotPairs params) clock = true) →
      exec (.defineSlot p params) s = .next (s.answers p params (.no .badValue))) ∧
    (∀ b : Byte, 8 ≤ b.toNat → exec (.clearSlot p [b]) s = .next (s.answers p [b] (.no .badValue))) ∧
    (∀ b : Byte, b.toNat < 8 →
      (s.slotInUse b.toNat = false →
        exec (.clearSlot p [b]) s = .next (((s.takes p [b]).withSlot b.toNat .reset).respond p (.ok []))) ∧
      (s.slotInUse b.toNat = true → exec (.clearSlot p [b]) s = .next (s.answers p [b] (.no .inUse)))) := by
  have free : ∀ params, ¬ (s.takes p params).lockedOut p = true := fun params => by
    simpa using State.permitted permitted
  have bad : ∀ params i j k, (s.takes p params).badSlot i j k = s.badSlot i j k := fun params i j k => by simp
  have used : ∀ params i, (s.takes p params).slotInUse i = s.slotInUse i := fun params i => by simp
  have slot : ∀ params i, (s.takes p params).slot i = s.slot i := fun params i => by simp
  have byte : ∀ b : Byte, byteAt [b] 0 = b.toNat := fun _ => rfl
  have guard : ∀ v, clampTo 1 3600 v = (max 1 (min 3600 v), decide (v < 1 ∨ 3600 < v)) := fun v => clampTo_eq v (by decide)
  refine ⟨fun params clock length short optional good => ?_, fun params length out => ?_, fun b out => ?_, fun b small => ?_⟩
  · have fits : ¬ (!slotFits params) = true := by rw [(slotFits_of length).1]; exact nofun
    have offset : 2 + 4 * byteAt params 1 + 2 = 4 + 4 * byteAt params 1 := by omega
    refine ⟨fun unused => next_answered open_ short rfl ((if_neg (free params)).trans ((if_neg fits).trans ?_)),
      fun inUse => next_refused open_ short rfl ((if_neg (free params)).trans ((if_neg fits).trans ?_))⟩
    · simp only [slotPairs_length, optional, bad, good, used, unused, Bool.false_eq_true, if_false, slot, guard, offset]
      rfl
    · simp only [slotPairs_length, optional, bad, good, used, inUse, Bool.false_eq_true, if_false, if_true]
  · obtain ⟨fits, short⟩ := slotFits_of length
    refine next_refused open_ short rfl ((if_neg (free params)).trans ((if_neg (by rw [fits]; exact nofun)).trans ?_))
    simp only [slotPairs_length]
    split
    · rfl
    · next clock optional => rw [bad, out clock optional]; rfl
  · exact next_refused open_ (by simp) rfl ((if_neg (free [b])).trans (if_pos (by rw [byte]; exact out)))
  · have index : ¬ 8 ≤ byteAt [b] 0 := by rw [byte]; omega
    refine ⟨fun unused => next_answered open_ (by simp) rfl ((if_neg (free [b])).trans ((if_neg index).trans (if_neg ?_))),
      fun inUse => next_refused open_ (by simp) rfl ((if_neg (free [b])).trans ((if_neg index).trans (if_pos ?_)))⟩
    · rw [used, byte, unused]; exact nofun
    · rw [used, byte]; exact inUse

/-- Settles O36: what each of the four commands stores, and the values that it refuses. -/
theorem playListAndSlotCommands : Obligations.PlayListAndSlotCommands := by
  refine ⟨fun s p open_ => playList_commands open_, fun s p open_ permitted => ?_⟩
  obtain ⟨defines, refuses, range, clears⟩ := slot_commands open_ permitted
  refine ⟨defines, fun params length out => refuses params length fun k optional => ?_, range, clears⟩
  have count := slotPairs_length params
  rw [State.badSlot_iff]
  rcases out with slot | few | many | presence | ⟨present, beyond⟩ | networks | clips | ⟨e, mem, wrong⟩
  · exact .inl slot
  · exact .inr (.inl (by omega))
  · exact .inr (.inr (.inl (by omega)))
  · rw [optionalOf, flagOf_large presence] at optional
    exact absurd optional nofun
  · rw [optionalOf, present] at optional
    obtain rfl := Option.some.inj optional
    refine .inr (.inr (.inr (.inr (.inr (.inr ⟨_, rfl, ?_⟩)))))
    rw [field_one]
    exact count ▸ beyond
  · exact .inr (.inr (.inr (.inr (.inl networks))))
  · exact .inr (.inr (.inr (.inr (.inr (.inl clips)))))
  · refine .inr (.inr (.inr (.inl ⟨e, mem, ?_⟩)))
    rw [State.takenElsewhere_iff]
    exact wrong

/-! ### The checks before a command on a break (R101) -/

section
variable {s : State} {p : Port} {params : List Byte} {i : Nat} {rule : Ownership} {act : State → State × Option Reply}

theorem State.onBreak_passes (small : i < 32) (used : (s.brk i).state ≠ .free)
    (allowed : rule.allows p (s.brk i).owner = true) :
    (s.takes p params).onBreak p i rule act = act (s.takes p params) := by
  have same : (s.takes p params).brk i = s.brk i := by simp
  rw [State.onBreak, if_neg (by omega), same, if_neg used, allowed]
  rfl

theorem State.onBreak_range (out : 32 ≤ i) :
    (s.takes p params).onBreak p i rule act = refuse .badValue (s.takes p params) := if_pos out

theorem State.onBreak_free (small : i < 32) (free : (s.brk i).state = .free) :
    (s.takes p params).onBreak p i rule act = refuse .wrongState (s.takes p params) := by
  have same : (s.takes p params).brk i = s.brk i := by simp
  rw [State.onBreak, if_neg (by omega), same, if_pos free]

theorem State.onBreak_notOwner (small : i < 32) (used : (s.brk i).state ≠ .free)
    (foreign : rule.allows p (s.brk i).owner = false) :
    (s.takes p params).onBreak p i rule act = refuse .notOwner (s.takes p params) := by
  have same : (s.takes p params).brk i = s.brk i := by simp
  rw [State.onBreak, if_neg (by omega), same, if_neg used, foreign]
  rfl
end

theorem Ownership.owner_allows {p owner : Port} (h : owner = p) : Ownership.owner.allows p owner = true := by
  simp [Ownership.allows, h]

/-! ### The fields of a break (R100) -/

theorem breakOf_some {ps : List Byte} {b : BreakFields} (h : breakOf ps = some b) :
    byteAt ps 0 < 8 ∧ byteAt ps 1 < 32 ∧ ∃ n, triggerSize (byteAt ps 2) = some n ∧ (triggerOf ps).isSome = true ∧
      (breakTail ps (3 + n)).isSome = true := by
  unfold breakOf at h
  split at h
  · next n trigger size kind =>
    split at h
    · next tail =>
      split at h
      · next range => exact ⟨range.1, range.2, n, size, by rw [kind]; rfl, by rw [tail]; rfl⟩
      · exact absurd h nofun
    · exact absurd h nofun
  · exact absurd h nofun

theorem exhaustOf_none {n : Nat} (h : 2 ≤ n) : exhaustOf n = none := by
  obtain ⟨k, rfl⟩ := Nat.exists_eq_add_of_le' h; rfl

theorem polarityOf_none {n : Nat} (h : 2 ≤ n) : polarityOf n = none := by
  obtain ⟨k, rfl⟩ := Nat.exists_eq_add_of_le' h; rfl

theorem breakTail_some {ps : List Byte} {o : Nat} (h : (breakTail ps o).isSome = true) :
    field ps o 4 ≤ 100000000 ∧ byteAt ps (o + 4) ≤ 1 ∧ byteAt ps (o + 10) ≤ 1 ∧
      (byteAt ps (o + 4) = 1 → 1 ≤ field ps (o + 5) 5 ∧ field ps (o + 5) 5 ≤ 36000000000) := by
  unfold breakTail at h
  split at h
  · next length exhaust optional action =>
    have fits : field ps o 4 ≤ 100000000 ∧ ∀ n, length = some n → 1 ≤ n ∧ n ≤ 36000000000 := by
      cases length with
      | none => simpa using h
      | some n => simpa using h
    refine ⟨fits.1, ?_, ?_, fun present => ?_⟩
    · by_contra large
      rw [optionalOf, flagOf_large (by omega)] at optional
      exact absurd optional nofun
    · by_contra large
      rw [exhaustOf_none (by omega)] at action
      exact absurd action nofun
    · rw [optionalOf, present] at optional
      exact fits.2 _ (Option.some.inj optional).symm
  · exact absurd h nofun

theorem triggerOf_some {ps : List Byte} (h : (triggerOf ps).isSome = true) :
    byteAt ps 2 ≤ 3 ∧ (byteAt ps 2 = 1 → field ps 7 4 ≤ 9999999) ∧
      (byteAt ps 2 = 2 → byteAt ps 3 < 12 ∧ byteAt ps 4 ≤ 1) := by
  unfold triggerOf at h
  match kind : byteAt ps 2, h with
  | 0, _ => omega
  | 1, h =>
    refine ⟨by omega, fun _ => ?_, by omega⟩
    by_contra late
    rw [if_neg (by simpa [tickFits] using late)] at h
    exact absurd h nofun
  | 2, h =>
    refine ⟨by omega, by omega, fun _ => ?_⟩
    by_cases line : byteAt ps 3 < 12
    · refine ⟨line, ?_⟩
      by_contra large
      simp only [if_pos line, polarityOf_none (show 2 ≤ byteAt ps 4 by omega)] at h
      exact absurd h nofun
    · rw [if_neg line] at h
      exact absurd h nofun
  | 3, _ => omega
  | n + 4, h => exact absurd h nofun

/-- Values out of their ranges name no break (R100, step 2). -/
theorem breakOf_none {ps : List Byte}
    (h : 8 ≤ byteAt ps 0 ∨ 32 ≤ byteAt ps 1 ∨ 3 < byteAt ps 2 ∨ (byteAt ps 2 = 1 ∧ 9999999 < field ps 7 4) ∨
      (byteAt ps 2 = 2 ∧ (12 ≤ byteAt ps 3 ∨ 1 < byteAt ps 4)) ∨
      ∃ n, triggerSize (byteAt ps 2) = some n ∧
        (100000000 < field ps (3 + n) 4 ∨ 1 < byteAt ps (7 + n) ∨
          (byteAt ps (7 + n) = 1 ∧ (field ps (8 + n) 5 < 1 ∨ 36000000000 < field ps (8 + n) 5)) ∨
          1 < byteAt ps (13 + n))) :
    breakOf ps = none := by
  cases fields : breakOf ps with
  | none => rfl
  | some b =>
    obtain ⟨slot, list, n, size, trigger, tail⟩ := breakOf_some fields
    obtain ⟨kind, tick, line⟩ := triggerOf_some trigger
    obtain ⟨lead, presence, choice, length⟩ := breakTail_some tail
    rw [show 3 + n + 4 = 7 + n by omega] at presence length
    rw [show 3 + n + 10 = 13 + n by omega] at choice
    rw [show 3 + n + 5 = 8 + n by omega] at length
    exfalso
    rcases h with h | h | h | ⟨one, h⟩ | ⟨two, h⟩ | ⟨m, same, h⟩
    · omega
    · omega
    · omega
    · exact absurd (tick one) (by omega)
    · have := line two; omega
    · obtain rfl := Option.some.inj (size.symm.trans same)
      rcases h with h | h | ⟨present, h⟩ | h
      · omega
      · omega
      · have := length present; omega
      · omega

section
variable {s : State} {p : Port} {params : List Byte} (open_ : s.open_ p)
include open_

theorem exec_modifyBreak {i : Byte} (short : params.length ≤ 3071) (small : i.toNat < 32)
    (used : (s.brk i.toNat).state ≠ .free) (own : (s.brk i.toNat).owner = p) (fits : breakFits params = true) :
    exec (.modifyBreak p (i :: params)) s =
      match breakOf params with
      | none => .next (s.answers p (i :: params) (.no .badValue))
      | some b =>
        if (s.brk i.toNat).state = .loaded ∧ (s.slot b.slot).defined = true then
          .next (((s.takes p (i :: params)).withBreak i.toNat ((s.brk i.toNat).modified b)).respond p (.ok []))
        else .next (s.answers p (i :: params) (.no .wrongState)) := by
  have brk : (s.takes p (i :: params)).brk i.toNat = s.brk i.toNat := by simp
  have slot : ∀ k, (s.takes p (i :: params)).slot k = s.slot k := fun k => by simp
  have passes : ∀ act, (s.takes p (i :: params)).onBreak p i.toNat .owner act = act (s.takes p (i :: params)) := fun act =>
    State.onBreak_passes small used (Ownership.owner_allows own)
  have long : (i :: params).length ≤ 3072 := by simp only [List.length_cons]; omega
  have acts : ¬ (!breakFits (i :: params).tail) = true := by rw [List.tail_cons, fits]; exact nofun
  cases fields : breakOf params with
  | none =>
    refine next_refused open_ long rfl ((passes _).trans ((if_neg acts).trans ?_))
    simp only [List.tail_cons, fields]
  | some b =>
    dsimp only
    split
    · next ready =>
      refine next_answered open_ long rfl ((passes _).trans ((if_neg acts).trans ?_))
      simp only [List.tail_cons, fields]
      refine (if_neg ?_).trans ?_
      · rw [show byteAt (i :: params) 0 = i.toNat from rfl, brk, slot, ready.2]
        simp [ready.1]
      · rw [show byteAt (i :: params) 0 = i.toNat from rfl, brk]; rfl
    · next notReady =>
      refine next_refused open_ long rfl ((passes _).trans ((if_neg acts).trans ?_))
      simp only [List.tail_cons, fields]
      refine if_pos ?_
      rw [show byteAt (i :: params) 0 = i.toNat from rfl, brk, slot]
      rcases Decidable.not_and_iff_or_not.mp notReady with h | h
      · exact .inl h
      · exact .inr (by simpa using h)
end

/-- Settles O37: the two commands by the length, the values, the slot and the table. -/
theorem breaksAreMade : Obligations.BreaksAreMade := by
  refine ⟨fun s p params b open_ short fits fields => ?_, fun s p params open_ fits => ?_,
    fun s p params open_ short fits out => ?_⟩
  · have slot : (s.takes p params).slot b.slot = s.slot b.slot := by simp
    have freeBreak : (s.takes p params).freeBreak = s.freeBreak := by simp
    have modify := fun (i : Byte) (small : i.toNat < 32) (loaded : (s.brk i.toNat).state = .loaded) own =>
      exec_modifyBreak (i := i) open_ short small (by rw [loaded]; exact nofun) own fits
    simp only [fields] at modify
    refine ⟨fun undefined => ⟨?_, fun i small loaded own => ?_⟩, fun defined => ⟨fun full => ?_, fun i free => ?_,
      fun i small loaded own => ?_⟩⟩
    · refine next_refused open_ (by omega) fits ?_
      simp only [fields, slot, undefined, Bool.not_false, if_true]
    · rw [modify i small loaded own, if_neg (by simp [undefined])]
    · refine next_refused open_ (by omega) fits ?_
      simp only [fields, slot, defined, Bool.not_true, Bool.false_eq_true, if_false, freeBreak, full]
    · refine next_answered open_ (by omega) fits ?_
      simp only [fields, slot, defined, Bool.not_true, Bool.false_eq_true, if_false, freeBreak, free]
      rfl
    · rw [modify i small loaded own, if_pos ⟨loaded, defined⟩]
      rfl
  · refine ⟨next_badLength open_ (.inr fits), next_badLength open_ (.inr rfl), fun i small used own => ?_⟩
    by_cases long : 3072 < (i :: params).length
    · exact next_badLength open_ (.inl long)
    · refine next_refused open_ (by omega) rfl ((State.onBreak_passes small used (Ownership.owner_allows own)).trans (if_pos ?_))
      rw [List.tail_cons, fits]
      rfl
  · have none := breakOf_none out
    refine ⟨next_refused open_ (by omega) fits (by simp only [none]), fun i small used own => ?_⟩
    rw [exec_modifyBreak open_ short small used own fits]
    simp only [none]

end Sys2Proof.Machine
end

