-- ==== Sys2Proof/Proofs/Breaks.lean ====
section
/-! Breaks: what a trigger leaves, the commands that move a break between its states, cues, and the expiry. -/

namespace Sys2Proof.Machine

open Sys2Proof

-- One proof after the other: proofs that wait for each other hold a thread each.
set_option Elab.async false

/-! ### A trigger fires (R108) -/

/-- A check that fails ends the break, which holds no lane. -/
theorem State.triggered_ended {s : State} {i : Nat} {x : Time} {duration : Option Nat} {c : EndCause}
    (index : i < s.splice.breaks.length) (unbound : (s.brk i).lane = none) (check : s.failedCheck i x duration = some c)
    (notNoAir : c ≠ .noAir) (notBlocked : c ≠ .blocked) : s.triggered (s.endBreak i c s.now) i x duration := by
  obtain ⟨others, slots, intake, mon, chg, rules, own, lanes, windows, ports⟩ := State.endBreak_unbound c index unbound
  refine ⟨others, slots, intake, mon, chg, rules, fun c' check' => ?_, fun passes => ?_⟩
  · obtain rfl := Option.some.inj (check.symm.trans check')
    exact ⟨by rw [own, if_neg notNoAir], lanes, ports, fun _ => windows, fun w blocked => absurd blocked notBlocked⟩
  · exact absurd (check.symm.trans passes) nofun

/-- A blocking window ends the break and counts it. -/
theorem State.triggered_blocked {s : State} {i w : Nat} {x : Time} {duration : Option Nat}
    (index : i < s.splice.breaks.length) (unbound : (s.brk i).lane = none)
    (check : s.failedCheck i x duration = some .blocked) (blocks : s.blockingWindow (s.brk i).slot x = some w) :
    s.triggered (s.blockBreak w i) i x duration := by
  obtain ⟨others, slots, intake, mon, chg, rules, own, lanes, windows, ports⟩ :=
    State.endBreak_unbound (s := s.withWindow w { s.window w with blocked := bump16 (s.window w).blocked }) .blocked index
      unbound
  refine ⟨others, slots, intake, mon, chg, rules, fun c' check' => ?_, fun passes => ?_⟩
  · obtain rfl := Option.some.inj (check.symm.trans check')
    refine ⟨own, lanes, fun q => ?_, fun notBlocked => absurd rfl notBlocked, fun w' _ same => ?_⟩
    · exact (ports q).trans (by cases q <;> rfl)
    · obtain rfl := Option.some.inj (blocks.symm.trans same)
      exact windows
  · exact absurd (check.symm.trans passes) nofun

/-- A Y that is not later than X ends the break with its Y. -/
theorem State.triggered_noAir {s : State} {i : Nat} {x : Time} {duration : Option Nat}
    (index : i < s.splice.breaks.length) (unbound : (s.brk i).lane = none)
    (check : s.failedCheck i x duration = some .noAir) :
    s.triggered ((s.withBreak i { s.brk i with
      y := (duration.or (s.brk i).length).map fun n => (tadd x n, .length) }).endBreak i .noAir s.now) i x duration := by
  have put := State.brk_withBreak { s.brk i with y := (duration.or (s.brk i).length).map fun n => (tadd x n, .length) } index
  obtain ⟨others, slots, intake, mon, chg, rules, own, lanes, windows, ports⟩ :=
    State.endBreak_unbound (s := s.withBreak i { s.brk i with
      y := (duration.or (s.brk i).length).map fun n => (tadd x n, .length) }) (i := i) .noAir
      (by simpa [State.withBreak] using index) (by rw [put]; exact unbound)
  refine ⟨fun j other => (others j other).trans (State.brk_withBreak_ne _ other), slots, intake, mon, chg, rules,
    fun c' check' => ?_, fun passes => ?_⟩
  · obtain rfl := Option.some.inj (check.symm.trans check')
    refine ⟨own.trans (by rw [put, if_pos rfl]; rfl), lanes, fun q => (ports q).trans (by cases q <;> rfl), fun _ => windows,
      fun w blocked => absurd blocked nofun⟩
  · exact absurd (check.symm.trans passes) nofun

/-- A trigger that passes its checks but that of its length (R108). -/
theorem State.fire_checked {s : State} {i lane : Nat} {x : Time} {duration : Option Nat}
    (list : ¬ (s.playList (s.brk i).playList).isEmpty = true) (blocks : s.blockingWindow (s.brk i).slot x = none)
    (busy : ¬ (s.liveBreak (s.brk i).slot).isSome = true) (free : s.freeLane = some lane)
    (onTime : ¬ (ticksPerSecond : Int) < tdiff s.now x) :
    s.fire i x duration =
      if (match ((duration.or (s.brk i).length).map fun n => (tadd x n, YSource.length)) with
        | some (at_, _) => !later at_ x | none => false) then
        (s.withBreak i { s.brk i with
          y := (duration.or (s.brk i).length).map fun n => (tadd x n, .length) }).endBreak i .noAir s.now
      else
        ((s.claimLane lane i (s.brk i).playList).withBreak i
          { (s.claimLane lane i (s.brk i).playList).brk i with
            state := .cued, x := some x, lane := some lane
            y := (duration.or (s.brk i).length).map fun n => (tadd x n, .length) }).raise .breakCued i lane := by
  have length : (match duration with | some d => some d | none => (s.brk i).length) = duration.or (s.brk i).length := by
    cases duration <;> rfl
  unfold State.fire
  dsimp only
  rw [if_neg list, ← length]
  simp only [blocks, if_neg busy, free, if_neg onTime] <;> rfl

/-- A trigger ends the break with the cause of the first check that fails, or makes it CUED (R108). -/
theorem State.fire_triggered {s : State} {i : Nat} (x : Time) (duration : Option Nat)
    (index : i < s.splice.breaks.length) (unbound : (s.brk i).lane = none) :
    s.triggered (s.fire i x duration) i x duration := by
  by_cases list : s.playList (s.brk i).playList = []
  · have fires : s.fire i x duration = s.endBreak i .listEmpty s.now := if_pos (List.isEmpty_iff.mpr list)
    rw [fires]
    exact State.triggered_ended index unbound (if_pos list) nofun nofun
  have list' : ¬ (s.playList (s.brk i).playList).isEmpty = true := by rwa [List.isEmpty_iff]
  cases blocks : s.blockingWindow (s.brk i).slot x with
  | some w =>
    have fires : s.fire i x duration = s.blockBreak w i := by
      unfold State.fire
      dsimp only
      rw [if_neg list']
      simp only [blocks]
    rw [fires]
    refine State.triggered_blocked index unbound ?_ blocks
    simp only [State.failedCheck, if_neg list, blocks]
    rfl
  | none =>
  by_cases busy : (s.liveBreak (s.brk i).slot).isSome = true
  · have fires : s.fire i x duration = s.endBreak i .slotBusy s.now := by
      unfold State.fire
      dsimp only
      rw [if_neg list']
      simp only [blocks, if_pos busy]
    rw [fires]
    refine State.triggered_ended index unbound ?_ nofun nofun
    simp only [State.failedCheck, if_neg list, blocks, if_pos busy]
    rfl
  cases free : s.freeLane with
  | none =>
    have fires : s.fire i x duration = s.endBreak i .noLane s.now := by
      unfold State.fire
      dsimp only
      rw [if_neg list']
      simp only [blocks, if_neg busy, free]
    rw [fires]
    refine State.triggered_ended index unbound ?_ nofun nofun
    simp only [State.failedCheck, if_neg list, blocks, if_neg busy, free]
    rfl
  | some lane =>
  by_cases late : (ticksPerSecond : Int) < tdiff s.now x
  · have fires : s.fire i x duration = s.endBreak i .missed s.now := by
      unfold State.fire
      dsimp only
      rw [if_neg list']
      simp only [blocks, if_neg busy, free, if_pos late]
    rw [fires]
    refine State.triggered_ended index unbound ?_ nofun nofun
    simp only [State.failedCheck, if_neg list, blocks, if_neg busy, free]
    exact (if_neg Bool.false_ne_true).trans ((if_neg (Option.some_ne_none lane)).trans (if_pos late))
  have checked : s.failedCheck i x duration =
      match duration.or (s.brk i).length with
      | some n => if later (tadd x n) x then none else some .noAir
      | none => none := by
    simp only [State.failedCheck, if_neg list, blocks, if_neg busy, free]
    exact (if_neg Bool.false_ne_true).trans ((if_neg (Option.some_ne_none lane)).trans (if_neg late))
  rw [State.fire_checked list' blocks busy free late]
  cases span : duration.or (s.brk i).length with
  | none =>
    rw [span] at checked
    obtain ⟨others, slots, intake, mon, chg, rules, own, lanes, windows, ports⟩ :=
      State.cue_spec (lane := lane) x none index
    exact ⟨others, slots, intake, mon, chg, rules, fun c check => absurd (checked.symm.trans check) nofun,
      fun _ => ⟨lane, free, by rw [span]; exact own, lanes, windows, ports⟩⟩
  | some n =>
    rw [span] at checked
    simp only [Option.map_some]
    by_cases after : later (tadd x n) x = true
    · simp only [after, if_true] at checked
      simp only [after, Bool.not_true, Bool.false_eq_true, if_false]
      obtain ⟨others, slots, intake, mon, chg, rules, own, lanes, windows, ports⟩ :=
        State.cue_spec (lane := lane) x (some (tadd x n, .length)) index
      exact ⟨others, slots, intake, mon, chg, rules, fun c check => absurd (checked.symm.trans check) nofun,
        fun _ => ⟨lane, free, by rw [span]; exact own, lanes, windows, ports⟩⟩
    · simp only [after, Bool.false_eq_true, if_false] at checked
      simp only [after, Bool.not_false, if_true]
      have ended := State.triggered_noAir index unbound checked
      rw [span] at ended
      exact ended

/-! ### The end of a break (R106, R109) -/

/-- Every lane but the one that the break held stays as it is. -/
theorem State.endBreak_lane_ne {s : State} {i l : Nat} (cause : EndCause) (at_ : Time) (h : (s.brk i).lane ≠ some l) :
    (s.endBreak i cause at_).lane l = s.lane l := by
  refine (State.lane_congr (s.endBreak_clip i cause at_).2 l).trans ?_
  cases held : (s.brk i).lane with
  | none => rfl
  | some k => exact State.lane_withLane_ne (s := s) _ fun same => h (held.trans (congrArg some same.symm))

theorem BreakRecord.endedWith_notAired {b : BreakRecord} (h : b.aired = false) (cause : EndCause) (at_ : Time) :
    b.endedWith cause at_ = { b with state := .ended, cause := some cause, lane := none } := by
  simp [BreakRecord.endedWith, h]

/-- Settles O40: the expiry ends the break, and its end releases the lane. -/
theorem expiryEndsMissed : Obligations.ExpiryEndsMissed := by
  intro s i x lane cued at_ expired bound notAired index lt
  have due : (s.brk i.val).expired s.now = true := by
    simp only [BreakRecord.expired, cued, at_, beq_self_eq_true, Bool.true_and]
    exact expired
  obtain ⟨own, others, slots, -, released, -⟩ := State.endBreak_spec .missed s.now index
  refine ⟨s.endBreak i.val .missed s.now, congrArg Host.Outcome.next (if_pos due), ?_, ?_⟩
  · rw [own, BreakRecord.endedWith_notAired notAired]
  · rw [released lane bound lt]
    exact ⟨rfl, rfl, rfl, rfl, rfl, rfl, others,
      fun l other => State.endBreak_lane_ne _ _ (by rw [bound]; exact fun same => other (Option.some.inj same).symm), by simp,
      slots, by simp [State.intakeKept], by simp [State.siteKept], by simp [State.rulesKept]⟩

/-! ### The commands on a break (R102 to R107) -/

theorem State.brk_lt {s : State} {i : Nat} (h : (s.brk i).state ≠ .free) : i < s.splice.breaks.length := by
  by_contra out
  refine h ?_
  rw [State.brk, List.getD_eq_getElem?_getD, List.getElem?_eq_none (by omega)]
  rfl

/-- Y and its source once an instant has been offered (R114). -/
theorem BreakRecord.offerY_eq (b : BreakRecord) (at_ : Time) (source : YSource) :
    b.offerY at_ source = { b with y := b.offered at_ source } := by
  unfold BreakRecord.offerY BreakRecord.takesOffer BreakRecord.offered
  cases y : b.y with
  | none => rfl
  | some x =>
    obtain ⟨old, src⟩ := x
    by_cases sooner : earlier at_ old = true
    · simp [sooner]
    · simp only [sooner, ← y]
      rfl

theorem State.fireTime_idle {s : State} {i : Nat}
    (h : s.part ≠ .run ∨ ∀ t, (s.brk i).trigger = .time t → reached s.now t = false) : s.fireTime i = s := by
  unfold State.fireTime
  split
  · next run =>
    rcases h with stopped | early
    · exact absurd (by simpa [State.running] using run) stopped
    · have none : (s.brk i).timeDue s.now = none := by
        unfold BreakRecord.timeDue
        split
        · next t _ trigger => rw [early t trigger]; rfl
        · rfl
      rw [none]
  · rfl

theorem State.fireTime_due {s : State} {i : Nat} {at_ : Time} (run : s.part = .run) (waiting : (s.brk i).state = .waiting)
    (trigger : (s.brk i).trigger = .time at_) (due : reached s.now at_ = true) : s.fireTime i = s.fire i at_ none := by
  simp [State.fireTime, State.running, run, BreakRecord.timeDue, waiting, trigger, due]

/-- What is said of a break that a command ends, whose port then answers. -/
theorem State.endBreak_answered {s : State} (p : Port) (params : List Byte) {i : Nat} (cause : EndCause) (r : Reply)
    (index : i < s.splice.breaks.length) :
    let t := ((s.takes p params).endBreak i cause s.now).respond p r
    t.brk i = (s.brk i).endedWith cause s.now ∧ ((s.brk i).lane = none → t.lanes = s.lanes) ∧ s.laneReleased t i ∧
      (∀ l, (s.brk i).lane ≠ some l → t.lane l = s.lane l) ∧
      t.port p.other = (s.port p.other).offer ⟨.breakEnded, i, cause.code, s.now⟩ ∧
      (∀ j, j ≠ i → t.brk j = s.brk j) ∧ t.windows = s.windows ∧ s.intakeKept t ∧ s.siteKept t ∧ s.rulesKept t := by
  obtain ⟨own, others, -, lanes, released, ports⟩ :=
    State.endBreak_spec (s := s.takes p params) cause s.now (by simpa using index)
  have ne : ∀ l, (s.brk i).lane ≠ some l → ((s.takes p params).endBreak i cause s.now).lane l = s.lane l := fun l h => by
    simpa using State.endBreak_lane_ne (s := s.takes p params) cause s.now (by simpa using h)
  simp only [State.laneReleased, State.takes_reads, State.takes_frame] at own others lanes released ports
  simp only [State.intakeKept, State.siteKept, State.rulesKept]
  generalize frame : (s.takes p params).endBreak i cause s.now = u at *
  have brk : ∀ j, (u.respond p r).brk j = u.brk j := State.brk_congr (by simp [State.respond])
  have lane : ∀ l, (u.respond p r).lane l = u.lane l := State.lane_congr (by simp [State.respond])
  refine ⟨(brk i).trans own, fun unbound => (by simp [State.respond] : (u.respond p r).lanes = u.lanes).trans (lanes unbound),
    fun l held lt => (lane l).trans (released l held lt), fun l h => (lane l).trans (ne l h), ?_,
    fun j other => (brk j).trans (others j other), ?_⟩
  · rw [State.respond, State.port_withPort_other, ports]
    simp
  · rw [← frame]; simp [State.respond]

section
variable {s : State} {p : Port} {i : Byte} (open_ : s.open_ p) (small : i.toNat < 32) (used : (s.brk i.toNat).state ≠ .free)
include open_ small used

/-- ARM, DISARM, TRIGGER and MODIFY BREAK given by the owner. -/
theorem breakCommands_owner (own : (s.brk i.toNat).owner = p) :
    ((s.brk i.toNat).state = .loaded →
        (s.part ≠ .run ∨ ∀ t, (s.brk i.toNat).trigger = .time t → reached s.now t = false) →
        exec (.arm p [i]) s =
          .next (((s.takes p [i]).withBreak i.toNat { s.brk i.toNat with state := .waiting }).respond p (.ok []))) ∧
      (∀ at_, (s.brk i.toNat).state = .loaded → s.part = .run → (s.brk i.toNat).trigger = .time at_ →
        reached s.now at_ = true → i.toNat < s.splice.breaks.length → (s.brk i.toNat).lane = none →
        let armed := (s.takes p [i]).withBreak i.toNat { s.brk i.toNat with state := .waiting }
        ∃ u, exec (.arm p [i]) s = .next (u.respond p (.ok [])) ∧ armed.triggered u i.toNat at_ none ∧
          u.lines = s.lines) ∧
      ((s.brk i.toNat).state = .waiting →
        exec (.disarm p [i]) s =
          .next (((s.takes p [i]).withBreak i.toNat { s.brk i.toNat with state := .loaded }).respond p (.ok []))) ∧
      ((s.brk i.toNat).state ≠ .loaded →
        exec (.arm p [i]) s = .next (s.answers p [i] (.no .wrongState)) ∧
        ∀ (params : List Byte) (x : BreakFields), params.length ≤ 3071 → breakFits params = true →
          breakOf params = some x →
          exec (.modifyBreak p (i :: params)) s = .next (s.answers p (i :: params) (.no .wrongState))) ∧
      ((s.brk i.toNat).state ≠ .waiting → exec (.disarm p [i]) s = .next (s.answers p [i] (.no .wrongState))) ∧
      ((s.brk i.toNat).state ≠ .waiting ∨ (s.brk i.toNat).trigger ≠ .manual ∨ s.part ≠ .run →
        exec (.trigger p [i]) s = .next (s.answers p [i] (.no .wrongState))) := by
  have index := State.brk_lt used
  have passes : ∀ act, (s.takes p [i]).onBreak p i.toNat .owner act = act (s.takes p [i]) := fun act =>
    State.onBreak_passes small used (Ownership.owner_allows own)
  have brk : (s.takes p [i]).brk i.toNat = s.brk i.toNat := by simp
  have byte : byteAt [i] 0 = i.toNat := rfl
  have put : ((s.takes p [i]).withBreak i.toNat { s.brk i.toNat with state := .waiting }).brk i.toNat =
      { s.brk i.toNat with state := .waiting } := State.brk_withBreak _ (by simpa using index)
  have arms : (s.brk i.toNat).state = .loaded → exec (.arm p [i]) s =
      .next ((((s.takes p [i]).withBreak i.toNat { s.brk i.toNat with state := .waiting }).fireTime i.toNat).respond p
        (.ok [])) := fun loaded => by
    refine next_answered open_ (by simp) rfl ((passes _).trans ?_)
    simp only [byte, brk, loaded]
    rfl
  refine ⟨fun loaded idle => ?_, fun at_ loaded run trigger due _ unbound => ⟨_, arms loaded, ?_, ?_⟩, fun waiting => ?_,
    fun other => ⟨?_, fun params x short fits fields => ?_⟩, fun other => ?_, fun other => ?_⟩
  · rw [arms loaded, State.fireTime_idle]
    rw [put]
    simpa [State.withBreak, State.now] using idle
  · rw [State.fireTime_due (by simpa using run) (by rw [put]) (by rw [put]; exact trigger)
      (by simpa [State.withBreak, State.now] using due)]
    exact State.fire_triggered at_ none (by simpa [State.withBreak] using index) (by rw [put]; exact unbound)
  · simp
  · refine next_answered open_ (by simp) rfl ((passes _).trans ?_)
    simp only [byte, brk, waiting]
    rfl
  · exact next_refused open_ (by simp) rfl ((passes _).trans (if_pos (by rw [byte, brk]; exact other)))
  · rw [exec_modifyBreak open_ short small used own fits]
    simp only [fields, other, false_and, if_false]
  · exact next_refused open_ (by simp) rfl ((passes _).trans (if_pos (by rw [byte, brk]; exact other)))
  · refine next_refused open_ (by simp) rfl ((passes _).trans (if_pos ?_))
    rw [byte, brk]
    simpa [State.running] using other

/-- CANCEL and CLEAR BREAK given by the owner or by the network port. -/
theorem breakCommands_cancel (own : (s.brk i.toNat).owner = p ∨ p = .network) :
    ((s.brk i.toNat).state = .ended →
        exec (.clearBreak p [i]) s = .next (((s.takes p [i]).withBreak i.toNat .empty).respond p (.ok []))) ∧
      ((s.brk i.toNat).state = .onAir →
        exec (.cancel p [i]) s =
          .next (((s.takes p [i]).withBreak i.toNat
            { s.brk i.toNat with y := (s.brk i.toNat).offered s.now .cancel }).respond p (.ok []))) ∧
      ((s.brk i.toNat).state = .loaded ∨ (s.brk i.toNat).state = .waiting ∨ (s.brk i.toNat).state = .cued →
        exec (.cancel p [i]) s =
          .next (((s.takes p [i]).endBreak i.toNat .cancelled s.now).respond p (.ok []))) ∧
      ((s.brk i.toNat).state ≠ .ended →
        exec (.clearBreak p [i]) s = .next (s.answers p [i] (.no .wrongState))) ∧
      ((s.brk i.toNat).state = .ended → exec (.cancel p [i]) s = .next (s.answers p [i] (.no .wrongState))) := by
  have allowed : Ownership.ownerOrNetwork.allows p (s.brk i.toNat).owner = true := by
    rcases own with own | network
    · simp [Ownership.allows, own]
    · simp [Ownership.allows, network]
  have passes : ∀ act, (s.takes p [i]).onBreak p i.toNat .ownerOrNetwork act = act (s.takes p [i]) := fun act =>
    State.onBreak_passes small used allowed
  have brk : (s.takes p [i]).brk i.toNat = s.brk i.toNat := by simp
  have now : (s.takes p [i]).now = s.now := by simp
  have byte : byteAt [i] 0 = i.toNat := rfl
  refine ⟨fun ended => ?_, fun onAir => ?_, fun pending => ?_, fun other => ?_, fun ended => ?_⟩
  · refine next_answered open_ (by simp) rfl ((passes _).trans ?_)
    simp only [byte, brk, ended]
    rfl
  · refine next_answered open_ (by simp) rfl ((passes _).trans ?_)
    simp only [byte, brk, onAir, State.cancelBreak, State.offerY, BreakRecord.offerY_eq, now]
    rfl
  · refine next_answered open_ (by simp) rfl ((passes _).trans ?_)
    have states : (s.brk i.toNat).state ≠ .ended ∧ ((s.brk i.toNat).state == .onAir) = false := by
      rcases pending with h | h | h <;> rw [h] <;> exact ⟨nofun, rfl⟩
    simp only [byte, brk, if_neg states.1, State.cancelBreak, states.2, now]
    rfl
  · exact next_refused open_ (by simp) rfl ((passes _).trans (if_pos (by rw [byte, brk]; exact other)))
  · exact next_refused open_ (by simp) rfl ((passes _).trans (if_pos (by rw [byte, brk]; exact ended)))
end

/-- The commands on a break that one check of R101 refuses, the same for each ownership rule in `rules`. -/
theorem breakCommands_refused {s : State} {p : Port} {i : Byte} (open_ : s.open_ p) (why : ResultCode) :
    (∀ params, (∀ act, (s.takes p params).onBreak p i.toNat .owner act = refuse why (s.takes p params))) →
      (∀ c ∈ [Instr.arm p [i], .disarm p [i], .trigger p [i]], exec c s = .next (s.answers p [i] (.no why))) ∧
      ∀ params : List Byte, params.length ≤ 3071 →
        exec (.modifyBreak p (i :: params)) s = .next (s.answers p (i :: params) (.no why)) := by
  intro refused
  refine ⟨fun c mem => ?_, fun params short => ?_⟩
  · have one : ∀ act, (Host.Outcome.next (s.onCommand p [i] true fun s => s.onBreak p i.toNat .owner act) : Answer) =
        .next (s.answers p [i] (.no why)) := fun act => next_refused open_ (by simp) rfl (refused [i] act)
    simp only [List.mem_cons, List.not_mem_nil, or_false] at mem
    rcases mem with rfl | rfl | rfl
    · exact one _
    · exact one _
    · exact one _
  · exact next_refused open_ (by simp only [List.length_cons]; omega) rfl (refused (i :: params) _)

theorem breakCommands_cancelRefused {s : State} {p : Port} {i : Byte} (open_ : s.open_ p) (why : ResultCode)
    (refused : ∀ act, (s.takes p [i]).onBreak p i.toNat .ownerOrNetwork act = refuse why (s.takes p [i])) :
    ∀ c ∈ [Instr.cancel p [i], .clearBreak p [i]], exec c s = .next (s.answers p [i] (.no why)) := by
  intro c mem
  simp only [List.mem_cons, List.not_mem_nil, or_false] at mem
  rcases mem with rfl | rfl
  · exact next_refused open_ (by simp) rfl (refused _)
  · exact next_refused open_ (by simp) rfl (refused _)

/-- Settles O38: the commands by the checks of R101, then by the state of the break. -/
theorem breakStateCommands : Obligations.BreakStateCommands := by
  refine ⟨fun s p i open_ small used => ⟨breakCommands_owner open_ small used, fun own => ?_⟩, fun s p i open_ => ?_⟩
  · obtain ⟨clears, offers, cancels, notEnded, ended⟩ := breakCommands_cancel open_ small used own
    exact ⟨clears, offers, fun pending index => ⟨_, cancels pending, State.endBreak_answered p [i] .cancelled (.ok []) index⟩,
      notEnded, ended⟩
  · have all : ∀ why, (∀ params rule act, (s.takes p params).onBreak p i.toNat rule act = refuse why (s.takes p params)) →
        (∀ c ∈ [Instr.arm p [i], .disarm p [i], .trigger p [i], .cancel p [i], .clearBreak p [i]],
          exec c s = .next (s.answers p [i] (.no why))) ∧
        ∀ params : List Byte, params.length ≤ 3071 →
          exec (.modifyBreak p (i :: params)) s = .next (s.answers p (i :: params) (.no why)) := by
      intro why refused
      obtain ⟨three, modify⟩ := breakCommands_refused (i := i) open_ why fun params act => refused params _ act
      have two := breakCommands_cancelRefused (i := i) open_ why fun act => refused [i] _ act
      refine ⟨fun c mem => ?_, modify⟩
      rcases List.mem_append.mp (show c ∈ [Instr.arm p [i], .disarm p [i], .trigger p [i]] ++ [.cancel p [i], .clearBreak p [i]]
        from mem) with first | last
      · exact three c first
      · exact two c last
    refine ⟨fun out => all _ fun _ _ _ => State.onBreak_range out, fun small free => all _ fun _ _ _ =>
      State.onBreak_free small free, fun small used foreign => ?_⟩
    obtain ⟨three, modify⟩ := breakCommands_refused (i := i) open_ .notOwner fun params act =>
      State.onBreak_notOwner (act := act) small used (by simpa [Ownership.allows] using Ne.symm foreign)
    refine ⟨three, modify, fun station => breakCommands_cancelRefused open_ .notOwner fun act =>
      State.onBreak_notOwner small used ?_⟩
    simpa [Ownership.allows, station] using Ne.symm (station ▸ foreign)

end Sys2Proof.Machine
end

