-- ==== Sys2Proof/Proofs/Triggers.lean ====
section
/-! The triggers of breaks and the cues handed over. -/

namespace Sys2Proof.Machine

open Sys2Proof

-- One proof after the other: proofs that wait for each other hold a thread each.
set_option Elab.async false

/-! ### A trigger whose checks pass (R107, R108) -/

theorem later_tadd {n : Nat} (a : Time) (positive : 0 < n) (h : n < halfModulus) : later (tadd a n) a = true := by
  rw [later, tdiff_tadd a n h]
  exact decide_eq_true (by omega)

theorem tdiff_tadd_le {n : Nat} (a : Time) (h : n < halfModulus) : tdiff a (tadd a n) ≤ 0 := by
  rcases Nat.eq_zero_or_pos n with rfl | positive
  · have same : tdiff a (tadd a 0) = tdiff a a := by simp only [tdiff, tadd, Nat.add_zero, Nat.mod_mod]
    rw [same, tdiff_self]
  · rw [tdiff_tadd_neg a n positive h]
    omega

/-- The state of a break made CUED at X with a lane. -/
def State.cuedAt (s : State) (i lane : Nat) (x : Time) (y : Option (Time × YSource)) : State :=
  ((s.claimLane lane i (s.brk i).playList).withBreak i
    { (s.claimLane lane i (s.brk i).playList).brk i with
      state := .cued, x := some x, lane := some lane, y := y }).raise .breakCued i lane

theorem State.fire_cuedAt {s : State} {i lane : Nat} {x : Time} {duration : Option Nat}
    (list : s.playList (s.brk i).playList ≠ []) (blocks : s.blockingWindow (s.brk i).slot x = none)
    (busy : s.liveBreak (s.brk i).slot = none) (free : s.freeLane = some lane) (onTime : tdiff s.now x ≤ 10000000)
    (after : ∀ n, duration.or (s.brk i).length = some n → later (tadd x n) x = true) :
    s.fire i x duration =
      s.cuedAt i lane x ((duration.or (s.brk i).length).map fun n => (tadd x n, .length)) := by
  rw [State.fire_checked (by rwa [List.isEmpty_iff]) blocks (by rw [busy]; exact nofun) free
    (show ¬ (ticksPerSecond : Int) < tdiff s.now x from not_lt.mpr onTime)]
  cases span : duration.or (s.brk i).length with
  | none => rfl
  | some n =>
    simp only [Option.map_some, after n span]
    rfl

/-- What is said of a break made CUED. -/
theorem State.cuedAt_keeps {s : State} {i lane : Nat} (x : Time) (y : Option (Time × YSource))
    (index : i < s.splice.breaks.length) (lt : lane < s.lanes.length) :
    let t := s.cuedAt i lane x y
    t.brk i = { s.brk i with state := .cued, x := some x, lane := some lane, y := y } ∧
      t.lane lane = ⟨.preroll, some i, some (s.brk i).playList, some (0, 0), [], 0, 0, 0, false⟩ ∧
      (∀ j, j ≠ i → t.brk j = s.brk j) ∧ (∀ l, l ≠ lane → t.lane l = s.lane l) ∧ t.windows = s.windows ∧
      t.splice.slots = s.splice.slots ∧ s.intakeKept t ∧ s.siteKept t ∧ s.rulesKept t := by
  obtain ⟨others, slots, intake, mon, chg, rules, own, lanes, windows, -⟩ := State.cue_spec (lane := lane) x y index
  have set := State.lane_congr (s := s.withLane lane ⟨.preroll, some i, some (s.brk i).playList, some (0, 0), [], 0, 0, 0,
    false⟩) lanes
  refine ⟨own, (set lane).trans (State.lane_withLane _ lt), others,
    fun l other => (set l).trans (State.lane_withLane_ne _ other), windows, slots, intake, ⟨mon, chg, ?_⟩, rules⟩
  simp [State.cuedAt]

theorem length_later {s : State} {i : Nat} (h : ∀ n, (s.brk i).length = some n → 1 ≤ n ∧ n ≤ 36000000000) (x : Time) :
    ∀ n, Option.or none (s.brk i).length = some n → later (tadd x n) x = true := by
  intro n length
  obtain ⟨low, high⟩ := h n (by simpa using length)
  exact later_tadd x low (by unfold halfModulus; omega)

/-- TRIGGER and a due TIME trigger whose checks all pass. -/
theorem triggers_cued {s : State} {i : Fin 32} {lane : Nat} (run : s.part = .run) (waiting : (s.brk i.val).state = .waiting)
    (list : s.playList (s.brk i.val).playList ≠ [])
    (busy : s.liveBreak (s.brk i.val).slot = none) (free : s.freeLane = some lane)
    (length : ∀ n, (s.brk i.val).length = some n → 1 ≤ n ∧ n ≤ 36000000000) :
    (∀ p, s.open_ p → (s.brk i.val).owner = p → (s.brk i.val).trigger = .manual → (s.brk i.val).lead ≤ 100000000 →
      s.blockingWindow (s.brk i.val).slot (tadd s.now (s.brk i.val).lead) = none →
      exec (.trigger p [BitVec.ofNat 8 i.val]) s =
        .next (((s.takes p [BitVec.ofNat 8 i.val]).cuedAt i.val lane (tadd s.now (s.brk i.val).lead)
          ((s.brk i.val).length.map fun n => (tadd (tadd s.now (s.brk i.val).lead) n, .length))).respond p (.ok []))) ∧
    (∀ at_, (s.brk i.val).trigger = .time at_ → reached s.now at_ = true → tdiff s.now at_ ≤ 10000000 →
      s.blockingWindow (s.brk i.val).slot at_ = none →
      exec (.timeTriggerDue i) s =
        .next (s.cuedAt i.val lane at_ ((s.brk i.val).length.map fun n => (tadd at_ n, .length)))) := by
  refine ⟨fun p open_ own manual lead clear => ?_, fun at_ trigger due onTime clear => ?_⟩
  · have byte : byteAt [BitVec.ofNat 8 i.val] 0 = i.val := by
      show (BitVec.ofNat 8 i.val).toNat = i.val
      have := i.isLt
      rw [BitVec.toNat_ofNat]
      omega
    have brk : (s.takes p [BitVec.ofNat 8 i.val]).brk i.val = s.brk i.val := by simp
    have running : (s.takes p [BitVec.ofNat 8 i.val]).running = true := by simp [State.running, run]
    have now : (s.takes p [BitVec.ofNat 8 i.val]).now = s.now := by simp
    refine next_answered open_ (by simp) rfl ?_
    dsimp only
    rw [byte]
    refine (State.onBreak_passes i.isLt (by rw [waiting]; exact nofun) (Ownership.owner_allows own)).trans ?_
    rw [if_neg (by simp [brk, waiting, manual, running]), brk, now]
    have cues := State.fire_cuedAt (s := s.takes p [BitVec.ofNat 8 i.val]) (i := i.val) (lane := lane)
      (x := tadd s.now (s.brk i.val).lead) (duration := none) (by cases p <;> exact list) (by cases p <;> exact clear)
      (by cases p <;> exact busy) (by cases p <;> exact free)
      (by rw [now]; exact (tdiff_tadd_le _ (by unfold halfModulus; omega)).trans (by decide))
      (by rw [brk]; exact length_later length _)
    rw [cues, brk]
    rfl
  · refine congrArg Host.Outcome.next ?_
    rw [State.fireTime_due run waiting trigger due]
    exact State.fire_cuedAt list clear busy free onTime (length_later length _)

/-! ### The edge of a trigger line (R107, R152) -/

/-- Only break `i` waits for the polarity of the line. -/
theorem State.fireLine_only {s : State} {line i : Nat} {polarity : Polarity} (run : s.part = .run) (small : i < 32)
    (waiting : (s.brk i).state = .waiting) (trigger : (s.brk i).trigger = .line line polarity)
    (only : ∀ j, j < 32 → j ≠ i → (s.brk j).state = .waiting → (s.brk j).trigger ≠ .line line polarity)
    (others : ∀ j, j ≠ i → (s.fire i (tadd s.now (s.brk i).lead) none).brk j = s.brk j) :
    s.fireLine line polarity = s.fire i (tadd s.now (s.brk i).lead) none := by
  have fires : ((s.brk i).state == .waiting && (s.brk i).trigger == .line line polarity) = true := by
    simp [waiting, trigger]
  have idle : ∀ j, j < 32 → j ≠ i → ∀ u : State, u.brk j = s.brk j →
      ¬ ((u.brk j).state == .waiting && (u.brk j).trigger == .line line polarity) = true := by
    intro j lt other u same
    rw [same, Bool.and_eq_true, beq_iff_eq, beq_iff_eq]
    exact fun ⟨waits, names⟩ => only j lt other waits names
  unfold State.fireLine
  rw [if_pos (by simp [State.running, run])]
  refine (foldl_eq_of_only _ s i breakIndices breakIndices_nodup (mem_breakIndices.mpr small)
    (fun j mem other => if_neg (idle j (mem_breakIndices.mp mem) other s rfl)) fun j mem other => ?_).trans (if_pos fires)
  rw [show (if ((s.brk i).state == .waiting && (s.brk i).trigger == .line line polarity) = true then
    s.fire i (tadd s.now (s.brk i).lead) none else s) = _ from if_pos fires]
  exact if_neg (idle j (mem_breakIndices.mp mem) other _ (others j other))

/-! ### What acts on one break alone (R104, R107, R117 to R119) -/

/-- Of the splice state, `t` differs from `s` in break `i` alone. -/
def State.brkOnly (s t : State) (i : Nat) : Prop :=
  (∀ j, j ≠ i → t.brk j = s.brk j) ∧ t.splice = { s.splice with breaks := t.splice.breaks }

theorem State.brkOnly.trans {s t u : State} {i : Nat} (h : s.brkOnly t i) (k : t.brkOnly u i) : s.brkOnly u i :=
  ⟨fun j other => (k.1 j other).trans (h.1 j other), by rw [k.2, h.2]⟩

theorem State.brkOnly_of_eq {s t : State} (i : Nat) (h : t.splice = s.splice) : s.brkOnly t i :=
  ⟨fun j _ => State.brk_congr (by rw [h]) j, by rw [h]⟩

theorem State.withBreak_brkOnly (s : State) (i : Nat) (b : BreakRecord) : s.brkOnly (s.withBreak i b) i :=
  ⟨fun _ other => State.brk_withBreak_ne b other, rfl⟩

theorem State.endBreak_brkOnly (s : State) (i : Nat) (cause : EndCause) (at_ : Time) :
    s.brkOnly (s.endBreak i cause at_) i := by
  refine ⟨fun j other => (s.endBreak_brk i j cause at_).trans (State.brk_withBreak_ne _ other), ?_⟩
  cases lane : (s.brk i).lane <;> simp [State.endBreak, lane, State.withBreak]

theorem State.brkOnly_ite {s t u : State} {i : Nat} {c : Prop} [Decidable c] (h : s.brkOnly t i) (k : s.brkOnly u i) :
    s.brkOnly (if c then t else u) i := by
  split
  · exact h
  · exact k

theorem State.claim_brkOnly (s : State) (i lane list : Nat) (b : BreakRecord) (kind : EventKind) (x y : Nat) :
    s.brkOnly (((s.claimLane lane i list).withBreak i b).raise kind x y) i :=
  have claims : s.brkOnly (s.claimLane lane i list) i := State.brkOnly_of_eq i (by simp)
  (claims.trans (State.withBreak_brkOnly _ i b)).trans (State.brkOnly_of_eq i (by simp))

theorem State.fire_brkOnly (s : State) (i : Nat) (x : Time) (duration : Option Nat) : s.brkOnly (s.fire i x duration) i := by
  unfold State.fire
  dsimp only
  split
  · exact s.endBreak_brkOnly ..
  split
  · exact (State.brkOnly_of_eq i (by simp)).trans (State.endBreak_brkOnly ..)
  split
  · exact s.endBreak_brkOnly ..
  split
  · exact s.endBreak_brkOnly ..
  split
  · exact s.endBreak_brkOnly ..
  exact State.brkOnly_ite ((s.withBreak_brkOnly ..).trans (State.endBreak_brkOnly ..)) (s.claim_brkOnly ..)

theorem State.inCue_brkOnly (s : State) (i : Nat) (at_ : Time) : s.brkOnly (s.inCue i at_) i := by
  have offer : s.brkOnly (s.offerY i at_ .inCue) i := s.withBreak_brkOnly ..
  unfold State.inCue
  dsimp only
  split
  · split
    · exact offer.trans (State.endBreak_brkOnly ..)
    · exact offer
  · exact offer

theorem State.cueActs_brkOnly (s : State) (c : Cue) (at_ : Time) (i : Nat) : s.brkOnly (s.cueActs c at_ i) i := by
  unfold State.cueActs State.cancelBreak
  split
  · exact s.fire_brkOnly ..
  · exact s.inCue_brkOnly ..
  · split
    · exact s.withBreak_brkOnly ..
    · exact s.endBreak_brkOnly ..

/-! ### A cue that is handed over (R116 to R120) -/

theorem State.handCue_ignored {s : State} {c : Cue} {index : Nat} {launched : Launched} {at_ : Time}
    (stands : cueInstant c s.now s.launch.advance s.launch.pq index launched = some at_)
    (idle : ∀ i, i < 32 → ¬ ((s.brk i).trigger == .cue c.number && c.kind.applies (s.brk i).state) = true) :
    s.handCue c index launched = s.withSplice { s.splice with cuesIgnored := bump s.splice.cuesIgnored } := by
  unfold State.handCue
  rw [stands]
  dsimp only
  rw [foldl_eq_of_noop _ (s, false) breakIndices fun i mem => if_neg (idle i (mem_breakIndices.mp mem))]
  rfl

theorem State.handCue_only {s : State} {c : Cue} {index i : Nat} {launched : Launched} {at_ : Time} (small : i < 32)
    (stands : cueInstant c s.now s.launch.advance s.launch.pq index launched = some at_)
    (acts : ((s.brk i).trigger == .cue c.number && c.kind.applies (s.brk i).state) = true)
    (only : ∀ j, j < 32 → j ≠ i → ¬ ((s.brk j).trigger == .cue c.number && c.kind.applies (s.brk j).state) = true) :
    s.handCue c index launched =
      (s.cueActs c at_ i).withSplice
        { (s.cueActs c at_ i).splice with cuesApplied := bump (s.cueActs c at_ i).splice.cuesApplied } := by
  obtain ⟨others, -⟩ := s.cueActs_brkOnly c at_ i
  unfold State.handCue
  rw [stands]
  dsimp only
  have first : (if ((s.brk i).trigger == .cue c.number && c.kind.applies (s.brk i).state) = true
      then (s.cueActs c at_ i, true) else (s, false)) = (s.cueActs c at_ i, true) := if_pos acts
  rw [foldl_eq_of_only _ (s, false) i breakIndices breakIndices_nodup (mem_breakIndices.mpr small)
    (fun j mem other => if_neg (only j (mem_breakIndices.mp mem) other)) fun j mem other => by
      dsimp only
      rw [first, if_neg (by rw [others j other]; exact only j (mem_breakIndices.mp mem) other)]]
  dsimp only
  rw [first]
  rfl

/-- An IN cue on a CUED break with its X (R118). -/
theorem State.inCue_cued {s : State} {i : Nat} {at_ x y : Time} {source : YSource} (index : i < s.splice.breaks.length)
    (cued : (s.brk i).state = .cued) (stands : (s.brk i).x = some x) (offer : (s.brk i).offered at_ .inCue = some (y, source)) :
    s.inCue i at_ = if !later y x then (s.offerY i at_ .inCue).endBreak i .noAir s.now else s.offerY i at_ .inCue := by
  have own : (s.offerY i at_ .inCue).brk i = { s.brk i with y := some (y, source) } := by
    rw [State.offerY, State.brk_withBreak _ index, BreakRecord.offerY_eq, offer]
  have now : (s.offerY i at_ .inCue).now = s.now := rfl
  unfold State.inCue
  dsimp only
  simp only [own, cued, stands, now]

/-- An IN cue on an ON_AIR break (R118). -/
theorem State.inCue_onAir {s : State} {i : Nat} (at_ : Time) (index : i < s.splice.breaks.length)
    (onAir : (s.brk i).state = .onAir) : s.inCue i at_ = s.offerY i at_ .inCue := by
  have own : ((s.offerY i at_ .inCue).brk i).state = .onAir := by
    rw [State.offerY, State.brk_withBreak _ index, BreakRecord.offerY_eq]
    exact onAir
  unfold State.inCue
  dsimp only
  simp only [own]

theorem State.acceptEdge_trigger {s : State} {line : Nat} (function : (s.line line).function = .trigger) :
    s.acceptEdge line =
      (s.withLine line { s.line line with accepted := (s.line line).pin, pendingChange := none, latched := true }).fireLine
        line { s.line line with accepted := (s.line line).pin, pendingChange := none, latched := true }.polarity := by
  simp only [State.acceptEdge, function]

/-- The polarity of an edge to the pin's level. -/
theorem Line.polarity_eq {l : Line} {polarity : Polarity}
    (turned : polarity = .rise ↔ (l.pin = .high ↔ l.invert = false)) :
    { l with accepted := l.pin, pendingChange := none, latched := true }.polarity = polarity := by
  unfold Line.polarity Line.inputLevel
  cases pin : l.pin <;> cases invert : l.invert <;> cases polarity <;> simp_all [Level.turn]

/-- Settles O39: a trigger's checks decide what becomes of the break, and each trigger's own operation, the command, the
event of its instant, the edge of its line and the cue handed over, leads to them for the breaks it names alone. -/
theorem triggersCue : Obligations.TriggersCue := by
  unfold Obligations.TriggersCue
  refine ⟨?_, ?_, ?_⟩
  · intro s i lane run waiting index lt list busy free length
    obtain ⟨manual, timed⟩ := triggers_cued run waiting list busy free length
    refine ⟨fun p open_ own trigger lead clear => ⟨_, manual p open_ own trigger lead clear, ?_⟩,
      fun at_ trigger due onTime clear => ⟨_, timed at_ trigger due onTime clear, ?_⟩⟩
    · obtain ⟨brk, held, rest⟩ := State.cuedAt_keeps (s := s.takes p [BitVec.ofNat 8 i.val]) (tadd s.now (s.brk i.val).lead)
        ((s.brk i.val).length.map fun n => (tadd (tadd s.now (s.brk i.val).lead) n, .length))
        (by cases p <;> exact index) (by cases p <;> exact lt)
      rw [(s.takes_reads p _).1] at brk held
      generalize (s.takes p [BitVec.ofNat 8 i.val]).cuedAt i.val lane (tadd s.now (s.brk i.val).lead)
        ((s.brk i.val).length.map fun n => (tadd (tadd s.now (s.brk i.val).lead) n, .length)) = u at *
      have same : (∀ j, (u.respond p (.ok [])).brk j = u.brk j) ∧ ∀ l, (u.respond p (.ok [])).lane l = u.lane l := by
        cases p <;> exact ⟨fun _ => rfl, fun _ => rfl⟩
      obtain ⟨others, lanes, windows, slots, intake, site, rules⟩ := rest
      simp only [State.takes_reads] at others lanes
      simp only [State.takes_frame, State.intakeKept, State.siteKept, State.rulesKept] at windows slots intake site rules
      simp only [same, brk, held]
      refine ⟨trivial, trivial, trivial, trivial, trivial, trivial, trivial, trivial, others, lanes, ?_⟩
      simp [State.intakeKept, State.siteKept, State.rulesKept, windows, slots, intake, site, rules]
    · obtain ⟨brk, held, rest⟩ := State.cuedAt_keeps (s := s) at_
        ((s.brk i.val).length.map fun n => (tadd at_ n, .length)) index lt
      rw [brk, held]
      exact ⟨rfl, rfl, rfl, rfl, rfl, rest⟩
  · intro s i run waiting index unbound
    refine ⟨fun at_ trigger due => ⟨_, rfl, ?_, ?_⟩, fun line polarity n trigger input function pend held turned only => ?_,
      fun c k launched at_ trigger out stands only => ?_⟩
    · rw [State.fireTime_due run waiting trigger due]
      exact State.fire_triggered at_ none index unbound
    · simp
    · have due : (s.line line.val).edgeDue = true := by simp [Line.edgeDue, input, pend, held]
      refine ⟨_, congrArg Host.Outcome.next (if_pos due), ?_⟩
      rw [State.acceptEdge_trigger function, Line.polarity_eq turned]
      rw [State.fireLine_only (s := s.withLine line.val _) run i.isLt waiting trigger only fun j other =>
        (State.fire_brkOnly ..).1 j other]
      exact State.fire_triggered (s := s.withLine line.val _) _ none index unbound
    · have acts : ((s.brk i.val).trigger == .cue c.number && c.kind.applies (s.brk i.val).state) = true := by
        simp [trigger, out, waiting, CueKind.applies]
      rw [State.handCue_only i.isLt stands acts fun j lt other => by
        simp only [out, CueKind.applies, Bool.and_eq_true, beq_iff_eq]
        exact fun ⟨names, waits⟩ => only j lt other waits names]
      have fires : s.cueActs c at_ i.val = s.fire i.val at_ c.duration := by rw [State.cueActs, out]
      rw [fires]
      exact State.fire_triggered at_ c.duration index unbound
  · intro s c k launched
    refine ⟨fun air rejected => ?_, fun at_ timed => ?_⟩
    · obtain ⟨why, rfl⟩ := rejected
      unfold State.handCue
      simp only [cueInstant, air]
    · have stands : cueInstant c s.now s.launch.advance s.launch.pq k launched = some at_ := by
        rcases timed with ⟨r, air, rfl, rfl⟩ | ⟨second, tick, air, rfl⟩ <;> simp only [cueInstant, air, tsub, tadd, ticksPerSecond]
      refine ⟨fun idle => State.handCue_ignored stands fun i lt => ?_, fun i small index trigger applies only => ?_⟩
      · simp only [Bool.and_eq_true, beq_iff_eq]
        exact fun ⟨names, acts⟩ => by simp [idle i lt names] at acts
      · have hands := State.handCue_only (launched := launched) (index := k) small stands
          (by simp only [trigger, applies, beq_self_eq_true, Bool.and_self])
          fun j lt other => by
            simp only [Bool.and_eq_true, beq_iff_eq]
            exact fun h => only j lt other h.1
        obtain ⟨others, counts⟩ := s.cueActs_brkOnly c at_ i
        rw [hands]
        refine ⟨by rw [counts]; rfl, by rw [counts]; rfl, by rw [counts]; rfl, others, fun kind onAir => ?_,
          fun x y source kind cued stands offer => ?_, fun kind => ⟨fun onAir => ?_, fun notAired => ?_⟩⟩
        · have acts : s.cueActs c at_ i = s.offerY i at_ .inCue := by
            rw [State.cueActs, kind]
            exact State.inCue_onAir at_ index onAir
          rw [acts]
          exact ⟨(State.brk_withBreak _ index).trans (BreakRecord.offerY_eq ..), rfl⟩
        · have acts : s.cueActs c at_ i =
              if !later y x then (s.offerY i at_ .inCue).endBreak i .noAir s.now else s.offerY i at_ .inCue := by
            rw [State.cueActs, kind]
            exact State.inCue_cued index cued stands offer
          have own : (s.offerY i at_ .inCue).brk i = { s.brk i with y := some (y, source) } := by
            rw [State.offerY, State.brk_withBreak _ index, BreakRecord.offerY_eq, offer]
          rw [acts]
          refine ⟨fun after => ?_, fun early => ?_⟩
          · rw [if_neg (by simp [after])]
            exact ⟨own, rfl⟩
          · rw [if_pos (by simp [early])]
            obtain ⟨ended, -, -, -, lane, -⟩ := State.endBreak_spec (s := s.offerY i at_ .inCue) (i := i) .noAir
              s.now (by simpa [State.offerY, State.withBreak] using index)
            rw [own] at ended
            rw [State.laneReleased, own] at lane
            exact ⟨ended, lane⟩
        · have acts : s.cueActs c at_ i = s.offerY i s.now .cancel := by
            rw [State.cueActs, kind]
            exact if_pos (by rw [onAir]; rfl)
          rw [acts]
          exact ⟨(State.brk_withBreak _ index).trans (BreakRecord.offerY_eq ..), rfl⟩
        · have acts : s.cueActs c at_ i = s.endBreak i .cancelled s.now := by
            rw [State.cueActs, kind]
            exact if_neg (by rwa [beq_iff_eq])
          rw [acts]
          obtain ⟨own, -, -, -, lane, -⟩ := State.endBreak_spec .cancelled s.now index
          exact ⟨own, lane⟩

end Sys2Proof.Machine
end

