-- ==== Sys2Proof/Proofs/Changeovers.lean ====
section
/-! The commands of the changeover and the monitor, and automatic changeovers (chapter 9). -/

namespace Sys2Proof.Machine

open Sys2Proof

-- One proof after the other: proofs that wait for each other hold a thread each.
set_option Elab.async false

/-! ### The controller after a re-evaluation (R140 to R142) -/

theorem State.autoChangeover_chg (s : State) (target : Position) :
    (s.autoChangeover target).chg =
      { s.chg with
        position := target, returnTimer := none, history := appendHistory s.chg.history s.now
        hold := s.chg.hold || holdDue (appendHistory s.chg.history s.now) } := by
  unfold State.autoChangeover
  dsimp only
  split
  · next due => simp [due]
  · next early => simp [early]

/-- What a re-evaluation can leave of the controller. -/
theorem State.reevaluate_chg (s : State) :
    s.reevaluate.chg = s.chg ∨ s.reevaluate.chg = s.chg.stopTimer ∨
      s.chg.autoReturn = true ∧ s.reevaluate.chg = s.chg.startTimer ∨
      s.chg.hold = false ∧ ∃ target, s.reevaluate.chg = (s.autoChangeover target).chg := by
  unfold State.reevaluate
  split
  · exact .inl rfl
  next acts =>
  have clear : s.chg.hold = false := by
    cases hold : s.chg.hold <;> simp [hold] at acts ⊢
  split
  · exact .inr (.inr (.inr ⟨clear, _, rfl⟩))
  · exact .inr (.inl (s.withChg_chg _))
  · exact .inr (.inr (.inr ⟨clear, _, rfl⟩))
  · split
    · next on => exact .inr (.inr (.inl ⟨on, s.withChg_chg _⟩))
    · exact .inl rfl
  · exact .inr (.inl (s.withChg_chg _))

/-- A re-evaluation keeps the settings of the controller. -/
theorem State.reevaluate_settings (s : State) :
    s.reevaluate.chg.manual = s.chg.manual ∧ s.reevaluate.chg.returnDelay = s.chg.returnDelay ∧
      s.reevaluate.chg.autoReturn = s.chg.autoReturn := by
  rcases s.reevaluate_chg with same | stopped | ⟨-, started⟩ | ⟨-, target, changed⟩
  · simp [same]
  · simp [stopped, Changeover.stopTimer]
  · rw [started, Changeover.startTimer]
    split <;> simp
  · simp [changed, State.autoChangeover_chg]

theorem State.reevaluate_timer (s : State) (off : s.chg.autoReturn = false) (stopped : s.chg.returnTimer = none) :
    s.reevaluate.chg.returnTimer = none := by
  rcases s.reevaluate_chg with same | stops | ⟨on, -⟩ | ⟨-, target, changed⟩
  · rw [same, stopped]
  · rw [stops]; rfl
  · exact absurd (on.symm.trans off) nofun
  · rw [changed, State.autoChangeover_chg]

theorem State.reevaluate_history (s : State) (empty : s.chg.history = []) : s.reevaluate.chg.history.length ≤ 1 := by
  rcases s.reevaluate_chg with same | stops | ⟨-, started⟩ | ⟨-, target, changed⟩
  · simp [same, empty]
  · simp [stops, Changeover.stopTimer, empty]
  · rw [started, Changeover.startTimer]
    split <;> simp [empty]
  · simp [changed, State.autoChangeover_chg, empty, appendHistory]

theorem State.reevaluate_manual {s : State} (manual : s.chg.manual = true) : s.reevaluate = s := by
  unfold State.reevaluate
  rw [manual]
  rfl

theorem State.reevaluate_held {s : State} (hold : s.chg.hold = true) : s.reevaluate = s := by
  unfold State.reevaluate
  rw [hold, Bool.or_true]
  rfl

/-- What the controller does after a change of the exciter health (R137). -/
theorem State.reform_follow {s u : State} {events : List Event} (bound : s.chg.history.length ≤ 3) (chg : u.chg = s.chg)
    (now : u.now = s.now) (ports : ∀ p, u.port p = (s.port p).offers events) : s.healthFollowed (u.reform s) events := by
  have follow := State.reform_spec u s (by rwa [chg])
  have faults : (u.reform s).mainFault = u.mainFault ∧ (u.reform s).reserveFault = u.reserveFault := by
    simp [State.mainFault, State.reserveFault]
  simp only [State.healthFollowed, faults, chg, now, ports] at follow ⊢
  exact ⟨follow.1, fun p => by rw [follow.2, PortState.offers_append]⟩

/-! ### The controller's commands (R142 to R145) -/

theorem State.takes_faults (s : State) (p : Port) (params : List Byte) :
    (s.takes p params).mainFault = s.mainFault ∧ (s.takes p params).reserveFault = s.reserveFault := by
  cases p <;> exact ⟨rfl, rfl⟩

/-- The state after the settings of the controller and a re-evaluation. -/
def State.rechecked (s : State) (p : Port) (params : List Byte) (c : Changeover) : State :=
  ((s.takes p params).withChg c).reevaluate

theorem State.rechecked_keeps (s : State) (p : Port) (params : List Byte) (c : Changeover) (r : Reply) :
    let t := (s.rechecked p params c).respond p r
    t.mon = s.mon ∧ t.lines = s.lines ∧ s.intakeKept t ∧ s.spliceKept t ∧ s.rulesKept t := by
  simp [State.rechecked, State.intakeKept, State.spliceKept, State.rulesKept]

theorem State.rechecked_spec {s : State} {p : Port} {params : List Byte} {c : Changeover} (bound : c.history.length ≤ 3) :
    let r := c.reevaluated s.now s.mainFault s.reserveFault
    (s.rechecked p params c).chg = r.1 ∧
      ∀ q, (s.rechecked p params c).port q = ((s.takes p params).port q).offers r.2 := by
  obtain ⟨chg, ports⟩ := State.reevaluate_spec ((s.takes p params).withChg c) (by simpa using bound)
  have faults : ((s.takes p params).withChg c).mainFault = s.mainFault ∧
      ((s.takes p params).withChg c).reserveFault = s.reserveFault := s.takes_faults p params
  have now : ((s.takes p params).withChg c).now = s.now := by simp [State.now]
  have same : ∀ q, ((s.takes p params).withChg c).port q = (s.takes p params).port q := fun q => by cases q <;> rfl
  simp only [faults, now, same, State.withChg_chg] at chg ports
  exact ⟨chg, ports⟩

section
variable {s : State} {p : Port} (open_ : s.open_ p)
include open_

theorem exec_auto : exec (.auto p []) s = .next ((s.rechecked p [] { s.chg with manual := false }).respond p (.ok [])) := by
  refine next_answered_nil open_ ?_
  simp only [State.takes_frame]
  rfl

theorem exec_setReturn {params : List Byte} (length : params.length = 3) (flag : byteAt params 0 ≤ 1) :
    exec (.setReturn p params) s =
      .next ((s.rechecked p params
        { s.chg with
          autoReturn := byteAt params 0 == 1, returnDelay := max 1 (min 3600 (field params 1 2))
          returnTimer := if byteAt params 0 = 1 then s.chg.returnTimer else none }).respond p
        ⟨.ok, decide (field params 1 2 < 1 ∨ 3600 < field params 1 2), []⟩) := by
  refine next_answered open_ (by omega) (by simp [length]) ?_
  simp only [flagOf_small flag, clampTo_eq (lo := 1) (hi := 3600) _ (by decide), State.takes_frame, Changeover.setReturn]
  have on : (byteAt params 0 == 1) = decide (byteAt params 0 = 1) := rfl
  simp only [on, decide_eq_true_eq]
  rfl

theorem exec_releaseHold :
    exec (.releaseHold p []) s = .next (((s.takes p []).releaseHold.reevaluate).respond p (.ok [])) :=
  next_answered_nil open_ rfl

theorem exec_changeover {b : Byte} {target : Position} (names : positionOf b.toNat = some target) :
    exec (.changeover p [b]) s =
      .next (if s.faultOf target then s.answers p [b] (.no .faulted)
        else ((s.takes p [b]).manualChangeover target).respond p (.ok [])) := by
  have byte : byteAt [b] 0 = b.toNat := rfl
  by_cases fault : s.faultOf target = true
  · rw [if_pos fault]
    refine next_refused open_ (by simp) rfl ?_
    simp only [byte, names, State.takes_reads, fault, if_true]
  · rw [if_neg fault]
    refine next_answered open_ (by simp) rfl ?_
    simp only [byte, names, State.takes_reads, fault]
    rfl

end

/-- A RELEASE HOLD before its re-evaluation. -/
theorem State.releaseHold_spec (s : State) :
    s.releaseHold.chg = { s.chg with history := [], hold := false } ∧ s.releaseHold.mainFault = s.mainFault ∧
      s.releaseHold.reserveFault = s.reserveFault ∧ s.releaseHold.now = s.now ∧
      ∀ q, s.releaseHold.port q =
        (s.port q).offers (if s.chg.hold then [⟨.changeoverHold, s.chg.position.code, 0, s.now⟩] else []) := by
  unfold State.releaseHold
  split
  · next held => exact ⟨by simp, rfl, rfl, by simp [State.now], fun q => by cases q <;> rfl⟩
  · next clear => exact ⟨by simp, rfl, rfl, by simp [State.now], fun q => by cases q <;> rfl⟩

theorem State.releaseHold_keeps (s : State) :
    s.releaseHold.mon = s.mon ∧ s.releaseHold.lines = s.lines ∧ s.intakeKept s.releaseHold ∧ s.spliceKept s.releaseHold ∧
      s.rulesKept s.releaseHold := by
  unfold State.releaseHold
  dsimp only
  split <;> simp [State.intakeKept, State.spliceKept, State.rulesKept]

theorem positionOf_none {n : Nat} (h : 1 < n) : positionOf n = none := by
  obtain ⟨k, rfl⟩ := Nat.exists_eq_add_of_le' (show 2 ≤ n from h); rfl

/-- Settles O44: each command's settings, the re-evaluation after them, and the events of both. -/
theorem changeoverCommands : Obligations.ChangeoverCommands := by
  intro s p open_
  refine ⟨fun b target names => ⟨fun fault => ?_, fun healthy => ?_⟩, fun hold => ?_, ?_, fun params length flag => ?_,
    fun manual => ?_, ?_, fun b large => ?_, fun params length large => ?_, fun b target names healthy => ?_, fun bound =>
    ⟨?_, fun params length flag => ?_, ?_⟩⟩
  · rw [exec_changeover open_ names, if_pos fault]
  · rw [exec_changeover open_ names, if_neg (by simp [healthy])]
    refine ⟨_, rfl, ?_⟩
    unfold State.manualChangeover
    split <;> simp [State.intakeKept, State.spliceKept, State.rulesKept]
  · rw [exec_auto open_, State.rechecked, State.reevaluate_held (by simpa using hold)]
  · refine ⟨_, exec_auto open_, ?_, ?_, ?_, s.rechecked_keeps ..⟩ <;>
      simp [State.rechecked, State.reevaluate_settings]
  · refine ⟨_, exec_setReturn open_ length flag, ?_, ?_, ?_, fun off => ?_, s.rechecked_keeps ..⟩
    · simp [State.rechecked, State.reevaluate_settings]
    · simp [State.rechecked, State.reevaluate_settings]
    · simp [State.rechecked, State.reevaluate_settings]
    · simpa [State.rechecked] using State.reevaluate_timer _ (by simp [off]) (by simp [off])
  · obtain ⟨chg, -⟩ := (s.takes p []).releaseHold_spec
    refine ⟨_, exec_releaseHold open_, ?_⟩
    rw [State.reevaluate_manual (by rw [chg]; simpa using manual)]
    simpa using chg
  · obtain ⟨chg, -⟩ := (s.takes p []).releaseHold_spec
    refine ⟨_, exec_releaseHold open_, ?_, ?_, ?_⟩
    · simp [State.reevaluate_settings, chg]
    · simpa using State.reevaluate_history _ (by rw [chg])
    · simpa [State.intakeKept, State.spliceKept, State.rulesKept] using (s.takes p []).releaseHold_keeps
  · refine next_refused open_ (by simp) rfl ?_
    simp only [show byteAt [b] 0 = b.toNat from rfl, positionOf_none large]
  · refine next_refused open_ (by omega) (by simp [length]) ?_
    simp only [flagOf_large large]
  · rw [exec_changeover open_ names, if_neg (by simp [healthy])]
    simp [State.manualChangeover]
  · exact ⟨_, exec_auto open_, State.rechecked_spec bound⟩
  · exact ⟨_, exec_setReturn open_ length flag, State.rechecked_spec bound⟩
  · obtain ⟨chg, main, reserve, now, ports⟩ := (s.takes p []).releaseHold_spec
    obtain ⟨after, events⟩ := State.reevaluate_spec (s.takes p []).releaseHold (by rw [chg]; simp)
    refine ⟨_, exec_releaseHold open_, ?_⟩
    simp only [chg, main, reserve, now, ports, State.takes_frame, s.takes_faults] at after events
    exact ⟨after, fun q => by rw [events q, PortState.offers_append]⟩

/-! ### The monitor's settings (R133, R134) -/

theorem roleOf_none {n : Nat} (h : 3 < n) : roleOf n = none := by
  obtain ⟨k, rfl⟩ := Nat.exists_eq_add_of_le' (show 4 ≤ n from h); rfl

section
variable {s : State} {p : Port} {params : List Byte} (open_ : s.open_ p) (length : params.length = 7)
include open_ length

theorem exec_setChannel {role : Role} (index : byteAt params 0 ≤ 7) (order : field params 1 2 ≤ field params 3 2)
    (high : field params 3 2 ≤ 1023) (names : roleOf (byteAt params 6) = some role) :
    exec (.setChannel p params) s =
      .next ((((s.takes p params).withChannel (byteAt params 0)
        { s.channel (byteAt params 0) with
          low := field params 1 2, high := field params 3 2
          persistence := max 1 (min 15 (byteAt params 5)), role := role }).reform (s.takes p params)).respond p
        ⟨.ok, decide (byteAt params 5 < 1 ∨ 15 < byteAt params 5), []⟩) := by
  refine next_answered open_ (by omega) (by simp [length]) ?_
  simp only [names, clampTo_eq (lo := 1) (hi := 15) _ (by decide), State.takes_reads]
  rw [if_neg (by omega)]
  rfl

theorem exec_setChannel_refused
    (bad : 7 < byteAt params 0 ∨ 1023 < field params 1 2 ∨ 1023 < field params 3 2 ∨ field params 3 2 < field params 1 2 ∨
      3 < byteAt params 6) :
    exec (.setChannel p params) s = .next (s.answers p params (.no .badValue)) := by
  refine next_refused open_ (by omega) (by simp [length]) ?_
  dsimp only
  split
  · rfl
  · next role names =>
    have small : ¬ 3 < byteAt params 6 := fun large => by simp [roleOf_none large] at names
    exact if_pos (by omega)

end

/-- Settles O43: the settings stored, and the re-evaluation after a change of the exciter health. -/
theorem monitorSettings : Obligations.MonitorSettings := by
  intro s p open_
  refine ⟨fun a b => ?_, fun params role length known index order high names => ?_,
    fun params length bad => exec_setChannel_refused open_ length bad,
    fun params role length index order high names bound =>
      ⟨_, _, exec_setChannel open_ length index order high names, State.reform_follow (by simpa using bound) (by simp)
        (by simp [State.now]) fun q => by cases q <;> rfl⟩⟩
  · have first : byteAt [a, b] 0 = a.toNat := rfl
    have last : byteAt [a, b] 1 = b.toNat := rfl
    refine ⟨fun order high => next_answered open_ (by simp) rfl ?_, fun bad => next_refused open_ (by simp) rfl ?_⟩
    · simp only [first, last, State.takes_frame]
      exact if_neg (by omega)
    · simp only [first, last]
      exact if_pos (by omega)
  · refine ⟨_, exec_setChannel open_ length index order high names, ?_⟩
    have known' : byteAt params 0 < (s.takes p params).mon.channels.length := by simpa using known
    generalize settings : ({ s.channel (byteAt params 0) with
      low := field params 1 2, high := field params 3 2
      persistence := max 1 (min 15 (byteAt params 5)), role := role } : Channel) = c
    have mon : ∀ r, (State.respond (((s.takes p params).withChannel (byteAt params 0) c).reform (s.takes p params)) p r).mon =
        ((s.takes p params).withChannel (byteAt params 0) c).mon := by simp
    refine ⟨(State.channel_congr (by rw [mon]) _).trans (State.channel_withChannel _ known'), fun i other => ?_, ?_, ?_⟩
    · refine (State.channel_congr (by rw [mon]) _).trans ((State.channel_withChannel_ne _ other).trans ?_)
      simp
    · simp [State.withChannel]
    · refine ⟨by simp, by simp [State.intakeKept], by simp [State.spliceKept], by simp [State.rulesKept], _,
        congrArg PortState.response (State.port_withPort ..), rfl, rfl⟩

/-! ### Automatic changeovers (R140 to R142) -/

theorem State.reevaluate_fails {s : State} (auto : s.chg.manual = false) (clear : s.chg.hold = false)
    (position : s.chg.position = .main) (main : s.mainFault = true) (reserve : s.reserveFault = false) :
    s.reevaluate = s.autoChangeover .reserve := by
  unfold State.reevaluate
  rw [if_neg (by simp [auto, clear])]
  simp only [position, main, reserve]

theorem State.reevaluate_returns {s : State} (auto : s.chg.manual = false) (clear : s.chg.hold = false)
    (position : s.chg.position = .reserve) (main : s.mainFault = false) (reserve : s.reserveFault = false)
    (on : s.chg.autoReturn = true) : s.reevaluate = s.withChg s.chg.startTimer := by
  unfold State.reevaluate
  rw [if_neg (by simp [auto, clear])]
  simp only [position, main, reserve, on]
  rfl

theorem Line.edgeDue_held {l : Line} {n : Nat} (input : l.output = false) (pend : l.pendingChange = some n)
    (held : 100000 ≤ n) : l.edgeDue = true := by
  simp [Line.edgeDue, input, pend, held]

/-- Settles O45: an automatic changeover said once, as the expiry, a re-evaluation and the edge of a fault line lead to it. -/
theorem automaticChangeovers : Obligations.AutomaticChangeovers := by
  intro s
  have expiry : s.chg.returnTimer = some 0 → exec .returnTimerExpiry s = .next (s.autoChangeover .main) := fun due =>
    congrArg Host.Outcome.next (if_pos (by simp [Changeover.timerDue, due]))
  refine ⟨fun due => ⟨_, expiry due, ?_, ?_, ?_, ?_, ?_, ?_, ?_, ?_, fun short => ?_, fun a b history => ?_⟩,
    fun p open_ hold position main reserve => ⟨_, exec_auto open_, ?_⟩,
    fun p open_ hold position main reserve on stopped => ⟨_, exec_auto open_, ?_⟩,
    fun bound => ⟨fun due => ⟨_, expiry due, State.autoChangeover_spec s .main bound⟩,
      fun i n input pend held function => ?_⟩⟩
  · simp [State.autoChangeover_chg]
  · simp [State.autoChangeover_chg]
  · simp [State.autoChangeover_chg]
  · simp
  · simp
  · simp [State.intakeKept]
  · simp [State.spliceKept]
  · simp [State.rulesKept]
  · rw [State.autoChangeover_chg, appendHistory_eq _ (by omega)]
    match history : s.chg.history, short with
    | [], _ => simp [holdDue]
    | [a], _ => simp [holdDue]
  · rw [State.autoChangeover_chg, appendHistory_eq _ (by simp [history])]
    simp [history, holdDue]
  · obtain ⟨main', reserve'⟩ := s.takes_faults p []
    rw [State.rechecked, State.reevaluate_fails (s := (s.takes p []).withChg { s.chg with manual := false }) (by simp)
      (by simpa using hold) (by simpa using position) (main'.trans main) (reserve'.trans reserve)]
    simp [State.autoChangeover_chg]
  · obtain ⟨main', reserve'⟩ := s.takes_faults p []
    rw [State.rechecked, State.reevaluate_returns (s := (s.takes p []).withChg { s.chg with manual := false }) (by simp)
      (by simpa using hold) (by simpa using position) (main'.trans main) (reserve'.trans reserve) (by simpa using on)]
    simp [Changeover.startTimer, position, stopped, ticksPerSecond]
  · refine ⟨_, congrArg Host.Outcome.next (if_pos (Line.edgeDue_held input pend held)), ?_⟩
    have acts : s.acceptEdge i.val = (s.withLine i.val
        { s.line i.val with accepted := (s.line i.val).pin, pendingChange := none, latched := true }).reform s := by
      rcases function with h | h | h <;> simp only [State.acceptEdge, h]
    rw [acts]
    exact ⟨State.reform_follow bound (by simp) (by simp [State.now]) fun q => by cases q <;> rfl, by
      simp [State.withLine]⟩

end Sys2Proof.Machine
end

