-- ==== Sys2Proof/Proofs/ContactLines.lean ====
section
/-! The contact lines: debounced inputs, output levels, configuration and locks (chapter 10). -/

namespace Sys2Proof.Machine

open Sys2Proof

-- One proof after the other: proofs that wait for each other hold a thread each.
set_option Elab.async false

/-! ### The level an output drives (R138, R153) -/

/-- The source of each output function (R153). -/
def State.source (s : State) (l : Line) : LineFunction → Bool
  | .level => l.commanded == .high
  | .blink => s.lines.blink == .high
  | .changeover => s.chg.position == .reserve
  | .carrierMute => s.carrierMute
  | .gate => s.tb.gateOpen
  | .tally => match l.tallyLane with | some i => (s.lane i).state == .onAir | none => false
  | .alert => s.mainFault || s.reserveFault || s.siteInterlock
  | _ => false

theorem Level.ofBool_high (l : Level) : Level.ofBool (l == .high) = l := by
  cases l <;> rfl

theorem State.functionLevel_eq (s : State) (l : Line) : s.functionLevel l = .ofBool (s.source l l.function) := by
  unfold State.functionLevel State.source
  cases l.function <;> simp only [Level.ofBool_high] <;> rfl

theorem State.drivenLevel_unlocked {l : Line} (s : State) (free : l.frozen = none) :
    s.drivenLevel l = if s.source l l.function = l.invert then .low else .high := by
  rw [State.drivenLevel, free, State.functionLevel_eq]
  cases s.source l l.function <;> cases l.invert <;> rfl

/-! ### Accepted edges (R151, R152) -/

theorem State.acceptEdge_keeps {s : State} {i : Nat} (index : i < s.lines.records.length) :
    (s.acceptEdge i).line i =
      { s.line i with accepted := (s.line i).pin, pendingChange := none, latched := true } ∧
    (∀ j, j ≠ i → (s.acceptEdge i).line j = s.line j) ∧ (s.acceptEdge i).mon = s.mon ∧ s.intakeKept (s.acceptEdge i) ∧
    s.rulesKept (s.acceptEdge i) := by
  generalize edge : ({ s.line i with accepted := (s.line i).pin, pendingChange := none, latched := true } : Line) = l
  have kept : (s.acceptEdge i).lines = (s.withLine i l).lines ∧ (s.acceptEdge i).mon = s.mon ∧
      s.intakeKept (s.acceptEdge i) ∧ s.rulesKept (s.acceptEdge i) := by
    unfold State.acceptEdge
    dsimp only
    rw [edge]
    split <;> simp [State.intakeKept, State.rulesKept]
  obtain ⟨lines, rest⟩ := kept
  exact ⟨(State.line_congr (by rw [lines]) i).trans (State.line_withLine _ index),
    fun j other => (State.line_congr (by rw [lines]) j).trans (State.line_withLine_ne _ other), rest⟩

theorem State.acceptEdge_plain {s : State} {i : Nat} (plain : (s.line i).function = .plain) :
    s.acceptEdge i =
      (s.withLine i { s.line i with accepted := (s.line i).pin, pendingChange := none, latched := true }).raise .lineEdge i
        (if (s.line i).pin = .high ↔ (s.line i).invert = false then 1 else 0) := by
  simp only [State.acceptEdge, plain]
  congr 1
  unfold Line.polarity Line.inputLevel
  cases (s.line i).pin <;> cases (s.line i).invert <;> rfl

/-- Settles O47: the debounce and the accepted edge of an input, and the level of an unlocked output as its source has it. -/
theorem lineInputsAndMuting : Obligations.LineInputsAndMuting := by
  refine ⟨fun s i => ⟨fun level input => congrArg Host.Outcome.next ?_, fun n input pend held => ?_⟩,
    fun s l output mute free cause => ?_, fun s l output free high source => ?_⟩
  · congr 1
    unfold Line.pinChange
    rw [if_neg (by simp [input])]
    split <;> rfl
  · have accepts : exec (.lineEdgeAccepted i) s = .next (s.acceptEdge i.val) :=
      congrArg Host.Outcome.next (if_pos (Line.edgeDue_held input pend held))
    rw [accepts]
    exact ⟨fun plain => by rw [State.acceptEdge_plain plain], fun index => ⟨_, rfl, State.acceptEdge_keeps index⟩⟩
  · have asserted : s.source l l.function = true := by
      rw [mute, State.source, State.carrierMute, State.mutePart, State.muteGate, Timebase.gateOpen]
      rcases cause with stopped | unlabelled | ⟨unlocked, notHeld⟩
      · simp [stopped]
      · simp [unlabelled]
      · simp [unlocked, notHeld]
    rw [State.drivenLevel_unlocked s free, asserted]
    cases l.invert <;> rfl
  · have sourced : s.source l l.function = high := by
      rcases source with ⟨fn, rfl⟩ | ⟨fn, rfl⟩ | ⟨fn, rfl⟩ | ⟨fn, rfl⟩ | ⟨fn, rfl⟩ | ⟨fn, i, lane, rfl⟩ | ⟨fn, rfl⟩ <;> rw [fn]
      · rfl
      · rfl
      · rfl
      · exact (Bool.or_assoc ..).symm
      · rfl
      · rw [State.source, lane]
      · rfl
    rw [State.drivenLevel_unlocked s free, sourced]

/-! ### Configuration and levels (R150, R155, R156) -/

theorem levelOf_none {n : Nat} (h : 1 < n) : levelOf n = none := by
  obtain ⟨k, rfl⟩ := Nat.exists_eq_add_of_le' (show 2 ≤ n from h); rfl

theorem levelOf_some {n : Nat} {level : Level} (h : levelOf n = some level) : n ≤ 1 := by
  by_contra large
  simp [levelOf_none (show 1 < n by omega)] at h

theorem directionOf_none {n : Nat} (h : 1 < n) : directionOf n = none := by
  obtain ⟨k, rfl⟩ := Nat.exists_eq_add_of_le' (show 2 ≤ n from h); rfl

theorem directionOf_some {n : Nat} {output : Bool} (h : directionOf n = some output) : n = if output then 1 else 0 := by
  match n, h with
  | 0, h => cases Option.some.inj h; rfl
  | 1, h => cases Option.some.inj h; rfl

theorem functionOf_some {output : Bool} {n : Nat} {fn : LineFunction} (h : functionOf output n = some fn) :
    (output = false → n ≤ 4) ∧ (output = true → 5 ≤ n ∧ n ≤ 11) ∧ (n = 10 → fn = .tally) := by
  unfold functionOf at h
  split at h <;> cases output <;> simp_all

/-- The values that CONFIGURE LINE refuses (R150). -/
theorem lineSettings_bad {ps : List Byte}
    (bad : 1 < byteAt ps 1 ∨ 1 < byteAt ps 2 ∨ (byteAt ps 1 = 0 ∧ 4 < byteAt ps 3) ∨
      (byteAt ps 1 = 1 ∧ (byteAt ps 3 < 5 ∨ 11 < byteAt ps 3)) ∨
      (byteAt ps 1 = 1 ∧ byteAt ps 3 = 10 ∧ 3 < byteAt ps 4) ∨ 1 < byteAt ps 5) : lineSettings ps = none := by
  unfold lineSettings
  split
  · next output invert commanded direction flag level =>
    have bytes := directionOf_some direction
    have small := levelOf_some level
    have flags : byteAt ps 2 ≤ 1 := by
      by_contra large
      simp [flagOf_large (show 1 < byteAt ps 2 by omega)] at flag
    split
    · rfl
    · next fn names =>
      obtain ⟨input, out, tally⟩ := functionOf_some names
      cases output with
      | false =>
        have := input rfl
        simp only [Bool.false_eq_true, if_false] at bytes
        omega
      | true =>
        have := out rfl
        simp only [if_true] at bytes
        have ten : byteAt ps 3 = 10 := by omega
        rw [if_pos (tally ten), if_neg (by omega)]
  · rfl

theorem Line.configured_eq (l : Line) (c : LineSettings) :
    l.configured c =
      { l with
        output := c.output, invert := c.invert, function := c.function, tallyLane := c.tallyLane
        commanded := c.commanded
        accepted := if l.output = true ∧ c.output = false then l.pin else l.accepted
        pendingChange := if l.output = c.output then l.pendingChange else none
        latched := if l.output = c.output then l.latched else false } := by
  unfold Line.configured
  cases was : l.output <;> cases is : c.output <;> rfl

section
variable {s : State} {p : Port} {params : List Byte} (open_ : s.open_ p) (length : params.length = 6)
include open_ length

theorem exec_configureLine {c : LineSettings} (index : byteAt params 0 ≤ 11)
    (free : (s.line (byteAt params 0)).locked = false) (settings : lineSettings params = some c) :
    exec (.configureLine p params) s =
      .next ((((s.takes p params).withLine (byteAt params 0) ((s.line (byteAt params 0)).configured c)).reform
        (s.takes p params)).respond p (.ok [])) := by
  refine next_answered open_ (by omega) (by simp [length]) ?_
  simp only [State.takes_reads, free, settings]
  rw [if_neg (by omega)]
  rfl

theorem exec_configureLine_locked (index : byteAt params 0 ≤ 11) (locked : (s.line (byteAt params 0)).locked = true) :
    exec (.configureLine p params) s = .next (s.answers p params (.no .locked)) := by
  refine next_refused open_ (by omega) (by simp [length]) ?_
  simp only [State.takes_reads, locked, if_true]
  exact if_neg (by omega)

theorem exec_configureLine_range (index : 11 < byteAt params 0) :
    exec (.configureLine p params) s = .next (s.answers p params (.no .badValue)) :=
  next_refused open_ (by omega) (by simp [length]) (if_pos index)

theorem exec_configureLine_bad (free : (s.line (byteAt params 0)).locked = false) (settings : lineSettings params = none) :
    exec (.configureLine p params) s = .next (s.answers p params (.no .badValue)) := by
  refine next_refused open_ (by omega) (by simp [length]) ?_
  simp only [State.takes_reads, free, settings]
  split <;> rfl

end

/-- Settles O48: the order of the refusals, the stored settings, and the exciter health formed anew. -/
theorem lineLevels : Obligations.LineLevels := by
  intro s p open_
  refine ⟨fun params length => next_badLength open_ (.inr (by simpa using length)), fun a b bad => ?_,
    fun a b level index names => ?_, fun params c length index known free settings => ?_,
    fun params c length index free settings bound => ?_,
    fun params length index => exec_configureLine_range open_ length index,
    fun params length free bad => exec_configureLine_bad open_ length free (lineSettings_bad bad)⟩
  · refine next_refused open_ (by simp) rfl ?_
    simp only [show byteAt [a, b] 0 = a.toNat from rfl, show byteAt [a, b] 1 = b.toNat from rfl]
    split
    · rfl
    · next level names =>
      have := levelOf_some names
      exact if_pos (by omega)
  · have first : byteAt [a, b] 0 = a.toNat := rfl
    have second : byteAt [a, b] 1 = b.toNat := rfl
    have inRange : ¬ 11 < a.toNat := by omega
    refine ⟨fun locked => next_refused open_ (by simp) rfl ?_, fun free wrong => next_refused open_ (by simp) rfl ?_,
      fun free output function => ⟨next_answered open_ (by simp) rfl ?_, fun frozen t => ?_⟩⟩
    · simp only [first, second, names, if_neg inRange, State.takes_reads, locked, if_true]
    · simp only [first, second, names, if_neg inRange, State.takes_reads, free]
      exact if_pos wrong
    · simp only [first, second, names, if_neg inRange, State.takes_reads, free, Bool.false_eq_true, if_false]
      exact if_neg (by simp [output, function])
    · simp only [State.drivenLevel, frozen, State.functionLevel, function]
  · rw [exec_configureLine open_ length index free settings, Line.configured_eq]
    generalize stored : ({ s.line (byteAt params 0) with
      output := c.output, invert := c.invert, function := c.function, tallyLane := c.tallyLane
      commanded := c.commanded
      accepted := if (s.line (byteAt params 0)).output = true ∧ c.output = false then (s.line (byteAt params 0)).pin
        else (s.line (byteAt params 0)).accepted
      pendingChange := if (s.line (byteAt params 0)).output = c.output then (s.line (byteAt params 0)).pendingChange else none
      latched := if (s.line (byteAt params 0)).output = c.output then (s.line (byteAt params 0)).latched
        else false } : Line) = l
    have lines : ∀ r, (State.respond (((s.takes p params).withLine (byteAt params 0) l).reform (s.takes p params)) p r).lines =
        ((s.takes p params).withLine (byteAt params 0) l).lines := by simp
    have own : ∀ r, (State.respond (((s.takes p params).withLine (byteAt params 0) l).reform (s.takes p params)) p r).line
        (byteAt params 0) = l := fun r =>
      (State.line_congr (by rw [lines]) _).trans (State.line_withLine _ (by simpa using known))
    refine ⟨_, rfl, ?_, ?_, ?_, ?_, ?_, fun j other => ?_, ?_⟩
    iterate 5 rw [own, ← stored]
    · exact (State.line_congr (by rw [lines]) _).trans ((State.line_withLine_ne _ other).trans (by simp))
    · simp [State.intakeKept, State.spliceKept, State.rulesKept]
  · refine ⟨_, exec_configureLine open_ length index free settings,
      State.reform_follow (by simpa using bound) (by simp) (by simp [State.now]) fun q => by cases q <;> rfl, ?_⟩
    rw [Line.configured_eq]
    simp [State.withLine]

/-- Settles O49: the lock, with the level an output then drives, and the refusal of a locked line. -/
theorem lineLocks : Obligations.LineLocks := by
  intro s
  refine ⟨fun b open_ index => ?_,
    fun p params open_ length index locked => exec_configureLine_locked open_ length index locked⟩
  have byte : byteAt [b] 0 = b.toNat := rfl
  have inRange : ¬ 11 < b.toNat := by omega
  refine ⟨fun free => next_answered open_ (by simp) rfl ?_, fun locked => next_answered open_ (by simp) rfl ?_⟩
  · simp only [byte, if_neg inRange, State.takes_reads, free]
    rfl
  · simp only [byte, if_neg inRange, State.takes_reads, locked]
    rfl

end Sys2Proof.Machine
end

