-- ==== Sys2Proof/Proofs/PartStates.lean ====
section
/-! Power-on, the reset pin, START and STOP (R165, R166, R173). -/

namespace Sys2Proof.Machine

open Sys2Proof

-- One proof after the other: proofs that wait for each other hold a thread each.
set_option Elab.async false

/-! ### Power-on and the reset pin (R173) -/

theorem Clip.resetPin_frame (c : Clip) (draw : Nat) :
    (c.resetPin draw).playLists = List.replicate 32 [] ∧ (c.resetPin draw).service = none := by
  unfold Clip.resetPin
  dsimp only
  split <;> exact ⟨rfl, rfl⟩

theorem Clip.resetPin_readSlot {c : Clip} {a : Nat} (draw : Nat)
    (other : ∀ q slot packet d, c.service = some (.write q slot packet d) → a ≠ slot) :
    (c.resetPin draw).readSlot a = c.readSlot a := by
  unfold Clip.resetPin
  dsimp only
  split
  · next q slot packet d service => exact Clip.readSlot_writeSlot_other _ _ (other q slot packet d service)
  · rfl

/-- Settles O50: power-on and the reset pin put the reset state in place of the part's, but for the packet whose bytes are
leaving, the levels of the pins, and clip memory at the pin. -/
theorem powerOnAndResetPin : Obligations.PowerOnAndResetPin := by
  refine fun s => ⟨fun c mem => ?_, _, rfl, fun a other => Clip.resetPin_readSlot s.draws other⟩
  obtain ⟨lists, service⟩ := s.clip.resetPin_frame s.draws
  rcases List.mem_pair.mp mem with rfl | rfl
  · exact ⟨_, rfl, rfl, rfl, rfl, rfl, rfl, rfl, rfl, rfl, rfl, rfl, rfl, rfl, rfl, rfl, rfl, rfl, rfl, rfl⟩
  · exact ⟨_, rfl, rfl, rfl, rfl, rfl, rfl, rfl, rfl, rfl, rfl, rfl, rfl, rfl, rfl, rfl, rfl, lists, service, rfl⟩

/-! ### What breaks leave of the ports (R171) -/

/-- The ports are as they were but for their event queues. -/
def State.eventsOnly (s t : State) : Prop :=
  ∀ p, (t.port p).inProgress = (s.port p).inProgress ∧ (t.port p).response = (s.port p).response ∧
    (t.port p).overrun = (s.port p).overrun

theorem State.eventsOnly_of_eq {s t : State} (h : ∀ p, t.port p = s.port p) : s.eventsOnly t :=
  fun p => by rw [h]; exact ⟨rfl, rfl, rfl⟩

theorem State.eventsOnly.trans {s t u : State} (h : s.eventsOnly t) (k : t.eventsOnly u) : s.eventsOnly u := by
  intro p
  obtain ⟨work, response, overrun⟩ := k p
  rw [work, response, overrun]
  exact h p

theorem State.raise_eventsOnly (s : State) (kind : EventKind) (subject detail : Nat) :
    s.eventsOnly (s.raise kind subject detail) := by
  intro p
  rw [State.raise_port]
  simp

theorem State.endBreak_eventsOnly (s : State) (i : Nat) (cause : EndCause) (at_ : Time) :
    s.eventsOnly (s.endBreak i cause at_) := by
  intro p
  rw [State.endBreak_port]
  simp

theorem State.foldl_eventsOnly {α : Type} {g : State → α → State} (h : ∀ (u : State) a, u.eventsOnly (g u a)) (l : List α)
    (s : State) : s.eventsOnly (l.foldl g s) := by
  induction l generalizing s with
  | nil => exact State.eventsOnly_of_eq fun _ => rfl
  | cons a l ih => exact (h s a).trans (ih (g s a))

theorem State.eventsOnly_ite {s t u : State} {c : Prop} [Decidable c] (h : s.eventsOnly t) (k : s.eventsOnly u) :
    s.eventsOnly (if c then t else u) := by
  split
  · exact h
  · exact k

theorem State.withBreak_eventsOnly (s : State) (i : Nat) (b : BreakRecord) : s.eventsOnly (s.withBreak i b) :=
  State.eventsOnly_of_eq fun p => by cases p <;> rfl

theorem State.fire_eventsOnly (s : State) (i : Nat) (x : Time) (duration : Option Nat) :
    s.eventsOnly (s.fire i x duration) := by
  have blocks : ∀ w, s.eventsOnly (s.blockBreak w i) := fun w =>
    (State.eventsOnly_of_eq fun p => by cases p <;> rfl : s.eventsOnly (s.withWindow w _)).trans (State.endBreak_eventsOnly _ _ _ _)
  have claims : ∀ lane list b, s.eventsOnly (((s.claimLane lane i list).withBreak i b).raise .breakCued i lane) :=
    fun lane list b =>
      ((State.eventsOnly_of_eq fun p => by cases p <;> simp [State.port] : s.eventsOnly (s.claimLane lane i list)).trans
        (State.withBreak_eventsOnly _ _ _)).trans (State.raise_eventsOnly _ _ _ _)
  unfold State.fire
  dsimp only
  split
  · exact s.endBreak_eventsOnly _ _ _
  split
  · exact blocks _
  split
  · exact s.endBreak_eventsOnly _ _ _
  split
  · exact s.endBreak_eventsOnly _ _ _
  split
  · exact s.endBreak_eventsOnly _ _ _
  exact State.eventsOnly_ite ((s.withBreak_eventsOnly _ _).trans (State.endBreak_eventsOnly _ _ _ _)) (claims _ _ _)

theorem State.fireTime_eventsOnly (s : State) (i : Nat) : s.eventsOnly (s.fireTime i) := by
  unfold State.fireTime
  split
  · split
    · exact s.fire_eventsOnly _ _ _
    · exact State.eventsOnly_of_eq fun _ => rfl
  · exact State.eventsOnly_of_eq fun _ => rfl

/-! ### The TIME triggers that are due (R107) -/

theorem State.fireTime_notDue {s : State} {i : Nat} (h : (s.brk i).timeDue s.now = none) : s.fireTime i = s := by
  unfold State.fireTime
  rw [h]
  split <;> rfl

theorem State.fireDueTimes_none {s : State} (h : ∀ i, i < 32 → (s.brk i).timeDue s.now = none) : s.fireDueTimes = s :=
  foldl_eq_of_noop _ s breakIndices fun i mem => State.fireTime_notDue (h i (mem_breakIndices.mp mem))

theorem State.fireDueTimes_only {s : State} {i : Nat} {at_ : Time} (small : i < 32) (run : s.part = .run)
    (waiting : (s.brk i).state = .waiting) (trigger : (s.brk i).trigger = .time at_) (due : reached s.now at_ = true)
    (only : ∀ j, j < 32 → j ≠ i → (s.brk j).timeDue s.now = none) : s.fireDueTimes = s.fire i at_ none := by
  have fires := State.fireTime_due run waiting trigger due
  obtain ⟨others, -⟩ := s.fire_brkOnly i at_ none
  have now : (s.fire i at_ none).now = s.now := by simp [State.now]
  refine (foldl_eq_of_only State.fireTime s i breakIndices breakIndices_nodup (mem_breakIndices.mpr small)
    (fun j mem other => State.fireTime_notDue (only j (mem_breakIndices.mp mem) other)) fun j mem other => ?_).trans fires
  rw [fires]
  refine State.fireTime_notDue ?_
  rw [others j other, now]
  exact only j (mem_breakIndices.mp mem) other

/-! ### START and its completion (R165) -/

/-- RUN entered, and the START of a port answered and reported. -/
def State.started (s : State) (p : Port) : State := (s.enterRun.complete p (.ok [])).raise .startComplete (portCode p) 0

theorem State.started_spec (s : State) (p : Port) :
    let t := s.started p
    t.part = .run ∧ t.launch = { s.launch.openGap s.now with lastEnd := none } ∧ t.store = s.store ∧ t.sel = s.sel ∧
      t.feedA = s.feedA ∧ t.feedB = s.feedB ∧ t.tb = s.tb ∧ t.paramLock = s.paramLock ∧ s.siteKept t ∧ s.spliceKept t ∧
      ∀ q, t.port q =
        PortState.offer (if q = p then { s.port p with inProgress := none }.respond (.ok []) else s.port q)
          ⟨.startComplete, portCode p, 0, s.now⟩ := by
  intro t
  have ports : ∀ q, (s.enterRun.complete p (.ok [])).port q =
      if q = p then { s.port p with inProgress := none }.respond (.ok []) else s.port q := by
    intro q
    cases p <;> cases q <;> rfl
  have now : (s.enterRun.complete p (.ok [])).now = s.now := by simp [State.now, State.complete, State.enterRun]
  refine ⟨?_, ?_, ?_, ?_, ?_, ?_, ?_, ?_, ?_, ?_, fun q => (State.raise_port ..).trans (by rw [ports, now])⟩
  all_goals simp [t, State.started, State.complete, State.enterRun, State.siteKept, State.spliceKept]

theorem exec_startComplete {s : State} {p : Port} (starting : s.part = .starting)
    (own : (s.port p).inProgress = some .start) (other : (s.port p.other).inProgress ≠ some .start) :
    exec .startComplete s = .next (s.started p).fireDueTimes := by
  refine congrArg Host.Outcome.next ((if_pos starting).trans (congrArg State.fireDueTimes ?_))
  cases p with
  | station =>
    have first : s.enterRun.startDone .station = s.started .station := if_pos own
    rw [first]
    refine if_neg ?_
    obtain ⟨-, -, -, -, -, -, -, -, -, -, ports⟩ := s.started_spec .station
    rw [ports .network, if_neg nofun, (PortState.offer_frame ..).2.1]
    exact other
  | network =>
    have first : s.enterRun.startDone .station = s.enterRun := if_neg other
    rw [first]
    exact if_pos own

/-- Settles O51: the entry to STARTING, and the completion followed by the TIME triggers that are due. -/
theorem startAndItsCompletion : Obligations.StartAndItsCompletion := by
  intro s p
  refine ⟨fun open_ standby => ?_, fun open_ other => next_answered_nil open_ (if_pos (by simpa using other)),
    fun starting own other => ?_⟩
  · refine ⟨_, next_long open_ (Nat.zero_le _) rfl (if_neg (by simpa using standby)), ?_⟩
    have port : ∀ x : PortState, (((s.takes p []).forgetGroups.withPart .starting).withPort p x).port p = x :=
      fun x => State.port_withPort ..
    rw [port]
    refine ⟨by simp, rfl, ?_, by simp, ?_, ?_⟩
    · cases p <;> rfl
    · simp [Selector.forget]
    · simp [Feed.forget]
  · obtain ⟨run, launch, store, sel, feedA, feedB, tb, lock, ⟨mon, chg, lines⟩, ⟨clip, lanes, splice, windows⟩, ports⟩ :=
      s.started_spec p
    have begun := exec_startComplete starting own other
    generalize s.started p = u at *
    obtain ⟨work, response, -⟩ := State.foldl_eventsOnly State.fireTime_eventsOnly breakIndices u p
    have now : u.now = s.now := by rw [State.now, tb]; rfl
    have brk : ∀ i, u.brk i = s.brk i := State.brk_congr (by rw [splice])
    refine ⟨_, begun, by simp [run], ?_, ?_, by simp [launch, Launch.openGap], by simp [launch, Launch.openGap],
      by simp [store], by simp [sel], by simp [feedA], by simp [feedB], by simp [tb], by simp [lock],
      by simp [State.siteKept, mon, chg, lines], fun idle => ?_, fun i at_ small index waiting trigger due unbound only => ?_⟩
    · rw [State.fireDueTimes, work, ports, if_pos rfl]
      simp
    · rw [State.fireDueTimes, response, ports, if_pos rfl]
      exact ⟨_, (PortState.offer_frame ..).2.2.1, rfl, rfl⟩
    · rw [State.fireDueTimes_none fun i small => by rw [brk, now]; exact idle i small]
      exact ⟨ports, splice, lanes, windows⟩
    · rw [State.fireDueTimes_only small run (by rw [brk]; exact waiting) (by rw [brk]; exact trigger) (by rw [now]; exact due)
        fun j lt other => by rw [brk, now]; exact only j lt other]
      exact ⟨u, run, tb, clip, lanes, splice, windows, ports,
        State.fire_triggered at_ none (by rw [splice]; exact index) (by rw [brk]; exact unbound)⟩

/-! ### STOP (R165, R166) -/

theorem foldl_keeps {α β : Type} {g : State → α → State} (f : State → β) (h : ∀ (u : State) a, f (g u a) = f u) (l : List α)
    (s : State) : f (l.foldl g s) = f s := by
  induction l generalizing s with
  | nil => rfl
  | cons a l ih => exact (ih (g s a)).trans (h s a)

/-- What STOP takes from every break that is CUED or ON_AIR, for any order of the breaks. -/
theorem State.stopBreaks_brk (l : List Nat) (s : State) (i : Nat) :
    ((i ∉ l ∨ (s.brk i).live = false) → (l.foldl State.stopBreak s).brk i = s.brk i) ∧
      (i ∈ l → (s.brk i).live = true →
        ((l.foldl State.stopBreak s).brk i).state = .ended ∧ ((l.foldl State.stopBreak s).brk i).cause = some .stopped) := by
  induction l generalizing s with
  | nil => exact ⟨fun _ => rfl, fun mem => absurd mem (List.not_mem_nil)⟩
  | cons a l ih =>
    obtain ⟨idle, ends⟩ := ih (s.stopBreak a)
    have others : i ≠ a → (s.stopBreak a).brk i = s.brk i := fun other => by
      unfold State.stopBreak
      split
      · exact (s.endBreak_brkOnly a .stopped s.now).1 i other
      · rfl
    have rests : (s.brk i).live = false → (s.stopBreak a).brk i = s.brk i := fun still => by
      rcases eq_or_ne i a with rfl | other
      · rw [State.stopBreak, if_neg (by simp [still])]
      · exact others other
    rw [List.foldl_cons]
    refine ⟨fun out => ?_, fun mem live => ?_⟩
    · have same : (s.stopBreak a).brk i = s.brk i := by
        rcases out with away | still
        · exact others fun same => away (same ▸ List.mem_cons_self)
        · exact rests still
      refine (idle ?_).trans same
      rw [same]
      exact out.imp_left fun away mem => away (List.mem_cons_of_mem a mem)
    · rcases eq_or_ne i a with rfl | other
      · have stops : s.stopBreak i = s.endBreak i .stopped s.now := if_pos live
        have index : i < s.splice.breaks.length := State.brk_lt fun free => by simp [BreakRecord.live, free] at live
        obtain ⟨own, -⟩ := State.endBreak_spec .stopped s.now index
        rw [idle (.inr (by rw [stops, own]; rfl)), stops, own]
        exact ⟨rfl, rfl⟩
      · have same := others other
        exact ends ((List.mem_cons.mp mem).resolve_left other) (by rw [same]; exact live)

theorem State.stopBreak_eventsOnly (s : State) (i : Nat) : s.eventsOnly (s.stopBreak i) :=
  State.eventsOnly_ite (s.endBreak_eventsOnly _ _ _) (State.eventsOnly_of_eq fun _ => rfl)

/-- What no end of a break touches. -/
theorem State.stopBreaks_frame (l : List Nat) (s : State) :
    let t := l.foldl State.stopBreak s
    t.part = s.part ∧ t.store = s.store ∧ t.sel = s.sel ∧ t.launch = s.launch ∧ t.tb = s.tb ∧ t.mon = s.mon ∧
      t.chg = s.chg ∧ t.lines = s.lines ∧ t.windows = s.windows := by
  have same := foldl_keeps (fun u : State =>
    (u.part, u.store, u.sel, u.launch, u.tb, u.mon, u.chg, u.lines, u.windows)) (g := State.stopBreak)
    (fun u i => by unfold State.stopBreak; split <;> simp) l s
  simpa only [Prod.mk.injEq] using same

/-- A part that a START in progress was abandoned in. -/
theorem State.startStopped_spec (s : State) (p : Port) :
    (∃ q, s.startStopped p = s.withPort p q ∧
      ((s.port p).inProgress = some .start →
        q.inProgress = none ∧ ∃ r, q.response = some r ∧ r.code = .wrongState ∧ r.overrun = (s.port p).overrun) ∧
      ((s.port p).inProgress ≠ some .start → q = s.port p)) := by
  unfold State.startStopped
  by_cases start : (s.port p).inProgress = some .start
  · rw [if_pos start]
    refine ⟨{ (s.port p).respond (.no .wrongState) with inProgress := none }, by cases p <;> rfl,
      fun _ => ⟨rfl, _, rfl, rfl, rfl⟩, fun other => absurd start other⟩
  · rw [if_neg start]
    exact ⟨s.port p, by cases p <;> rfl, fun own => absurd own start, fun _ => rfl⟩

/-- The part after STOP, before the breaks end and the port answers: the groups are gone, and the START of the other port,
if it was in progress. -/
theorem State.stopPart_other {s : State} (p : Port) (open_ : (s.port p).inProgress = none) :
    ∃ q : PortState, s.stopPart = breakIndices.foldl State.stopBreak ((s.forgetGroups.withPart .standby).withPort p.other q) ∧
      ((s.port p.other).inProgress = some .start →
        q.inProgress = none ∧
          ∃ r, q.response = some r ∧ r.code = .wrongState ∧ r.overrun = (s.port p.other).overrun) ∧
      ((s.port p.other).inProgress ≠ some .start → q = s.port p.other) := by
  obtain ⟨q, abandoned, spec⟩ := (s.forgetGroups.withPart .standby).startStopped_spec p.other
  refine ⟨q, ?_, spec⟩
  rw [← abandoned]
  cases p with
  | station =>
    have idle : (s.forgetGroups.withPart .standby).startStopped .station = s.forgetGroups.withPart .standby :=
      if_neg (show ¬ (s.port .station).inProgress = some .start by rw [open_]; exact nofun)
    rw [State.stopPart, idle]
    rfl
  | network =>
    have idle : ((s.forgetGroups.withPart .standby).startStopped .station).startStopped .network =
        (s.forgetGroups.withPart .standby).startStopped .station := by
      refine if_neg ?_
      rw [show Port.other .network = .station from rfl] at abandoned
      rw [abandoned]
      exact show ¬ (s.port .network).inProgress = some .start by rw [open_]; exact nofun
    rw [State.stopPart, idle]
    rfl

/-- Settles O52: the groups gone, the other port's START abandoned, and every CUED and ON_AIR break ended. -/
theorem stopEndsAll : Obligations.StopEndsAll := by
  intro s p open_
  refine ⟨fun standby => next_answered_nil open_ (if_pos (by simpa using standby)), fun other => ?_⟩
  have stopped : exec (.stop p []) s = .next ((s.takes p []).stopPart.respond p (.ok [])) :=
    next_answered_nil open_ (if_neg (by simpa using other))
  have idle : ((s.takes p []).port p).inProgress = none := by simpa using open_
  obtain ⟨q, parts, starts, stays⟩ := (s.takes p []).stopPart_other p idle
  have otherPort : (s.takes p []).port p.other = s.port p.other := by simp
  rw [otherPort] at starts stays
  generalize begun : ((s.takes p []).forgetGroups.withPart .standby).withPort p.other q = u at parts
  have own : (u.port p).inProgress = none ∧ (u.port p).overrun = (s.port p).overrun := by
    subst begun; cases p <;> exact ⟨open_, rfl⟩
  have rest : u.port p.other = q := by subst begun; exact State.port_withPort ..
  have brk : ∀ i, u.brk i = s.brk i := by subst begun; cases p <;> exact fun _ => rfl
  have frame : u.part = .standby ∧ u.store = .empty ∧ u.sel = s.sel.forget ∧ u.launch = s.launch.forget ∧ u.tb = s.tb ∧
      u.mon = s.mon ∧ u.chg = s.chg ∧ u.lines = s.lines ∧ u.windows = s.windows := by
    subst begun; cases p <;> exact ⟨rfl, rfl, rfl, rfl, rfl, rfl, rfl, rfl, rfl⟩
  obtain ⟨part, store, sel, launch, tb, mon, chg, lines, windows⟩ := State.stopBreaks_frame breakIndices u
  have ports : u.eventsOnly _ := State.foldl_eventsOnly State.stopBreak_eventsOnly breakIndices u
  have breaks := State.stopBreaks_brk breakIndices u
  rw [← parts] at part store sel launch tb mon chg lines windows ports breaks
  generalize (s.takes p []).stopPart = t at *
  have work : ∀ r, ((t.respond p r).port p).inProgress = none ∧ (t.respond p r).port p.other = t.port p.other := by
    intro r
    refine ⟨?_, by cases p <;> rfl⟩
    rw [State.respond, State.port_withPort, (PortState.respond_frame ..).1, (ports p).1, own.1]
  have reads : ∀ i r, (t.respond p r).brk i = t.brk i := fun i r => by cases p <;> rfl
  have dead : ∀ i, i < 32 → (s.brk i).live = false → t.brk i = s.brk i := fun i small still =>
    ((breaks i).1 (.inr (by rw [brk]; exact still))).trans (brk i)
  have ended : ∀ i, i < 32 → (s.brk i).live = true → (t.brk i).state = .ended ∧ (t.brk i).cause = some .stopped :=
    fun i small live => (breaks i).2 (mem_breakIndices.mpr small) (by rw [brk]; exact live)
  have otherDone : (t.port p.other).inProgress ≠ some .start := by
    rw [(ports p.other).1, rest]
    by_cases start : (s.port p.other).inProgress = some .start
    · rw [(starts start).1]; exact nofun
    · rwa [stays start]
  refine ⟨_, stopped, ?_⟩
  obtain ⟨part', store', sel', launch', tb', mon', chg', lines', windows'⟩ := frame
  have sides : (∀ r, ((t.respond p r).port p).inProgress ≠ some .start) ∧
      ∀ r, ((t.respond p r).port p.other).inProgress ≠ some .start :=
    ⟨fun r => by rw [(work r).1]; exact nofun, fun r => by rw [(work r).2]; exact otherDone⟩
  have both : ∀ r, (t.respond p r).station.inProgress ≠ some .start ∧ (t.respond p r).network.inProgress ≠ some .start := by
    intro r
    cases p
    · exact ⟨sides.1 r, sides.2 r⟩
    · exact ⟨sides.2 r, sides.1 r⟩
  refine ⟨by simp [part, part'], by simp [store, store'], by simp [sel, sel', Selector.forget],
    by simp [sel, sel', Selector.forget], by simp [launch, launch', Launch.forget], by simp [launch, launch', Launch.forget],
    by simp [launch, launch', Launch.forget], by simp [launch, launch', Launch.forget],
    by simp [launch, launch', Launch.forget], by simp [launch, launch', Launch.forget], by simp [tb, tb'],
    by simp [mon, mon'], by simp [chg, chg'], by simp [lines, lines'], by simp [windows, windows'], (both _).1, (both _).2,
    ⟨_, congrArg PortState.response (State.port_withPort ..), rfl, (ports p).2.2.trans own.2, rfl⟩,
    fun start => ?_, fun notStart => ?_, fun i small => ?_, fun i small still => (reads i _).trans (dead i small still),
    fun i small _ live => by rw [reads]; exact ended i small live⟩
  · rw [(work _).2, (ports p.other).1, (ports p.other).2.1, rest]
    exact starts start
  · rw [(work _).2, (ports p.other).1, (ports p.other).2.1, rest, stays notStart]
    exact ⟨rfl, rfl⟩
  · rw [reads]
    cases live : (s.brk i).live with
    | true => rw [BreakRecord.live, (ended i small live).1]; rfl
    | false => rw [dead i small live, live]

end Sys2Proof.Machine
end

