-- ==== Sys2Proof/Proofs/SoftwareResets.lean ====
section
/-! The software RESET and its completion (R167). -/

namespace Sys2Proof.Machine

open Sys2Proof

-- One proof after the other: proofs that wait for each other hold a thread each.
set_option Elab.async false

/-! ### The events of a re-evaluation (R140, R146) -/

/-- A re-evaluation that moves nothing raises nothing. -/
theorem State.reevaluate_raises (s : State) :
    (∀ p, s.reevaluate.port p = s.port p) ∨ ∃ target, target ≠ s.chg.position ∧ s.reevaluate = s.autoChangeover target := by
  have kept : ∀ (c : Changeover) p, (s.withChg c).port p = s.port p := fun c p => by cases p <;> rfl
  unfold State.reevaluate
  split
  · exact .inl fun _ => rfl
  split
  · next position _ _ => exact .inr ⟨_, by rw [position]; exact nofun, rfl⟩
  · exact .inl (kept _)
  · next position _ _ => exact .inr ⟨_, by rw [position]; exact nofun, rfl⟩
  · split
    · exact .inl (kept _)
    · exact .inl fun _ => rfl
  · exact .inl (kept _)

/-- An event queue emptied, and what a changeover has put there since. -/
def PortState.movedOnly (q : PortState) : Prop :=
  q.lostEvents = 0 ∧ q.events.length ≤ 2 ∧ ∀ e ∈ q.events, e.kind = .changeover ∨ e.kind = .changeoverHold

theorem PortState.offer_short {q : PortState} (e : Event) (room : q.events.length < 32) :
    (q.offer e).lostEvents = q.lostEvents ∧ (q.offer e).events.length ≤ q.events.length + 1 ∧
      ∀ x ∈ (q.offer e).events, x ∈ q.events ∨ x = e := by
  rcases q.offer_cases e with ⟨-, same⟩ | ⟨-, -, put⟩ | ⟨-, full, -⟩
  · rw [same]
    exact ⟨rfl, by omega, fun x mem => .inl mem⟩
  · rw [put]
    exact ⟨rfl, by simp, fun x mem => by simpa using mem⟩
  · omega

theorem State.autoChangeover_moved {s : State} {p : Port} (target : Position) (empty : (s.port p).events = [])
    (none : (s.port p).lostEvents = 0) : ((s.autoChangeover target).port p).movedOnly := by
  have first := PortState.offer_short (q := s.port p) ⟨.changeover, target.code, 0, s.now⟩ (by simp [empty])
  generalize offered : (s.port p).offer ⟨.changeover, target.code, 0, s.now⟩ = q at first
  obtain ⟨lost, length, events⟩ := first
  rw [empty] at length events
  have small : q.events.length ≤ 1 := by simpa using length
  have second := PortState.offer_short (q := q) ⟨.changeoverHold, target.code, 1, s.now⟩ (by omega)
  obtain ⟨lost', length', events'⟩ := second
  unfold State.autoChangeover
  dsimp only
  split
  · have port : ((((s.withChg { s.chg with
        position := target, returnTimer := .none, history := appendHistory s.chg.history s.now }).raise .changeover
          target.code 0).withChg { ((s.withChg { s.chg with
        position := target, returnTimer := .none, history := appendHistory s.chg.history s.now }).raise .changeover
          target.code 0).chg with hold := true, returnTimer := .none }).raise .changeoverHold target.code 1).port p =
        q.offer ⟨.changeoverHold, target.code, 1, s.now⟩ := by
      rw [← offered]; cases p <;> rfl
    rw [port]
    refine ⟨by rw [lost', lost, none], by omega, fun x mem => ?_⟩
    rcases events' x mem with old | rfl
    · rcases events x old with old' | rfl
      · exact absurd old' List.not_mem_nil
      · exact .inl rfl
    · exact .inr rfl
  · have port : ((s.withChg { s.chg with
        position := target, returnTimer := .none, history := appendHistory s.chg.history s.now }).raise .changeover
          target.code 0).port p = q := by
      rw [← offered]; cases p <;> rfl
    rw [port]
    refine ⟨by rw [lost, none], by omega, fun x mem => ?_⟩
    rcases events x mem with old | rfl
    · exact absurd old List.not_mem_nil
    · exact .inl rfl

/-- What a change of the exciter health leaves of an empty event queue. -/
theorem State.reform_moved {s before : State} {p : Port} (empty : (s.port p).events = [])
    (none : (s.port p).lostEvents = 0) :
    ((s.reform before).port p).movedOnly ∧
      ((s.reform before).chg.position = s.chg.position → ((s.reform before).port p).events = []) := by
  have still : (s.port p).movedOnly := ⟨none, by simp [empty], fun e mem => absurd (empty ▸ mem) List.not_mem_nil⟩
  unfold State.reform
  split
  · exact ⟨still, fun _ => empty⟩
  · rcases s.reevaluate_raises with same | ⟨target, moves, changes⟩
    · rw [same]
      exact ⟨still, fun _ => empty⟩
    · rw [changes, State.autoChangeover_chg]
      exact ⟨State.autoChangeover_moved target empty none, fun stays => absurd stays moves⟩

/-! ### The slot in hand of the other port (R85, R86) -/

theorem Access.discardLane_port {a : Access} (h : ∀ i slot d, a ≠ .lane i slot d) (i : Nat) : a.discardLane i = a := by
  cases a with
  | lane i slot d => exact absurd rfl (h i slot d)
  | _ => rfl

/-- After a software RESET of port `p` the other port's slot in hand, if there is one, is being finished. -/
theorem Clip.softReset_finishing (c : Clip) (p : Port) :
    (c.softReset p).finishing p.other = true ↔
      (∃ slot packet d, c.service = some (.write p.other slot packet d)) ∨
        ∃ slot d, c.service = some (.read p.other slot d) := by
  cases service : c.service with
  | none => simp [Clip.softReset, Clip.finishing, service]
  | some a =>
    cases a with
    | write q slot packet d =>
      simp only [Clip.softReset, Clip.finishing, service, Option.map_some, Access.discardLane, Access.abandon]
      cases p <;> cases q <;> simp [Port.other]
    | read q slot d =>
      simp only [Clip.softReset, Clip.finishing, service, Option.map_some, Access.discardLane, Access.abandon]
      cases p <;> cases q <;> simp [Port.other]
    | lane i slot d => simp [Clip.softReset, Clip.finishing, service, Access.discardLane, Access.abandon]

/-! ### The reset part (R167) -/

/-- The part after a software RESET, before its port answers. -/
def State.resetPart (s : State) (p : Port) : State := ((s.takes p []).softReset p).reform (s.takes p [])

theorem State.resetPart_ports (s : State) (p : Port) :
    ((s.resetPart p).port p).inProgress = (s.port p).inProgress ∧ ((s.resetPart p).port p).response = none ∧
      ((s.resetPart p).port p.other).response = (s.port p.other).response ∧
      (∀ c, (s.port p.other).inProgress = some (.clip c) → ((s.resetPart p).port p.other).inProgress = none) ∧
      ∀ q, ((s.resetPart p).port q).mask = (s.port q).mask ∧ ((s.resetPart p).port q).movedOnly ∧
        ((s.resetPart p).chg.position = s.chg.position → ((s.resetPart p).port q).events = []) := by
  obtain ⟨own, other⟩ := (s.takes p []).softReset_port p
  have formed := fun q => State.reform_port ((s.takes p []).softReset p) (s.takes p []) q
  have frame := s.takes_frame p []
  have takenOwn : (s.takes p []).port p = (s.port p).taken (frameBytes []) := by simp
  have takenOther : (s.takes p []).port p.other = s.port p.other := by simp
  rw [takenOwn] at own
  rw [takenOther] at other
  have abandons : (s.port p.other).emptyEvents.abandonLong.response = (s.port p.other).response ∧
      (s.port p.other).emptyEvents.abandonLong.mask = (s.port p.other).mask ∧
      (s.port p.other).emptyEvents.abandonLong.events = [] ∧ (s.port p.other).emptyEvents.abandonLong.lostEvents = 0 := by
    unfold PortState.abandonLong
    split <;> exact ⟨rfl, rfl, rfl, rfl⟩
  obtain ⟨response, mask, events, lost⟩ := abandons
  refine ⟨?_, ?_, ?_, fun c clip => ?_, fun q => ?_⟩
  · rw [State.resetPart, (formed p).2.1, own]; rfl
  · rw [State.resetPart, (formed p).1, own]; rfl
  · rw [State.resetPart, (formed p.other).1, other, response]
  · rw [State.resetPart, (formed p.other).2.1, other, PortState.abandonLong]
    simp [PortState.emptyEvents, clip]
  · have position : ((s.takes p []).softReset p).chg.position = s.chg.position := by simp
    rcases (show q = p ∨ q = p.other by cases p <;> cases q <;> simp [Port.other]) with rfl | rfl
    · obtain ⟨moved, stays⟩ := State.reform_moved (s := (s.takes q []).softReset q) (before := s.takes q []) (p := q)
        (by rw [own]; rfl) (by rw [own]; rfl)
      refine ⟨?_, moved, fun same => stays (same.trans position.symm)⟩
      rw [State.resetPart, (formed q).2.2, own]; rfl
    · obtain ⟨moved, stays⟩ := State.reform_moved (s := (s.takes p []).softReset p) (before := s.takes p [])
        (p := p.other) (by rw [other, events]) (by rw [other, lost])
      refine ⟨?_, moved, fun same => stays (same.trans position.symm)⟩
      rw [State.resetPart, (formed p.other).2.2, other, mask]

/-- The controller keeps its settings, and is left alone in MANUAL. -/
theorem State.resetPart_chg (s : State) (p : Port) :
    (s.resetPart p).chg.manual = s.chg.manual ∧ (s.resetPart p).chg.autoReturn = s.chg.autoReturn ∧
      (s.resetPart p).chg.returnDelay = s.chg.returnDelay ∧ (s.resetPart p).chg.muteStation = s.chg.muteStation ∧
      (s.resetPart p).chg.muteNetwork = s.chg.muteNetwork ∧ (s.chg.manual = true → (s.resetPart p).chg = s.chg) := by
  have chg : ((s.takes p []).softReset p).chg = s.chg := by simp
  obtain ⟨station, network⟩ := State.reform_sameHolders ((s.takes p []).softReset p) (s.takes p [])
  obtain ⟨manual, delay, auto⟩ := ((s.takes p []).softReset p).reevaluate_settings
  rw [chg] at station network manual delay auto
  have settings : ∀ {β : Type} (f : Changeover → β), f ((s.takes p []).softReset p).reevaluate.chg = f s.chg →
      f (s.resetPart p).chg = f s.chg := by
    intro β f kept
    unfold State.resetPart State.reform
    split
    · rw [chg]
    · exact kept
  exact ⟨settings (·.manual) manual, settings (·.autoReturn) auto, settings (·.returnDelay) delay, station, network,
    fun isManual => settings id (by
      rw [State.reevaluate_manual (by rw [chg]; exact isManual)]
      exact chg)⟩

/-- What a software RESET leaves of the part but for its ports, whatever those become. -/
theorem State.resetPart_frame (s : State) (p : Port) :
    let t := s.resetPart p
    t.part = .standby ∧ t.tb = s.tb ∧ t.feedA = .reset ∧ t.feedB = .reset ∧ t.store = .empty ∧
      t.sel = s.sel.softReset ∧ t.launch = s.launch.softReset ∧ t.lanes = List.replicate 4 .reset ∧
      t.splice = s.splice.softReset ∧ t.windows = s.windows ∧ t.clip = s.clip.softReset p ∧ t.mon = s.mon.softReset ∧
      t.lines = { s.lines with records := s.lines.records.map Line.softReset } ∧ t.paramLock = s.paramLock := by
  simp [State.resetPart]

theorem PortState.clipCommand_isSome (q : PortState) : q.clipCommand.isSome = true ↔ ∃ c, q.inProgress = some (.clip c) := by
  unfold PortState.clipCommand
  split
  · next c work => simp [work]
  · next other => simpa using other

/-- The two ends of a RESET that is not refused: it waits for the other port's slot in hand, or completes at once. -/
theorem exec_reset_ends {s : State} {p : Port} (open_ : s.open_ p) (may : s.paramLock = false ∨ p = .network) :
    ∃ x : PortState, exec (.reset p []) s = .next ((s.resetPart p).withPort p x) ∧
      x.events = ((s.resetPart p).port p).events ∧ x.lostEvents = ((s.resetPart p).port p).lostEvents ∧
      x.mask = ((s.resetPart p).port p).mask ∧
      (((s.port p.other).clipCommand.isSome = true ∧ (s.clip.softReset p).finishing p.other = true) →
        x.inProgress = some .reset ∧ x.response = none) ∧
      (¬ ((s.port p.other).clipCommand.isSome = true ∧ (s.clip.softReset p).finishing p.other = true) →
        x.inProgress = none ∧ ∃ r, x.response = some r ∧ r.code = .ok) := by
  have free : ¬ (s.paramLock && p == .station) = true := by
    rcases may with unlocked | rfl
    · simp [unlocked]
    · simp
  obtain ⟨-, -, -, -, -, -, -, -, -, -, clip, -⟩ := s.resetPart_frame p
  obtain ⟨idle, taken, -⟩ := s.resetPart_ports p
  rcases exec_reset_cases open_ with ⟨locked, -⟩ | ⟨-, ⟨waits, runs⟩ | ⟨done, runs⟩⟩
  · exact absurd locked free
  · refine ⟨_, runs, rfl, rfl, rfl, fun _ => ⟨rfl, taken⟩, fun not => absurd ?_ not⟩
    rw [← clip]
    exact (Bool.and_eq_true _ _).mp waits
  · refine ⟨_, runs, (PortState.respond_frame ..).2.1, (PortState.respond_frame ..).2.2.2.1,
      (PortState.respond_frame ..).2.2.1, fun wait => ?_, fun _ => ⟨(PortState.respond_frame ..).1.trans (idle.trans open_), _, rfl, rfl⟩⟩
    rw [← clip] at wait
    exact absurd (done.symm.trans ((Bool.and_eq_true _ _).mpr wait)) Bool.false_ne_true

/-- RESET_COMPLETE answers a port whose wait is over and leaves any other port to itself. -/
theorem State.resetDone_port (s : State) (p : Port) :
    (s.resetDone p).clip = s.clip ∧ (s.resetDone p).port p.other = s.port p.other ∧
      ((s.port p).inProgress = some .reset → s.clip.finishing p.other = false →
        (s.resetDone p).port p = { (s.port p).respond (.ok []) with inProgress := none }) := by
  unfold State.resetDone
  refine ⟨?_, ?_, fun work ended => ?_⟩
  · split
    · cases p <;> rfl
    · rfl
  · split
    · cases p <;> rfl
    · rfl
  · rw [if_pos (by simp [State.resetDue, work, ended]), State.complete_port]

/-- Settles O53: the reset part, the two ends of the command, and its completion. -/
theorem softwareReset : Obligations.SoftwareReset := by
  refine fun s p => ⟨fun open_ may => ?_, fun work ended => ⟨_, rfl, ?_⟩⟩
  · obtain ⟨x, runs, xEvents, xLost, xMask, waits, done⟩ := exec_reset_ends open_ may
    obtain ⟨part, tb, feedA, feedB, store, sel, launch, lanes, splice, windows, clip, mon, lines, lock⟩ := s.resetPart_frame p
    obtain ⟨manual, auto, delay, station, network, inManual⟩ := s.resetPart_chg p
    obtain ⟨-, -, response, abandoned, queues⟩ := s.resetPart_ports p
    rw [Clip.softReset_finishing, PortState.clipCommand_isSome] at waits done
    generalize s.resetPart p = u at *
    have otherPort : (u.withPort p x).port p.other = u.port p.other := by cases p <;> rfl
    have ownPort : (u.withPort p x).port p = x := State.port_withPort ..
    refine ⟨_, runs, by simp [part], by simp [tb], by simp [feedA], by simp [feedB], by simp [store], ?_, ?_, by simp [lanes],
      by simp only [State.withPort_splice, splice]; rfl, by simp [windows], by simp [clip, Clip.softReset],
      by simp [clip, Clip.softReset], by simp [clip, Clip.softReset], by simp only [State.withPort_mon, mon]; rfl,
      by simp only [State.withPort_lines, lines]; rfl, by simp [manual], by simp [auto], by simp [delay], by simp [station], by simp [network], by simp [lock], by rw [otherPort, response],
      fun isManual => by simpa using inManual isManual, fun q => ?_, fun c work => ⟨?_, fun slot => ?_⟩, fun free => ?_⟩
    · simp only [State.withPort_sel, sel]; rfl
    · simp only [State.withPort_launch, launch]; rfl
    · obtain ⟨mask, ⟨lost, -, moved⟩, still⟩ := queues q
      have chg : (u.withPort p x).chg = u.chg := by simp
      rcases (show q = p ∨ q = p.other by cases p <;> cases q <;> simp [Port.other]) with rfl | rfl
      · rw [ownPort, chg, xEvents, xLost, xMask]
        exact ⟨lost, mask, moved, still⟩
      · rw [otherPort, chg]
        exact ⟨lost, mask, moved, still⟩
    · rw [otherPort]
      exact abandoned c work
    · rw [ownPort]
      exact waits ⟨⟨c, work⟩, slot⟩
    · rw [ownPort]
      refine done fun ⟨⟨c, work⟩, slot⟩ => ?_
      rcases free with none | ⟨noWrite, noRead⟩
      · exact none c work
      · rcases slot with ⟨slot, packet, d, write⟩ | ⟨slot, d, read⟩
        · exact noWrite slot packet d write
        · exact noRead slot d read
  · obtain ⟨clip, network, first⟩ := s.resetDone_port .station
    obtain ⟨-, station, second⟩ := (s.resetDone .station).resetDone_port .network
    cases p with
    | station =>
      have after := station.trans (first work ended)
      rw [show Port.other .network = .station from rfl] at after
      rw [after]
      exact ⟨rfl, _, rfl, rfl, rfl⟩
    | network =>
      rw [show Port.other .station = .network from rfl] at network
      rw [second (by rw [network]; exact work) (by rw [clip]; exact ended), network]
      exact ⟨rfl, _, rfl, rfl, rfl⟩

end Sys2Proof.Machine
end

