-- ==== Sys2Proof/Proofs/WindowEffects.lean ====
section
/-! What protect windows do to the breaks of their slots, and how they come and go (chapter 8). -/

namespace Sys2Proof.Machine

open Sys2Proof

-- One proof after the other: proofs that wait for each other hold a thread each.
set_option Elab.async false

/-! ### Lanes released (R94) -/

/-- A lane FREE and empty, its counts kept. -/
def Lane.freed (l : Lane) : Lane :=
  { l with state := .free, break_ := none, playList := none, position := none, queue := [], clipEnd := false }

/-- Lanes are as they were, or released. -/
def State.lanesFreed (s t : State) : Prop :=
  t.lanes.length = s.lanes.length ∧ ∀ l, t.lane l = s.lane l ∨ t.lane l = (s.lane l).freed

theorem State.lanesFreed_of_eq {s t : State} (h : t.lanes = s.lanes) : s.lanesFreed t :=
  ⟨by rw [h], fun l => .inl (State.lane_congr h l)⟩

theorem State.lanesFreed.trans {s t u : State} (h : s.lanesFreed t) (k : t.lanesFreed u) : s.lanesFreed u := by
  refine ⟨k.1.trans h.1, fun l => ?_⟩
  rcases h.2 l with same | freed <;> rcases k.2 l with same' | freed'
  · exact .inl (same'.trans same)
  · exact .inr (by rw [freed', same])
  · exact .inr (same'.trans freed)
  · exact .inr (by rw [freed', freed]; rfl)

theorem State.endBreak_lanesFreed (s : State) (i : Nat) (cause : EndCause) (at_ : Time) :
    s.lanesFreed (s.endBreak i cause at_) := by
  refine ⟨(s.endBreak_sizes i cause at_).1, fun l => ?_⟩
  rw [State.lane_congr (s.endBreak_clip i cause at_).2 l]
  cases (s.brk i).lane with
  | none => exact .inl rfl
  | some k =>
    rcases eq_or_ne l k with rfl | other
    · rcases Nat.lt_or_ge l s.lanes.length with lt | ge
      · exact .inr (State.lane_withLane (s := s) _ lt)
      · refine .inl (State.lane_congr ?_ l)
        show (s.releaseLane l).lanes = s.lanes
        rw [State.releaseLane_lanes, List.set_eq_of_length_le ge]
    · exact .inl (State.lane_withLane_ne (s := s) _ other)

/-! ### Windows that count (R123) -/

/-- Windows are as they were but for their counts, and no window but `w` counts a recall. -/
def State.windowsCounted (s t : State) (w : Nat) : Prop :=
  ∀ v, t.window v = { s.window v with blocked := (t.window v).blocked, recalled := (t.window v).recalled } ∧
    (v ≠ w → (t.window v).recalled = (s.window v).recalled)

theorem State.windowsCounted_of_eq {s t : State} (w : Nat) (h : t.windows = s.windows) : s.windowsCounted t w :=
  fun v => by rw [State.window_congr h v]; exact ⟨rfl, fun _ => rfl⟩

theorem State.windowsCounted.trans {s t u : State} {w : Nat} (h : s.windowsCounted t w) (k : t.windowsCounted u w) :
    s.windowsCounted u w := by
  refine fun v => ⟨?_, fun other => ((k v).2 other).trans ((h v).2 other)⟩
  have first := (h v).1
  have second := (k v).1
  rw [first] at second
  exact second

/-- The bounds of a window that has only counted. -/
theorem State.windowsCounted.bounds {s t : State} {w : Nat} (h : s.windowsCounted t w) (v : Nat) :
    (t.window v).state = (s.window v).state ∧ (t.window v).mask = (s.window v).mask ∧
      (t.window v).start = (s.window v).start ∧ (t.window v).stop = (s.window v).stop := by
  rw [(h v).1]
  exact ⟨rfl, rfl, rfl, rfl⟩

theorem State.window_withWindow_cases (s : State) (k : Nat) (x : Window) (v : Nat) :
    v = k ∧ (s.withWindow k x).window v = x ∨ (s.withWindow k x).window v = s.window v := by
  rcases eq_or_ne v k with rfl | other
  · rcases Nat.lt_or_ge v s.windows.length with lt | ge
    · exact .inl ⟨rfl, State.window_withWindow x lt⟩
    · refine .inr (State.window_congr ?_ v)
      simp [State.withWindow, List.set_eq_of_length_le ge]
  · exact .inr (State.window_withWindow_ne x other)

theorem State.countBlocked (s : State) (w k n : Nat) : s.windowsCounted (s.withWindow k { s.window k with blocked := n }) w := by
  intro v
  rcases s.window_withWindow_cases k { s.window k with blocked := n } v with ⟨rfl, new⟩ | same
  · rw [new]; exact ⟨rfl, fun _ => rfl⟩
  · rw [same]; exact ⟨rfl, fun _ => rfl⟩

theorem State.countRecalled (s : State) (w n : Nat) : s.windowsCounted (s.withWindow w { s.window w with recalled := n }) w := by
  intro v
  rcases s.window_withWindow_cases w { s.window w with recalled := n } v with ⟨rfl, new⟩ | same
  · rw [new]; exact ⟨rfl, fun other => absurd rfl other⟩
  · rw [same]; exact ⟨rfl, fun _ => rfl⟩

/-! ### A window acts on one break (R125, R126) -/

/-- The window ends a break BLOCKED, where `ends` tells the splice-out instants of the CUED breaks that it ends. -/
def BreakRecord.blockedBy (b : BreakRecord) (win : Window) (ends : Time → Bool) : Bool :=
  win.covers b.slot && b.state == .cued && b.x.any ends

/-- A break that a window has acted on. -/
def BreakRecord.windowed (b : BreakRecord) (win : Window) (ends : Time → Bool) (now : Time) : BreakRecord :=
  if b.blockedBy win ends then b.endedWith .blocked now
  else if win.covers b.slot && b.state == .onAir then { b with y := b.offered win.start .window }
  else b

/-- A window's act on one break. -/
def State.windowStep (w : Nat) (ends : Window → Time → Bool) (s : State) (i : Nat) : State :=
  if (s.brk i).blockedBy (s.window w) (ends (s.window w)) then s.blockCued w i
  else if (s.window w).covers (s.brk i).slot && (s.brk i).state == .onAir then s.offerWindow w i
  else s

theorem State.windowActs_eq (s : State) (w : Nat) :
    s.windowActs w = breakIndices.foldl (State.windowStep w fun win x => earlier x win.stop) s := by
  unfold State.windowActs
  congr 1
  funext s i
  unfold State.windowStep BreakRecord.blockedBy
  dsimp only
  cases (s.window w).covers (s.brk i).slot
  · rfl
  · cases (s.brk i).x <;> cases (s.brk i).state <;> rfl

theorem State.windowSetPending_eq (s : State) (w : Nat) :
    s.windowSetPending w =
      breakIndices.foldl (State.windowStep w fun win x => reached x win.start && earlier x win.stop) s := by
  unfold State.windowSetPending
  congr 1
  funext s i
  unfold State.windowStep BreakRecord.blockedBy
  dsimp only
  cases (s.window w).covers (s.brk i).slot
  · rfl
  · cases (s.brk i).x <;> cases (s.brk i).state <;> rfl

/-- What a window leaves of the breaks `l`, of the lanes and of the windows. -/
structure State.Windowed (s t : State) (w : Nat) (ends : Window → Time → Bool) (l : List Nat) : Prop where
  acted : ∀ i ∈ l, t.brk i = (s.brk i).windowed (s.window w) (ends (s.window w)) s.now
  kept : ∀ i, i ∉ l → t.brk i = s.brk i
  lanes : s.lanesFreed t
  released : ∀ i ∈ l, (s.brk i).blockedBy (s.window w) (ends (s.window w)) = true → s.laneReleased t i
  windows : s.windowsCounted t w
  now : t.now = s.now

theorem State.windowStep_windowed (s : State) (w : Nat) (ends : Window → Time → Bool) (i : Nat) :
    s.Windowed (s.windowStep w ends i) w ends [i] := by
  unfold State.windowStep
  by_cases blocks : (s.brk i).blockedBy (s.window w) (ends (s.window w)) = true
  · rw [if_pos blocks]
    have index : i < s.splice.breaks.length := State.brk_lt fun free => by simp [BreakRecord.blockedBy, free] at blocks
    generalize counting : s.withWindow (s.countingWindow w i)
      { s.window (s.countingWindow w i) with blocked := bump16 (s.window (s.countingWindow w i)).blocked } = u
    have ends_ : s.blockCued w i = u.endBreak i .blocked s.now := by rw [← counting]; rfl
    have splice : u.splice = s.splice := by rw [← counting]; simp [State.withWindow]
    have lanes : u.lanes = s.lanes := by rw [← counting]; simp [State.withWindow]
    have now : u.now = s.now := by rw [← counting]; rfl
    have counted : s.windowsCounted u w := by rw [← counting]; exact s.countBlocked w _ _
    have brk : ∀ j, u.brk j = s.brk j := State.brk_congr (by rw [splice])
    have lane : ∀ l, u.lane l = s.lane l := State.lane_congr lanes
    obtain ⟨own, others, -, -, released, -⟩ := State.endBreak_spec (s := u) .blocked s.now (by rw [splice]; exact index)
    rw [ends_]
    refine ⟨fun j mem => ?_, fun j out => (others j fun same => out (same ▸ List.mem_singleton_self j)).trans (brk j),
      (State.lanesFreed_of_eq lanes).trans (u.endBreak_lanesFreed ..), fun j mem _ => ?_,
      counted.trans (State.windowsCounted_of_eq w (by simp)), by simp [State.now] at now ⊢; exact now⟩
    · cases List.mem_singleton.mp mem
      rw [own, brk, BreakRecord.windowed, if_pos blocks]
    · cases List.mem_singleton.mp mem
      simp only [State.laneReleased, brk, lane, lanes] at released ⊢
      exact released
  · rw [if_neg blocks]
    by_cases onAir : ((s.window w).covers (s.brk i).slot && (s.brk i).state == .onAir) = true
    · rw [if_pos onAir]
      have index : i < s.splice.breaks.length := State.brk_lt fun free => by simp [free] at onAir
      have offered : s.Windowed (s.offerY i (s.window w).start .window) w ends [i] := by
        refine ⟨fun j mem => ?_, fun j out => State.brk_withBreak_ne _ fun same => out (same ▸ List.mem_singleton_self j),
          State.lanesFreed_of_eq (by simp), fun j mem blocked => ?_, State.windowsCounted_of_eq w (by simp), by simp [State.now]⟩
        · cases List.mem_singleton.mp mem
          refine (State.brk_withBreak _ index).trans ?_
          rw [BreakRecord.windowed, if_neg blocks, if_pos onAir, BreakRecord.offerY_eq]
        · cases List.mem_singleton.mp mem
          exact absurd blocked blocks
      unfold State.offerWindow
      dsimp only
      split
      · exact ⟨offered.acted, offered.kept, offered.lanes, offered.released,
          offered.windows.trans (State.countRecalled (s.offerY i (s.window w).start .window) w _), offered.now⟩
      · exact offered
    · rw [if_neg onAir]
      refine ⟨fun j mem => ?_, fun _ _ => rfl, State.lanesFreed_of_eq rfl, fun j mem blocked => ?_,
        State.windowsCounted_of_eq w rfl, rfl⟩
      · cases List.mem_singleton.mp mem
        rw [BreakRecord.windowed, if_neg blocks, if_neg onAir]
      · cases List.mem_singleton.mp mem
        exact absurd blocked blocks

/-- What a window ends is told by its bounds alone. -/
def Window.boundsTell (ends : Window → Time → Bool) : Prop :=
  ∀ a b : Window, a.start = b.start → a.stop = b.stop → ends a = ends b

theorem BreakRecord.windowed_congr {b : BreakRecord} {v w : Window} {ends : Window → Time → Bool} {now : Time}
    (tells : Window.boundsTell ends) (mask : v.mask = w.mask) (start : v.start = w.start) (stop : v.stop = w.stop) :
    b.blockedBy v (ends v) = b.blockedBy w (ends w) ∧ b.windowed v (ends v) now = b.windowed w (ends w) now := by
  have covers : ∀ k, v.covers k = w.covers k := fun k => by unfold Window.covers; rw [mask]
  have blocked : b.blockedBy v (ends v) = b.blockedBy w (ends w) := by
    unfold BreakRecord.blockedBy; rw [covers, tells v w start stop]
  exact ⟨blocked, by unfold BreakRecord.windowed; rw [blocked, covers, start]⟩

theorem State.Windowed.cons {s t u : State} {w i : Nat} {ends : Window → Time → Bool} {l : List Nat}
    (tells : Window.boundsTell ends) (out : i ∉ l) (h : s.Windowed t w ends [i]) (k : t.Windowed u w ends l) :
    s.Windowed u w ends (i :: l) := by
  obtain ⟨-, mask, start, stop⟩ := h.windows.bounds w
  have same := fun b : BreakRecord => BreakRecord.windowed_congr (b := b) (now := s.now) tells mask start stop
  have away : ∀ j ∈ l, t.brk j = s.brk j := fun j mem =>
    h.kept j fun single => out (List.mem_singleton.mp single ▸ mem)
  refine ⟨fun j mem => ?_, fun j none => ?_, h.lanes.trans k.lanes, fun j mem blocked => ?_, h.windows.trans k.windows,
    k.now.trans h.now⟩
  · rcases List.mem_cons.mp mem with rfl | rest
    · exact (k.kept j out).trans (h.acted j (List.mem_singleton_self j))
    · rw [k.acted j rest, away j rest, h.now, (same _).2]
  · obtain ⟨first, rest⟩ := not_or.mp fun either => none (List.mem_cons.mpr either)
    exact (k.kept j rest).trans (h.kept j fun single => first (List.mem_singleton.mp single))
  · intro lane held lt
    rcases List.mem_cons.mp mem with rfl | rest
    · have freed := h.released j (List.mem_singleton_self j) blocked lane held lt
      rcases k.lanes.2 lane with same | again
      · exact same.trans freed
      · rw [again, freed]; rfl
    · have freed := k.released j rest (by rw [away j rest, (same _).1]; exact blocked) lane (by rw [away j rest]; exact held)
        (by rw [h.lanes.1]; exact lt)
      rcases h.lanes.2 lane with same | before
      · rw [freed, same]
      · rw [freed, before]; rfl

theorem State.windowSteps_windowed {ends : Window → Time → Bool} (tells : Window.boundsTell ends) (w : Nat) (l : List Nat)
    (nodup : l.Nodup) (s : State) : s.Windowed (l.foldl (State.windowStep w ends) s) w ends l := by
  induction l generalizing s with
  | nil =>
    exact ⟨fun _ mem => absurd mem List.not_mem_nil, fun _ _ => rfl, State.lanesFreed_of_eq rfl,
      fun _ mem => absurd mem List.not_mem_nil, State.windowsCounted_of_eq w rfl, rfl⟩
  | cons i l ih =>
    obtain ⟨out, rest⟩ := List.nodup_cons.mp nodup
    exact (s.windowStep_windowed w ends i).cons tells out (ih rest _)

/-- A window leaves a break alone that is neither CUED nor ON_AIR, or not on its slots. -/
theorem State.windowStep_idle {s : State} {w i : Nat} (ends : Window → Time → Bool)
    (h : (s.window w).covers (s.brk i).slot = false ∨ (s.brk i).live = false) : s.windowStep w ends i = s := by
  unfold State.windowStep BreakRecord.blockedBy
  rcases h with away | idle
  · simp [away]
  · cases state : (s.brk i).state <;> simp [BreakRecord.live, state] at idle ⊢

/-- What a window's acts leave of the part, the counts of a table with one break of its own among them. -/
theorem State.windowSteps_acted {ends : Window → Time → Bool} (tells : Window.boundsTell ends) (w : Nat) (u : State) :
    u.windowActed (breakIndices.foldl (State.windowStep w ends) u) w (ends (u.window w)) := by
  have acts := State.windowSteps_windowed tells w breakIndices breakIndices_nodup u
  refine ⟨fun i small => ?_, acts.windows, fun away => ?_, fun i small only covers => ?_⟩
  · have acted := acts.acted i (mem_breakIndices.mpr small)
    refine ⟨fun idle => ?_, fun covers => ⟨fun onAir => ?_, fun x cued stands => ⟨fun stays => ?_, fun ended => ?_⟩⟩⟩
    · rw [acted, BreakRecord.windowed, BreakRecord.blockedBy]
      rcases idle with out | still
      · simp [out]
      · cases state : (u.brk i).state <;> simp [BreakRecord.live, state] at still ⊢
    · rw [acted, BreakRecord.windowed, BreakRecord.blockedBy]
      simp [covers, onAir]
    · rw [acted, BreakRecord.windowed, BreakRecord.blockedBy]
      simp [cued, stands, stays]
    · have blocked : (u.brk i).blockedBy (u.window w) (ends (u.window w)) = true := by
        simp [BreakRecord.blockedBy, covers, cued, stands, ended]
      exact ⟨by rw [acted, BreakRecord.windowed, if_pos blocked], acts.released i (mem_breakIndices.mpr small) blocked⟩
  · rw [foldl_eq_of_noop (State.windowStep w ends) u breakIndices fun i mem => State.windowStep_idle ends ?_]
    cases live : (u.brk i).live with
    | true => exact .inl (away i (mem_breakIndices.mp mem) live)
    | false => exact .inr rfl
  · have one := u.windowStep_windowed w ends i
    have alone : breakIndices.foldl (State.windowStep w ends) u = u.windowStep w ends i :=
      foldl_eq_of_only _ u i breakIndices breakIndices_nodup (mem_breakIndices.mpr small)
        (fun j mem other => State.windowStep_idle ends (.inr (only j (mem_breakIndices.mp mem) other)))
        fun j mem other => State.windowStep_idle ends (.inr (by
          rw [one.kept j fun single => other (List.mem_singleton.mp single)]
          exact only j (mem_breakIndices.mp mem) other))
    rw [alone]
    refine ⟨fun onAir => ?_, fun x v cued stands ended bound blocks lowest => ?_⟩
    · have offers : u.windowStep w ends i = u.offerWindow w i := by
        unfold State.windowStep BreakRecord.blockedBy
        rw [if_neg (by simp [onAir]), if_pos (by simp [covers, onAir])]
      rw [offers, State.offerWindow]
      dsimp only
      split <;> rfl
    · have ends_ : u.windowStep w ends i = u.blockCued w i := by
        unfold State.windowStep BreakRecord.blockedBy
        rw [if_pos (by simp [covers, cued, stands, ended])]
      have counting : u.countingWindow w i = v := by
        have found : (windowIndices.find? fun k => (u.window k).blocksCued u.now (u.brk i).slot x) = some v :=
          List.find?_range_eq_some.mpr ⟨blocks, List.mem_range.mpr bound, fun k below => by simp [lowest k below]⟩
        rw [State.countingWindow, stands]
        simp only [found, Option.getD_some]
      rw [ends_, State.blockCued, counting, State.blockBreak]
      simp [State.withWindow]

/-- A window that becomes ACTIVE. -/
theorem State.windowActive_acted (u : State) (w : Nat) :
    u.windowActed (u.windowActive w) w fun x => earlier x (u.window w).stop := by
  have acts := State.windowSteps_acted (ends := fun win x => earlier x win.stop)
    (fun a b _ stop => by simp only [stop]) w (u.raise .windowActive w (u.window w).mask.toNat)
  rw [← State.windowActs_eq] at acts
  exact acts

/-- A window set PENDING. -/
theorem State.windowSetPending_acted (u : State) (w : Nat) :
    u.windowActed (u.windowSetPending w) w fun x => reached x (u.window w).start && earlier x (u.window w).stop := by
  rw [State.windowSetPending_eq]
  exact State.windowSteps_acted (ends := fun win x => reached x win.start && earlier x win.stop)
    (fun a b start stop => by simp only [start, stop]) w u

theorem State.windowActive_port (u : State) (w : Nat) (p : Port) :
    (u.windowActive w).port p =
      (u.port p).offers (⟨.windowActive, w, (u.window w).mask.toNat, u.now⟩ ::
        u.blockedEvents w fun x => earlier x (u.window w).stop) := by
  rw [State.windowActive, State.windowActs_port, State.raise_port]
  rfl

/-- A PENDING window whose start is reached: it becomes ACTIVE, and ends at once where its end is reached too. -/
theorem State.windowStart_due {s : State} {w : Nat} (pending : (s.window w).state = .pending)
    (due : reached s.now (s.window w).start = true) (index : w < s.windows.length) :
    let t := (s.withWindow w { s.window w with state := .active }).windowActive w
    s.windowStart w = (if reached s.now (s.window w).stop then t.windowFree w 0 else t) ∧
      (t.window w).state = .active ∧ (t.window w).mask = (s.window w).mask ∧ (t.window w).start = (s.window w).start ∧
      (t.window w).stop = (s.window w).stop ∧
      (s.withWindow w { s.window w with state := .active }).windowActed t w (fun x => earlier x (s.window w).stop) ∧
      (∀ p, t.port p =
        (s.port p).offers (⟨.windowActive, w, (s.window w).mask.toNat, s.now⟩ ::
          (s.withWindow w { s.window w with state := .active }).blockedEvents w fun x => earlier x (s.window w).stop)) ∧
      s.intakeKept t ∧ s.siteKept t ∧ s.rulesKept t := by
  intro t
  have begins : s.windowStart w = t.windowEnd w := if_pos (by simp [pending, due])
  have act := State.window_withWindow { s.window w with state := .active } index
  have acts := (s.withWindow w { s.window w with state := .active }).windowActive_acted w
  have ports := (s.withWindow w { s.window w with state := .active }).windowActive_port w
  have kept : t.now = s.now ∧ s.intakeKept t ∧ s.siteKept t ∧ s.rulesKept t := by
    simp [t, State.now, State.intakeKept, State.siteKept, State.rulesKept, State.withWindow]
  have same : ∀ p, (s.withWindow w { s.window w with state := .active }).port p = s.port p ∧
      (s.withWindow w { s.window w with state := .active }).now = s.now := fun p => by cases p <;> exact ⟨rfl, rfl⟩
  change State.windowActed _ t w _ at acts
  change ∀ p, t.port p = _ at ports
  clear_value t
  generalize s.withWindow w { s.window w with state := .active } = u at *
  rw [act] at acts ports
  obtain ⟨now, rest⟩ := kept
  obtain ⟨-, counted, -⟩ := id acts
  obtain ⟨state, mask, start, stop⟩ := State.windowsCounted.bounds (s := u) counted w
  rw [act] at state mask start stop
  refine ⟨?_, state, mask, start, stop, acts, fun p => ?_, rest⟩
  · rw [begins, State.windowEnd, state, stop, now]
    simp
  · rw [ports, (same p).1, (same p).2]

/-- An accepted window and its effects at the same instant. -/
theorem State.setWindow_spec (s : State) (mask : BitVec 8) (start stop : Time) {w : Nat} (index : w < s.windows.length) :
    let set_ := s.withWindow w ⟨if later start s.now then .pending else .active, mask, start, stop, s.now, 0, 0⟩
    let ends := fun x => if later start s.now then reached x start && earlier x stop else earlier x stop
    let t := s.setWindow w mask start stop
    set_.windowActed t w ends ∧
      (∀ p, t.port p =
        (s.port p).offers
          ((if later start s.now then [] else [⟨.windowActive, w, mask.toNat, s.now⟩]) ++ set_.blockedEvents w ends)) ∧
      s.intakeKept t ∧ s.siteKept t ∧ s.rulesKept t := by
  intro set_ ends t
  have put : set_.window w = ⟨if later start s.now then .pending else .active, mask, start, stop, s.now, 0, 0⟩ :=
    State.window_withWindow _ index
  have same : set_.now = s.now ∧ (∀ p, set_.port p = s.port p) ∧ s.intakeKept set_ ∧ s.siteKept set_ ∧ s.rulesKept set_ :=
    ⟨rfl, fun p => by cases p <;> rfl, ⟨rfl, rfl, rfl, rfl, rfl⟩, ⟨rfl, rfl, rfl⟩, ⟨rfl, rfl, rfl, rfl⟩⟩
  have sets : t = if later start s.now then set_.windowSetPending w else set_.windowActive w := rfl
  clear_value set_ t
  obtain ⟨now, portsKept, intake, site, rules⟩ := same
  simp only [ends]
  cases pending : later start s.now with
  | true =>
    simp only [pending, if_true] at put sets ⊢
    have acts := set_.windowSetPending_acted w
    have ports := set_.windowSetPending_port w
    rw [put] at acts ports
    rw [sets]
    refine ⟨acts, fun p => by rw [ports, portsKept]; rfl, ?_⟩
    simpa [State.intakeKept, State.siteKept, State.rulesKept] using ⟨intake, site, rules⟩
  | false =>
    simp only [pending, Bool.false_eq_true, if_false] at put sets ⊢
    have acts := set_.windowActive_acted w
    have ports := set_.windowActive_port w
    rw [put] at acts ports
    rw [sets]
    refine ⟨acts, fun p => by rw [ports, portsKept, now]; rfl, ?_⟩
    simpa [State.intakeKept, State.siteKept, State.rulesKept] using ⟨intake, site, rules⟩

/-- The checks of SET WINDOW that a window passes (R124). -/
theorem exec_setWindow {s : State} {params : List Byte} (open_ : s.open_ .network) (length : params.length = 17) :
    exec (.setWindow .network params) s =
      .next (if params.headD 0 ≠ 0 ∧ tickFits params 1 = true ∧ tickFits params 9 = true ∧
          later (instantAt params 9) (instantAt params 1) = true ∧ later (instantAt params 9) s.now = true then
        match s.freeWindow with
        | none => s.answers .network params (.no .tableFull)
        | some w =>
          ((s.takes .network params).setWindow w (params.headD 0) (instantAt params 1) (instantAt params 9)).respond .network
            (.ok (be 1 w))
      else s.answers .network params (.no .badValue)) := by
  have now : (s.takes .network params).now = s.now := rfl
  have free : (s.takes .network params).freeWindow = s.freeWindow := by simp
  by_cases fits : params.headD 0 ≠ 0 ∧ tickFits params 1 = true ∧ tickFits params 9 = true ∧
    later (instantAt params 9) (instantAt params 1) = true ∧ later (instantAt params 9) s.now = true
  · rw [if_pos fits]
    obtain ⟨mask, first, last, order, future⟩ := fits
    have passes : ¬ (params.headD 0 = 0 ∨ (!tickFits params 1) = true ∨ (!tickFits params 9) = true ∨
        (!later (instantAt params 9) (instantAt params 1)) = true ∨ (!later (instantAt params 9) s.now) = true) := by
      simpa [first, last, order, future] using mask
    cases record : s.freeWindow with
    | none =>
      refine next_refused open_ (by omega) rfl ((if_neg nofun).trans ((if_neg (by omega)).trans ?_))
      dsimp only
      rw [now, if_neg passes, free, record]
    | some w =>
      refine next_answered open_ (by omega) rfl ((if_neg nofun).trans ((if_neg (by omega)).trans ?_))
      dsimp only
      rw [now, if_neg passes, free, record]
  · rw [if_neg fits]
    refine next_refused open_ (by omega) rfl ((if_neg nofun).trans ((if_neg (by omega)).trans (if_pos ?_)))
    rw [now]
    by_contra none
    simp only [not_or, Bool.not_eq_true', Bool.not_eq_false] at none
    exact fits none

/-- Settles O41: a window's record and state, then its act on every break of its slots, and its end. -/
theorem windowsComeAndGo : Obligations.WindowsComeAndGo := by
  refine fun s => ⟨fun w pending due index => ?_, fun w active due => ?_, fun open_ => ⟨fun b => ⟨fun range => ?_,
    fun small free => ?_, fun small held => ?_⟩, fun params length => ?_, fun params length => ?_⟩⟩
  · obtain ⟨begins, rest⟩ := State.windowStart_due pending due index
    exact ⟨_, congrArg Host.Outcome.next begins, rest⟩
  · exact congrArg Host.Outcome.next (if_pos (by simp [active, due]))
  · exact next_refused open_ (by simp) rfl ((if_neg nofun).trans (if_pos range))
  · exact next_refused open_ (by simp) rfl ((if_neg nofun).trans ((if_neg (show ¬ 8 ≤ b.toNat by omega)).trans (if_pos free)))
  · exact next_answered open_ (by simp) rfl
      ((if_neg nofun).trans ((if_neg (show ¬ 8 ≤ b.toNat by omega)).trans (if_neg held)))
  · by_cases long : 3072 < params.length
    · exact next_badLength open_ (.inl long)
    · exact next_refused open_ (by omega) rfl ((if_neg nofun).trans (if_pos length))
  · rw [exec_setWindow open_ length]
    refine ⟨fun bad => ?_, fun mask first last order future => ?_⟩
    · have fails : ¬ (params.headD 0 ≠ 0 ∧ tickFits params 1 = true ∧ tickFits params 9 = true ∧
          later (instantAt params 9) (instantAt params 1) = true ∧ later (instantAt params 9) s.now = true) := by
        rintro ⟨mask, first, last, order, future⟩
        rcases bad with h | h | h | h | h
        · exact mask h
        · exact absurd (h.symm.trans first) nofun
        · exact absurd (h.symm.trans last) nofun
        · exact absurd (h.symm.trans order) nofun
        · exact absurd (h.symm.trans future) nofun
      rw [if_neg fails]
    · have fits := And.intro mask (And.intro first (And.intro last (And.intro order future)))
      rw [if_pos fits]
      refine ⟨fun full => by rw [full], fun w free index => ?_⟩
      rw [free]
      obtain ⟨acts, ports, kept⟩ := (s.takes .network params).setWindow_spec (params.headD 0) (instantAt params 1)
        (instantAt params 9) (w := w) index
      exact ⟨_, rfl, acts, ports, kept⟩

end Sys2Proof.Machine
end

