-- ==== Sys2Proof/Proofs/Conversions.lean ====
section
/-! The conversions of the monitor: classification, capture, and a scan range that takes force (R132 to R137). -/

namespace Sys2Proof.Machine

open Sys2Proof

-- One proof after the other: proofs that wait for each other hold a thread each.
set_option Elab.async false

/-! ### A conversion classified (R135, R136) -/

/-- The run count after a conversion of class `k`. -/
def Channel.runOf (c : Channel) (k : ChannelClass) : Nat :=
  if k.state = c.state then 0 else if c.previous = some k then c.run + 1 else 1

/-- A conversion to `v` changes the state of the channel. -/
abbrev Channel.turns (c : Channel) (v : Nat) : Prop :=
  (c.classOf v).state ≠ c.state ∧ c.persistence ≤ c.runOf (c.classOf v)

/-- The channel after a conversion to `v`. -/
def Channel.converted (c : Channel) (v : Nat) : Channel :=
  { c with
    value := v, previous := some (c.classOf v)
    state := if c.turns v then (c.classOf v).state else c.state
    run := if c.turns v then 0 else c.runOf (c.classOf v) }

theorem Channel.convert_eq (c : Channel) (v : Nat) : c.convert v = (c.converted v, decide (c.turns v)) := by
  by_cases turns : c.turns v
  · refine (if_pos turns).trans ?_
    simp only [Channel.converted, if_pos turns, decide_eq_true turns]
  · refine (if_neg turns).trans ?_
    simp only [Channel.converted, if_neg turns, decide_eq_false turns]
    rfl

theorem ChannelClass.state_normal (k : ChannelClass) : k.state = .normal ↔ k = .n := by
  cases k <;> simp [ChannelClass.state]

/-- A conversion stored and classified, before the changeover looks at the exciter health. -/
def State.classified (s : State) (i v : Nat) : State :=
  if (s.channel i).turns v then
    ((s.withChannel i ((s.channel i).converted v)).raise .channelLimit i ((s.channel i).converted v).state.code).offerCapture i
  else s.withChannel i ((s.channel i).converted v)

theorem State.convertChannel_eq (s : State) (i v : Nat) :
    s.convertChannel i v = if (s.channel i).turns v then (s.classified i v).reform s else s.classified i v := by
  unfold State.convertChannel
  rw [Channel.convert_eq]
  by_cases turns : (s.channel i).turns v
  · simp only [State.classified, decide_eq_true turns, if_pos turns, if_true]
  · simp only [State.classified, decide_eq_false turns, if_neg turns, Bool.false_eq_true, if_false]

/-- The events of a conversion (R146). -/
def State.conversionEvents (s : State) (i v : Nat) : List Event :=
  if (s.channel i).turns v then
    ⟨.channelLimit, i, ((s.channel i).classOf v).state.code, s.now⟩ ::
      if (s.channel i).classOf v ≠ .n ∧ s.mon.capture = none then
        [⟨.captureHeld, i, ((s.channel i).classOf v).state.code, s.now⟩]
      else []
  else []

/-- The capture record after a conversion (R136). -/
def State.captured (s : State) (i v : Nat) : Option Capture :=
  if (s.channel i).turns v ∧ (s.channel i).classOf v ≠ .n ∧ s.mon.capture = none then
    some ⟨(s.mon.channels.map (·.value)).set i v, s.mon.first, s.mon.last, i, ((s.channel i).classOf v).state, s.now⟩
  else s.mon.capture

theorem State.classified_spec {s : State} {i : Nat} (v : Nat) (index : i < s.mon.channels.length) :
    (s.classified i v).mon =
        { s.mon with
          channels := s.mon.channels.set i ((s.channel i).converted v), capture := s.captured i v } ∧
      (s.classified i v).chg = s.chg ∧ (s.classified i v).lines = s.lines ∧ (s.classified i v).now = s.now ∧
      ∀ p, (s.classified i v).port p = (s.port p).offers (s.conversionEvents i v) := by
  by_cases turns : (s.channel i).turns v
  · have state : ((s.channel i).converted v).state = ((s.channel i).classOf v).state := if_pos turns
    have own : (((s.withChannel i ((s.channel i).converted v)).raise .channelLimit i
        ((s.channel i).converted v).state.code).channel i) = (s.channel i).converted v :=
      (State.channel_congr (by simp) i).trans (State.channel_withChannel _ index)
    have values : (s.mon.channels.set i ((s.channel i).converted v)).map (·.value) = (s.mon.channels.map (·.value)).set i v :=
      List.map_set
    unfold State.classified State.captured State.conversionEvents
    simp only [if_pos turns]
    unfold State.offerCapture
    dsimp only
    rw [own, state]
    by_cases fills : (s.channel i).classOf v ≠ .n ∧ s.mon.capture = none
    · have free : ¬ (((s.channel i).classOf v).state = .normal ∨ (((s.withChannel i ((s.channel i).converted v)).raise
          .channelLimit i ((s.channel i).classOf v).state.code).mon.capture.isSome = true)) := by
        rw [ChannelClass.state_normal]
        simp [fills.1, fills.2, State.withChannel]
      rw [if_neg free, if_pos fills, if_pos ⟨turns, fills⟩]
      refine ⟨?_, by simp, by simp, by simp [State.now], fun p => by cases p <;> rfl⟩
      simp [State.withChannel, values, State.now]
    · have held : ((s.channel i).classOf v).state = .normal ∨ (((s.withChannel i ((s.channel i).converted v)).raise
          .channelLimit i ((s.channel i).classOf v).state.code).mon.capture.isSome = true) := by
        rw [ChannelClass.state_normal]
        by_contra none
        refine fills ⟨fun n => none (.inl n), ?_⟩
        cases capture : s.mon.capture with
        | none => rfl
        | some c => exact absurd (.inr (by simp [State.withChannel, capture])) none
      rw [if_pos held, if_neg fills, if_neg fun all => fills all.2]
      exact ⟨by simp [State.withChannel], by simp, by simp, by simp [State.now], fun p => by cases p <;> rfl⟩
  · unfold State.classified State.captured State.conversionEvents
    simp only [if_neg turns]
    rw [if_neg fun all => turns all.1]
    exact ⟨rfl, rfl, rfl, rfl, fun p => by cases p <;> rfl⟩

theorem State.convertChannel_mon {s : State} {i : Nat} (v : Nat) (index : i < s.mon.channels.length) :
    (s.convertChannel i v).mon =
      { s.mon with channels := s.mon.channels.set i ((s.channel i).converted v), capture := s.captured i v } := by
  obtain ⟨mon, -⟩ := s.classified_spec v index
  rw [State.convertChannel_eq]
  split <;> simp [mon]

/-! ### Channels that feed no fault of the exciters (R137) -/

/-- No channel is a main or a reserve one. -/
def State.quiet (s : State) : Prop := ∀ x ∈ s.mon.channels, x.role = .none ∨ x.role = .site

theorem State.quiet_any {s : State} (h : s.quiet) (role : Role) (feeds : role ≠ .none ∧ role ≠ .site) :
    s.mon.channels.any (·.faultAs role) = false := by
  refine List.any_eq_false.mpr fun x mem fault => ?_
  rcases h x mem with other | other <;> simp only [Channel.faultAs, other, Bool.and_eq_true, beq_iff_eq] at fault
  · exact feeds.1 fault.1.symm
  · exact feeds.2 fault.1.symm

/-- A change of quiet channels is none of the exciter health. -/
theorem State.reform_quiet {s before : State} (h : s.quiet) (k : before.quiet) (lines : s.lines = before.lines) :
    s.reform before = s := by
  refine if_pos ⟨?_, ?_⟩
  · rw [State.mainFault, State.mainFault, lines, State.quiet_any h .main ⟨nofun, nofun⟩, State.quiet_any k .main ⟨nofun, nofun⟩]
  · rw [State.reserveFault, State.reserveFault, lines, State.quiet_any h .reserve ⟨nofun, nofun⟩,
      State.quiet_any k .reserve ⟨nofun, nofun⟩]

theorem State.withChannel_quiet {s : State} {i : Nat} {x : Channel} (h : s.quiet) (role : x.role = (s.channel i).role) :
    (s.withChannel i x).quiet := by
  intro y mem
  rcases List.mem_or_eq_of_mem_set mem with old | rfl
  · exact h y old
  · rw [role, State.channel, List.getD_eq_getElem?_getD]
    cases at_ : s.mon.channels[i]? with
    | none => exact .inl rfl
    | some c => exact h c (List.mem_of_getElem? at_)

/-! ### A pending range takes force (R133) -/

theorem mem_freeOrder_iff {α : Type} {draw : Nat} {kind : α → Nat} {x : α} {l : List α} :
    x ∈ freeOrder draw kind l ↔ x ∈ l := by
  have inserted : ∀ (a : α) (l : List α), a ∈ insertByRank draw kind a l ∧ ∀ x ∈ l, x ∈ insertByRank draw kind a l := by
    intro a l
    induction l with
    | nil => exact ⟨List.mem_singleton_self a, fun x mem => absurd mem List.not_mem_nil⟩
    | cons b l ih =>
      unfold insertByRank
      split
      · exact ⟨List.mem_cons_self, fun x mem => List.mem_cons_of_mem a mem⟩
      · refine ⟨List.mem_cons_of_mem b ih.1, fun x mem => ?_⟩
        rcases List.mem_cons.mp mem with rfl | rest
        · exact List.mem_cons_self
        · exact List.mem_cons_of_mem b (ih.2 x rest)
  refine ⟨mem_freeOrder, fun mem => ?_⟩
  induction l with
  | nil => exact mem
  | cons a l ih =>
    rcases List.mem_cons.mp mem with rfl | rest
    · exact (inserted x _).1
    · exact (inserted a _).2 x (ih rest)

/-- A channel after `f` has been put to channel `i`. -/
theorem State.channel_put (s : State) (f : Channel → Channel) (rest : f .reset = .reset) (i j : Nat) :
    (s.withChannel i (f (s.channel i))).channel j = if j = i then f (s.channel j) else s.channel j := by
  split
  · next same =>
    subst same
    rcases Nat.lt_or_ge j s.mon.channels.length with lt | ge
    · exact State.channel_withChannel _ lt
    · have none : s.channel j = .reset := by simp [State.channel, List.getElem?_eq_none ge]
      rw [none, rest]
      simp [State.withChannel, State.channel, State.withMon, ge]
  · next other => exact State.channel_withChannel_ne _ other

/-- The channels and the rest of the monitor after `f` has been put to each channel of a list. -/
theorem State.foldl_channel {g : State → Nat → State} {f : Channel → Channel}
    (own : ∀ u i, (g u i).mon = (u.withChannel i (f (u.channel i))).mon) (idem : ∀ c, f (f c) = f c)
    (rest : f .reset = .reset) (l : List Nat) (s : State) :
    (l.foldl g s).mon = { s.mon with channels := (l.foldl g s).mon.channels } ∧
      ∀ j, (l.foldl g s).channel j = if j ∈ l then f (s.channel j) else s.channel j := by
  induction l generalizing s with
  | nil => exact ⟨rfl, fun j => by simp⟩
  | cons i l ih =>
    obtain ⟨mon, channels⟩ := ih (g s i)
    have step : ∀ j, (g s i).channel j = if j = i then f (s.channel j) else s.channel j := fun j =>
      (State.channel_congr (own s i) j).trans (s.channel_put f rest i j)
    refine ⟨mon.trans (by rw [own]; rfl), fun j => ?_⟩
    rw [List.foldl_cons, channels, step]
    by_cases first : j = i <;> by_cases later : j ∈ l <;> simp [first, later, idem]

/-- A channel returned to NORMAL. -/
def Channel.normal (c : Channel) : Channel := { c with state := .normal }

theorem State.returnNormal_mon (s : State) (i : Nat) :
    (s.returnNormal i).mon = (s.withChannel i (s.channel i).normal).mon := by
  simp [State.returnNormal, Channel.normal]

/-- What a new range takes from the channels outside it, before any of them is NORMAL again. -/
def State.leftRange (s : State) (first last : Nat) : State :=
  (outsideRange first last).foldl (fun s i => s.withChannel i (s.channel i).leaveRange)
    (s.withMon { s.mon with first := first, last := last, pendingRange := none, converting := first })

/-- The channels that a new range returns to NORMAL. -/
def State.returning (s : State) (first last : Nat) : List Nat :=
  (outsideRange first last).filter fun i => (s.channel i).state != .normal

theorem State.takeRange_eq (s : State) (first last : Nat) :
    s.takeRange first last =
      ((freeOrder ((s.returning first last).foldl (fun s i => s.raise .channelLimit i 0) (s.leftRange first last)).draws id
        (s.returning first last)).foldl State.returnNormal
          ((s.returning first last).foldl (fun s i => s.raise .channelLimit i 0) (s.leftRange first last))).draw := by
  rfl

theorem mem_outsideRange {first last i : Nat} : i ∈ outsideRange first last ↔ i < 8 ∧ (i < first ∨ last < i) := by
  simp [outsideRange]

/-- The monitor after a pending range has taken force (R133). -/
theorem State.takeRange_mon (s : State) (first last : Nat) :
    (s.takeRange first last).mon =
        { s.mon with
          first := first, last := last, pendingRange := none, converting := first
          channels := (s.takeRange first last).mon.channels } ∧
      ∀ i, i < 8 →
        (first ≤ i → i ≤ last → (s.takeRange first last).channel i = s.channel i) ∧
        (i < first ∨ last < i →
          (s.takeRange first last).channel i = { s.channel i with state := .normal, run := 0, previous := none }) := by
  rw [State.takeRange_eq]
  generalize order : freeOrder _ id (s.returning first last) = l
  have members : ∀ i, i ∈ l ↔ i ∈ s.returning first last := fun i => by rw [← order]; exact mem_freeOrder_iff
  have left := State.foldl_channel (g := fun s i => s.withChannel i (s.channel i).leaveRange) (f := Channel.leaveRange)
    (fun _ _ => rfl) (fun _ => rfl) rfl (outsideRange first last)
    (s.withMon { s.mon with first := first, last := last, pendingRange := none, converting := first })
  obtain ⟨leftMon, leftChannels⟩ := left
  have raised : ((s.returning first last).foldl (fun s i => s.raise .channelLimit i 0) (s.leftRange first last)).mon =
      (s.leftRange first last).mon := foldl_keeps (·.mon) (fun u i => by simp) _ _
  generalize (s.returning first last).foldl (fun s i => s.raise .channelLimit i 0) (s.leftRange first last) = u at raised
  obtain ⟨backMon, backChannels⟩ := State.foldl_channel State.returnNormal_mon (f := Channel.normal) (fun _ => rfl) rfl l u
  have draw : ∀ t : State, t.draw.mon = t.mon := fun t => by simp [State.draw]
  refine ⟨?_, fun i small => ?_⟩
  · rw [draw, backMon, raised, State.leftRange, leftMon]
    simp
  · have channel : ∀ t : State, t.draw.channel i = t.channel i := fun t => State.channel_congr (draw t) i
    have old : (s.withMon { s.mon with
        first := first, last := last, pendingRange := none, converting := first }).channel i = s.channel i := rfl
    rw [channel, backChannels, State.channel_congr raised i, State.leftRange, leftChannels, old]
    refine ⟨fun low high => ?_, fun out => ?_⟩
    · have inside : i ∉ outsideRange first last := fun mem => by
        have := (mem_outsideRange.mp mem).2
        omega
      have stays : i ∉ l := fun mem => inside (List.mem_of_mem_filter ((members i).mp mem))
      rw [if_neg stays, if_neg inside]
    · have outside : i ∈ outsideRange first last := mem_outsideRange.mpr ⟨small, out⟩
      rw [if_pos outside]
      by_cases back : i ∈ l
      · rw [if_pos back]
        rfl
      · rw [if_neg back]
        have normal : (s.channel i).state = .normal := by
          by_contra other
          exact back ((members i).mpr (List.mem_filter.mpr ⟨outside, by simpa using other⟩))
        rw [Channel.leaveRange, ← normal]

theorem State.foldl_raise_port (l : List Nat) (s : State) (kind : EventKind) (detail : Nat) (p : Port) :
    (l.foldl (fun s i => s.raise kind i detail) s).port p = (s.port p).offers (l.map fun i => ⟨kind, i, detail, s.now⟩) := by
  induction l generalizing s with
  | nil => rfl
  | cons i l ih =>
    have now : (s.raise kind i detail).now = s.now := by simp [State.now]
    rw [List.foldl_cons, ih, State.raise_port, now]
    rfl

/-- Quiet channels that come back to NORMAL touch nothing else. -/
theorem State.returnNormal_quiet (l : List Nat) {s : State} (h : s.quiet) :
    (l.foldl State.returnNormal s).chg = s.chg ∧ ∀ p, (l.foldl State.returnNormal s).port p = s.port p := by
  induction l generalizing s with
  | nil => exact ⟨rfl, fun _ => rfl⟩
  | cons i l ih =>
    have quiet : (s.withChannel i { s.channel i with state := .normal }).quiet := State.withChannel_quiet h rfl
    have back : s.returnNormal i = s.withChannel i { s.channel i with state := .normal } :=
      State.reform_quiet quiet h rfl
    obtain ⟨chg, ports⟩ := ih quiet
    rw [List.foldl_cons, back]
    exact ⟨chg.trans rfl, fun p => (ports p).trans (by cases p <;> rfl)⟩

/-- A pending range that takes force among quiet channels raises CHANNEL_LIMIT for those it returns to NORMAL. -/
theorem State.takeRange_quiet {s : State} (h : s.quiet) (first last : Nat) :
    (s.takeRange first last).chg = s.chg ∧
      ∀ p, (s.takeRange first last).port p =
        (s.port p).offers ((s.returning first last).map fun i => ⟨.channelLimit, i, 0, s.now⟩) := by
  have left : ∀ (l : List Nat) (u : State), u.quiet →
      (l.foldl (fun s i => s.withChannel i (s.channel i).leaveRange) u).quiet ∧
        (l.foldl (fun s i => s.withChannel i (s.channel i).leaveRange) u).chg = u.chg ∧
        (l.foldl (fun s i => s.withChannel i (s.channel i).leaveRange) u).now = u.now ∧
        ∀ p, (l.foldl (fun s i => s.withChannel i (s.channel i).leaveRange) u).port p = u.port p := by
    intro l
    induction l with
    | nil => exact fun u quiet => ⟨quiet, rfl, rfl, fun _ => rfl⟩
    | cons i l ih =>
      intro u quiet
      obtain ⟨quiet', chg, now, ports⟩ := ih (u.withChannel i (u.channel i).leaveRange) (State.withChannel_quiet quiet rfl)
      exact ⟨quiet', chg, now, fun p => (ports p).trans (by cases p <;> rfl)⟩
  obtain ⟨quiet, chg, now, ports⟩ := left (outsideRange first last)
    (s.withMon { s.mon with first := first, last := last, pendingRange := none, converting := first }) h
  have same : (s.leftRange first last).quiet ∧ (s.leftRange first last).chg = s.chg ∧
      (s.leftRange first last).now = s.now ∧ ∀ p, (s.leftRange first last).port p = s.port p :=
    ⟨quiet, chg, now, fun p => (ports p).trans (by cases p <;> rfl)⟩
  obtain ⟨quiet, chg, now, ports⟩ := same
  rw [State.takeRange_eq]
  have raised := foldl_keeps (fun u : State => (u.mon, u.chg)) (g := fun s i => s.raise .channelLimit i 0)
    (fun u i => by simp) (s.returning first last) (s.leftRange first last)
  have offered := State.foldl_raise_port (s.returning first last) (s.leftRange first last) .channelLimit 0
  generalize (s.returning first last).foldl (fun s i => s.raise .channelLimit i 0) (s.leftRange first last) = u at *
  obtain ⟨mon, chg'⟩ := Prod.mk.injEq _ _ _ _ ▸ raised
  have quiet' : u.quiet := by unfold State.quiet; rw [mon]; exact quiet
  obtain ⟨last_, events⟩ := State.returnNormal_quiet (freeOrder u.draws id (s.returning first last)) quiet'
  refine ⟨?_, fun p => ?_⟩
  · simp only [State.draw_frame]
    rw [last_, chg', chg]
  · have drawn : ∀ t : State, t.draw.port p = t.port p := fun t => by cases p <;> rfl
    rw [drawn, events, offered, ports, now]

/-! ### The conversion complete (R132, R133) -/

theorem State.convertChannel_channel {s : State} {i : Nat} (v : Nat) (index : i < s.mon.channels.length) (j : Nat) :
    (s.convertChannel i v).channel j = if j = i then (s.channel i).converted v else s.channel j := by
  have put : (s.convertChannel i v).mon.channels = (s.withChannel i ((s.channel i).converted v)).mon.channels := by
    rw [State.convertChannel_mon v index]; rfl
  have same : (s.convertChannel i v).channel j = (s.withChannel i ((s.channel i).converted v)).channel j := by
    simp only [State.channel, put]
  rw [same]
  split
  · next own => subst own; exact State.channel_withChannel _ index
  · next other => exact State.channel_withChannel_ne _ other

theorem State.completeConversion_none {s : State} (v : Nat) (index : s.mon.converting < s.mon.channels.length)
    (none : s.mon.pendingRange = .none) :
    s.completeConversion v =
      (s.convertChannel s.mon.converting v).withMon
        { (s.convertChannel s.mon.converting v).mon with
          elapsed := 0
          converting := if s.mon.converting < s.mon.last then s.mon.converting + 1 else s.mon.first } := by
  have mon := State.convertChannel_mon v index
  unfold State.completeConversion
  generalize s.convertChannel s.mon.converting v = u at *
  have pending : (u.withMon { u.mon with elapsed := 0 }).mon.pendingRange = .none := by rw [State.withMon_mon, mon]; exact none
  have next : (u.withMon { u.mon with elapsed := 0 }).mon.nextChannel =
      if s.mon.converting < s.mon.last then s.mon.converting + 1 else s.mon.first := by
    rw [State.withMon_mon, Monitor.nextChannel, mon]
  simp only [pending]
  rw [next, ← pending]
  rfl

theorem State.completeConversion_some {s : State} (v : Nat) (index : s.mon.converting < s.mon.channels.length)
    {first last : Nat} (some : s.mon.pendingRange = .some (first, last)) :
    s.completeConversion v =
      ((s.convertChannel s.mon.converting v).withMon
        { (s.convertChannel s.mon.converting v).mon with elapsed := 0 }).takeRange first last := by
  have mon := State.convertChannel_mon v index
  unfold State.completeConversion
  generalize s.convertChannel s.mon.converting v = u at *
  have pending : (u.withMon { u.mon with elapsed := 0 }).mon.pendingRange = .some (first, last) := by
    rw [State.withMon_mon, mon]; exact some
  simp only [pending]

/-- A conversion among quiet channels moves the changeover no more than its own events. -/
theorem State.convertChannel_quiet {s : State} {i : Nat} (v : Nat) (index : i < s.mon.channels.length) (h : s.quiet) :
    (s.convertChannel i v).quiet ∧ (s.convertChannel i v).chg = s.chg ∧ (s.convertChannel i v).now = s.now ∧
      ∀ p, (s.convertChannel i v).port p = (s.port p).offers (s.conversionEvents i v) := by
  obtain ⟨mon, chg, lines, now, ports⟩ := s.classified_spec v index
  have quiet : (s.classified i v).quiet := by
    have put : (s.withChannel i ((s.channel i).converted v)).quiet := State.withChannel_quiet h rfl
    unfold State.quiet
    rw [mon]
    exact put
  have same : s.convertChannel i v = s.classified i v := by
    rw [State.convertChannel_eq]
    split
    · exact State.reform_quiet quiet h lines
    · rfl
  rw [same]
  exact ⟨quiet, chg, now, ports⟩

/-- Settles O42: the conversion classified, then the next channel, or the range that takes force. -/
theorem conversionsClassify : Obligations.ConversionsClassify := by
  intro s v due index c k run changes converted settled events
  have turns : changes ↔ c.turns v.toNat := Iff.rfl
  have mon := State.convertChannel_mon v.toNat index
  have channels : ∀ i, (s.convertChannel s.mon.converting v.toNat).channel i = settled i :=
    State.convertChannel_channel v.toNat index
  have completes : exec (.conversionComplete v) s = .next (s.completeConversion v.toNat) :=
    congrArg Host.Outcome.next (if_pos (decide_eq_true due))
  have follows := fun bound => State.convertChannel_follow v.toNat (s := s) index bound
  have quietly := fun quiet => State.convertChannel_quiet v.toNat (s := s) index quiet
  have capture : (changes → k ≠ .n → s.mon.capture = none →
      s.captured s.mon.converting v.toNat =
        some ⟨(s.mon.channels.map (·.value)).set s.mon.converting v.toNat, s.mon.first, s.mon.last, s.mon.converting,
          k.state, s.now⟩) ∧
      (¬ changes ∨ k = .n ∨ s.mon.capture ≠ none → s.captured s.mon.converting v.toNat = s.mon.capture) := by
    refine ⟨fun turned abnormal empty => if_pos ⟨turned, abnormal, empty⟩, fun out => if_neg fun ⟨turned, abnormal, empty⟩ => ?_⟩
    rcases out with h | h | h
    · exact h turned
    · exact abnormal h
    · exact h empty
  refine ⟨_, completes, ?_⟩
  have frame : (s.completeConversion v.toNat).lines = s.lines ∧ s.intakeKept (s.completeConversion v.toNat) ∧
      s.spliceKept (s.completeConversion v.toNat) ∧ s.rulesKept (s.completeConversion v.toNat) := by
    simp [State.intakeKept, State.spliceKept, State.rulesKept]
  cases pending : s.mon.pendingRange with
  | none =>
    rw [State.completeConversion_none v.toNat index pending] at frame ⊢
    generalize s.convertChannel s.mon.converting v.toNat = u at *
    obtain ⟨lines, intake, splice, rules⟩ := frame
    have monitor : ∀ m : Monitor, (u.withMon m).mon = m := fun _ => rfl
    refine ⟨rfl, by rw [monitor, mon]; exact pending, lines, intake, splice, rules, fun _ bound => follows bound,
      fun _ _ some => absurd some nofun, fun a b c => ?_, fun out => ?_, fun _ => ⟨channels, rfl, ?_, ?_⟩,
      fun _ _ some => absurd some nofun⟩
    · rw [monitor, mon]; exact capture.1 a b c
    · rw [monitor, mon]; exact capture.2 out
    · rw [monitor, mon]
    · rw [monitor, mon]
  | some range =>
    obtain ⟨first, last⟩ := range
    rw [State.completeConversion_some v.toNat index pending] at frame ⊢
    generalize s.convertChannel s.mon.converting v.toNat = u at *
    obtain ⟨monitor, scanned⟩ := (u.withMon { u.mon with elapsed := 0 }).takeRange_mon first last
    have quietRange := fun quiet : (u.withMon { u.mon with elapsed := 0 }).quiet => State.takeRange_quiet quiet first last
    have returns : (u.withMon { u.mon with elapsed := 0 }).returning first last =
        (List.range 8).filter fun i => decide ((i < first ∨ last < i) ∧ (settled i).state ≠ .normal) := by
      rw [State.returning, outsideRange, List.filter_filter]
      refine List.filter_congr fun i _ => ?_
      have same : (u.withMon { u.mon with elapsed := 0 }).channel i = settled i := channels i
      rw [same, Bool.eq_iff_iff]
      simp [and_comm]
    generalize (u.withMon { u.mon with elapsed := 0 }).takeRange first last = t at *
    obtain ⟨lines, intake, splice, rules⟩ := frame
    refine ⟨by rw [monitor]; rfl, by rw [monitor], lines, intake, splice, rules, fun none => absurd none nofun,
      fun a b some quiet => ?_, fun a b c => ?_, fun out => ?_, fun none => absurd none nofun, fun a b some => ?_⟩
    · cases some
      obtain ⟨quiet', chg, now, ports⟩ := quietly quiet
      obtain ⟨chg', ports'⟩ := quietRange quiet'
      refine ⟨chg'.trans chg, fun p => ?_⟩
      have same : (u.withMon { u.mon with elapsed := 0 }).port p = u.port p ∧
        (u.withMon { u.mon with elapsed := 0 }).now = u.now := by cases p <;> exact ⟨rfl, rfl⟩
      rw [ports', same.1, same.2, ports, now, returns, PortState.offers_append]
      rfl
    · rw [monitor]; exact (congrArg Monitor.capture mon).trans (capture.1 a b c)
    · rw [monitor]; exact (congrArg Monitor.capture mon).trans (capture.2 out)
    · cases some
      refine ⟨by rw [monitor], by rw [monitor], by rw [monitor], fun i small => ?_⟩
      have same : (u.withMon { u.mon with elapsed := 0 }).channel i = settled i := channels i
      have outcome := scanned i small
      rw [same] at outcome
      exact outcome

end Sys2Proof.Machine
end

