-- ==== Sys2Proof/Proofs/SelectorTests.lean ====
section
/-! The selector's tests settle: each admission and each skip brings them nearer to their end (R42, R44, R46, R47). -/

namespace Sys2Proof.Machine

open Sys2Proof

-- One proof after the other: proofs that wait for each other hold a thread each.
set_option Elab.async false

/-! ### One test (R42, R46) -/

/-- An admission or a skip of E is due, whatever the part state. -/
def State.testsDue (s : State) : Bool := s.sel.expected.any fun e => (s.admitCond e).isSome || s.skipDue e

/-- What one test does that is due. -/
def State.testStep (s : State) : State :=
  match s.sel.expected with
  | none => s
  | some e =>
    match s.admitCond e, s.bestCopy e with
    | some cond, some (place, r) => s.admitCopy cond e place r
    | _, _ => s.skip e

theorem State.selectorDue_eq (s : State) : s.selectorDue = (s.running && s.testsDue) := by
  unfold State.selectorDue State.testsDue
  cases s.sel.expected <;> rfl

theorem State.closedCopy_spec {s : State} {f : FeedId} {n i : Nat} {r : GroupRecord} (h : s.closedCopy f n = some (i, r)) :
    s.heldCopy f n = some (i, r) ∧ r.closed = true := by
  rw [State.closedCopy_eq] at h
  obtain ⟨held, closed⟩ := Option.filter_eq_some_iff.mp h
  exact ⟨held, closed⟩

theorem State.bestCopy_none {s : State} {e : Nat} (h : s.bestCopy e = none) (f : FeedId) : s.closedCopy f e = none := by
  have both : s.closedCopy s.sel.preferred e = none ∧ s.closedCopy s.sel.preferred.other e = none := by
    unfold State.bestCopy at h
    split at h
    · split at h <;> exact absurd h nofun
    · exact absurd h nofun
    · next first => exact ⟨first, h⟩
  rcases feed_eq_or_other s.sel.preferred f with same | other
  · rw [same]; exact both.1
  · rw [other]; exact both.2

theorem State.bestCopy_closed {s : State} {e place : Nat} {r : GroupRecord} (h : s.bestCopy e = some (place, r)) :
    ∃ f, s.closedCopy f e = some (place, r) := by
  unfold State.bestCopy at h
  split at h
  · next first second =>
    split at h
    · cases h; exact ⟨_, second⟩
    · cases h; exact ⟨_, first⟩
  · next first _ => cases h; exact ⟨_, first⟩
  · exact ⟨_, h⟩

theorem State.bestCopy_of_admitCond {s : State} {e : Nat} {k : AdmitCond} (h : s.admitCond e = some k) :
    ∃ place r, s.bestCopy e = some (place, r) := by
  cases best : s.bestCopy e with
  | some x => exact ⟨x.1, x.2, rfl⟩
  | none => exact absurd (h.symm.trans (State.admitCond_none (State.bestCopy_none best))) nofun

theorem State.selectorTests_succ (n : Nat) (s : State) :
    s.selectorTests (n + 1) = if s.testsDue then s.testStep.selectorTests n else s := by
  rw [State.selectorTests]
  unfold State.testsDue State.testStep
  cases s.sel.expected with
  | none => rfl
  | some e =>
    dsimp only [Option.any_some]
    rcases Option.eq_none_or_eq_some (s.admitCond e) with admits | ⟨k, admits⟩
    · simp only [admits]
      rfl
    · obtain ⟨place, r, best⟩ := State.bestCopy_of_admitCond admits
      simp only [admits, best]
      rfl

theorem State.selectorTests_settled {s : State} (h : s.testsDue = false) (n : Nat) : s.selectorTests n = s := by
  cases n with
  | zero => rfl
  | succ n => rw [State.selectorTests_succ, h]; rfl

/-! ### The measure of what is left to test -/

/-- A held copy stands at a place of the table. -/
def State.heldAt (s : State) (i : Nat) : Bool := (s.record i).any (·.held)

/-- The places of the held copies. -/
def State.heldPlaces (s : State) : Finset Nat := (Finset.range s.store.table.length).filter fun i => s.heldAt i = true

theorem State.mem_heldPlaces {s : State} {i : Nat} : i ∈ s.heldPlaces ↔ s.heldAt i = true := by
  refine ⟨fun mem => (Finset.mem_filter.mp mem).2, fun held => Finset.mem_filter.mpr ⟨Finset.mem_range.mpr ?_, held⟩⟩
  cases record : s.record i with
  | none => simp [State.heldAt, record] at held
  | some r => exact State.record_lt record

/-- E is expected and no copy of it is held. -/
def State.awaits (s : State) : Bool := s.sel.expected.any fun e => (s.heldCopy .a e).isNone && (s.heldCopy .b e).isNone

/-- Two for each held copy, and one while E is to be skipped. -/
def State.untested (s : State) : Nat := 2 * s.heldPlaces.card + if s.awaits then 1 else 0

theorem State.untested_le (s : State) : s.untested ≤ 2 * s.store.table.length + 1 := by
  have fewer : s.heldPlaces.card ≤ s.store.table.length :=
    (Finset.card_filter_le _ _).trans (Finset.card_range _).le
  unfold State.untested
  split <;> omega

/-- A copy held no more lowers the measure. -/
theorem State.untested_lt {s t : State} {i : Nat} (kept : ∀ j, t.heldAt j = true → s.heldAt j = true)
    (held : s.heldAt i = true) (gone : t.heldAt i = false) : t.untested < s.untested := by
  have fewer : t.heldPlaces.card < s.heldPlaces.card := by
    refine Finset.card_lt_card (Finset.ssubset_iff_subset_ne.mpr ⟨fun j mem => ?_, fun same => ?_⟩)
    · exact State.mem_heldPlaces.mpr (kept j (State.mem_heldPlaces.mp mem))
    · have := State.mem_heldPlaces.mp (same ▸ State.mem_heldPlaces.mpr held)
      exact absurd (gone.symm.trans this) nofun
  unfold State.untested
  split <;> split <;> omega

theorem State.sifted.heldAt {s t : State} (h : s.sifted t) (i : Nat) (held : t.heldAt i = true) : s.heldAt i = true := by
  unfold State.heldAt at *
  cases record : t.record i with
  | none => simp [record] at held
  | some r =>
    rw [record] at held
    rw [h.1 i r record held]
    exact held

/-- Group numbers of held copies have 16 bits. -/
def State.heldNumbered (s : State) : Prop := ∀ i r, s.record i = some r → r.held = true → r.group < 65536

theorem State.numbered_held {s : State} (h : s.numbered = true) : s.heldNumbered := by
  intro i r record _
  have mem := List.mem_of_getElem? (Store.mem_records.mp (State.mem_records.mpr record))
  simpa using List.all_eq_true.mp h _ mem

theorem State.sifted.heldNumbered {s t : State} (h : s.sifted t) (k : s.heldNumbered) : t.heldNumbered :=
  fun i r record held => k i r (h.1 i r record held) held

/-! ### An admission takes a held copy (R44) -/

theorem State.admitCopy_untested {s : State} {k : AdmitCond} {e place : Nat} {r : GroupRecord}
    (h : s.bestCopy e = some (place, r)) : (s.admitCopy k e place r).untested < s.untested := by
  obtain ⟨f, copy⟩ := State.bestCopy_closed h
  obtain ⟨heldCopy, -⟩ := State.closedCopy_spec copy
  obtain ⟨-, record, held, -⟩ := State.heldCopy_spec heldCopy
  refine State.untested_lt (i := place) (s.admitCopy_sifted k e place r).heldAt (by simp [State.heldAt, record, held]) ?_
  have queued := State.record_withRecord (s := s) (some { r with phase := .queued }) (State.record_lt record)
  have after : (s.withRecord place (some { r with phase := .queued })).sifted (s.admitCopy k e place r) := by
    have first := (State.sifted.refl (s.withRecord place (some { r with phase := .queued }))).withSel
      (x := { s.sel with queue := s.sel.queue ++ [place], counters := s.sel.counters.admitted k r.feed }) rfl rfl
    have handed := (first.trans (State.disposeOther_sifted _ r.feed e)).trans
      ((State.switchFeed_sifted _ r.feed).trans (State.readCues_sifted _ r))
    exact (handed.withSel (by rfl) (by rfl)).trans (State.headDecision_sifted _)
  cases still : (s.admitCopy k e place r).heldAt place with
  | false => rfl
  | true =>
    have before := after.heldAt place still
    rw [State.heldAt, queued] at before
    exact absurd before nofun

/-! ### A skip frees a copy or finds one of the new E (R47) -/

theorem State.freeOutOfReach_record (s : State) (place i : Nat) :
    (s.freeOutOfReach place).record i = if i = place then none else s.record i := by
  refine (State.record_congr (s := s.freeRecord place) (by simp [State.freeOutOfReach]) i).trans ?_
  exact State.freeRecord_record s place i

theorem State.freeOutOfReaches_record (l : List Nat) (s : State) (i : Nat) :
    (l.foldl State.freeOutOfReach s).record i = if i ∈ l then none else s.record i := by
  induction l generalizing s with
  | nil => simp
  | cons a l ih =>
    rw [List.foldl_cons, ih, State.freeOutOfReach_record]
    by_cases first : i = a <;> by_cases later : i ∈ l <;> simp [first, later]

/-- The number that lies `seqGap` behind E. -/
theorem seqGap_back {n : Nat} (e : Nat) (small : n < 65536) : (e + seqGap n e) % 65536 = n := by
  unfold seqGap
  omega

/-- The state of a skip once the copies out of reach are freed. -/
def State.reached_ (s : State) (e : Nat) : State := (s.outOfReach e).foldl State.freeOutOfReach s

/-- E moved on by a gap and the skip counted and reported (R47). -/
def State.skipped (s : State) (e gap : Nat) : State :=
  (s.withSel
    { s.sel with
      expected := some ((e + gap) % 65536)
      counters :=
        { s.sel.counters with missing := bumpBy s.sel.counters.missing gap, skips := bump s.sel.counters.skips } }).raise
    .groupMissing e gap

theorem State.skip_eq (s : State) (e : Nat) :
    s.skip e = (((s.reached_ e).laterCopies e).map fun x => seqGap x.2.group e).min?.elim (s.reached_ e)
      fun gap => (s.reached_ e).skipped e gap := by
  unfold State.skip
  dsimp only
  split
  · next nothing =>
    rw [show (((s.reached_ e).laterCopies e).map fun x => seqGap x.2.group e).min? = none from nothing]; rfl
  · next gap least =>
    rw [show (((s.reached_ e).laterCopies e).map fun x => seqGap x.2.group e).min? = some gap from least]; rfl

/-- A held copy of a number is one that some feed holds. -/
theorem State.heldCopy_some {s : State} {i : Nat} {r : GroupRecord} (record : s.record i = some r) (held : r.held = true) :
    s.heldCopy r.feed r.group ≠ none := by
  intro none
  have := List.find?_eq_none.mp none (i, r) (State.mem_records.mpr record)
  simp [held] at this

theorem State.awaits_false {s : State} {e i : Nat} {r : GroupRecord} (expected : s.sel.expected = some e)
    (record : s.record i = some r) (held : r.held = true) (group : r.group = e) : s.awaits = false := by
  have copy := State.heldCopy_some record held
  rw [group] at copy
  rw [State.awaits, expected, Option.any_some, Bool.and_eq_false_iff]
  cases feed : r.feed with
  | a => rw [feed] at copy; exact .inl (by simpa [Option.isSome_iff_ne_none] using copy)
  | b => rw [feed] at copy; exact .inr (by simpa [Option.isSome_iff_ne_none] using copy)

theorem State.mem_laterCopies {s : State} {e i : Nat} {r : GroupRecord} :
    (i, r) ∈ s.laterCopies e ↔ s.record i = some r ∧ r.held = true ∧ seqLater r.group e = true := by
  rw [State.laterCopies, List.mem_filter, State.mem_records]
  simp

theorem State.mem_outOfReach {s : State} {e i : Nat} (h : i ∈ s.outOfReach e) : s.heldAt i = true := by
  obtain ⟨⟨j, r⟩, mem, rfl⟩ := List.mem_map.mp h
  obtain ⟨record, held, -⟩ := State.mem_laterCopies.mp (List.mem_of_mem_filter mem)
  simp [State.heldAt, record, held]

theorem State.skip_untested {s : State} {e : Nat} (numbered : s.heldNumbered) (expected : s.sel.expected = some e)
    (due : s.skipDue e = true) : (s.skip e).untested < s.untested := by
  have sifted := s.skip_sifted e
  have records : ∀ i, (s.reached_ e).record i = if i ∈ s.outOfReach e then none else s.record i :=
    State.freeOutOfReaches_record _ s
  have recordsSkip : ∀ i, (s.skip e).record i = (s.reached_ e).record i := fun i => by
    rw [State.skip_eq]
    cases (((s.reached_ e).laterCopies e).map fun x => seqGap x.2.group e).min? with
    | none => rfl
    | some gap => exact State.record_congr (by simp [State.skipped]) i
  simp only [State.skipDue, Bool.and_eq_true, Bool.not_eq_true', List.isEmpty_eq_false_iff] at due
  obtain ⟨⟨⟨noA, noB⟩, later⟩, -⟩ := due
  cases out : s.outOfReach e with
  | cons i l =>
    have mem : i ∈ s.outOfReach e := by rw [out]; exact List.mem_cons_self
    exact State.untested_lt (i := i) sifted.heldAt (State.mem_outOfReach mem) (by
      rw [State.heldAt, recordsSkip, records, if_pos mem]; rfl)
  | nil =>
    have same : s.reached_ e = s := by rw [State.reached_, out]; rfl
    have waits : s.awaits = true := by
      rw [State.awaits, expected, Option.any_some, noA, noB]; rfl
    rw [same] at recordsSkip
    have places : (s.skip e).heldPlaces.card ≤ s.heldPlaces.card := Finset.card_le_card fun j mem =>
      State.mem_heldPlaces.mpr (sifted.heldAt j (State.mem_heldPlaces.mp mem))
    cases gaps : ((s.laterCopies e).map fun x => seqGap x.2.group e).min? with
    | none => exact absurd (List.map_eq_nil_iff.mp (List.min?_eq_none_iff.mp gaps)) later
    | some gap =>
      have moved : s.skip e = s.skipped e gap := by rw [State.skip_eq, same, gaps]; rfl
      obtain ⟨⟨i, r⟩, mem, rfl⟩ := List.mem_map.mp (List.min?_mem gaps)
      obtain ⟨record, held, -⟩ := State.mem_laterCopies.mp mem
      have found : (s.skip e).awaits = false := by
        refine State.awaits_false (e := r.group) ?_ ((recordsSkip i).trans record) held rfl
        rw [moved]
        simp [State.skipped, seqGap_back e (numbered i r record held)]
      unfold State.untested
      rw [found, waits]
      simp only [Bool.false_eq_true, if_false, if_true]
      omega

/-! ### The tests settle (R42) -/

theorem State.testStep_untested {s : State} (numbered : s.heldNumbered) (due : s.testsDue = true) :
    s.testStep.untested < s.untested ∧ s.sifted s.testStep := by
  unfold State.testsDue at due
  unfold State.testStep
  cases expected : s.sel.expected with
  | none => simp [expected] at due
  | some e =>
    rw [expected, Option.any_some] at due
    dsimp only
    cases admits : s.admitCond e with
    | some k =>
      obtain ⟨place, r, best⟩ := State.bestCopy_of_admitCond admits
      simp only [best]
      exact ⟨State.admitCopy_untested best, s.admitCopy_sifted k e place r⟩
    | none =>
      rw [admits] at due
      exact ⟨State.skip_untested numbered expected (by simpa using due), s.skip_sifted e⟩

theorem State.selectorTests_spec {s : State} (numbered : s.heldNumbered) {n : Nat} (fuel : s.untested ≤ n) :
    (s.selectorTests n).testsDue = false ∧ s.selectorTests (n + 1) = s.selectorTests n := by
  induction n generalizing s with
  | zero =>
    have idle : s.testsDue = false := by
      by_contra due
      have := (State.testStep_untested numbered (by simpa using due)).1
      omega
    exact ⟨idle, State.selectorTests_settled idle 1⟩
  | succ n ih =>
    cases due : s.testsDue with
    | false =>
      rw [State.selectorTests_settled due, State.selectorTests_settled due]
      exact ⟨due, rfl⟩
    | true =>
      obtain ⟨less, sifted⟩ := State.testStep_untested numbered due
      obtain ⟨settled, same⟩ := ih (sifted.heldNumbered numbered) (by omega)
      rw [State.selectorTests_succ (n + 1), State.selectorTests_succ n, due, if_pos rfl, if_pos rfl]
      exact ⟨settled, same⟩

theorem State.selectorTests_enough {s : State} (numbered : s.heldNumbered) {n : Nat} (fuel : s.untested ≤ n) :
    s.selectorTests n = s.selectorTests s.untested := by
  induction n, fuel using Nat.le_induction with
  | base => rfl
  | succ n fuel ih => rw [(State.selectorTests_spec numbered fuel).2, ih]

/-- The tests end with nothing due. -/
theorem State.testSelector_settles {s : State} (numbered : s.heldNumbered) : s.testSelector.selectorDue = false := by
  rw [State.selectorDue_eq]
  unfold State.testSelector
  split
  · rw [(State.selectorTests_spec numbered (n := 2 * s.store.table.length + 2) (by have := s.untested_le; omega)).1,
      Bool.and_false]
  · next stopped =>
    rw [Bool.eq_false_iff.mpr stopped, Bool.false_and]

/-- A test that is due is the first of the tests that follow. -/
theorem State.testSelector_step {s : State} (numbered : s.heldNumbered) (run : s.running = true) (due : s.testsDue = true)
    (runs : s.testStep.running = true) : s.testSelector = s.testStep.testSelector := by
  obtain ⟨less, sifted⟩ := State.testStep_untested numbered due
  have bound := s.untested_le
  have bound' := s.testStep.untested_le
  have numbered' := sifted.heldNumbered numbered
  rw [State.testSelector, if_pos run, State.selectorTests_succ, due, if_pos rfl, State.testSelector, if_pos runs,
    State.selectorTests_enough numbered' (by omega), State.selectorTests_enough numbered' (n := 2 * _ + 2) (by omega)]

/-- A test that is due and after which nothing is due. -/
theorem State.testSelector_once {s : State} (run : s.running = true) (due : s.testsDue = true)
    (idle : s.testStep.testsDue = false) : s.testSelector = s.testStep := by
  rw [State.testSelector, if_pos run, State.selectorTests_succ, due, if_pos rfl, State.selectorTests_settled idle]

end Sys2Proof.Machine
end

