-- ==== Sys2Proof/Proofs/Admissions.lean ====
section
/-! The admission of the better copy of E (R41, R42, R44, R45, R52, R53). -/

namespace Sys2Proof.Machine

open Sys2Proof

-- One proof after the other: proofs that wait for each other hold a thread each.
set_option Elab.async false

/-! ### Ranks (R41) -/

theorem GroupRecord.better_eq (r q : GroupRecord) : r.better q = r.ranksAbove q := by
  unfold GroupRecord.better GroupRecord.ranksAbove GroupRecord.within GroupRecord.rank GroupRecord.accepted
  cases r.launched <;> cases q.launched <;> by_cases rComplete : r.phase = .complete <;>
    by_cases qComplete : q.phase = .complete <;> by_cases rClean : r.errored = 0 <;> by_cases qClean : q.errored = 0 <;>
    simp [rComplete, qComplete, rClean, qClean]
  omega

theorem GroupRecord.better_asymm {r q : GroupRecord} (h : r.better q = true) : q.better r = false := by
  simp only [GroupRecord.better, Bool.or_eq_true, Bool.and_eq_true, decide_eq_true_eq, beq_iff_eq, Bool.or_eq_false_iff,
    Bool.and_eq_false_iff, decide_eq_false_iff_not, beq_eq_false_iff_ne] at h ⊢
  omega

theorem GroupRecord.rank_one (r : GroupRecord) : (r.rank == 1) = (r.accepted && r.phase == .complete && r.errored == 0) := by
  unfold GroupRecord.rank GroupRecord.accepted
  cases r.launched <;> by_cases complete : r.phase = .complete <;> by_cases clean : r.errored = 0 <;> simp [complete, clean]

theorem GroupRecord.rank_pos (r : GroupRecord) : 1 ≤ r.rank := by
  unfold GroupRecord.rank
  split
  · decide
  · split
    · split <;> decide
    · decide

theorem GroupRecord.due_eq (r : GroupRecord) (now : Time) : r.due now = r.pastDeadline now := by
  unfold GroupRecord.due GroupRecord.deadline GroupRecord.pastDeadline
  cases r.launched <;> rfl

theorem State.laterCopies_eq (s : State) (e : Nat) : s.laterCopies e = s.laterThan e := rfl

theorem State.laterDue_eq (s : State) (e : Nat) :
    s.laterDue e = (s.laterThan e).any fun x => x.2.closed && x.2.pastDeadline s.now := by
  unfold State.laterDue
  rw [State.laterCopies_eq]
  congr 1
  funext x
  rw [← GroupRecord.due_eq]

/-! ### The better copy and its condition (R41, R42) -/

theorem State.closedCopy_of_held {s : State} {f : FeedId} {e i : Nat} {r : GroupRecord}
    (held : s.heldCopy f e = some (i, r)) (closed : r.closed = true) : s.closedCopy f e = some (i, r) := by
  rw [State.closedCopy_eq, held]
  exact Option.filter_some_pos closed

section
variable {s : State} {f : FeedId} {e i : Nat} {r : GroupRecord} (held : s.heldCopy f e = some (i, r))
  (closed : r.closed = true)
  (others : ∀ j q, s.heldCopy f.other e = some (j, q) → q.closed = true →
    r.ranksAbove q = true ∨ (q.ranksAbove r = false ∧ s.sel.preferred = f))
include held closed others

theorem State.bestCopy_of_best : s.bestCopy e = some (i, r) := by
  have mine := State.closedCopy_of_held held closed
  unfold State.bestCopy
  rcases feed_eq_or_other f s.sel.preferred with prefers | other
  · rw [prefers, mine]
    rcases Option.eq_none_or_eq_some (s.closedCopy f.other e) with theirs | ⟨⟨j, q⟩, theirs⟩
    · simp only [theirs]
    · obtain ⟨theirHeld, theirClosed⟩ := State.closedCopy_spec theirs
      have below : q.better r = false := by
        rcases others j q theirHeld theirClosed with above | ⟨below, -⟩
        · exact GroupRecord.better_asymm ((GroupRecord.better_eq r q).trans above)
        · exact (GroupRecord.better_eq q r).trans below
      simp only [theirs, below]
      rfl
  · have back : f.other.other = f := by cases f <;> rfl
    rw [other, back, mine]
    rcases Option.eq_none_or_eq_some (s.closedCopy f.other e) with theirs | ⟨⟨j, q⟩, theirs⟩
    · simp only [theirs]
    · obtain ⟨theirHeld, theirClosed⟩ := State.closedCopy_spec theirs
      have above : r.better q = true := by
        rcases others j q theirHeld theirClosed with above | ⟨-, prefers⟩
        · exact (GroupRecord.better_eq r q).trans above
        · exact absurd (prefers.symm.trans other) (by cases f <;> exact nofun)
      simp only [theirs, above]
      rfl

end

/-- The first condition of R42 for the closed copies of two feeds, `d` telling whose deadline is reached and `cannot` which
feed cannot deliver E. -/
def firstCond (d : GroupRecord → Bool) (mine theirs : Option (Nat × GroupRecord)) (cannotMine cannotTheirs later : Bool) :
    Option AdmitCond :=
  if (match mine with | some (_, r) => r.rank == 1 | none => false) ||
    (match theirs with | some (_, r) => r.rank == 1 | none => false) then some .a
  else if mine.isSome && theirs.isSome then some .b
  else if (mine.isSome && cannotTheirs) || (theirs.isSome && cannotMine) then some .c
  else if (match mine with | some (_, r) => d r | none => false) || (match theirs with | some (_, r) => d r | none => false)
    then some .d
  else if (mine.isSome || theirs.isSome) && later then some .e
  else none

theorem firstCond_comm (d : GroupRecord → Bool) (mine theirs : Option (Nat × GroupRecord))
    (cannotMine cannotTheirs later : Bool) :
    firstCond d mine theirs cannotMine cannotTheirs later = firstCond d theirs mine cannotTheirs cannotMine later := by
  unfold firstCond
  rw [Bool.or_comm (match mine with | some (_, r) => r.rank == 1 | none => false), Bool.and_comm mine.isSome,
    Bool.or_comm (mine.isSome && _), Bool.or_comm (match mine with | some (_, r) => d r | none => false),
    Bool.or_comm mine.isSome]

theorem State.admitCond_eq (s : State) (e : Nat) (f : FeedId) :
    s.admitCond e =
      firstCond (·.due s.now) (s.closedCopy f e) (s.closedCopy f.other e) (s.cannotDeliver f e) (s.cannotDeliver f.other e)
        (s.laterDue e) := by
  cases f with
  | a => rfl
  | b => exact Eq.trans (by rfl) (firstCond_comm ..)

/-- One closed copy, or the better of two. -/
theorem firstCond_best (d : GroupRecord → Bool) {i : Nat} {r : GroupRecord} {theirs : Option (Nat × GroupRecord)}
    (cannotMine cannotTheirs later : Bool) (best : ∀ j q, theirs = some (j, q) → q.rank = 1 → r.rank = 1) :
    firstCond d (some (i, r)) theirs cannotMine cannotTheirs later =
      if r.rank == 1 then some .a
      else if theirs.isSome then some .b
      else if cannotTheirs then some .c
      else if d r then some .d
      else if later then some .e
      else none := by
  unfold firstCond
  cases theirs with
  | none =>
    simp only [Option.isSome_some, Option.isSome_none, Bool.or_false, Bool.and_false, Bool.false_and, Bool.true_and,
      Bool.false_eq_true, if_false]
  | some x =>
    obtain ⟨j, q⟩ := x
    have first := best j q rfl
    cases mine : r.rank == 1 with
    | true => simp only [mine]; rfl
    | false =>
      have second : (q.rank == 1) = false := by
        rw [beq_eq_false_iff_ne] at mine ⊢
        exact fun one => mine (first one)
      simp only [mine, second]
      rfl

theorem State.admitCond_of_best {s : State} {f : FeedId} {e i : Nat} {r : GroupRecord}
    (held : s.heldCopy f e = some (i, r)) (closed : r.closed = true)
    (others : ∀ j q, s.heldCopy f.other e = some (j, q) → q.closed = true →
      r.ranksAbove q = true ∨ (q.ranksAbove r = false ∧ s.sel.preferred = f)) :
    s.admitCond e = s.admitsBy e r := by
  obtain ⟨-, -, -, feed, -⟩ := State.heldCopy_spec held
  have theirs : (s.closedCopy f.other e).isSome = (s.heldCopy f.other e).any fun x => x.2.closed := by
    rw [State.closedCopy_eq]
    cases s.heldCopy f.other e with
    | none => rfl
    | some x => cases closed : x.2.closed <;> simp [closed]
  rw [State.admitCond_eq s e f, State.closedCopy_of_held held closed, firstCond_best]
  · rw [theirs, GroupRecord.rank_one, GroupRecord.due_eq, State.laterDue_eq]
    unfold State.admitsBy
    rw [feed]
    rfl
  · intro j q copy one
    obtain ⟨theirHeld, theirClosed⟩ := State.closedCopy_spec copy
    have below : q.better r = false := by
      rcases others j q theirHeld theirClosed with above | ⟨below, -⟩
      · exact GroupRecord.better_asymm ((GroupRecord.better_eq r q).trans above)
      · exact (GroupRecord.better_eq q r).trans below
    have pos := r.rank_pos
    simp only [GroupRecord.better, Bool.or_eq_false_iff, decide_eq_false_iff_not] at below
    omega

/-! ### The steps of an admission (R44) -/

/-- Step 1: the copy QUEUED at the tail of the launch queue, and counted. -/
def State.queuedCopy (s : State) (k : AdmitCond) (i : Nat) (r : GroupRecord) : State :=
  (s.withRecord i (some { r with phase := .queued })).withSel
    { s.sel with queue := s.sel.queue ++ [i], counters := s.sel.counters.admitted k r.feed }

/-- Steps 1 to 3: the other copy disposed of and the active feed brought up to date. -/
def State.cleared (s : State) (k : AdmitCond) (e i : Nat) (r : GroupRecord) : State :=
  ((s.queuedCopy k i r).disposeOther r.feed e).switchFeed r.feed

/-- An admission before the head decision that follows it. -/
def State.admission (s : State) (k : AdmitCond) (e i : Nat) (r : GroupRecord) : State :=
  ((s.cleared k e i r).readCues r).withSel
    { ((s.cleared k e i r).readCues r).sel with lastAdmitted := some e, expected := some ((e + 1) % 65536) }

theorem State.admitCopy_eq (s : State) (k : AdmitCond) (e i : Nat) (r : GroupRecord) :
    s.admitCopy k e i r = (s.admission k e i r).headDecision := rfl

/-- A search that passes over the old and the new record of a place. -/
theorem Store.find_set {t : List (Option GroupRecord)} {i : Nat} {old : GroupRecord} (new : GroupRecord)
    {p : Nat × GroupRecord → Bool} (c d : Nat) (record : t[i]? = some (some old)) (oldNot : p (i, old) = false)
    (newNot : p (i, new) = false) :
    (Store.records ⟨t.set i (some new), c⟩).find? p = (Store.records ⟨t, d⟩).find? p := by
  obtain ⟨lt, at_⟩ := List.getElem?_eq_some_iff.mp record
  have split : t = t.take i ++ some old :: t.drop (i + 1) := by
    rw [← at_, List.getElem_cons_drop, List.take_append_drop]
  have place : min i t.length = i := Nat.min_eq_left lt.le
  have side : ∀ x : GroupRecord, p (i, x) = false →
      (Store.records ⟨t.take i ++ some x :: t.drop (i + 1), c⟩).find? p =
        ((Store.records ⟨t.take i, c⟩).find? p).or
          ((((t.drop (i + 1)).zipIdx (i + 1)).filterMap fun (r, j) => r.map fun g => (j, g)).find? p) := by
    intro x not
    simp [Store.records, List.zipIdx_append, List.find?_append, not, place]
  rw [List.set_eq_take_append_cons_drop, if_pos lt, side new newNot]
  conv_rhs => rw [split]
  exact (side old oldNot).symm

theorem State.heldCopy_congr {s t : State} (store : t.store = s.store) (f : FeedId) (n : Nat) :
    t.heldCopy f n = s.heldCopy f n := by
  unfold State.heldCopy
  rw [store]

/-- The other feed's copy is found as before when a copy is QUEUED. -/
theorem State.queuedCopy_heldCopy {s : State} {i e : Nat} {r : GroupRecord} (k : AdmitCond)
    (held : s.heldCopy r.feed e = some (i, r)) :
    (s.queuedCopy k i r).heldCopy r.feed.other e = s.heldCopy r.feed.other e := by
  obtain ⟨record, -⟩ := State.heldCopy_spec held
  have different : (r.feed == r.feed.other) = false := by cases r.feed <;> rfl
  exact Store.find_set _ _ _ record (by simp [different]) (by simp [GroupRecord.held])

theorem SelectorCounters.admitted_eq (c : SelectorCounters) (k : AdmitCond) (f : FeedId) :
    c.admitted k f =
      { c with
        fromA := if f = .a then bump c.fromA else c.fromA
        fromB := if f = .b then bump c.fromB else c.fromB
        admitA := if k = .a then bump c.admitA else c.admitA
        admitB := if k = .b then bump c.admitB else c.admitB
        admitC := if k = .c then bump c.admitC else c.admitC
        admitD := if k = .d then bump c.admitD else c.admitD
        admitE := if k = .e then bump c.admitE else c.admitE } := by
  cases f <;> cases k <;> rfl

/-- A count over positions is a count over the packets. -/
theorem countedAt (p : Packet → Bool) (l : List Packet) (n c : Nat) :
    ((l.zipIdx n).filter fun x => p x.1).foldl (fun n _ => bump n) c = (l.filter p).foldl (fun n _ => bump n) c := by
  induction l generalizing n c with
  | nil => rfl
  | cons a l ih =>
    rw [List.zipIdx_cons, List.filter_cons, List.filter_cons]
    cases mine : p a with
    | true => exact ih (n + 1) (bump c)
    | false => exact ih (n + 1) c

section
variable {s : State} {e i : Nat} {r : GroupRecord} (k : AdmitCond)

theorem State.queuedCopy_fields (s : State) (k : AdmitCond) (i : Nat) (r : GroupRecord) :
    (s.queuedCopy k i r).store = { s.store with table := s.store.table.set i (some { r with phase := .queued }) } ∧
      (s.queuedCopy k i r).sel =
        { s.sel with queue := s.sel.queue ++ [i], counters := s.sel.counters.admitted k r.feed } ∧
      (∀ g, (s.queuedCopy k i r).feed g = s.feed g) ∧ (s.queuedCopy k i r).launch = s.launch ∧
      s.spliceKept (s.queuedCopy k i r) ∧ s.siteKept (s.queuedCopy k i r) ∧ s.rulesKept (s.queuedCopy k i r) ∧
      ∀ p, (s.queuedCopy k i r).port p = s.port p := by
  refine ⟨rfl, rfl, fun g => ?_, rfl, ⟨rfl, rfl, rfl, rfl⟩, ⟨rfl, rfl, rfl⟩, ?_, fun p => ?_⟩
  · cases g <;> rfl
  · simp [State.queuedCopy, State.rulesKept]
  · cases p <;> rfl

theorem State.cleared_spec (held : s.heldCopy r.feed e = some (i, r)) :
    let other := s.heldCopy r.feed.other e
    let queued := s.store.table.set i (some { r with phase := .queued })
    (s.cleared k e i r).store =
        (match other with
          | none => { s.store with table := queued }
          | some (j, q) => ⟨queued.set j none, s.store.freeCells + q.cells.length⟩) ∧
      (∀ g, (s.cleared k e i r).feed g =
        { s.feed g with
          openCopy := if other ≠ none ∧ (s.feed g).openCopy = other.map (·.1) then none else (s.feed g).openCopy }) ∧
      (s.cleared k e i r).launch = s.launch ∧ s.spliceKept (s.cleared k e i r) ∧ s.siteKept (s.cleared k e i r) ∧
      s.rulesKept (s.cleared k e i r) ∧
      ∀ p, (s.cleared k e i r).port p = (s.port p).offers (s.switchEvents r.feed) := by
  intro other queued
  obtain ⟨store, sel, feeds, launch, splice, site, rules, ports⟩ := s.queuedCopy_fields k i r
  obtain ⟨store', feeds', sel', ports'⟩ := (s.queuedCopy k i r).disposeOther_spec r.feed e
  obtain ⟨-, ports''⟩ := ((s.queuedCopy k i r).disposeOther r.feed e).switchFeed_spec r.feed
  have same := State.queuedCopy_heldCopy k held
  rw [same] at store' feeds'
  have events : ((s.queuedCopy k i r).disposeOther r.feed e).switchEvents r.feed = s.switchEvents r.feed := by
    have active : ((s.queuedCopy k i r).disposeOther r.feed e).sel.active = s.sel.active := by rw [sel', sel]
    have now : ((s.queuedCopy k i r).disposeOther r.feed e).now = s.now := by
      simp [State.now, State.queuedCopy]
    unfold State.switchEvents
    rw [active, now]
  refine ⟨?_, fun g => ?_, by simp [State.cleared, launch], ?_, ?_, ?_, fun p => ?_⟩
  · simp only [State.cleared, State.switchFeed_frame]
    rw [store', store] <;> rfl
  · refine Eq.trans ?_ ((feeds' g).trans (by rw [feeds g]))
    cases g <;> simp [State.cleared, State.feed]
  · obtain ⟨clip, lanes, spliced, windows⟩ := splice
    exact ⟨by simp [State.cleared, clip], by simp [State.cleared, lanes], by simp [State.cleared, spliced],
      by simp [State.cleared, windows]⟩
  · obtain ⟨mon, chg, lines⟩ := site
    exact ⟨by simp [State.cleared, mon], by simp [State.cleared, chg], by simp [State.cleared, lines]⟩
  · simp [State.rulesKept, State.cleared, State.queuedCopy]
  · rw [State.cleared, ports'', ports', ports, events]

theorem State.cleared_sel (held : s.heldCopy r.feed e = some (i, r)) :
    let other := (s.heldCopy r.feed.other e).map (·.2)
    (s.cleared k e i r).sel =
      { s.sel with
        queue := s.sel.queue ++ [i], active := some r.feed
        counters :=
          { s.sel.counters.admitted k r.feed with
            superseded := if other.any (·.closed) then bump s.sel.counters.superseded else s.sel.counters.superseded
            abandoned := if other.any (!·.closed) then bump s.sel.counters.abandoned else s.sel.counters.abandoned
            switches :=
              if s.sel.active = some r.feed then s.sel.counters.switches else bump s.sel.counters.switches } } := by
  obtain ⟨-, sel, -⟩ := s.queuedCopy_fields k i r
  obtain ⟨-, -, sel', -⟩ := (s.queuedCopy k i r).disposeOther_spec r.feed e
  obtain ⟨sel'', -⟩ := ((s.queuedCopy k i r).disposeOther r.feed e).switchFeed_spec r.feed
  intro other
  rw [State.queuedCopy_heldCopy k held] at sel'
  rw [State.cleared, sel'', sel', sel]
  simp only [SelectorCounters.admitted_eq]
  rfl

theorem State.cleared_cueIs (s : State) (e i : Nat) (r : GroupRecord) (v : Bool) (p : Packet) :
    (s.cleared k e i r).cueIs v p = s.cueIs v p := by
  simp [State.cueIs, State.cleared, State.queuedCopy]

theorem State.admission_sel (held : s.heldCopy r.feed e = some (i, r)) :
    (s.admission k e i r).sel =
      { s.sel with
        queue := s.sel.queue ++ [i], active := some r.feed, lastAdmitted := some e, expected := some ((e + 1) % 65536)
        counters := s.admissionCounters k r ((s.heldCopy r.feed.other e).map (·.2)) } := by
  have cues : ((s.cleared k e i r).readCues r).sel = _ := State.readCue_foldl_sel r.launched r.cells.zipIdx _
  simp only [State.cleared_cueIs] at cues
  rw [countedAt (s.cueIs true), countedAt (s.cueIs false), State.cleared_sel k held] at cues
  have sel : (s.admission k e i r).sel =
      { ((s.cleared k e i r).readCues r).sel with lastAdmitted := some e, expected := some ((e + 1) % 65536) } := rfl
  rw [sel, cues, SelectorCounters.admitted_eq]
  rfl

theorem State.spliceKept_trans {u v w : State} (h : u.spliceKept v) (k : v.spliceKept w) : u.spliceKept w := by
  obtain ⟨clip, lanes, splice, windows⟩ := h
  obtain ⟨clip', lanes', splice', windows'⟩ := k
  exact ⟨clip'.trans clip, lanes'.trans lanes, splice'.trans splice, windows'.trans windows⟩

theorem State.rulesKept_trans {u v w : State} (h : u.rulesKept v) (k : v.rulesKept w) : u.rulesKept w := by
  obtain ⟨tb, part, lock, pending⟩ := h
  obtain ⟨tb', part', lock', pending'⟩ := k
  exact ⟨tb'.trans tb, part'.trans part, lock'.trans lock, pending'.trans pending⟩

/-- The packets of a list without a valid cue hand nothing to the Splice Engine. -/
theorem State.readCue_idle {u : State} {l : List Packet} (launched : Launched) (n : Nat)
    (idle : ∀ p ∈ l, u.cueIs true p = false) :
    u.spliceKept ((l.zipIdx n).foldl (State.readCue launched) u) ∧
      ∀ p, ((l.zipIdx n).foldl (State.readCue launched) u).port p = u.port p := by
  refine State.readCue_foldl_idle launched _ u fun x mem => idle x.1 ?_
  exact List.fst_mem_of_mem_zipIdx mem

theorem State.readCue_foldl_frame (launched : Launched) (l : List (Packet × Nat)) (u : State) :
    u.rulesKept (l.foldl (State.readCue launched) u) ∧ (l.foldl (State.readCue launched) u).launch = u.launch := by
  induction l generalizing u with
  | nil => exact ⟨⟨rfl, rfl, rfl, rfl⟩, rfl⟩
  | cons a l ih =>
    obtain ⟨⟨tb, part, lock, pending⟩, launch⟩ := ih (State.readCue launched u a)
    rw [List.foldl_cons]
    exact ⟨⟨tb.trans (by simp), part.trans (by simp), lock.trans (by simp), pending.trans (by simp)⟩,
      launch.trans (by simp)⟩

/-- A valid cue is counted and handed over at its position (R52, R53). -/
theorem State.readCue_valid {u : State} {p : Packet} {c : Cue} (launched : Launched) (n : Nat)
    (id : identifier p = u.launch.cueId) (valid : cueOf p = some c) :
    State.readCue launched u (p, n) =
      (u.withSel
        { u.sel with
          counters := { u.sel.counters with cuesHanded := bump u.sel.counters.cuesHanded } }).handCue c n launched := by
  simp [State.readCue, id, valid]

/-- What an admission leaves before its head decision (R44, R45, R52, R53). -/
theorem State.admission_admitted (held : s.heldCopy r.feed e = some (i, r)) : s.admitted (s.admission k e i r) e i r k := by
  obtain ⟨store, feeds, launch, splice, site, rules, ports⟩ := State.cleared_spec k held
  have sel := State.admission_sel k held
  have port : ∀ p, (s.admission k e i r).port p = ((s.cleared k e i r).readCues r).port p := fun p => by cases p <;> rfl
  have after : ((s.cleared k e i r).readCues r).spliceKept (s.admission k e i r) := ⟨rfl, rfl, rfl, rfl⟩
  refine ⟨?_, sel, fun g => ?_, ?_, ?_, ?_, fun idle => ?_, fun before later p c cells id valid idle => ?_⟩
  · exact Eq.trans (by simp [State.admission]) store
  · refine Eq.trans ?_ (feeds g)
    cases g <;> simp [State.admission, State.feed]
  · exact Eq.trans (by simp [State.admission]) launch
  · obtain ⟨mon, chg, lines⟩ := site
    exact ⟨by simp [State.admission, mon], by simp [State.admission, chg], by simp [State.admission, lines]⟩
  · obtain ⟨tb, part, lock, pending⟩ := rules
    exact ⟨by simp [State.admission, tb], by simp [State.admission, part], by simp [State.admission, lock],
      by simp [State.admission, pending]⟩
  · obtain ⟨cuesSplice, cuesPorts⟩ := State.readCue_idle (u := s.cleared k e i r) r.launched 0 fun p mem =>
      (s.cleared_cueIs k e i r true p).trans (idle p mem)
    refine ⟨?_, fun q => (port q).trans ((cuesPorts q).trans (ports q))⟩
    exact State.spliceKept_trans splice (State.spliceKept_trans cuesSplice after)
  · obtain ⟨beforeSplice, beforePorts⟩ := State.readCue_idle (u := s.cleared k e i r) (l := before) r.launched 0
      fun p mem => (s.cleared_cueIs k e i r true p).trans (idle p (List.mem_append_left _ mem))
    obtain ⟨beforeRules, beforeLaunch⟩ := State.readCue_foldl_frame r.launched before.zipIdx (s.cleared k e i r)
    have cues : (s.cleared k e i r).readCues r =
        (later.zipIdx (before.length + 1)).foldl (State.readCue r.launched)
          (State.readCue r.launched (before.zipIdx.foldl (State.readCue r.launched) (s.cleared k e i r))
            (p, before.length)) := by
      rw [State.readCues, cells, List.zipIdx_append, List.foldl_append, List.zipIdx_cons, List.foldl_cons, Nat.zero_add]
    generalize before.zipIdx.foldl (State.readCue r.launched) (s.cleared k e i r) = u at *
    have launch' : u.launch = s.launch := beforeLaunch.trans launch
    rw [State.readCue_valid r.launched before.length (by rw [id, launch']) valid] at cues
    generalize counted : u.withSel _ = w at cues
    have wLaunch : w.launch = s.launch := by rw [← counted]; exact launch'
    have wSplice : u.spliceKept w := by rw [← counted]; exact ⟨rfl, rfl, rfl, rfl⟩
    have wPorts : ∀ q, w.port q = u.port q := fun q => by rw [← counted]; cases q <;> rfl
    have wRules : u.rulesKept w := by rw [← counted]; exact ⟨rfl, rfl, rfl, rfl⟩
    obtain ⟨laterSplice, laterPorts⟩ := State.readCue_idle (u := w.handCue c before.length r.launched) (l := later)
      r.launched (before.length + 1) fun x mem => by
        rw [← idle x (List.mem_append_right _ mem)]
        simp [State.cueIs, wLaunch]
    rw [← cues] at laterSplice laterPorts
    exact ⟨w, State.spliceKept_trans splice (State.spliceKept_trans beforeSplice wSplice),
      State.rulesKept_trans rules (State.rulesKept_trans beforeRules wRules), wLaunch,
      fun q => (wPorts q).trans ((beforePorts q).trans (ports q)), State.spliceKept_trans laterSplice after,
      fun q => (port q).trans (laterPorts q)⟩

end

end Sys2Proof.Machine
end

