-- ==== Sys2Proof/Proofs/SelectorSettling.lean ====
section
/-! What the selector's tests do at a deadline: admission, the wait for an OPEN copy, and the skip (R42 to R47). -/

namespace Sys2Proof.Machine

open Sys2Proof

-- One proof after the other: proofs that wait for each other hold a thread each.
set_option Elab.async false

/-! ### Admission (R42) -/

theorem State.running_of_run {s : State} (run : s.part = .run) : s.running = true := by
  rw [State.running, run]; rfl

theorem State.testsDue_of_admitCond {s : State} {e : Nat} {k : AdmitCond} (expected : s.sel.expected = some e)
    (admits : s.admitCond e = some k) : s.testsDue = true := by
  rw [State.testsDue, expected, Option.any_some, admits]; rfl

theorem State.testStep_admission {s : State} {e i : Nat} {r : GroupRecord} {k : AdmitCond} (expected : s.sel.expected = some e)
    (admits : s.admitCond e = some k) (best : s.bestCopy e = some (i, r)) :
    s.testStep = (s.admission k e i r).headDecision := by
  simp only [State.testStep, expected, admits, best]
  rfl

theorem State.testStep_skip {s : State} {e : Nat} (expected : s.sel.expected = some e) (waits : s.admitCond e = none) :
    s.testStep = s.skip e := by
  simp only [State.testStep, expected, waits]

theorem State.testsDue_eq {s : State} {e : Nat} (expected : s.sel.expected = some e) :
    s.testsDue = ((s.admitCond e).isSome || s.skipDue e) := by
  rw [State.testsDue, expected, Option.any_some]

/-- A held copy of E is waited for. -/
theorem State.skipDue_held {s : State} {f : FeedId} {e : Nat} (held : s.heldCopy f e ≠ none) : s.skipDue e = false := by
  unfold State.skipDue
  cases f <;> simp [held]

theorem State.testSelector_waits {s : State} {e : Nat} (expected : s.sel.expected = some e) (admits : s.admitCond e = none)
    (skip : s.skipDue e = false) : s.testSelector = s := by
  refine State.testSelector_notDue ?_
  rw [State.selectorDue_eq, State.testsDue_eq expected, admits, skip]
  exact Bool.and_false _

/-- Without a held copy nothing is due. -/
theorem State.testsDue_empty {s : State} (h : ∀ i r, s.record i = some r → r.held = false) : s.testsDue = false := by
  have copies : ∀ f n, s.heldCopy f n = none := fun f n => by
    rcases Option.eq_none_or_eq_some (s.heldCopy f n) with none_ | ⟨⟨i, r⟩, copy⟩
    · exact none_
    · obtain ⟨-, record, held, -⟩ := State.heldCopy_spec copy
      exact absurd (held.symm.trans (h i r record)) nofun
  have later : ∀ n, s.laterCopies n = [] := fun n => List.eq_nil_iff_forall_not_mem.mpr fun x mem => by
    obtain ⟨record, held, -⟩ := State.mem_laterCopies.mp mem
    exact absurd (held.symm.trans (h x.1 x.2 record)) nofun
  unfold State.testsDue
  cases s.sel.expected with
  | none => rfl
  | some e =>
    have waits : s.admitCond e = none := State.admitCond_none fun f => by rw [State.closedCopy_eq, copies]; rfl
    rw [Option.any_some, waits]
    simp [State.skipDue, later]

theorem State.admitsBy_due {s : State} (e : Nat) {r : GroupRecord} (due : r.pastDeadline s.now = true) :
    ∃ k, s.admitsBy e r = some k := by
  unfold State.admitsBy
  dsimp only
  rw [if_pos due]
  repeat' split
  all_goals exact ⟨_, rfl⟩

/-- A record that stands alone in the table is the copy that its feed holds of its number. -/
theorem State.heldCopy_single {s : State} {i : Nat} {r : GroupRecord} (alone : s.store.records = [(i, r)])
    (held : r.held = true) : s.heldCopy r.feed r.group = some (i, r) := by
  simp [State.heldCopy, alone, held]

/-- The first clause of the single copy: a closed copy of E past its deadline is admitted, and nothing is left to test. -/
theorem State.testSelector_single {s : State} {e i : Nat} {r : GroupRecord} (run : s.part = .run)
    (expected : s.sel.expected = some e) (alone : s.store.records = [(i, r)]) (closed : r.closed = true) (group : r.group = e)
    (due : r.due s.now = true) :
    ∃ k, s.testSelector = (s.admission k e i r).headDecision ∧ s.admitted (s.admission k e i r) e i r k := by
  have isHeld : r.held = true := by
    simp only [GroupRecord.closed, GroupRecord.held, Bool.or_eq_true] at closed ⊢
    exact closed.elim (fun complete => .inl (.inr complete)) .inr
  have held : s.heldCopy r.feed e = some (i, r) := group ▸ State.heldCopy_single alone isHeld
  have noOther : s.heldCopy r.feed.other e = none := by
    have different : (r.feed == r.feed.other) = false := by cases r.feed <;> rfl
    simp [State.heldCopy, alone, different]
  have others : ∀ j q, s.heldCopy r.feed.other e = some (j, q) → q.closed = true →
      r.ranksAbove q = true ∨ (q.ranksAbove r = false ∧ s.sel.preferred = r.feed) := fun j q copy =>
    absurd (noOther.symm.trans copy) nofun
  obtain ⟨k, admits⟩ := s.admitsBy_due e ((GroupRecord.due_eq r s.now).symm.trans due)
  have cond := (State.admitCond_of_best held closed others).trans admits
  have admitted := State.admission_admitted k held
  obtain ⟨store, -⟩ := admitted
  rw [noOther] at store
  have step := State.testStep_admission expected cond (State.bestCopy_of_best held closed others)
  refine ⟨k, (State.testSelector_once (State.running_of_run run) (State.testsDue_of_admitCond expected cond) ?_).trans step,
    State.admission_admitted k held⟩
  rw [step]
  refine State.testsDue_empty fun j q record => ?_
  cases isHeld' : q.held with
  | false => rfl
  | true =>
    have before := (State.headDecision_sifted _).1 j q record isHeld'
    obtain ⟨-, mine, -⟩ := State.heldCopy_spec held
    have same : (s.admission k e i r).record j = (s.withRecord i (some { r with phase := .queued })).record j :=
      State.record_congr store j
    rw [same] at before
    by_cases place : j = i
    · rw [place, State.record_withRecord _ (State.record_lt mine)] at before
      obtain rfl := Option.some.inj before
      exact absurd isHeld' nofun
    · rw [State.record_withRecord_ne _ place] at before
      have mem := State.mem_records.mpr before
      rw [alone, List.mem_singleton] at mem
      exact absurd (congrArg Prod.fst mem) place

/-! ### Skips (R46, R47) -/

/-- A single OPEN copy later than E, with every feed past E: E moves on to its number, which is waited for. -/
theorem State.testSelector_toOpen {s : State} {e i : Nat} {r : GroupRecord} (run : s.part = .run)
    (expected : s.sel.expected = some e) (alone : s.store.records = [(i, r)]) (opened : r.phase = .opened)
    (small : r.group < 65536) (later : seqLater r.group e = true)
    (beyond : ∀ l, s.sel.lastAdmitted = some l → seqLater r.group l = true) (past : ∀ f, s.feedPast f e = true) :
    s.testSelector = s.skipped e (seqGap r.group e) := by
  have isHeld : r.held = true := by rw [GroupRecord.held, opened]; rfl
  have notClosed : r.closed = false := by rw [GroupRecord.closed, opened]; rfl
  have only : ∀ {j q}, s.record j = some q → j = i ∧ q = r := fun {j q} record => by
    have mem := State.mem_records.mpr record
    rw [alone, List.mem_singleton] at mem
    exact Prod.mk.inj mem
  have different : r.group ≠ e := fun same => by
    rw [same, seqLater_self] at later
    exact absurd later nofun
  have none_ : ∀ f, s.heldCopy f e = none := fun f => by simp [State.heldCopy, alone, different]
  have waits : s.admitCond e = none := State.admitCond_none fun f => by rw [State.closedCopy_eq, none_]; rfl
  have copies : s.laterCopies e = [(i, r)] := by simp [State.laterCopies, alone, isHeld, later]
  have kept : s.outOfReach e = [] := by
    rw [State.outOfReach, copies]
    cases last : s.sel.lastAdmitted with
    | none => simp
    | some l => simp [beyond l last]
  have reached : s.reached_ e = s := by rw [State.reached_, kept]; rfl
  have skip : s.skip e = s.skipped e (seqGap r.group e) := by
    rw [State.skip_eq, reached, copies]
    rfl
  have due : s.testsDue = true := by
    rw [State.testsDue_eq expected]
    simp [State.skipDue, none_, copies, past]
  have step := (State.testStep_skip expected waits).trans skip
  have numbered : s.heldNumbered := fun j q record _ => by
    obtain ⟨-, rfl⟩ := only record
    exact small
  rw [State.testSelector_step numbered (State.running_of_run run) due (State.running_of_run ?_), step]
  · refine State.testSelector_idle fun j q record _ => ?_
    have before : s.record j = some q := (State.record_congr (by simp [State.skipped]) j).symm.trans record
    obtain ⟨-, rfl⟩ := only before
    exact ⟨notClosed, fun n expected' => by simpa [State.skipped, seqGap_back e small] using expected'⟩
  · rw [step]
    simp [State.skipped, run]

/-! ### Copies out of reach freed (R47) -/

theorem Feed.release_eq (x : Feed) (place : Nat) :
    x.release place = { x with openCopy := if x.openCopy = some place then none else x.openCopy } := by
  unfold Feed.release
  split <;> simp [*]

theorem State.freeOutOfReach_fields {s : State} {i : Nat} {r : GroupRecord} (record : s.record i = some r) :
    (s.freeOutOfReach i).store = ⟨s.store.table.set i none, s.store.freeCells + r.cells.length⟩ ∧
      ∀ f, (s.freeOutOfReach i).feed f =
        { s.feed f with openCopy := if (s.feed f).openCopy = some i then none else (s.feed f).openCopy } := by
  have freed : s.freeRecord i =
      { s with
        store := { table := s.store.table.set i none, freeCells := s.store.freeCells + r.cells.length }
        feedA := s.feedA.release i
        feedB := s.feedB.release i } := by
    simp only [State.freeRecord, record]
  refine ⟨by rw [State.freeOutOfReach, freed]; rfl, fun f => ?_⟩
  rw [State.freeOutOfReach, freed, ← Feed.release_eq]
  cases f <;> rfl

theorem State.freeOutOfReaches_sel (l : List (Nat × GroupRecord)) (s : State) :
    ((l.map (·.1)).foldl State.freeOutOfReach s).sel =
      { s.sel with
        counters :=
          { s.sel.counters with outOfReach := l.foldl (fun n _ => bump n) s.sel.counters.outOfReach } } := by
  induction l generalizing s with
  | nil => rfl
  | cons x l ih =>
    rw [List.map_cons, List.foldl_cons, ih]
    simp [State.freeOutOfReach]

theorem State.freeOutOfReaches_frame (l : List Nat) (s : State) :
    (l.foldl State.freeOutOfReach s).launch = s.launch ∧ s.spliceKept (l.foldl State.freeOutOfReach s) ∧
      s.siteKept (l.foldl State.freeOutOfReach s) ∧ s.rulesKept (l.foldl State.freeOutOfReach s) ∧
      (l.foldl State.freeOutOfReach s).station = s.station ∧ (l.foldl State.freeOutOfReach s).network = s.network := by
  induction l generalizing s with
  | nil => exact ⟨rfl, ⟨rfl, rfl, rfl, rfl⟩, ⟨rfl, rfl, rfl⟩, ⟨rfl, rfl, rfl, rfl⟩, rfl, rfl⟩
  | cons i l ih =>
    have first := ih (s.freeOutOfReach i)
    simpa [State.freeOutOfReach, State.spliceKept, State.siteKept, State.rulesKept] using first

/-- Records of different places freed one after another. -/
theorem State.freeOutOfReaches_fields {l : List (Nat × GroupRecord)} {s : State} (records : ∀ x ∈ l, s.record x.1 = some x.2)
    (different : l.Pairwise fun x y => x.1 ≠ y.1) :
    ((l.map (·.1)).foldl State.freeOutOfReach s).store =
        ⟨l.foldl (fun t x => t.set x.1 none) s.store.table, s.store.freeCells + (l.map (·.2.cells.length)).sum⟩ ∧
      ∀ f, ((l.map (·.1)).foldl State.freeOutOfReach s).feed f =
        { s.feed f with
          openCopy := if ∃ x ∈ l, (s.feed f).openCopy = some x.1 then none else (s.feed f).openCopy } := by
  induction l generalizing s with
  | nil => exact ⟨by simp, fun f => by simp⟩
  | cons x l ih =>
    obtain ⟨first, rest⟩ := List.pairwise_cons.mp different
    obtain ⟨store, feeds⟩ := State.freeOutOfReach_fields (records x List.mem_cons_self)
    obtain ⟨store', feeds'⟩ := ih (s := s.freeOutOfReach x.1) (fun y mem => by
      rw [State.freeOutOfReach_record, if_neg (Ne.symm (first y mem))]
      exact records y (List.mem_cons_of_mem _ mem)) rest
    refine ⟨?_, fun f => ?_⟩
    · rw [List.map_cons, List.foldl_cons, store', store, List.map_cons, List.sum_cons, List.foldl_cons, Nat.add_assoc]
    · rw [List.map_cons, List.foldl_cons, feeds', feeds]
      simp only [List.exists_mem_cons_iff]
      by_cases mine : (s.feed f).openCopy = some x.1
      · simp only [mine, true_or, if_true, reduceCtorEq, and_false, exists_false, if_false]
      · simp only [mine, false_or, if_false]

/-- The records of the table stand at different places. -/
theorem Store.records_pairwise (t : Store) : t.records.Pairwise fun x y => x.1 ≠ y.1 := by
  refine List.Pairwise.filterMap (R := fun a b => a.2 ≠ b.2) _ (fun a b ne x first y second => ?_)
    (List.pairwise_map.mp (List.nodup_zipIdx_map_snd t.table))
  obtain ⟨g, -, rfl⟩ := Option.map_eq_some_iff.mp first
  obtain ⟨g', -, rfl⟩ := Option.map_eq_some_iff.mp second
  exact ne

/-! ### The skip of E (R46, R47) -/

/-- A number is later than L, or L is absent. -/
def State.beyondLast (s : State) (n : Nat) : Bool :=
  match s.sel.lastAdmitted with | some l => seqLater n l | none => true

/-- The held copies later than E that are not later than L. -/
def State.lostCopies (s : State) (e : Nat) : List (Nat × GroupRecord) :=
  (s.laterThan e).filter fun x => !s.beyondLast x.2.group

/-- The held copies later than E that a skip leaves. -/
def State.restCopies (s : State) (e : Nat) : List (Nat × GroupRecord) := (s.laterThan e).filter fun x => s.beyondLast x.2.group

/-- Every feed that could bring E is past it, or a later closed copy is past its deadline (R46). -/
def State.cannotWait (s : State) (e : Nat) : Prop :=
  s.laterThan e ≠ [] ∧
    ((∀ f, (s.feed f).sync = .locked → s.sel.mode.excludes f = false → (s.feed f).beyond e = true) ∨
      ∃ x ∈ s.laterThan e, x.2.closed = true ∧ x.2.pastDeadline s.now = true)

theorem State.outOfReach_eq (s : State) (e : Nat) : s.outOfReach e = (s.lostCopies e).map (·.1) := by
  unfold State.outOfReach State.lostCopies State.beyondLast
  rw [State.laterCopies_eq]
  cases s.sel.lastAdmitted <;> rfl

theorem State.feedPast_iff (s : State) (f : FeedId) (e : Nat) :
    s.feedPast f e = true ↔
      ((s.feed f).sync = .locked → s.sel.mode.excludes f = false → (s.feed f).beyond e = true) := by
  have passed : (s.feed f).passed e = (s.feed f).beyond e := rfl
  rw [State.feedPast, passed]
  by_cases sync : (s.feed f).sync = .locked <;> cases s.sel.mode.excludes f <;> simp [sync]

theorem State.skipDue_iff {s : State} {e : Nat} (noCopy : ∀ f, s.heldCopy f e = none) :
    s.skipDue e = true ↔ s.cannotWait e := by
  have unlocked : (s.feedA.sync != .locked && s.feedB.sync != .locked) = true →
      (s.feedPast .a e && s.feedPast .b e) = true := by
    simp only [Bool.and_eq_true]
    exact fun ⟨a, b⟩ => ⟨by simp [State.feedPast, State.feed, a], by simp [State.feedPast, State.feed, b]⟩
  have absorbed : (s.feedPast .a e && s.feedPast .b e || s.feedA.sync != .locked && s.feedB.sync != .locked) =
      (s.feedPast .a e && s.feedPast .b e) := Bool.or_eq_left_iff_imp.mpr unlocked
  have past : (s.feedPast .a e && s.feedPast .b e) = true ↔ ∀ f, s.feedPast f e = true := by
    rw [Bool.and_eq_true]
    exact ⟨fun ⟨a, b⟩ f => by cases f <;> assumption, fun all => ⟨all .a, all .b⟩⟩
  unfold State.skipDue State.cannotWait
  rw [noCopy, noCopy, State.laterCopies_eq, State.laterDue_eq, absorbed]
  rw [Bool.and_eq_true, Bool.or_eq_true, past]
  simp only [Option.isNone_none, Bool.true_and, Bool.not_eq_true', List.isEmpty_eq_false_iff, State.feedPast_iff,
    List.any_eq_true, Bool.and_eq_true]

section
variable {s : State} {e : Nat}

theorem State.mem_laterThan {i : Nat} {r : GroupRecord} :
    (i, r) ∈ s.laterThan e ↔ s.record i = some r ∧ r.held = true ∧ seqLater r.group e = true :=
  State.mem_laterCopies

theorem State.mem_lostCopies {i : Nat} {r : GroupRecord} :
    (i, r) ∈ s.lostCopies e ↔ (i, r) ∈ s.laterThan e ∧ s.beyondLast r.group = false := by
  rw [State.lostCopies, List.mem_filter, Bool.not_eq_true']

theorem State.mem_restCopies {i : Nat} {r : GroupRecord} :
    (i, r) ∈ s.restCopies e ↔ (i, r) ∈ s.laterThan e ∧ s.beyondLast r.group = true := List.mem_filter

theorem State.reached_record (i : Nat) :
    (s.reached_ e).record i = if i ∈ (s.lostCopies e).map (·.1) then none else s.record i := by
  rw [State.reached_, State.outOfReach_eq]
  exact State.freeOutOfReaches_record _ s i

theorem State.reached_laterCopies (x : Nat × GroupRecord) : x ∈ (s.reached_ e).laterCopies e ↔ x ∈ s.restCopies e := by
  obtain ⟨i, r⟩ := x
  rw [State.mem_laterCopies, State.reached_record, State.mem_restCopies, State.mem_laterThan]
  by_cases lost : i ∈ (s.lostCopies e).map (·.1)
  · obtain ⟨⟨j, q⟩, mem, rfl⟩ := List.mem_map.mp lost
    obtain ⟨theirs, notBeyond⟩ := State.mem_lostCopies.mp mem
    obtain ⟨record, -⟩ := State.mem_laterThan.mp theirs
    rw [if_pos lost]
    refine ⟨fun ⟨h, _⟩ => absurd h nofun, fun ⟨⟨mine, _⟩, beyond⟩ => ?_⟩
    obtain rfl := Option.some.inj (record.symm.trans mine)
    exact absurd (notBeyond.symm.trans beyond) nofun
  · rw [if_neg lost]
    refine ⟨fun mine => ⟨mine, ?_⟩, And.left⟩
    cases beyond : s.beyondLast r.group with
    | true => rfl
    | false =>
      exact absurd (List.mem_map_of_mem (f := (·.1)) (State.mem_lostCopies.mpr ⟨State.mem_laterThan.mpr mine, beyond⟩)) lost

/-- What the freeing of the copies out of reach leaves of the state. -/
abbrev State.lostFreed (s u : State) (e : Nat) : Prop :=
  u.store =
      ⟨(s.lostCopies e).foldl (fun t x => t.set x.1 none) s.store.table,
        s.store.freeCells + ((s.lostCopies e).map (·.2.cells.length)).sum⟩ ∧
    (∀ f, u.feed f =
      { s.feed f with
        openCopy := if ∃ x ∈ s.lostCopies e, (s.feed f).openCopy = some x.1 then none else (s.feed f).openCopy }) ∧
    u.launch = s.launch ∧ s.spliceKept u ∧ s.siteKept u ∧ s.rulesKept u

theorem State.reached_freed : s.lostFreed (s.reached_ e) e := by
  obtain ⟨store, feeds⟩ := State.freeOutOfReaches_fields (s := s) (l := s.lostCopies e)
    (fun x mem => (State.mem_laterThan.mp (State.mem_lostCopies.mp mem).1).1)
    (List.Pairwise.filter _ (List.Pairwise.filter _ s.store.records_pairwise))
  obtain ⟨launch, splice, site, rules, -⟩ := State.freeOutOfReaches_frame ((s.lostCopies e).map (·.1)) s
  rw [State.reached_, State.outOfReach_eq]
  exact ⟨store, feeds, launch, splice, site, rules⟩

theorem State.reached_sel :
    (s.reached_ e).sel =
      { s.sel with
        counters :=
          { s.sel.counters with
            outOfReach := (s.lostCopies e).foldl (fun n _ => bump n) s.sel.counters.outOfReach } } := by
  rw [State.reached_, State.outOfReach_eq]
  exact State.freeOutOfReaches_sel _ s

theorem State.reached_ports : (s.reached_ e).station = s.station ∧ (s.reached_ e).network = s.network := by
  obtain ⟨-, -, -, -, ports⟩ := State.freeOutOfReaches_frame (s.outOfReach e) s
  exact ports

theorem State.reached_port (p : Port) : (s.reached_ e).port p = s.port p := by
  obtain ⟨station, network⟩ := s.reached_ports (e := e)
  cases p
  · exact station
  · exact network

theorem State.skipped_sel (u : State) (n gap : Nat) :
    (u.skipped n gap).sel =
      { u.sel with
        expected := some ((n + gap) % 65536)
        counters :=
          { u.sel.counters with
            missing := bumpBy u.sel.counters.missing gap, skips := bump u.sel.counters.skips } } := rfl

theorem State.skipped_port (u : State) (n gap : Nat) (p : Port) :
    (u.skipped n gap).port p = (u.port p).offer ⟨.groupMissing, n, gap, u.now⟩ := by
  cases p <;> rfl

theorem State.skipped_freed {u : State} (freed : s.lostFreed u e) (n gap : Nat) : s.lostFreed (u.skipped n gap) e := by
  obtain ⟨store, feeds, launch, splice, site, rules⟩ := freed
  refine ⟨Eq.trans (by simp [State.skipped]) store, fun f => Eq.trans ?_ (feeds f),
    Eq.trans (by simp [State.skipped]) launch, ?_⟩
  · cases f <;> simp [State.skipped, State.feed]
  · simpa [State.skipped, State.spliceKept, State.siteKept, State.rulesKept] using ⟨splice, site, rules⟩

/-- With no copy left the state of the freed copies is settled. -/
theorem State.skip_none (expected : s.sel.expected = some e) (noCopy : ∀ f, s.heldCopy f e = none)
    (rest : s.restCopies e = []) : s.skip e = s.reached_ e ∧ (s.reached_ e).testSelector = s.reached_ e := by
  have later : (s.reached_ e).laterCopies e = [] := List.eq_nil_iff_forall_not_mem.mpr fun x mem => by
    have := (State.reached_laterCopies x).mp mem
    rw [rest] at this
    exact absurd this List.not_mem_nil
  refine ⟨by rw [State.skip_eq, later]; rfl,
    State.testSelector_waits (e := e) (by rw [State.reached_sel]; exact expected) ?_ ?_⟩
  · refine State.admitCond_none fun f => ?_
    rw [State.closedCopy_eq]
    rcases Option.eq_none_or_eq_some ((s.reached_ e).heldCopy f e) with none_ | ⟨⟨i, r⟩, copy⟩
    · rw [none_]; rfl
    · obtain ⟨-, record, held, feed, group⟩ := State.heldCopy_spec copy
      rw [State.reached_record] at record
      split at record
      · exact absurd record nofun
      · have still := State.heldCopy_some record held
        rw [feed, group, noCopy] at still
        exact absurd rfl still
  · simp [State.skipDue, later]

/-- With a copy left E moves on to the nearest number. -/
theorem State.skip_nearest {x : Nat × GroupRecord} (mem : x ∈ s.restCopies e)
    (nearest : ∀ y ∈ s.restCopies e, seqGap x.2.group e ≤ seqGap y.2.group e) :
    s.skip e = (s.reached_ e).skipped e (seqGap x.2.group e) := by
  have least : (((s.reached_ e).laterCopies e).map fun x => seqGap x.2.group e).min? = some (seqGap x.2.group e) := by
    refine List.min?_eq_some_iff.mpr
      ⟨List.mem_map.mpr ⟨x, (State.reached_laterCopies x).mpr mem, rfl⟩, fun b inList => ?_⟩
    obtain ⟨y, theirs, rfl⟩ := List.mem_map.mp inList
    exact nearest y ((State.reached_laterCopies y).mp theirs)
  rw [State.skip_eq, least]
  rfl

end

theorem seqGap_eq {e : Nat} (small : e < 65536) (n : Nat) : seqGap n e = (n + 65536 - e) % 65536 := by
  unfold seqGap
  omega

/-- The skip that is due is the first of the tests that follow. -/
theorem State.testSelector_skip {s : State} {e : Nat} (numbered : s.numbered = true) (run : s.part = .run)
    (expected : s.sel.expected = some e) (noCopy : ∀ f, s.heldCopy f e = none) (due : s.cannotWait e) :
    s.testSelector = (s.skip e).testSelector := by
  have waits : s.admitCond e = none := State.admitCond_none fun f => by rw [State.closedCopy_eq, noCopy]; rfl
  have step := State.testStep_skip expected waits
  rw [State.testSelector_step (State.numbered_held numbered) (State.running_of_run run) ?_ ?_, step]
  · rw [State.testsDue_eq expected, waits, (State.skipDue_iff noCopy).mpr due]; rfl
  · rw [step]
    exact State.running_of_run (by simp [run])

theorem State.testSelector_noSkip {s : State} {e : Nat} (expected : s.sel.expected = some e)
    (noCopy : ∀ f, s.heldCopy f e = none) (wait : ¬ s.cannotWait e) : s.testSelector = s := by
  refine State.testSelector_waits expected (State.admitCond_none fun f => by rw [State.closedCopy_eq, noCopy]; rfl) ?_
  rw [Bool.eq_false_iff]
  exact fun due => wait ((State.skipDue_iff noCopy).mp due)

/-- Settles O27: the tests of the selector settle, and each is a step of an admission, a wait or a skip. -/
theorem selectorSettles : Obligations.SelectorSettles := by
  refine ⟨fun s numbered => ⟨s.testSelector, rfl, State.testSelector_settles (State.numbered_held numbered)⟩,
    ?_, ?_, ?_, ?_, ?_⟩
  · intro s e place r run expected alone closed group due
    obtain ⟨k, tests, -, sel, -⟩ := State.testSelector_single run expected alone closed group due
    obtain ⟨-, ⟨queue, kept⟩, -⟩ := (s.admission k e place r).headDecision_drops
    have sync : ∀ f, (s.testSelector.feed f).sync = (s.feed f).sync := fun f => by
      obtain ⟨_, feed⟩ := s.testSelector_feeds f
      rw [feed]
    refine ⟨s.testSelector, rfl, ?_, ?_, ?_, ?_, ?_, ?_, ?_⟩
    · rw [tests, kept, sel]
    · rw [tests, kept, sel]
    · rw [tests, kept, sel]
    · exact sync .a
    · exact sync .b
    · simp [State.siteKept]
    · simp [State.rulesKept]
  · intro s e place r run expected _ alone opened small later beyond past
    exact congrArg Host.Outcome.next
      ((State.testSelector_toOpen run expected alone opened small later beyond past).trans
        (by rw [State.skipped, seqGap_back e small]))
  · intro s e f i r numbered run expected held closed others
    obtain ⟨-, -, -, rfl, -⟩ := State.heldCopy_spec held
    have cond := State.admitCond_of_best held closed others
    refine ⟨fun waits => ?_, fun k admits => ⟨s.admission k e i r, ?_, State.admission_admitted k held⟩⟩
    · exact congrArg Host.Outcome.next (State.testSelector_waits expected (cond.trans waits)
        (State.skipDue_held (f := r.feed) (by rw [held]; exact nofun)))
    · have step := State.testStep_admission expected (cond.trans admits) (State.bestCopy_of_best held closed others)
      refine congrArg Host.Outcome.next ?_
      rw [State.testSelector_step (State.numbered_held numbered) (State.running_of_run run)
        (State.testsDue_of_admitCond expected (cond.trans admits)) ?_, step]
      rw [step, ← State.admitCopy_eq]
      exact State.running_of_run (by simp [run])
  · intro s e expected someCopy allOpen
    obtain ⟨f, held⟩ := someCopy
    have waits : s.admitCond e = none := State.admitCond_none fun g => State.closedCopy_none (allOpen g)
    exact congrArg Host.Outcome.next (State.testSelector_waits expected waits (State.skipDue_held held))
  · intro s e numbered run expected small noCopy gap beyondL lost rest due counters freed
    have gap_eq : ∀ n, seqGap n e = gap n := seqGap_eq small
    have first := fun due => State.testSelector_skip numbered run expected noCopy due
    refine ⟨fun wait => ?_, fun due noRest => ?_, fun x mem due nearest => ?_⟩
    · exact congrArg Host.Outcome.next (State.testSelector_noSkip expected noCopy wait)
    · obtain ⟨skip, settled⟩ := State.skip_none expected noCopy noRest
      obtain ⟨station, network⟩ := s.reached_ports (e := e)
      exact ⟨s.reached_ e, congrArg Host.Outcome.next ((first due).trans (by rw [skip, settled])), State.reached_freed,
        State.reached_sel, station, network⟩
    · have record := (State.mem_laterThan.mp (State.mem_restCopies.mp mem).1)
      have skip := State.skip_nearest (s := s) mem fun y theirs => by rw [gap_eq, gap_eq]; exact nearest y theirs
      obtain ⟨record, held, -⟩ := record
      have number := seqGap_back e (State.numbered_held numbered x.1 x.2 record held)
      obtain ⟨-, -, -, -, -, tb, -⟩ := State.reached_freed (s := s) (e := e)
      have now : (s.reached_ e).now = s.now := by rw [State.now, tb]; rfl
      refine ⟨(s.reached_ e).skipped e (seqGap x.2.group e),
        congrArg Host.Outcome.next ((first due).trans (by rw [skip])),
        State.skipped_freed State.reached_freed _ _, ?_, fun p => ?_⟩
      · rw [State.skipped_sel, State.reached_sel, number, gap_eq]
        rfl
      · rw [State.skipped_port, State.reached_port, now, gap_eq]

end Sys2Proof.Machine
end

