-- ==== Sys2Proof/Proofs/SpliceTests.lean ====
section
/-! The splice-out test and the return test of a packet start, and the break on a slot (R110, R111, R115, R127). -/

namespace Sys2Proof.Machine

open Sys2Proof

-- One proof after the other: proofs that wait for each other hold a thread each.
set_option Elab.async false

/-! ### Tests that leave the other breaks (R110, R115) -/

theorem State.offerWindow_brkOnly (s : State) (w i : Nat) : s.brkOnly (s.offerWindow w i) i := by
  have offer : s.brkOnly (s.offerY i (s.window w).start .window) i := s.withBreak_brkOnly ..
  exact State.brkOnly_ite (offer.trans (State.brkOnly_of_eq i (by rfl))) offer

theorem State.airBreak_brkOnly (s : State) (i : Nat) (b : BreakRecord) : s.brkOnly (s.airBreak i b) i := by
  have put := s.withBreak_brkOnly i b
  unfold State.airBreak
  split
  · exact put.trans (State.brkOnly_of_eq i (by simp))
  · exact put

/-- A break that goes on air, before the windows' offers: its guard is offered as Y (R110). -/
def State.airedRecord (s : State) (i : Nat) (start : Time) : BreakRecord :=
  { s.brk i with state := .onAir, aired := true, outTick := some start }.offerY
    (tadd start ((s.slot (s.brk i).slot).guard * ticksPerSecond)) .guard

/-- The state of a splice-out before the windows' offers (R110). -/
def State.aired (s : State) (i : Nat) (start : Time) : State :=
  (s.airBreak i (s.airedRecord i start)).raise .breakOnAir i (s.brk i).slot

/-- A standing window that covers a slot and ends later than a start offers its own start there (R127). -/
def Window.offersAt (win : Window) (slot : Nat) (start : Time) : Bool :=
  win.standing && win.covers slot && later win.stop start

/-- The offer of one window at a splice-out (R127). -/
def State.offerStep (slot : Nat) (start : Time) (i : Nat) (s : State) (w : Nat) : State :=
  if (s.window w).offersAt slot start then s.offerWindow w i else s

theorem State.goOnAir_offers (s : State) (i : Nat) (start : Time) :
    s.goOnAir i start = windowIndices.foldl (State.offerStep (s.brk i).slot start i) (s.aired i start) :=
  s.goOnAir_eq i start

theorem State.offerStep_brkOnly (slot : Nat) (start : Time) (i : Nat) (s : State) (w : Nat) :
    s.brkOnly (State.offerStep slot start i s w) i :=
  State.brkOnly_ite (s.offerWindow_brkOnly w i) (State.brkOnly_of_eq i rfl)

theorem State.goOnAir_brkOnly (s : State) (i : Nat) (start : Time) : s.brkOnly (s.goOnAir i start) i := by
  have step : ∀ (l : List Nat) (u : State), u.brkOnly (l.foldl (State.offerStep (s.brk i).slot start i) u) i := by
    intro l
    induction l with
    | nil => exact fun u => State.brkOnly_of_eq i rfl
    | cons w l ih => exact fun u => (State.offerStep_brkOnly _ start i u w).trans (ih _)
  have air : s.brkOnly (s.aired i start) i := (s.airBreak_brkOnly i _).trans (State.brkOnly_of_eq i rfl)
  rw [State.goOnAir_offers]
  exact air.trans (step windowIndices _)

theorem State.spliceOutTest_brkOnly (s : State) (start : Time) (i : Nat) : s.brkOnly (s.spliceOutTest start i) i := by
  unfold State.spliceOutTest
  dsimp only
  split
  · refine State.brkOnly_ite ?_ (State.brkOnly_of_eq i rfl)
    split
    · exact State.brkOnly_ite (s.endBreak_brkOnly ..) (s.goOnAir_brkOnly ..)
    · exact s.goOnAir_brkOnly ..
  · exact State.brkOnly_of_eq i rfl

theorem State.returnTest_brkOnly (s : State) (start : Time) (i : Nat) : s.brkOnly (s.returnTest start i) i := by
  unfold State.returnTest
  dsimp only
  split
  · exact State.brkOnly_ite (s.endBreak_brkOnly ..) (State.brkOnly_of_eq i rfl)
  · exact State.brkOnly_of_eq i rfl

theorem BreakRecord.notLive {b : BreakRecord} (h : b.live = false) : b.state ≠ .cued ∧ b.state ≠ .onAir := by
  simpa [BreakRecord.live] using h

section
variable {s : State} {i : Nat} (small : i < 32) (others : ∀ j, j < 32 → j ≠ i → (s.brk j).live = false) (start : Time)
include small others

theorem State.spliceOut_only : breakIndices.foldl (State.spliceOutTest start) s = s.spliceOutTest start i :=
  foldl_eq_of_only _ s i breakIndices breakIndices_nodup (mem_breakIndices.mpr small)
    (fun j mem ne => State.spliceOutTest_idle (BreakRecord.notLive (others j (mem_breakIndices.mp mem) ne)).1)
    (fun j mem ne => State.spliceOutTest_idle (by
      rw [(s.spliceOutTest_brkOnly start i).1 j ne]
      exact (BreakRecord.notLive (others j (mem_breakIndices.mp mem) ne)).1))

theorem State.return_only : breakIndices.foldl (State.returnTest start) s = s.returnTest start i :=
  foldl_eq_of_only _ s i breakIndices breakIndices_nodup (mem_breakIndices.mpr small)
    (fun j mem ne => State.returnTest_idle (BreakRecord.notLive (others j (mem_breakIndices.mp mem) ne)).2)
    (fun j mem ne => State.returnTest_idle (by
      rw [(s.returnTest_brkOnly start i).1 j ne]
      exact (BreakRecord.notLive (others j (mem_breakIndices.mp mem) ne)).2))

end

/-! ### The windows' offers at a splice-out (R127) -/

/-- A break after the offers of windows, in their order. -/
def State.offeredBy (s : State) (b : BreakRecord) (ws : List Nat) : BreakRecord :=
  ws.foldl (fun b w => { b with y := b.offered (s.window w).start .window }) b

/-- The windows among `ws` that offer their start. -/
def State.offering (s : State) (slot : Nat) (start : Time) (ws : List Nat) : List Nat :=
  ws.filter fun w => (s.window w).offersAt slot start

theorem State.window_lt {s : State} {w : Nat} (h : (s.window w).standing = true) : w < s.windows.length := by
  by_contra out
  rw [State.window, List.getD_eq_getElem?_getD, List.getElem?_eq_none (by omega)] at h
  exact absurd h nofun

theorem State.offerWindow_fields {s : State} {w i : Nat} (index : i < s.splice.breaks.length) (lt : w < s.windows.length) :
    (s.offerWindow w i).brk i = { s.brk i with y := (s.brk i).offered (s.window w).start .window } ∧
      (∀ v, (s.offerWindow w i).window v =
        if v = w ∧ (s.brk i).takesOffer (s.window w).start = true then
          { s.window w with recalled := bump16 (s.window w).recalled }
        else s.window v) ∧
      (s.offerWindow w i).splice.breaks.length = s.splice.breaks.length ∧ (s.offerWindow w i).lanes = s.lanes ∧
      (s.offerWindow w i).windows.length = s.windows.length ∧ ∀ q, (s.offerWindow w i).port q = s.port q := by
  have put := (State.brk_withBreak (s := s) ((s.brk i).offerY (s.window w).start .window) index).trans
    (BreakRecord.offerY_eq ..)
  have size : (s.offerY i (s.window w).start .window).splice.breaks.length = s.splice.breaks.length := by
    simp [State.offerY, State.withBreak]
  have ports : ∀ q, (s.offerY i (s.window w).start .window).port q = s.port q := fun q => by cases q <;> rfl
  unfold State.offerWindow
  dsimp only
  cases takes : (s.brk i).takesOffer (s.window w).start with
  | false =>
    rw [if_neg nofun]
    exact ⟨put, fun v => by rw [if_neg fun h => absurd h.2 nofun]; rfl, size, rfl, rfl, ports⟩
  | true =>
    rw [if_pos rfl]
    refine ⟨put, fun v => ?_, size, rfl, by simp [State.withWindow, State.offerY, State.withBreak], fun q => ?_⟩
    · by_cases same : v = w
      · rw [if_pos ⟨same, rfl⟩, same]
        exact State.window_withWindow (s := s.offerY i (s.window w).start .window) _ lt
      · rw [if_neg fun h => same h.1]
        exact State.window_withWindow_ne (s := s.offerY i (s.window w).start .window) _ same
    · exact Eq.trans (by cases q <;> rfl) (ports q)

/-- The offers of the windows below `n`, in ascending order. -/
theorem State.offers_range {s : State} {i : Nat} (index : i < s.splice.breaks.length) (slot : Nat) (start : Time) (n : Nat) :
    let t := (List.range n).foldl (State.offerStep slot start i) s
    let offering := s.offering slot start (List.range n)
    t.brk i = s.offeredBy (s.brk i) offering ∧
      (∀ w, t.window w =
        if w ∈ offering ∧ (s.offeredBy (s.brk i) (offering.filter (· < w))).takesOffer (s.window w).start = true then
          { s.window w with recalled := bump16 (s.window w).recalled }
        else s.window w) ∧
      t.splice.breaks.length = s.splice.breaks.length ∧ t.lanes = s.lanes ∧ t.windows.length = s.windows.length ∧
      ∀ q, t.port q = s.port q := by
  induction n with
  | zero => exact ⟨rfl, fun w => by rw [if_neg fun h => absurd h.1 List.not_mem_nil]; rfl, rfl, rfl, rfl, fun q => rfl⟩
  | succ n ih =>
    obtain ⟨own, windows, size, lanes, count, ports⟩ := ih
    have below : ∀ w ∈ s.offering slot start (List.range n), w < n := fun w mem =>
      List.mem_range.mp (List.mem_of_mem_filter mem)
    have fresh : (((List.range n).foldl (State.offerStep slot start i) s).window n) = s.window n := by
      rw [windows, if_neg fun h => absurd (below n h.1) (Nat.lt_irrefl n)]
    simp only [List.range_succ, List.foldl_append, List.foldl_cons, List.foldl_nil]
    generalize (List.range n).foldl (State.offerStep slot start i) s = u at own windows size lanes count ports fresh
    cases offers : (s.window n).offersAt slot start with
    | false =>
      have still : State.offerStep slot start i u n = u := by
        rw [State.offerStep, fresh, offers]; rfl
      have same : s.offering slot start (List.range n ++ [n]) = s.offering slot start (List.range n) := by
        simp [State.offering, offers]
      rw [still, same]
      exact ⟨own, windows, size, lanes, count, ports⟩
    | true =>
      have acts : State.offerStep slot start i u n = u.offerWindow n i := by
        rw [State.offerStep, fresh, offers]; rfl
      have more : s.offering slot start (List.range n ++ [n]) = s.offering slot start (List.range n) ++ [n] := by
        simp [State.offering, offers]
      have standing : (s.window n).standing = true := by
        simp only [Window.offersAt, Bool.and_eq_true] at offers
        exact offers.1.1
      obtain ⟨own', windows', size', lanes', count', ports'⟩ := State.offerWindow_fields (s := u) (w := n) (i := i)
        (size ▸ index) (count ▸ State.window_lt standing)
      rw [acts, more]
      refine ⟨?_, fun w => ?_, size'.trans size, lanes'.trans lanes, count'.trans count, fun q => (ports' q).trans (ports q)⟩
      · rw [own', fresh, own]
        simp [State.offeredBy, List.foldl_append]
      · rw [windows', fresh, own]
        rcases Nat.lt_trichotomy w n with lt | rfl | gt
        · rw [if_neg fun h => absurd h.1 lt.ne, windows]
          simp [lt.ne, Nat.not_lt.mpr lt.le]
        · have all : (s.offering slot start (List.range w) ++ [w]).filter (· < w) = s.offering slot start (List.range w) := by
            simp only [List.filter_append, List.filter_cons, Nat.lt_irrefl, decide_false, List.filter_nil]
            rw [List.filter_eq_self.mpr fun v mem => decide_eq_true (below v mem)]
            simp
          simp only [all, true_and, List.mem_append, List.mem_singleton, or_true]
          rw [fresh]
        · rw [if_neg fun h => absurd h.1 gt.ne', windows]
          have out : w ∉ s.offering slot start (List.range n) := fun mem => absurd (below w mem) gt.le.not_gt
          simp [out, gt.ne']

/-! ### One break at a packet start (R110, R115) -/

theorem State.brkOnly.slots {s t : State} {i : Nat} (h : s.brkOnly t i) (j : Nat) : t.slot j = s.slot j := by
  rw [State.slot, h.2]; rfl

theorem State.networkEntry_congr {s t : State} (h : ∀ j, t.slot j = s.slot j) (id : Nat) :
    t.networkEntry id = s.networkEntry id := by
  unfold State.networkEntry
  simp only [h]

section
variable {s : State} {i : Nat} (small : i < 32) (others : ∀ j, j < 32 → j ≠ i → (s.brk j).live = false) (start : Time)
include small others

/-- The tests of a packet start, where one break alone can be CUED or ON_AIR. -/
theorem State.tests_only :
    breakIndices.foldl (State.returnTest start) (breakIndices.foldl (State.spliceOutTest start) s) =
      (s.spliceOutTest start i).returnTest start i := by
  rw [State.spliceOut_only small others]
  exact State.return_only small (fun j lt ne => by rw [(s.spliceOutTest_brkOnly start i).1 j ne]; exact others j lt ne) start

theorem State.splicePacket_unslotted {p : Packet} (noEntry : s.networkEntry (identifier p) = none) :
    s.splicePacket start p = ((s.spliceOutTest start i).returnTest start i, .keep) := by
  have kept := (s.spliceOutTest_brkOnly start i).trans ((s.spliceOutTest start i).returnTest_brkOnly start i)
  unfold State.splicePacket
  dsimp only
  rw [State.tests_only small others]
  simp only [State.networkEntry_congr kept.slots, noEntry]

end

section
variable {s : State} {i : Nat} {start : Time}

theorem State.spliceOutTest_noAir {x y : Time} {src : YSource} (cued : (s.brk i).state = .cued) (at_ : (s.brk i).x = some x)
    (reaches : later x start = false) (ends : (s.brk i).y = some (y, src)) (early : later y start = false) :
    s.spliceOutTest start i = s.endBreak i .noAir s.now := by
  simp [State.spliceOutTest, cued, at_, reaches, ends, early]

theorem State.spliceOutTest_onAir {x : Time} (cued : (s.brk i).state = .cued) (at_ : (s.brk i).x = some x)
    (reaches : later x start = false) (ends : ∀ y src, (s.brk i).y = some (y, src) → later y start = true) :
    s.spliceOutTest start i = s.goOnAir i start := by
  unfold State.spliceOutTest
  simp only [cued, at_, reaches, Bool.not_false, if_true]
  rcases Option.eq_none_or_eq_some (s.brk i).y with none_ | ⟨⟨y, src⟩, y_⟩
  · simp only [none_]
  · simp only [y_, ends y src y_]
    rfl

theorem State.returnTest_ends {y : Time} {src : YSource} (onAir : (s.brk i).state = .onAir) (ends : (s.brk i).y = some (y, src))
    (early : later y start = false) : s.returnTest start i = s.endBreak i src.cause start := by
  simp [State.returnTest, onAir, ends, early]

/-- A break that ends leaves its lane FREE and empty. -/
theorem State.endBreak_lane {lane : Nat} (cause : EndCause) (at_ : Time) (index : i < s.splice.breaks.length)
    (bound : (s.brk i).lane = some lane) (lt : lane < s.lanes.length) :
    ((s.endBreak i cause at_).lane lane).state = .free ∧ ((s.endBreak i cause at_).lane lane).queue = [] := by
  obtain ⟨-, -, -, -, released, -⟩ := State.endBreak_spec cause at_ index
  rw [released lane bound lt]
  exact ⟨rfl, rfl⟩

/-- What a splice-out leaves (R110, R127). -/
theorem State.goOnAir_fields {lane : Nat} (index : i < s.splice.breaks.length) (bound : (s.brk i).lane = some lane) :
    let t := s.goOnAir i start
    let offering := s.offering (s.brk i).slot start windowIndices
    t.brk i = s.offeredBy (s.airedRecord i start) offering ∧
      (∀ w, t.window w =
        if w ∈ offering ∧
            (s.offeredBy (s.airedRecord i start) (offering.filter (· < w))).takesOffer (s.window w).start = true then
          { s.window w with recalled := bump16 (s.window w).recalled }
        else s.window w) ∧
      t.splice.breaks.length = s.splice.breaks.length ∧ t.lanes = s.lanes.set lane { s.lane lane with state := .onAir } ∧
      (offering = [] → t.windows = s.windows) ∧
      ∀ q, t.port q = (s.port q).offer ⟨.breakOnAir, i, (s.brk i).slot, s.now⟩ := by
  have size : (s.aired i start).splice.breaks.length = s.splice.breaks.length := by
    simp [State.aired, State.withBreak]
  have aired : (s.aired i start).brk i = s.airedRecord i start := by
    refine (State.brk_congr (s := s.withBreak i (s.airedRecord i start)) ?_ i).trans (State.brk_withBreak _ index)
    simp [State.aired]
  have windows : (s.aired i start).windows = s.windows := by simp [State.aired]
  have window : ∀ w, (s.aired i start).window w = s.window w := State.window_congr windows
  have offering : (s.aired i start).offering (s.brk i).slot start windowIndices =
      s.offering (s.brk i).slot start windowIndices := by
    unfold State.offering
    simp only [window]
  have offeredBy : ∀ b ws, (s.aired i start).offeredBy b ws = s.offeredBy b ws := fun b ws => by
    unfold State.offeredBy
    simp only [window]
  have lanes : (s.aired i start).lanes = s.lanes.set lane { s.lane lane with state := .onAir } := by
    refine (s.airBreak_lanes i (s.airedRecord i start)).trans ?_
    simp only [bound]
  have ports : ∀ q, (s.aired i start).port q = (s.port q).offer ⟨.breakOnAir, i, (s.brk i).slot, s.now⟩ := fun q => by
    refine (State.raise_port _ _ _ _ q).trans ?_
    cases q <;> simp [State.port, State.now]
  have offers := State.offers_range (s := s.aired i start) (size ▸ index) (s.brk i).slot start 8
  have eq : (List.range 8).foldl (State.offerStep (s.brk i).slot start i) (s.aired i start) = s.goOnAir i start :=
    (s.goOnAir_offers i start).symm
  simp only [eq] at offers
  obtain ⟨own, acted, sizes, lanes', -, ports'⟩ := offers
  simp only [show List.range 8 = windowIndices from rfl, offering, aired, offeredBy, window] at own acted
  refine ⟨own, acted, sizes.trans size, lanes'.trans lanes, fun none_ => ?_, fun q => (ports' q).trans (ports q)⟩
  rw [State.goOnAir_offers, foldl_eq_of_noop _ _ _ fun w mem => ?_, windows]
  have idle : ¬ (s.window w).offersAt (s.brk i).slot start = true := List.filter_eq_nil_iff.mp none_ w mem
  rw [State.offerStep, window, if_neg idle]

/-! ### The offers to an aired break (R114, R127) -/

theorem BreakRecord.offered_cases {b : BreakRecord} {at_ y : Time} {source src : YSource}
    (h : b.offered at_ source = some (y, src)) : (y = at_ ∧ src = source) ∨ b.y = some (y, src) := by
  unfold BreakRecord.offered at h
  split at h
  · exact .inl ⟨(Prod.mk.inj (Option.some.inj h)).1.symm, (Prod.mk.inj (Option.some.inj h)).2.symm⟩
  · next old =>
    split at h
    · exact .inl ⟨(Prod.mk.inj (Option.some.inj h)).1.symm, (Prod.mk.inj (Option.some.inj h)).2.symm⟩
    · exact .inr (old.trans h)

theorem State.airedRecord_eq (s : State) (i : Nat) (start : Time) :
    s.airedRecord i start =
      { s.brk i with
        state := .onAir, aired := true, outTick := some start
        y := (s.brk i).offered (tadd start ((s.slot (s.brk i).slot).guard * ticksPerSecond)) .guard } :=
  BreakRecord.offerY_eq ..

theorem State.offeredBy_keeps (s : State) (b : BreakRecord) (ws : List Nat) :
    s.offeredBy b ws = { b with y := (s.offeredBy b ws).y } := by
  induction ws generalizing b with
  | nil => rfl
  | cons w ws ih => exact ih { b with y := b.offered (s.window w).start .window }

/-- Where every instant offered is later than the start, so is Y. -/
theorem State.offeredBy_later {b : BreakRecord} {ws : List Nat} (own : ∀ y src, b.y = some (y, src) → later y start = true)
    (offers : ∀ w ∈ ws, later (s.window w).start start = true) :
    ∀ y src, (s.offeredBy b ws).y = some (y, src) → later y start = true := by
  induction ws generalizing b with
  | nil => exact own
  | cons w ws ih =>
    refine ih (b := { b with y := b.offered (s.window w).start .window }) (fun y src h => ?_)
      fun v mem => offers v (List.mem_cons_of_mem _ mem)
    rcases BreakRecord.offered_cases h with ⟨rfl, -⟩ | old
    · exact offers w List.mem_cons_self
    · exact own y src old

theorem State.airedRecord_later (guard : later (tadd start ((s.slot (s.brk i).slot).guard * ticksPerSecond)) start = true)
    (own : ∀ y src, (s.brk i).y = some (y, src) → later y start = true) :
    ∀ y src, (s.airedRecord i start).y = some (y, src) → later y start = true := by
  rw [State.airedRecord_eq]
  intro y src h
  rcases BreakRecord.offered_cases h with ⟨rfl, -⟩ | old
  · exact guard
  · exact own y src old

end

end Sys2Proof.Machine
end

