-- ==== Sys2Proof/Proofs/Substitutions.lean ====
section
/-! What a packet start does to one break, and the packet that its lane gives in place of the network packet (R110 to R115). -/

namespace Sys2Proof.Machine

open Sys2Proof

-- One proof after the other: proofs that wait for each other hold a thread each.
set_option Elab.async false

/-! ### Later and earlier -/

/-- The arithmetic of two instants, on numbers. -/
theorem minus_later {a b m d : Nat} (room : 0 < m) (is : (a + (m - b % m)) % m = d) (positive : 0 < d) :
    (b + (m - a % m)) % m = m - d := by
  have first := Nat.mod_lt a room
  have second := Nat.mod_lt b room
  rw [← Nat.mod_add_mod] at is ⊢
  generalize a % m = x at *
  generalize b % m = y at *
  rcases Nat.lt_trichotomy x y with lt | rfl | gt
  · rw [Nat.mod_eq_of_lt (by omega)] at is
    rw [Nat.mod_eq_sub_mod (by omega), Nat.mod_eq_of_lt (by omega)]
    omega
  · rw [show x + (m - x) = m by omega, Nat.mod_self] at is
    omega
  · rw [Nat.mod_eq_sub_mod (by omega), Nat.mod_eq_of_lt (by omega)] at is
    rw [Nat.mod_eq_of_lt (by omega)]
    omega

theorem earlier_of_later {a b : Time} (h : later a b = true) : earlier b a = true := by
  have halves : timeModulus = halfModulus + halfModulus := rfl
  have room : 0 < timeModulus := by decide
  simp only [later, earlier, decide_eq_true_eq] at h ⊢
  unfold tdiff at h ⊢
  dsimp only at h ⊢
  obtain ⟨d, is⟩ : ∃ d : Nat, (a + (timeModulus - b % timeModulus)) % timeModulus = d := ⟨_, rfl⟩
  have less : d < timeModulus := is ▸ Nat.mod_lt _ room
  rw [is] at h
  by_cases near : d < halfModulus
  · rw [if_pos near] at h
    have far : ¬ timeModulus - d < halfModulus := by omega
    rw [minus_later room is (by omega), if_neg far]
    omega
  · rw [if_neg near] at h
    omega

theorem later_not_reached {a b : Time} (h : reached a b = true) : later b a = false := by
  cases after : later b a with
  | false => rfl
  | true =>
    have := earlier_of_later after
    rw [earlier_eq_not_reached, h] at this
    exact absurd this nofun

/-! ### The two tests of one break (R110, R115) -/

section
variable {s : State} {i : Nat} {start : Time}

theorem State.tests_noAir {x y : Time} {src : YSource} (index : i < s.splice.breaks.length) (cued : (s.brk i).state = .cued)
    (at_ : (s.brk i).x = some x) (reaches : later x start = false) (ends : (s.brk i).y = some (y, src))
    (early : later y start = false) : (s.spliceOutTest start i).returnTest start i = s.endBreak i .noAir s.now := by
  obtain ⟨own, -⟩ := State.endBreak_spec .noAir s.now index
  rw [State.spliceOutTest_noAir cued at_ reaches ends early, State.returnTest_idle]
  rw [own]
  exact nofun

theorem State.tests_returns {y : Time} {src : YSource} (onAir : (s.brk i).state = .onAir)
    (ends : (s.brk i).y = some (y, src)) (early : later y start = false) :
    (s.spliceOutTest start i).returnTest start i = s.endBreak i src.cause start := by
  rw [State.spliceOutTest_idle (by rw [onAir]; exact nofun), State.returnTest_ends onAir ends early]

theorem State.tests_stays (onAir : (s.brk i).state = .onAir)
    (ends : ∀ y src, (s.brk i).y = some (y, src) → later y start = true) :
    (s.spliceOutTest start i).returnTest start i = s := by
  rw [State.spliceOutTest_idle (by rw [onAir]; exact nofun), State.returnTest_early ends]

section
variable {x : Time} {lane : Nat} (index : i < s.splice.breaks.length) (bound : (s.brk i).lane = some lane)
  (cued : (s.brk i).state = .cued) (at_ : (s.brk i).x = some x) (reaches : later x start = false)
  (guard : later (tadd start ((s.slot (s.brk i).slot).guard * ticksPerSecond)) start = true)
  (ends : ∀ y src, (s.brk i).y = some (y, src) → later y start = true)
include index bound cued at_ reaches ends

include guard in
theorem State.tests_airs
    (offers : ∀ w ∈ s.offering (s.brk i).slot start windowIndices, later (s.window w).start start = true) :
    (s.spliceOutTest start i).returnTest start i = s.goOnAir i start := by
  obtain ⟨own, -⟩ := State.goOnAir_fields (start := start) index bound
  rw [State.spliceOutTest_onAir cued at_ reaches ends, State.returnTest_early]
  rw [own]
  exact State.offeredBy_later (State.airedRecord_later guard ends) offers

theorem State.tests_recalled {w : Nat} (offering : s.offering (s.brk i).slot start windowIndices = [w])
    (passed : reached start (s.window w).start = true)
    (earlier_ : ∀ y src, (s.airedRecord i start).y = some (y, src) → earlier (s.window w).start y = true) :
    (s.goOnAir i start).brk i = { s.airedRecord i start with y := some ((s.window w).start, .window) } ∧
      (s.spliceOutTest start i).returnTest start i = (s.goOnAir i start).endBreak i .recalled start := by
  obtain ⟨own, -⟩ := State.goOnAir_fields (start := start) index bound
  have takes : (s.airedRecord i start).offered (s.window w).start .window = some ((s.window w).start, .window) := by
    unfold BreakRecord.offered
    split
    · rfl
    · next y src old => rw [if_pos (earlier_ y src old)]
  have record : (s.goOnAir i start).brk i = { s.airedRecord i start with y := some ((s.window w).start, .window) } := by
    rw [own, offering, ← takes]
    rfl
  refine ⟨record, ?_⟩
  rw [State.spliceOutTest_onAir cued at_ reaches ends]
  refine State.returnTest_ends (src := .window) (y := (s.window w).start) ?_ (by rw [record]) ?_
  · rw [record, State.airedRecord_eq]
  · exact later_not_reached passed

end
end

/-! ### The break ON_AIR on a slot (R111) -/

theorem State.airedBreak_only {s : State} {i : Nat} (small : i < 32) (onAir : (s.brk i).state = .onAir)
    (others : ∀ j, j < 32 → j ≠ i → (s.brk j).live = false) : s.airedBreak (s.brk i).slot = some i := by
  rcases Option.eq_none_or_eq_some (s.airedBreak (s.brk i).slot) with none_ | ⟨j, found⟩
  · have := List.find?_eq_none.mp none_ i (mem_breakIndices.mpr small)
    simp [onAir] at this
  · have lt := mem_breakIndices.mp (List.mem_of_find?_eq_some found)
    have aired := List.find?_some found
    simp only [Bool.and_eq_true, beq_iff_eq] at aired
    rw [found]
    by_contra other
    exact (BreakRecord.notLive (others j lt fun same => other (congrArg some same))).2 aired.1

section
variable {s : State} {start : Time} {p : Packet} {i entry : Nat} (small : i < 32) (onAir : (s.brk i).state = .onAir)
  (others : ∀ j, j < 32 → j ≠ i → (s.brk j).live = false)
  (ends : ∀ y src, (s.brk i).y = some (y, src) → later y start = true)
  (names : s.networkEntry (identifier p) = some ((s.brk i).slot, entry))
include small onAir others ends names

theorem State.splicePacket_substitutes : s.splicePacket start p = s.substitutionStep (s.brk i).slot i start := by
  unfold State.splicePacket
  dsimp only
  rw [State.tests_only small others, State.tests_stays onAir ends]
  simp only [names, State.airedBreak_only small onAir others]

end

/-! ### Packets removed from a lane (R93, R111) -/

/-- A break but for its clip status is as it was. -/
theorem State.settleClipEnd_brk (s : State) (lane j : Nat) :
    ∃ x, (s.settleClipEnd lane).brk j = { s.brk j with exhausted := x } := by
  unfold State.settleClipEnd
  dsimp only
  split
  · split
    · next b _ =>
      generalize ended : s.withLane lane _ = u
      have kept : u.brk j = s.brk j := by rw [← ended]; rfl
      by_cases same : j = b
      · subst same
        rcases u.brk_withBreak_cases j { u.brk j with exhausted := true } with new | ⟨old, -⟩
        · exact ⟨true, by rw [new, kept]⟩
        · exact ⟨(s.brk j).exhausted, old.trans kept⟩
      · exact ⟨(s.brk j).exhausted, (State.brk_withBreak_ne _ same).trans kept⟩
    · exact ⟨(s.brk j).exhausted, rfl⟩
  · exact ⟨(s.brk j).exhausted, rfl⟩

theorem State.settleClipEnd_sizes (s : State) (lane : Nat) :
    (s.settleClipEnd lane).splice.breaks.length = s.splice.breaks.length ∧
      (s.settleClipEnd lane).lanes.length = s.lanes.length ∧
      (s.settleClipEnd lane).splice.slots = s.splice.slots := by
  unfold State.settleClipEnd
  dsimp only
  split
  · split <;> simp [State.withBreak, State.withLane]
  · exact ⟨rfl, rfl, rfl⟩

theorem State.takePacket_fields {s : State} {lane : Nat} (lt : lane < s.lanes.length) :
    ((s.takePacket lane).lane lane).queue = (s.lane lane).queue.tail ∧
      ((s.takePacket lane).lane lane).packetsTaken = (s.lane lane).packetsTaken + 1 ∧
      (∀ j, ∃ x, (s.takePacket lane).brk j = { s.brk j with exhausted := x }) ∧
      (∀ j, (s.takePacket lane).slot j = s.slot j) ∧
      (s.takePacket lane).splice.breaks.length = s.splice.breaks.length ∧
      (s.takePacket lane).lanes.length = s.lanes.length := by
  have put := State.lane_withLane (s := s)
    { s.lane lane with queue := (s.lane lane).queue.tail, packetsTaken := (s.lane lane).packetsTaken + 1 } lt
  have size : ∀ x, (s.withLane lane x).lanes.length = s.lanes.length := fun x => by simp [State.withLane]
  obtain ⟨⟨ends, own⟩, -⟩ := State.settleClipEnd_lanes (s.withLane lane
    { s.lane lane with queue := (s.lane lane).queue.tail, packetsTaken := (s.lane lane).packetsTaken + 1 })
    (i := lane) (by rw [size]; exact lt)
  obtain ⟨breaks, lanes, slots⟩ := State.settleClipEnd_sizes (s.withLane lane
    { s.lane lane with queue := (s.lane lane).queue.tail, packetsTaken := (s.lane lane).packetsTaken + 1 }) lane
  rw [put] at own
  refine ⟨congrArg Lane.queue own, congrArg Lane.packetsTaken own, fun j => State.settleClipEnd_brk _ lane j, fun j => ?_,
    breaks, lanes.trans (size _)⟩
  exact congrArg (·.getD j Slot.reset) slots

/-! ### The packet put in place (R112, R113) -/

/-- A clip packet as it is put in place, before its stamp (R111, R112). -/
def SlotEntry.places (x : SlotEntry) (c : Packet) : Packet :=
  withContinuity (withIdentifier c x.network) (substitutedContinuity x.carry c)

theorem rebaseStamp_keeps (o : Observation) (start : Time) (b : BreakRecord) (q : Packet) :
    (rebaseStamp o start b q).2 =
      { b with base := (rebaseStamp o start b q).2.base, noBase := (rebaseStamp o start b q).2.noBase } := by
  unfold rebaseStamp
  repeat' split
  all_goals rfl

theorem rebaseStamp_based {o : Observation} {start : Time} {b : BreakRecord} {q : Packet} {base c0 : Nat}
    (stamps : b.noBase = false) (based : b.base = some (base, c0)) :
    rebaseStamp o start b q = (withStamp q (rebased base c0 (stampValue q)), b) := by
  simp [rebaseStamp, stamps, based]

theorem rebaseStamp_first {o : Observation} {start : Time} {b : BreakRecord} {q : Packet}
    (stamps : b.noBase = false) (based : b.base = none) (valid : o.valid = true) :
    rebaseStamp o start b q =
      (withStamp q (stampBase o.value o.tick start),
        { b with base := some (stampBase o.value o.tick start, stampValue q) }) := by
  simp [rebaseStamp, stamps, based, valid]

theorem rebaseStamp_invalid {o : Observation} {start : Time} {b : BreakRecord} {q : Packet}
    (stamps : b.noBase = false) (based : b.base = none) (invalid : o.valid = false) :
    rebaseStamp o start b q = (q, { b with noBase := true }) := by
  simp [rebaseStamp, stamps, based, invalid]

/-- The packet that goes out for clip packet `c` of entry `k`, and the break after it (R111 to R113). -/
def Slot.rebases (sl : Slot) (k : Nat) (start : Time) (b : BreakRecord) (c : Packet) : Packet × BreakRecord :=
  let q := (sl.entries.getD k ⟨0, 0, none⟩).places c
  if sl.clock == some k && hasStamp c then rebaseStamp sl.observation start b q else (q, b)

theorem State.substitute_eq (s : State) (slot i : Nat) (start : Time) (c : Packet) (k : Nat) :
    s.substitute slot i start c k =
      (s.withBreak i
        { ((s.slot slot).rebases k start (s.brk i) c).2 with
          substituted := bump ((s.slot slot).rebases k start (s.brk i) c).2.substituted },
        ((s.slot slot).rebases k start (s.brk i) c).1) := rfl

theorem Slot.rebases_keeps (sl : Slot) (k : Nat) (start : Time) (b : BreakRecord) (c : Packet) :
    (sl.rebases k start b c).2 =
      { b with base := (sl.rebases k start b c).2.base, noBase := (sl.rebases k start b c).2.noBase } := by
  unfold Slot.rebases
  dsimp only
  split
  · exact rebaseStamp_keeps ..
  · rfl

theorem Slot.rebases_plain {sl : Slot} {k : Nat} {start : Time} {b : BreakRecord} {c : Packet}
    (plain : sl.clock ≠ some k ∨ hasStamp c = false ∨ b.noBase = true) :
    sl.rebases k start b c = ((sl.entries.getD k ⟨0, 0, none⟩).places c, b) := by
  unfold Slot.rebases
  rcases plain with clock | stamp | noBase
  · simp [clock]
  · simp [stamp]
  · simp [rebaseStamp, noBase]

theorem Slot.rebases_clock {sl : Slot} {k : Nat} (start : Time) (b : BreakRecord) {c : Packet} (clock : sl.clock = some k)
    (stamp : hasStamp c = true) :
    sl.rebases k start b c = rebaseStamp sl.observation start b ((sl.entries.getD k ⟨0, 0, none⟩).places c) := by
  simp [Slot.rebases, clock, stamp]

/-! ### The substitution step (R111) -/

section
variable {s : State} {slot i lane : Nat} {start : Time} {c : Packet} {rest : List Packet} (bound : (s.brk i).lane = some lane)
include bound

/-- The lane's first packet is mapped: it goes out. -/
theorem State.substitutionStep_mapped {k : Nat} (queue : (s.lane lane).queue = c :: rest)
    (maps : (s.slot slot).entryOfClip (identifier c) = some k) :
    s.substitutionStep slot i start =
      (((s.takePacket lane).arbitrate.substitute slot i start c k).1,
        .put ((s.takePacket lane).arbitrate.substitute slot i start c k).2) := by
  simp [State.substitutionStep, bound, queue, State.removeUnmapped, maps]

/-- The lane is empty: a null goes out, starved or filled, or the break returns. -/
theorem State.substitutionStep_empty (queue : (s.lane lane).queue = []) :
    s.substitutionStep slot i start =
      if (s.lane lane).clipEnd = false then
        (s.arbitrate.withBreak i { s.brk i with starved := bump (s.brk i).starved }, .put nullPacket)
      else
        match (s.brk i).exhaust with
        | .fill => (s.arbitrate.withBreak i { s.brk i with filled := bump (s.brk i).filled }, .put nullPacket)
        | .ret => ((s.arbitrate.offerY i start .clipEnd).returnTest start i, .keep) := by
  have brk : s.arbitrate.brk i = s.brk i := State.brk_congr (by simp) i
  have lane_ : s.arbitrate.lane lane = s.lane lane := State.lane_congr (by simp) lane
  simp only [State.substitutionStep, bound, queue, State.removeUnmapped, brk, lane_]
  cases (s.lane lane).clipEnd <;> rfl

end

section
variable {s : State} {start : Time} {p : Packet} {i lane entry : Nat} (small : i < 32) (index : i < s.splice.breaks.length)
  (lt : lane < s.lanes.length) (onAir : (s.brk i).state = .onAir) (bound : (s.brk i).lane = some lane)
  (others : ∀ j, j < 32 → j ≠ i → (s.brk j).live = false)
  (ends : ∀ y src, (s.brk i).y = some (y, src) → later y start = true)
  (names : s.networkEntry (identifier p) = some ((s.brk i).slot, entry))
include small index lt onAir bound others ends names

/-- A mapped packet goes out, and the break is as the rebase leaves it, one substitution counted (R111 to R113). -/
theorem State.splicePacket_mapped {c : Packet} {rest : List Packet} {k : Nat} (queue : (s.lane lane).queue = c :: rest)
    (maps : (s.slot (s.brk i).slot).entryOfClip (identifier c) = some k) :
    ∃ x,
      let out := (s.slot (s.brk i).slot).rebases k start { s.brk i with exhausted := x } c
      (s.splicePacket start p).2 = .put out.1 ∧
        (s.splicePacket start p).1.brk i = { out.2 with substituted := bump out.2.substituted } ∧
        ((s.splicePacket start p).1.lane lane).queue = rest ∧
        ((s.splicePacket start p).1.lane lane).packetsTaken = (s.lane lane).packetsTaken + 1 := by
  obtain ⟨queue', taken, brks, slots, size, -⟩ := State.takePacket_fields lt
  obtain ⟨x, own⟩ := brks i
  have record : (s.takePacket lane).arbitrate.brk i = { s.brk i with exhausted := x } :=
    (State.brk_congr (by simp) i).trans own
  have slot : (s.takePacket lane).arbitrate.slot (s.brk i).slot = s.slot (s.brk i).slot :=
    (State.slot_congr (by simp) _).trans (slots _)
  rw [queue] at queue'
  refine ⟨x, ?_⟩
  dsimp only
  rw [State.splicePacket_substitutes small onAir others ends names, State.substitutionStep_mapped bound queue maps,
    State.substitute_eq, record, slot]
  refine ⟨rfl, State.brk_withBreak _ (by simpa [size] using index), ?_, ?_⟩
  · exact (congrArg Lane.queue (State.lane_congr (s := s.takePacket lane) (by simp) lane)).trans queue'
  · exact (congrArg Lane.packetsTaken (State.lane_congr (s := s.takePacket lane) (by simp) lane)).trans taken

/-- An unmapped packet is discarded and counted, and the lane is looked at again (R111). -/
theorem State.splicePacket_unmapped {c : Packet} {rest : List Packet} (queue : (s.lane lane).queue = c :: rest)
    (maps : (s.slot (s.brk i).slot).entryOfClip (identifier c) = none) :
    s.splicePacket start p =
      ((s.takePacket lane).withBreak i
        { (s.takePacket lane).brk i with unmapped := bump (s.brk i).unmapped }).splicePacket start p := by
  obtain ⟨queue', -, brks, slots, size, -⟩ := State.takePacket_fields lt
  have mine : ∃ x, (s.takePacket lane).brk i = { s.brk i with exhausted := x } := brks i
  obtain ⟨x, own⟩ := mine
  rw [queue] at queue'
  have same : (s.takePacket lane).withBreak i
        { (s.takePacket lane).brk i with unmapped := bump ((s.takePacket lane).brk i).unmapped } =
      (s.takePacket lane).withBreak i { (s.takePacket lane).brk i with unmapped := bump (s.brk i).unmapped } := by
    rw [own]
  have removed : State.removeUnmapped (s.slot (s.brk i).slot) lane i (c :: rest) s =
      State.removeUnmapped (s.slot (s.brk i).slot) lane i rest
        ((s.takePacket lane).withBreak i { (s.takePacket lane).brk i with unmapped := bump (s.brk i).unmapped }) := by
    rw [State.removeUnmapped, ← same]
    simp only [maps]
  generalize next : (s.takePacket lane).withBreak i { (s.takePacket lane).brk i with unmapped := bump (s.brk i).unmapped } = u
    at removed
  have record : u.brk i = { s.brk i with exhausted := x, unmapped := bump (s.brk i).unmapped } := by
    rw [← next, State.brk_withBreak _ (size ▸ index), own]
  have slot : ∀ j, u.slot j = s.slot j := fun j => by rw [← next]; exact slots j
  have left : (u.lane lane).queue = rest := by rw [← next]; exact queue'
  have quiet : ∀ j, j < 32 → j ≠ i → (u.brk j).live = false := fun j lt ne => by
    obtain ⟨y, theirs⟩ := brks j
    rw [← next, State.brk_withBreak_ne _ ne, theirs]
    exact others j lt ne
  rw [State.splicePacket_substitutes small onAir others ends names,
    State.splicePacket_substitutes (s := u) (entry := entry) small (by rw [record]; exact onAir) quiet
      (by rw [record]; exact ends) (by rw [State.networkEntry_congr slot, record]; exact names)]
  unfold State.substitutionStep
  simp only [record, bound, slot, queue, left, removed]

end

/-- The return at the clip's end: the start becomes Y, and the break ends there (R111, R115). -/
theorem State.clipEnd_returns {s : State} {i : Nat} {start : Time} (index : i < s.splice.breaks.length)
    (onAir : (s.brk i).state = .onAir) (ends : ∀ y src, (s.brk i).y = some (y, src) → later y start = true) :
    ((s.offerY i start .clipEnd).returnTest start i).brk i =
      BreakRecord.endedWith { s.brk i with y := some (start, .clipEnd) } .clipEnd start := by
  have takes : (s.brk i).offered start .clipEnd = some (start, .clipEnd) := by
    unfold BreakRecord.offered
    split
    · rfl
    · next y src old => rw [if_pos (earlier_of_later (ends y src old))]
  have offered : (s.offerY i start .clipEnd).brk i = { s.brk i with y := some (start, .clipEnd) } := by
    rw [State.offerY, State.brk_withBreak _ index, BreakRecord.offerY_eq, takes]
  have size : i < (s.offerY i start .clipEnd).splice.breaks.length := by
    simpa [State.offerY, State.withBreak] using index
  obtain ⟨ended, -⟩ := State.endBreak_spec .clipEnd start size
  rw [State.returnTest_ends (by rw [offered]; exact onAir) (by rw [offered]) (later_not_reached (reached_self start)),
    ← offered]
  exact ended

end Sys2Proof.Machine
end

