-- ==== Sys2Proof/Proofs/PacketStarts.lean ====
section
/-! The start of a packet of the group in emission: the output stage, its cell and the exciter outputs (R68, R72, R73). -/

namespace Sys2Proof.Machine

open Sys2Proof

-- One proof after the other: proofs that wait for each other hold a thread each.
set_option Elab.async false

/-! ### The output stage (R73) -/

/-- The packet that goes out, where `plain` was handed to the Splice Engine (R73). -/
def Spliced.goesOut (x : Spliced) (plain : Packet) : Packet := match x with | .keep => plain | .put q => q

/-- The steps of the output stage before the cell is released (R73). -/
def State.sendPacket (s : State) (start : Time) (plain : Packet) : State :=
  let x := s.splicePacket start plain
  let t := x.1.observe start (x.2.goesOut plain) (x.2 == .keep)
  t.withLaunch (t.launch.send (x.2.goesOut plain) start)

theorem State.outputStage_eq (s : State) (e : Emission) (start : Time) (r : GroupRecord) (p : Packet) :
    s.outputStage e start r p = (s.sendPacket start (s.launch.stripped e.next p)).releaseCell e r := by
  unfold State.outputStage State.sendPacket
  dsimp only
  generalize s.splicePacket start (s.launch.stripped e.next p) = x
  obtain ⟨u, spliced⟩ := x
  cases spliced <;> simp only [Spliced.goesOut]

theorem State.exec_packetStart {s : State} {e : Emission} {r : GroupRecord} {p : Packet} {rest : List Packet}
    (run : s.part = .run) (emitting : s.launch.emitting = some e)
    (due : reached s.now (tadd e.start (offset s.launch.pq e.next)) = true) (record : s.record e.place = some r)
    (cells : r.cells = p :: rest) :
    exec .packetStart s =
      .next ((s.sendPacket (tadd e.start (offset s.launch.pq e.next)) (s.launch.stripped e.next p)).releaseCell e r) := by
  have packet : s.packetDue = some (e, tadd e.start (offset s.launch.pq e.next)) := by
    simp only [State.packetDue, emitting, due, State.running_of_run run, Bool.and_self, if_true]
  refine congrArg Host.Outcome.next ?_
  unfold State.packetStart
  simp only [packet, record, cells]
  exact State.outputStage_eq ..

theorem State.observe_brk (s : State) (start : Time) (p : Packet) (network : Bool) (i : Nat) :
    (s.observe start p network).brk i = s.brk i := by
  unfold State.observe
  split <;> rfl

section
variable (s : State) (start : Time) (plain : Packet)

theorem State.sendPacket_fields :
    (s.sendPacket start plain).store = s.store ∧ (s.sendPacket start plain).sel = s.sel ∧
      (s.sendPacket start plain).feedA = s.feedA ∧ (s.sendPacket start plain).feedB = s.feedB ∧
      s.siteKept (s.sendPacket start plain) ∧ s.rulesKept (s.sendPacket start plain) ∧
      (s.sendPacket start plain).launch = s.launch.send ((s.splicePacket start plain).2.goesOut plain) start ∧
      (s.sendPacket start plain).lanes = (s.splicePacket start plain).1.lanes ∧
      ∀ i, (s.sendPacket start plain).brk i = (s.splicePacket start plain).1.brk i := by
  refine ⟨?_, ?_, ?_, ?_, ?_, ?_, ?_, ?_, fun i => (State.brk_congr ?_ i).trans (State.observe_brk _ start
    ((s.splicePacket start plain).2.goesOut plain) ((s.splicePacket start plain).2 == .keep) i)⟩
  · simp [State.sendPacket]
  · simp [State.sendPacket]
  · simp [State.sendPacket]
  · simp [State.sendPacket]
  · simp [State.sendPacket, State.siteKept]
  · simp [State.sendPacket, State.rulesKept]
  · simp [State.sendPacket]
  · simp [State.sendPacket]
  · simp only [State.sendPacket, State.withLaunch_splice]

end

/-! ### Without a CUED or ON_AIR break (R99) -/

theorem State.splicePacket_quiet {s : State} (start : Time) (p : Packet) (quiet : ∀ i, i < 32 → (s.brk i).live = false) :
    s.splicePacket start p = (s, .keep) := by
  have outs : breakIndices.foldl (State.spliceOutTest start) s = s := foldl_eq_of_noop _ s _ fun i mem =>
    State.spliceOutTest_idle (BreakRecord.notLive (quiet i (mem_breakIndices.mp mem))).1
  have returns : breakIndices.foldl (State.returnTest start) s = s := foldl_eq_of_noop _ s _ fun i mem =>
    State.returnTest_idle (BreakRecord.notLive (quiet i (mem_breakIndices.mp mem))).2
  have noBreak : ∀ slot, s.airedBreak slot = none := fun slot => List.find?_eq_none.mpr fun i mem aired => by
    simp only [Bool.and_eq_true, beq_iff_eq] at aired
    exact (BreakRecord.notLive (quiet i (mem_breakIndices.mp mem))).2 aired.1
  unfold State.splicePacket
  dsimp only
  rw [outs, returns]
  simp only [noBreak]
  split <;> rfl

/-- A network packet observed by the slot of its identifier (R99). -/
theorem State.observe_network {s : State} {start : Time} {p : Packet} :
    (s.networkEntry (identifier p) = none → s.observe start p true = s) ∧
      ∀ i k, s.networkEntry (identifier p) = some (i, k) → i < s.splice.slots.length →
        (s.observe start p true).slot i =
            { s.slot i with
              entries := (s.slot i).entries.modify k fun x => { x with carry := some (continuity p) }
              observation :=
                if (s.slot i).clock = some k ∧ hasStamp p = true then ⟨stampValue p, start, true⟩
                else (s.slot i).observation } ∧
          ∀ j, j ≠ i → (s.observe start p true).slot j = s.slot j := by
  refine ⟨fun none_ => ?_, fun i k names lt => ?_⟩
  · simp only [State.observe, none_]
  · simp only [State.observe, names]
    refine ⟨(State.slot_withSlot _ lt).trans ?_, fun j ne => State.slot_withSlot_ne _ ne⟩
    simp

/-! ### The cell released (R34, R73) -/

section
variable {u : State} {e : Emission} {r : GroupRecord} {p : Packet} (record : u.record e.place = some r)
include record

theorem State.releaseCell_more {q : Packet} {rest : List Packet} (cells : r.cells = p :: q :: rest) :
    (u.releaseCell e r) =
        (u.withStore
          { table := u.store.table.set e.place (some { r with cells := q :: rest }), freeCells := u.store.freeCells + 1 }
          ).withLaunch { u.launch with emitting := some { e with next := e.next + 1 } } ∧
      (u.releaseCell e r).record e.place = some { r with cells := q :: rest } := by
  have released : u.releaseCell e r =
      (u.withStore
        { table := u.store.table.set e.place (some { r with cells := q :: rest }), freeCells := u.store.freeCells + 1 }
        ).withLaunch { u.launch with emitting := some { e with next := e.next + 1 } } := by
    simp [State.releaseCell, cells]
  refine ⟨released, ?_⟩
  rw [released]
  exact State.record_withRecord (s := u) (some { r with cells := q :: rest }) (State.record_lt record)

theorem State.releaseCell_last (cells : r.cells = [p]) :
    (u.releaseCell e r).launch.emitting = none ∧ (u.releaseCell e r).record e.place = none ∧
      (u.releaseCell e r).launch.lastEnd = u.launch.lastEnd ∧ (u.releaseCell e r).launch.outputs = u.launch.outputs ∧
      u.siteKept (u.releaseCell e r) ∧ u.rulesKept (u.releaseCell e r) ∧
      (u.sel.queue = [] → (u.releaseCell e r).store.freeCells = u.store.freeCells + 1 ∧ (u.releaseCell e r).sel = u.sel) := by
  have released : u.releaseCell e r =
      (((u.withStore
        { table := u.store.table.set e.place (some { r with cells := [] }), freeCells := u.store.freeCells + 1 }
        ).withLaunch { u.launch with emitting := none }).freeRecord e.place).headDecision := by
    simp [State.releaseCell, cells]
  have last : ((u.withStore
      { table := u.store.table.set e.place (some { r with cells := [] }), freeCells := u.store.freeCells + 1 }
      ).withLaunch { u.launch with emitting := none }).record e.place = some { r with cells := [] } :=
    State.record_withRecord (s := u) (some { r with cells := [] }) (State.record_lt record)
  have freed := State.freeRecord_some last
  have gone := State.freeRecord_record ((u.withStore
      { table := u.store.table.set e.place (some { r with cells := [] }), freeCells := u.store.freeCells + 1 }
      ).withLaunch { u.launch with emitting := none }) e.place e.place
  rw [if_pos rfl] at gone
  rw [released]
  generalize freeing : State.freeRecord _ e.place = v at freed gone
  have launch : v.launch = { u.launch with emitting := none } := by rw [← freeing]; simp
  have sel : v.sel = u.sel := by rw [← freeing]; simp
  obtain ⟨decided, -⟩ := v.headDecision_launch
  obtain ⟨-, -, records⟩ := v.headDecision_drops
  refine ⟨by rw [decided, launch], ?_, by rw [decided, launch], by rw [decided, launch], ?_, ?_, fun empty => ?_⟩
  · rcases records e.place with kept | none_
    · exact kept.trans gone
    · exact none_
  · rw [← freeing]; simp [State.siteKept]
  · rw [← freeing]; simp [State.rulesKept]
  · rw [State.headDecision_nil (sel ▸ empty)]
    exact ⟨by rw [freed]; rfl, sel⟩

end

theorem State.sendPacket_quiet {s : State} (start : Time) (plain : Packet) (quiet : ∀ i, i < 32 → (s.brk i).live = false) :
    s.sendPacket start plain = (s.observe start plain true).withLaunch (s.launch.send plain start) := by
  have kept : (s.observe start plain true).launch = s.launch := by simp
  rw [State.sendPacket, State.splicePacket_quiet start plain quiet, ← kept]
  rfl

/-- The packet starts of a group in emission, but for its last (R72 to R74, R99). -/
theorem packetStart_more {s : State} {e : Emission} {r : GroupRecord} {p q : Packet} {rest : List Packet} {start : Time}
    {plain : Packet} (record : s.record e.place = some r) (cells : r.cells = p :: q :: rest) :
    let t := (s.sendPacket start plain).releaseCell e r
    t.launch.emitting = some { e with next := e.next + 1 } ∧
      t.record e.place = some { r with cells := q :: rest } ∧ t.store.freeCells = s.store.freeCells + 1 ∧
      t.sel = s.sel ∧ t.feedA = s.feedA ∧ t.feedB = s.feedB ∧ s.siteKept t ∧ s.rulesKept t ∧
      t.launch.lastEnd = s.launch.lastEnd ∧ t.launch.scheduled = s.launch.scheduled ∧
      t.launch.outputs = s.launch.outputs ++ [⟨(s.splicePacket start plain).2.goesOut plain, start, byteOutTime⟩] ∧
      t.lanes = (s.splicePacket start plain).1.lanes ∧ (∀ i, t.brk i = (s.splicePacket start plain).1.brk i) ∧
      ((∀ i, i < 32 → (s.brk i).live = false) →
        t.windows = s.windows ∧ t.station = s.station ∧ t.network = s.network ∧
        t.splice = (s.observe start plain true).splice) := by
  obtain ⟨store, sel, feedA, feedB, site, rules, launch, lanes, brks⟩ := s.sendPacket_fields start plain
  obtain ⟨released, left⟩ := State.releaseCell_more (u := s.sendPacket start plain) (e := e)
    ((State.record_congr store _).trans record) cells
  have quietly := s.sendPacket_quiet start plain
  generalize s.sendPacket start plain = u at *
  dsimp only
  refine ⟨by rw [released]; rfl, left, ?_, ?_, ?_, ?_, ?_, ?_, ?_, ?_, ?_, ?_, fun i => ?_, fun quiet => ?_⟩
  · rw [released, ← store]; rfl
  · rw [released]; exact sel
  · rw [released]; exact feedA
  · rw [released]; exact feedB
  · rw [released]; exact site
  · rw [released]; exact rules
  · rw [released, State.withLaunch_launch, launch]; rfl
  · rw [released, State.withLaunch_launch, launch]; rfl
  · rw [released, State.withLaunch_launch, launch]; rfl
  · rw [released]; exact lanes
  · rw [released]; exact brks i
  · rw [released, quietly quiet]
    simp

/-! ### The exciter outputs (R68) -/

/-- One period of the site clock moves what is leaving on by one period (R68). -/
theorem State.period_outputs (s : State) : s.period.launch.outputs = drainOutputs s.launch.outputs := by
  obtain ⟨-, -, -, launch, -⟩ := s.countPeriod_eq
  have counted : s.countPeriod.launch.outputs = drainOutputs s.launch.outputs := by rw [launch]
  unfold State.period
  dsimp only
  split
  · exact (State.secondMark_outputs ..).trans counted
  · exact counted

/-- The byte that both exciter outputs carry (R68). -/
theorem exciterOutputs_follow (s : State) (pos : Position) :
    (s.launch.outputs = [] →
      (s.exciterOutput pos).valid = false ∧ (s.exciterOutput pos).packetStart = false ∧
        ∀ p start, (s.withLaunch (s.launch.send p start)).exciterOutput pos = ⟨p.getD 0 0, true, true⟩) ∧
      ∀ x rest, s.launch.outputs = x :: rest →
        (s.exciterOutput pos).valid = true ∧ s.exciterOutput .main = s.exciterOutput .reserve ∧
          s.period.launch.outputs = if x.left ≤ 1 then rest else { x with left := x.left - 1 } :: rest := by
  refine ⟨fun none_ => ?_, fun x rest leaving => ?_⟩
  · refine ⟨by simp only [State.exciterOutput, none_], by simp only [State.exciterOutput, none_], fun p start => ?_⟩
    simp only [State.exciterOutput, State.withLaunch_launch, Launch.send_outputs, none_, List.nil_append]
    have first : (⟨p, start, byteOutTime⟩ : Leaving).byteIndex = 0 := by simp [Leaving.byteIndex]
    rw [first]
    rfl
  · refine ⟨by simp only [State.exciterOutput, leaving], rfl, ?_⟩
    rw [State.period_outputs, leaving, drainOutputs_cons]

/-! ### The packet start (R72, R73, R110 to R115) -/

/-- A break that goes on air and ends at the same start (R115, R127). -/
theorem State.goOnAir_endBreak {s : State} {i lane : Nat} {start : Time} {y : Option (Time × YSource)} (cause : EndCause)
    (index : i < s.splice.breaks.length) (bound : (s.brk i).lane = some lane) (lt : lane < s.lanes.length)
    (own : (s.goOnAir i start).brk i = { s.airedRecord i start with y := y }) :
    let t := (s.goOnAir i start).endBreak i cause start
    t.brk i = BreakRecord.endedWith { s.airedRecord i start with y := y } cause start ∧ (t.lane lane).state = .free ∧
      ∀ q, t.port q =
        (s.port q).offers [⟨.breakOnAir, i, (s.brk i).slot, s.now⟩, ⟨.breakEnded, i, cause.code, s.now⟩] := by
  obtain ⟨-, -, size, lanes, -, ports⟩ := State.goOnAir_fields (start := start) index bound
  have now : (s.goOnAir i start).now = s.now := by simp [State.now]
  have index' : i < (s.goOnAir i start).splice.breaks.length := by rw [size]; exact index
  have lt' : lane < (s.goOnAir i start).lanes.length := by rw [lanes]; simpa using lt
  have bound' : ((s.goOnAir i start).brk i).lane = some lane := by rw [own, State.airedRecord_eq]; exact bound
  obtain ⟨ended, -, -, -, -, ports'⟩ := State.endBreak_spec cause start index'
  obtain ⟨free, -⟩ := State.endBreak_lane cause start index' bound' lt'
  refine ⟨ended.trans (by rw [own]), free, fun q => ?_⟩
  rw [ports', ports, now]
  rfl

/-- Settles O31: the output stage hands its packet to the Splice Engine, whose one CUED or ON_AIR break goes on air, returns or
gives the packet in its place. -/
theorem packetStartSends : Obligations.PacketStartSends := by
  refine ⟨?_, ?_, ?_, ?_, fun l p start => ⟨rfl, ?_⟩, exciterOutputs_follow⟩
  · intro s e r p q rest run emitting due record cells start plain
    have sent : exec .packetStart s = .next ((s.sendPacket start plain).releaseCell e r) :=
      State.exec_packetStart run emitting due record cells
    clear_value plain start
    obtain ⟨next, left, free, sel, feedA, feedB, site, rules, lastEnd, scheduled, outputs, lanes, brks, quietly⟩ :=
      packetStart_more (start := start) (plain := plain) record cells
    refine ⟨_, sent, next, left, free, sel, feedA, feedB, site, rules, lastEnd,
      scheduled, ?_, lanes, brks, fun quiet => ?_⟩
    · refine outputs.trans ?_
      generalize (s.splicePacket start plain).2 = x
      cases x <;> rfl
    obtain ⟨windows, station, network, splice⟩ := quietly quiet
    obtain ⟨unobserved, observed⟩ := State.observe_network (s := s) (start := start) (p := plain)
    have same := State.splicePacket_quiet start plain quiet
    rw [same] at outputs lanes brks
    refine ⟨outputs, lanes, brks, windows, station, network, fun none_ => ?_, fun i k names lt => ?_⟩
    · rw [unobserved none_] at splice
      exact splice
    · obtain ⟨own, others⟩ := observed i k names lt
      exact ⟨(State.slot_congr splice i).trans own, fun j ne => (State.slot_congr splice j).trans (others j ne)⟩
  · intro s e r p run emitting due record cells start plain
    have sent : exec .packetStart s = .next ((s.sendPacket start plain).releaseCell e r) :=
      State.exec_packetStart run emitting due record cells
    clear_value plain start
    obtain ⟨store, sel, -, -, site, rules, launch, -⟩ := s.sendPacket_fields start plain
    obtain ⟨none_, gone, lastEnd, outputs, site', rules', settled⟩ := State.releaseCell_last (u := s.sendPacket start plain)
      (e := e) ((State.record_congr store _).trans record) cells
    refine ⟨_, sent, none_, gone, lastEnd.trans (by rw [launch]; rfl), ?_,
      State.rulesKept_trans rules rules', ?_, fun empty => ?_⟩
    · obtain ⟨mon, chg, lines⟩ := site
      obtain ⟨mon', chg', lines'⟩ := site'
      exact ⟨mon'.trans mon, chg'.trans chg, lines'.trans lines⟩
    · rw [outputs, launch, Launch.send_outputs]
      generalize (s.splicePacket start plain).2 = x
      cases x <;> rfl
    · obtain ⟨free, sel'⟩ := settled (by rw [sel]; exact empty)
      exact ⟨free.trans (by rw [store]), sel'.trans sel⟩
  · intro s start p i lane small index lt bound others noEntry t guard offering onAir offeredBy
    have tested : s.splicePacket start p = ((s.spliceOutTest start i).returnTest start i, .keep) :=
      State.splicePacket_unslotted small others start noEntry
    have t_eq : t = (s.spliceOutTest start i).returnTest start i := congrArg Prod.fst tested
    have record : s.airedRecord i start = onAir := s.airedRecord_eq i start
    have offers : s.offering (s.brk i).slot start windowIndices = offering := rfl
    have bys : ∀ ws, s.offeredBy (s.airedRecord i start) ws = offeredBy ws := fun ws => by rw [record]; rfl
    clear_value t
    refine ⟨congrArg Prod.snd tested, fun x cued at_ reaches => ⟨?_, ?_, ?_⟩, ?_⟩
    · rintro ⟨y, src, y_, early⟩ notAired
      rw [State.tests_noAir index cued at_ reaches y_ early] at t_eq
      obtain ⟨own, -, -, -, -, ports⟩ := State.endBreak_spec .noAir s.now index
      obtain ⟨free, -⟩ := State.endBreak_lane .noAir s.now index bound lt
      rw [t_eq]
      exact ⟨own.trans (BreakRecord.endedWith_notAired notAired _ _), free, ports⟩
    · intro guarded ends standing
      rw [State.tests_airs index bound cued at_ reaches guarded ends fun w mem => (standing w mem).1] at t_eq
      obtain ⟨own, acted, -, lanes, still, ports⟩ := State.goOnAir_fields (start := start) index bound
      rw [offers] at own acted still
      simp only [bys] at own acted
      rw [t_eq]
      refine ⟨fun none_ => ⟨own.trans (by rw [none_]; rfl), still none_⟩, own, acted, ?_, ports⟩
      exact (State.lane_congr (s := s.withLane lane { s.lane lane with state := .onAir }) lanes lane).trans
        (State.lane_withLane _ lt)
    · intro w only passed guarded ends earlier_
      obtain ⟨own, recalled⟩ := State.tests_recalled index bound cued at_ reaches ends (offers.trans only) passed
        fun y src y_ => by
          rw [record] at y_
          rw [y_] at earlier_
          exact earlier_
      rw [recalled] at t_eq
      obtain ⟨ended, free, ports⟩ := State.goOnAir_endBreak (start := start) .recalled index bound lt own
      rw [t_eq]
      exact ⟨ended.trans (by rw [record]; rfl), free, ports⟩
    · intro y src onAir_ aired y_ early
      rw [State.tests_returns onAir_ y_ early] at t_eq
      obtain ⟨own, -, -, -, -, ports⟩ := State.endBreak_spec src.cause start index
      obtain ⟨free, empty⟩ := State.endBreak_lane src.cause start index bound lt
      rw [t_eq]
      exact ⟨own.trans (by simp [BreakRecord.endedWith, aired]), free, empty, ports⟩
  · intro s start p slot entry i lane small index lt onAir bound slot_ _ others ends names
    subst slot_
    refine ⟨fun c rest k queue maps => ?_, fun c rest queue maps => ?_, fun queue => ?_⟩
    · obtain ⟨x, out, own, left, taken⟩ :=
        State.splicePacket_mapped small index lt onAir bound others ends names queue maps
      have keeps := (s.slot (s.brk i).slot).rebases_keeps k start { s.brk i with exhausted := x } c
      refine ⟨left, taken, by rw [own, keeps], by rw [own, keeps]; exact onAir, by rw [own, keeps], fun plain => ?_,
        fun clock stamp stamps => ?_⟩
      · rw [Slot.rebases_plain (b := { s.brk i with exhausted := x }) plain] at out own
        exact ⟨out, by rw [own], by rw [own]⟩
      · rw [Slot.rebases_clock _ _ clock stamp] at out own
        refine ⟨fun b c0 based => ?_, fun noBase invalid => ?_, fun noBase valid => ?_⟩
        · rw [rebaseStamp_based (b := { s.brk i with exhausted := x }) stamps based] at out own
          exact ⟨out, by rw [own]; exact based⟩
        · rw [rebaseStamp_invalid (b := { s.brk i with exhausted := x }) stamps noBase invalid] at out own
          exact ⟨out, by rw [own], by rw [own]; exact noBase⟩
        · rw [rebaseStamp_first (b := { s.brk i with exhausted := x }) stamps noBase valid] at out own
          exact ⟨out, by rw [own]; rfl⟩
    · obtain ⟨left, taken, -⟩ := State.takePacket_fields lt
      rw [queue] at left
      exact ⟨left, taken, State.splicePacket_unmapped small index lt onAir bound others ends names queue maps⟩
    · have step := (State.splicePacket_substitutes small onAir others ends names).trans
        (State.substitutionStep_empty (slot := (s.brk i).slot) (start := start) bound queue)
      have put : ∀ b, (s.arbitrate.withBreak i b).brk i = b := fun b =>
        State.brk_withBreak b (by simpa using index)
      refine ⟨fun more => ?_, fun ended fill => ?_, fun ended ret aired => ?_⟩
      · rw [step, if_pos more]
        exact ⟨rfl, put _⟩
      · rw [step, if_neg (by simp [ended]), fill]
        exact ⟨rfl, put _⟩
      · rw [step, if_neg (by simp [ended]), ret]
        have brk : s.arbitrate.brk i = s.brk i := State.brk_congr (by simp) i
        have ended_ := State.clipEnd_returns (s := s.arbitrate) (i := i) (start := start) (by simpa using index)
          (by rw [brk]; exact onAir) (by rw [brk]; exact ends)
        rw [brk] at ended_
        exact ⟨rfl, ended_.trans (by simp [BreakRecord.endedWith, aired])⟩
  · cases outputs : l.outputs <;> simp [Launch.send, outputs]

end Sys2Proof.Machine
end
